-- ==== Sys2Proof/Word.lean ====
section
/-! DEFINITION. Bytes, the numbers by which the part names its objects, and table lookup. -/

namespace Sys2Proof

/-- One byte of a trunk frame or of a column poll or reply (R222, R223). -/
abbrev Byte := BitVec 8

/-- A compartment number, 0 to 767 (R3). -/
abbrev CompNo := Fin 768

/-- A column board number, 0 to 63 (R3). -/
abbrev BoardNo := Fin 64

/-- A door line of a board, 0 to 11 (R3). -/
abbrev LineNo := Fin 12

/-- A kiosk number, 0 to 3. -/
abbrev KioskNo := Fin 4

/-- A column segment number, 0 to 3 (R155). -/
abbrev SegNo := Fin 4

/-- A position of a segment's slot table, 0 to 15 (R175). -/
abbrev SlotNo := Fin 16

/-- A bank id, 0 to 15 (R209). -/
abbrev BankId := Fin 16

end Sys2Proof
end

