-- ==== Sys2Proof/Syntax.lean ====
section
/-! DEFINITION. The commands of the part: one constructor of `Instr` per row of
spec/opcode_table.json, in the table's order. -/

namespace Sys2Proof

/-- The seven trunk sources (R211, R222). -/
inductive Source where
  | kiosk (k : KioskNo)
  | backend
  | station
  | service
  deriving DecidableEq, Repr

/-- A request as its frame carries it: the bank id field, the source code, the tag and the body
bytes (R222). The kind code is given by the command that names the request. -/
structure Request where
  bank   : BankId
  source : Source
  tag    : BitVec 16
  body   : List Byte
  deriving DecidableEq, Repr

/-- What causes a restart (R219): the reset pin, power-on, or an admitted Restart request whose
reply has left. -/
inductive ResetCause where
  | pin
  | powerOn
  | requested
  deriving DecidableEq, Repr

/-- The commands, one per row of the opcode table. A request command names the frame that the TIU
takes from its receive queue (R210). A deadline command names the object whose deadline passes. -/
inductive Instr where
  /-- FRAME_RECEIVE: the bytes from the start delimiter to the frame's end or the idle line (R208). -/
  | frameReceive (bytes : List Byte)
  /-- REPLY_TRANSMITTED: the oldest reply has left on the transmit line (R210). -/
  | replyTransmitted
  /-- UNKNOWN_KIND: a request whose kind code names no kind is taken (R211). -/
  | unknownKind (kind : Byte) (r : Request)
  | collect (r : Request)
  | pay (r : Request)
  | returnDrop (r : Request)
  | doorStatus (r : Request)
  | signOn (r : Request)
  | signOff (r : Request)
  | declare (r : Request)
  | sessionStatus (r : Request)
  | sweep (r : Request)
  | sweepEnd (r : Request)
  | fetchNotice (r : Request)
  | revoke (r : Request)
  | reissue (r : Request)
  | loadCourier (r : Request)
  | removeCourier (r : Request)
  | loadReturn (r : Request)
  | removeReturn (r : Request)
  | settle (r : Request)
  | queryCompartment (r : Request)
  | clear (r : Request)
  | fetchAlarm (r : Request)
  | broadcast (r : Request)
  | unlockKey (r : Request)
  | endService (r : Request)
  | loadMap (r : Request)
  | loadTariff (r : Request)
  | loadSlot (r : Request)
  | setBudget (r : Request)
  | setHold (r : Request)
  | setEnables (r : Request)
  | seedGenerator (r : Request)
  | setKeys (r : Request)
  | withdraw (r : Request)
  | reinstate (r : Request)
  | restart (r : Request)
  | blank (r : Request)
  /-- RESET: a restart, with the levels of the bank straps as they are read (R209, R219). -/
  | reset (cause : ResetCause) (straps : BankId)
  /-- BLANK_START: the blank start of an accepted Blank whose reply has left (R221). -/
  | blankStart (straps : BankId)
  | clockTick
  | minuteBoundary
  /-- QUOTE_EXPIRY of the quote that a compartment carries (R72). -/
  | quoteExpiry (c : CompNo)
  | lockoutDeadline (k : KioskNo)
  | inactivityDeadline (k : KioskNo)
  /-- ENERGISE_DEADLINE of a compartment's ISSUED strike (R162). -/
  | energiseDeadline (c : CompNo)
  /-- CONFIRM_DEADLINE of a compartment's CONFIRMING strike (R165). -/
  | confirmDeadline (c : CompNo)
  /-- STRIKE_AGEING of a compartment's queued strike entry (R168). -/
  | strikeAgeing (c : CompNo)
  | ajarDeadline (c : CompNo)
  | kioskIdleDeadline
  | unlockDeadline
  | quietSweepStart (g : SegNo)
  /-- POLL_OUTCOME: the bytes heard from the board within the slot time, or none (R180). -/
  | pollOutcome (g : SegNo) (heard : Option (List Byte))
  /-- SWEEP_ISSUE: the waiting courier sweep of a kiosk's session applies its issue rule (R147). -/
  | sweepIssue (k : KioskNo)
  | sweepThatPollsNoSlotEnds (g : SegNo)
  /-- LOSS_OF_MAIN_POWER, with whether a change to retained state was interrupted (R29). -/
  | lossOfMainPower (interrupted : Bool)
  deriving DecidableEq, Repr

end Sys2Proof
end

