-- ==== Sys2Proof/Decode.lean ====
section
/-! DEFINITION. Reading a table word as a command. No row of spec/opcode_table.json gives bits: its
commands are events and trunk requests, whose bytes are read by Machine/Operands.lean. -/

namespace Sys2Proof

/-- The command that a word of `nbits` bits spells by the opcode table: none, since no row of the
table has bits. -/
def decodeTableWord (_nbits _w : Nat) : Option Instr := none

end Sys2Proof
end

