-- ==== Sys2Proof/Machine/Types.lean ====
section
/-! DEFINITION. The data of the part: the records, tables and queues that its blocks keep. -/

namespace Sys2Proof.Machine

/-- The four size classes in ascending order of size. -/
inductive SizeClass where
  | S | M | L | XL
  deriving DecidableEq, Repr

/-- The eleven compartment states (chapter 1, table of section 1.2). -/
inductive CompState where
  | unserved | vacant | reserved | loading | held | releasing | unloading | abandoned
  | jammed | suspect | reconcile
  deriving DecidableEq, Repr

/-- What a transient part is for (R5). -/
inductive Purpose where
  | deposit | drop | collect | retrieve
  deriving DecidableEq, Repr

/-- The four states that a transient part may name as its prior state in RECONCILE (R5). -/
inductive PriorState where
  | reserved | loading | releasing | unloading
  deriving DecidableEq, Repr

/-- A compartment map entry (R3). -/
structure MapEntry where
  board     : BoardNo
  line      : LineNo
  cls       : SizeClass
  inService : Bool
  deriving DecidableEq, Repr

/-- The fields of a transient part that depend on its purpose (R5). -/
inductive Particulars where
  | deposit (serial declaration courier reference prepaid : Nat)
  | drop (courier reference postagePaid : Nat)
  | collect
  | retrieve (serial courier : Nat)
  deriving DecidableEq, Repr

/-- The transient part of a compartment record (R5). `resolved` is the model's own: set once the
compartment has been found open in RECONCILE and waits for its close in a door phase again (R28), since
R129 gives no door result to a compartment resolved from RECONCILE (log 38). -/
structure Transient where
  particulars  : Particulars
  kiosk        : KioskNo
  strikeIssued : Bool
  prior        : Option PriorState
  resolved     : Bool := false
  deriving DecidableEq, Repr

/-- A present tariff row, and the snapshot of one: F, P, r, C, X and A (R50). -/
structure TariffRow where
  freePeriod : Nat
  period     : Nat
  rate       : Nat
  cap        : Nat
  ceiling    : Nat
  allowance  : Nat
  deriving DecidableEq, Repr

/-- A DELIVERY parcel record (R6). -/
structure Delivery where
  reference     : Nat
  courier       : Nat
  depositTime   : Option Nat
  snapshot      : TariffRow
  prepaid       : Nat
  paid          : Nat
  code          : Option Nat
  abandonedTime : Option Nat
  deriving DecidableEq, Repr

/-- A RETURN parcel record (R6, R141). -/
structure Returned where
  reference   : Nat
  courier     : Nat
  depositTime : Option Nat
  postagePaid : Nat
  deriving DecidableEq, Repr

/-- A parcel record (R6). -/
inductive Parcel where
  | delivery (d : Delivery)
  | returned (r : Returned)
  deriving DecidableEq, Repr

/-- The retained parts of a compartment record. Its quote record is not retained and stands in
`State.quotes`. -/
structure Compartment where
  map       : Option MapEntry
  state     : CompState
  transient : Option Transient
  parcel    : Option Parcel
  deriving DecidableEq, Repr

/-- What a quote asks for (R7). -/
inductive QuotePurpose where
  | collection
  | postage (reference : Nat)
  deriving DecidableEq, Repr

/-- A quote record (R7). -/
structure Quote where
  number  : Nat
  amount  : Nat
  kiosk   : KioskNo
  expiry  : Nat
  purpose : QuotePurpose
  deriving DecidableEq, Repr

/-- The status of a directory entry (R34). -/
inductive CodeStatus where
  | pending | live | suspended
  deriving DecidableEq, Repr

/-- An entry of a directory set (R34). -/
structure DirEntry where
  tag         : Nat
  compartment : CompNo
  status      : CodeStatus
  deriving DecidableEq, Repr

/-- The takings record of a kiosk (R85). -/
structure Takings where
  collectionSum   : Nat
  collectionCount : Nat
  postageSum      : Nat
  postageCount    : Nat
  saturated       : Bool
  deriving DecidableEq, Repr

/-- The last settlement record (R87). -/
structure Settlement where
  number  : Nat
  figures : Vector Takings 4
  deriving DecidableEq, Repr

/-- A kiosk's last accepted payment; the paid total is that of a COLLECTION's reply (R78). -/
structure LastPayment where
  compartment : CompNo
  number      : Nat
  amount      : Nat
  reference   : Nat
  paid        : Option Nat
  deriving DecidableEq, Repr

/-- A courier table entry (R91). -/
structure Courier where
  id         : Nat
  credential : BitVec 32
  deposit    : Bool
  returns    : Bool
  recover    : Bool
  quota      : Nat
  active     : Bool
  deriving DecidableEq, Repr

/-- A returns authorisation entry (R132). -/
structure ReturnEntry where
  reference : Nat
  cls       : SizeClass
  courier   : Nat
  postage   : Nat
  expiry    : Nat
  inUse     : Bool
  paidMark  : Option Nat
  deriving DecidableEq, Repr

/-- The parity of a loaded slot (R175). -/
inductive Parity where
  | every | even | odd
  deriving DecidableEq, Repr

/-- The content of a slot that is not idle (R175). -/
structure SlotContent where
  board  : BoardNo
  parity : Parity
  deriving DecidableEq, Repr

/-- The concourse states (R192). -/
inductive Concourse where
  | opened | closed | restricted | evacuate | lockdown
  deriving DecidableEq, Repr

/-- The alarm kinds in priority order (R201). -/
inductive AlarmKind where
  | forced | jammed | boardLost | ajar | mismatch | backlog | lockout | retention
  deriving DecidableEq, Repr

/-- A pending alarm (R201). -/
structure Alarm where
  kind   : AlarmKind
  object : Nat
  posted : Option Nat
  deriving DecidableEq, Repr

/-- The kind of a parcel as notices and pickup lists name it (R145, R151). -/
inductive ParcelKind where
  | returned | delivery
  deriving DecidableEq, Repr

/-- The notices and their fields (R213 and the rules of its table). -/
inductive Notice where
  | deposited (compartment : CompNo) (courier reference code : Nat) (depositTime : Option Nat) (prepaid : Nat)
  | dropped (compartment : CompNo) (reference courier postagePaid : Nat) (depositTime : Option Nat)
  | collected (compartment : CompNo) (reference courier : Nat) (depositTime : Option Nat) (paid : Nat) (time : Option Nat)
  | retrieved (compartment : CompNo) (kind : ParcelKind) (reference courier : Nat) (time : Option Nat)
  | abandoned (compartment : CompNo) (courier reference depositTime abandonedTime : Nat)
  | cleared (compartment : CompNo) (reference courier : Nat) (depositTime : Option Nat) (paid : Nat)
  deriving DecidableEq, Repr

/-- A notice in the outbox with its sequence number (R213). -/
structure SentNotice where
  sequence : Nat
  notice   : Notice
  deriving DecidableEq, Repr

/-- The retained state of the part: every item that the retention check word covers (R29) and
that a blank start empties or sets (R31, R49, R67, R90, R115, R153, R174, R191, R200, R207, R221). -/
structure Retained where
  compartments   : Vector Compartment 768
  cursors        : Vector CompNo 4
  directory      : Vector (List DirEntry) 256
  generator      : BitVec 32
  tariff         : Vector (Option TariffRow) 4
  hold           : Nat
  quoteCounter   : Nat
  takings        : Vector Takings 4
  lastSettlement : Option Settlement
  couriers       : List Courier
  returns        : List ReturnEntry
  budgets        : Vector Nat 4
  slots          : Vector (Vector (Option SlotContent) 16) 4
  withdrawn      : Vector Bool 64
  concourse      : Concourse
  enables        : Vector Bool 8
  outbox         : List SentNotice
  reservations   : Nat
  noticeSequence : Nat
  keys           : Option (Vector (BitVec 32) 4)
  deriving DecidableEq, Repr

/-- The state of an in-flight declaration (R105). -/
inductive DeclState where
  | waitingDoor | loading
  deriving DecidableEq, Repr

/-- An in-flight declaration of a session's pipeline (R105). -/
structure Declaration where
  number      : Nat
  compartment : CompNo
  cls         : SizeClass
  reference   : Nat
  state       : DeclState
  deriving DecidableEq, Repr

/-- How a declaration leaves flight (R107). -/
inductive DeclOutcome where
  | committed | abortedEmpty | cancelled | jammed
  deriving DecidableEq, Repr

/-- An entry of a session's outcome table (R108). -/
structure OutcomeEntry where
  outcome     : DeclOutcome
  compartment : CompNo
  reference   : Nat
  deriving DecidableEq, Repr

/-- An entry of a pickup list; `inFlight` is its status (R145). -/
structure PickupEntry where
  compartment : CompNo
  kind        : ParcelKind
  inFlight    : Bool
  deriving DecidableEq, Repr

/-- A session's courier sweep: the pickup list with the sweep's own record (R145). `draining` is
the sweep state: ISSUING while clear, DRAINING while set. -/
structure CourierSweep where
  entries   : List PickupEntry
  returns   : Bool
  recover   : Bool
  draining  : Bool
  retrieved : Nat
  skipped   : Nat
  dropped   : Nat
  deriving DecidableEq, Repr

/-- An open courier session (R95). -/
structure Session where
  courier         : Nat
  serial          : Nat
  nextDeclaration : Nat
  deadline        : Nat
  pipeline        : List Declaration
  outcomes        : Vector (Option OutcomeEntry) 256
  sweep           : Option CourierSweep
  deriving DecidableEq, Repr

/-- How a customer transaction ended (R129). -/
inductive DoorOutcome where
  | completed | incomplete | cancelled | jammed | suspect
  deriving DecidableEq, Repr

/-- A kiosk's last door result (R129). -/
structure DoorResult where
  compartment : CompNo
  purpose     : Purpose
  outcome     : DoorOutcome
  deriving DecidableEq, Repr

/-- What the part keeps for one kiosk and does not retain: the failure count and lockout deadline
(R41, R42), the session slot (R95), the last accepted payment (R78) and door result (R129). -/
structure Kiosk where
  failures    : Nat
  lockout     : Option Nat
  session     : Option Session
  lastPayment : Option LastPayment
  doorResult  : Option DoorResult
  deriving DecidableEq, Repr

/-- An attempt of a strike (R155). -/
inductive Attempt where
  | first | second
  deriving DecidableEq, Repr

/-- A strike queue entry (R155). -/
structure StrikeEntry where
  compartment : CompNo
  purpose     : Purpose
  attempt     : Attempt
  enqueued    : Nat
  deriving DecidableEq, Repr

/-- The phase of an active strike with its deadline (R161, R162). -/
inductive StrikePhase where
  | issued (deadline : Nat)
  | confirming (deadline : Nat)
  deriving DecidableEq, Repr

/-- An active strike (R161). -/
structure ActiveStrike where
  compartment : CompNo
  purpose     : Purpose
  attempt     : Attempt
  board       : BoardNo
  line        : LineNo
  doorSeen    : Bool
  phase       : StrikePhase
  deriving DecidableEq, Repr

/-- The rate mode of a segment (R178). -/
inductive RateMode where
  | full | quiet
  deriving DecidableEq, Repr

/-- Where a segment's sweep stands: a poll of a slot under way, with the board polled and the
strike the poll carries (R179); a sweep that polls no slot (R177); or waiting for the next second
in QUIET mode (R178). -/
inductive SweepPhase where
  | polling (slot : SlotNo) (board : BoardNo) (strike : Option LineNo)
  | noSlots
  | waiting
  deriving DecidableEq, Repr

/-- What the SSU and the SPC keep for one segment and do not retain. -/
structure Segment where
  queue        : List StrikeEntry
  active       : List ActiveStrike
  sweepCounter : Nat
  rate         : RateMode
  sweepStart   : Nat
  phase        : SweepPhase
  linkOut      : List Byte
  deriving DecidableEq, Repr

/-- A board's link state (R181). -/
inductive LinkState where
  | unknown | online | lost | withdrawn
  deriving DecidableEq, Repr

/-- One door and occupancy reading of a line (R184). -/
structure Reading where
  doorOpen : Bool
  occupied : Bool
  deriving DecidableEq, Repr

/-- What the SPC keeps for one line (R184, R185): the readings of the latest two good replies, the
confirmed door state (set for OPEN), the confirmed occupancy (set for OCCUPIED), and the occupancy
of the last confirmed close. -/
structure Line where
  older          : Option Reading
  newer          : Option Reading
  doorOpen       : Option Bool
  occupied       : Option Bool
  closeOccupied  : Option Bool
  deriving DecidableEq, Repr

/-- What the SPC keeps for one board and does not retain (R179, R181). The health window holds
the outcomes oldest first, set for a good poll. -/
structure Board where
  link        : LinkState
  goodRun     : Nat
  window      : List Bool
  handOff     : List LineNo
  expectedBit : Bool
  lines       : Vector Line 12
  deriving DecidableEq, Repr

/-- The ajar watch of a compartment whose door stands open: with its deadline, or with the
deadline already passed (R172). -/
inductive AjarWatch where
  | running (deadline : Nat)
  | passed
  deriving DecidableEq, Repr

/-- The states of the Service Key Checker (R216). -/
inductive SkcState where
  | noKeys | idle | collected1 | collected2 | collected3 | unlocked | barred
  deriving DecidableEq, Repr

/-- A received frame that passed the checks of R208 and R209. -/
structure Frame where
  kind    : Byte
  request : Request
  deriving DecidableEq, Repr

/-- The status words (section 11.4). -/
inductive Status where
  | accepted | quote | empty | noSuchCode | lockedOut | busy | noRoom | noCode | backlog | noTime
  | closed | lockdown | notPermitted | notSignedOn | quota | stale | noQuote | mismatch | expired
  | retryLater | tooLate | held | duplicate | full | outOfRange | badState | unconfigured
  | maintenanceLocked
  deriving DecidableEq, Repr

/-- A reply in the transmit queue (R210). `body` is what follows the status code. -/
structure Reply where
  bank   : BankId
  source : Source
  kind   : Byte
  tag    : BitVec 16
  status : Status
  body   : List Byte
  deriving DecidableEq, Repr

/-- Whether the part runs, has accepted a Restart (R220) or a Blank (R221) and takes no further
frame, or has lost main power (R29). -/
inductive RunMode where
  | running | restartPending | blankPending | unpowered
  deriving DecidableEq, Repr

end Sys2Proof.Machine
end

