-- ==== Sys2Proof/Config.lean ====
section
/-! DEFINITION. The values that the spec leaves open. Each is a constant without a body, so no proof
can see what it is. -/

namespace Sys2Proof

/-- The retention check value over the retained state (R29). The spec gives neither the function
nor the width of the word (log 6). -/
opaque Config.retentionCheck : Machine.Retained → Nat

/-- The word that a change to retained state leaves behind when loss of main power interrupts it
(R29): free, but for its disagreeing with the retained state (log 7). -/
opaque Config.interruptedWord : Nat → Nat

/-- What the four bytes of a quote expiry time hold when the time is above 4,294,967,295 (R69,
R225): the spec states no value (log 22). -/
opaque Config.lateTimeField : Nat → Nat

end Sys2Proof
end

