-- ==== Sys2Proof/Machine/Blank.lean ====
section
/-! DEFINITION. The values that a blank start gives the retained state, and the reset values of the
unretained records. -/

namespace Sys2Proof.Machine

/-- A compartment after a blank start (R31). -/
def blankCompartment : Compartment :=
  { map := none, state := .unserved, transient := none, parcel := none }

/-- The takings of a kiosk after a Settle or a blank start (R87, R90). -/
def zeroTakings : Takings :=
  { collectionSum := 0, collectionCount := 0, postageSum := 0, postageCount := 0, saturated := false }

/-- The retained state after a blank start (R31, R49, R67, R90, R115, R153, R174, R191, R200, R207,
R215, R221). -/
def blankRetained : Retained :=
  { compartments   := Vector.replicate 768 blankCompartment
    cursors        := Vector.replicate 4 767
    directory      := Vector.replicate 256 []
    generator      := 1
    tariff         := Vector.replicate 4 none
    hold           := 180
    quoteCounter   := 0
    takings        := Vector.replicate 4 zeroTakings
    lastSettlement := none
    couriers       := []
    returns        := []
    budgets        := Vector.replicate 4 2
    slots          := Vector.replicate 4 (Vector.replicate 16 none)
    withdrawn      := Vector.replicate 64 false
    concourse      := .closed
    enables        := Vector.replicate 8 true
    outbox         := []
    reservations   := 0
    noticeSequence := 0
    keys           := none }

/-- A kiosk after every reset (R48, R89, R114, R131). -/
def freshKiosk : Kiosk :=
  { failures := 0, lockout := none, session := none, lastPayment := none, doorResult := none }

/-- A segment after every reset, before its first sweep is started (R173, R191). -/
def freshSegment : Segment :=
  { queue := [], active := [], sweepCounter := 0, rate := .full, sweepStart := 0, phase := .noSlots,
    linkOut := [] }

/-- A line with no readings and no confirmed state (R189, R190, R191). -/
def freshLine : Line :=
  { older := none, newer := none, doorOpen := none, occupied := none, closeOccupied := none }

/-- A board after every reset (R191). -/
def freshBoard (withdrawn : Bool) : Board :=
  { link := if withdrawn then .withdrawn else .unknown, goodRun := 0, window := [], handOff := [],
    expectedBit := false, lines := Vector.replicate 12 freshLine }

end Sys2Proof.Machine
end

