-- ==== Sys2Proof/Machine/State.lean ====
section
/-! DEFINITION. The state of the part, how a step can stop, and the state right after reset. -/

namespace Sys2Proof.Machine

/-- The state of the part: its retained state with the retention check word, the unretained state
of each block, and the queue of waiting commands. -/
structure State where
  /-- The retained state of every block (R29). -/
  ret            : Retained
  /-- The retention check word (R29). -/
  checkWord      : Nat
  /-- The quote record of each compartment (R7). -/
  quotes         : Vector (Option Quote) 768
  kiosks         : Vector Kiosk 4
  /-- The session serial counter (R95). -/
  nextSerial     : Nat
  segments       : Vector Segment 4
  boards         : Vector Board 64
  /-- The ajar watch of each compartment, if it has one (R172). -/
  ajar           : Vector (Option AjarWatch) 768
  /-- The kiosk idle deadline, absent once it has passed (R178). -/
  kioskIdle      : Option Nat
  /-- The codes of the latest broadcasts, oldest first (R194). -/
  history        : List Nat
  /-- The station clock; absent while its set flag is clear (R196). -/
  clock          : Option Nat
  /-- The pending set of alarms (R201). -/
  alarms         : List Alarm
  /-- The attention line, set while asserted (R205). -/
  attention      : Bool
  bankId         : BankId
  /-- The receive queue, oldest first (R208). -/
  receive        : List Frame
  /-- The transmit queue, oldest first (R210). -/
  transmit       : List Reply
  /-- The reply frame that last left on the trunk (R222). -/
  trunkOut       : List Byte
  skc            : SkcState
  /-- The unlock deadline of the SKC (R216). -/
  unlockDeadline : Option Nat
  run            : RunMode
  /-- The model's own: the board whose ONLINE declaration is under way and has not yet been reported to
  the SSU; absent between events (R183; log 49). -/
  declaring      : Option BoardNo
  /-- The model's own: seconds of elapsed running time since the last reset (R196; log 9). -/
  elapsed        : Nat
  /-- The model's own: minute boundaries reached by counting and not yet taken (R199; log 5). -/
  boundariesDue  : Nat
  /-- The model's own: how many free values have been used (log 7). -/
  freeCounter    : Nat
  /-- The model's own: the commands that wait, first in first out (log 3). -/
  pending        : List Instr
  deriving DecidableEq, Repr

/-- The reasons a step faults. There is none: the spec gives the part no event at which it stops
with a fault (R2: what is not carried out is refused by a reply). No meaning raises a fault, which
is safe. -/
inductive Fault where
  deriving DecidableEq, Repr

/-- The reasons a step is refused. -/
inductive Refusal where
  /-- Raised by `exec` alone, for a command that has no meaning yet, by its mnemonic. Safe: the
  model stops where the part goes on. -/
  | notModelled (mnemonic : String)
  deriving DecidableEq, Repr

/-- The part right after reset: right after a blank start, the reset whose every value the spec
gives (R31, R49, R67, R90, R115, R131, R153, R154, R174, R191, R200, R207, R215, R221). Every segment
has started a sweep, which polls no slot since every slot is idle (R191, R177). The RETENTION alarm is
pending with no time posted and the attention line is asserted (R207). The straps read 0 (log 8). -/
def State.reset : State :=
  { ret            := blankRetained
    checkWord      := Config.retentionCheck blankRetained
    quotes         := Vector.replicate 768 none
    kiosks         := Vector.replicate 4 freshKiosk
    nextSerial     := 0
    segments       := Vector.replicate 4 freshSegment
    boards         := Vector.replicate 64 (freshBoard false)
    ajar           := Vector.replicate 768 none
    kioskIdle      := some 120
    history        := []
    clock          := none
    alarms         := [{ kind := .retention, object := 0, posted := none }]
    attention      := true
    bankId         := 0
    receive        := []
    transmit       := []
    trunkOut       := []
    skc            := .noKeys
    unlockDeadline := none
    run            := .running
    declaring      := none
    elapsed        := 0
    boundariesDue  := 0
    freeCounter    := 0
    pending        := [] }

end Sys2Proof.Machine
end

