-- ==== Sys2Proof/Machine/Operands.lean ====
section
/-! DEFINITION. Byte layouts: numbers and flags (R225), the CRC and the trunk frame (R222), the
column poll and reply (R223), and the body of each request kind (R225). -/

namespace Sys2Proof.Machine

/-- A number in `width` bytes, most significant byte first (section 11.8). -/
def be : Nat → Nat → List Byte
  | 0, _ => []
  | width + 1, v => BitVec.ofNat 8 (v / 256 ^ width) :: be width v

/-- The number that bytes hold, most significant byte first (section 11.8). -/
def ofBytes (bs : List Byte) : Nat := bs.foldl (fun acc b => acc * 256 + b.toNat) 0

/-- A set or clear value as one flag byte (R225). -/
def flag (b : Bool) : List Byte := [if b then 1 else 0]

/-- A field that may be absent: a flag byte, then its bytes when present (R225). -/
def optional {α : Type} (bytes : α → List Byte) : Option α → List Byte
  | none => flag false
  | some x => flag true ++ bytes x

/-- A list of entries: a 1-byte count, then the entries (R225). -/
def counted {α : Type} (bytes : α → List Byte) (xs : List α) : List Byte :=
  be 1 xs.length ++ xs.flatMap bytes

/-! ### The check value -/

/-- One binary digit of the CRC register's division (R222). -/
def crcBit (reg : BitVec 16) : BitVec 16 :=
  if reg.getLsbD 15 then (reg <<< 1) ^^^ 0x1021#16 else reg <<< 1

/-- One byte taken into the CRC register, most significant bit first (R222). -/
def crcByte (reg : BitVec 16) (b : Byte) : BitVec 16 :=
  let r := reg ^^^ (b.setWidth 16 <<< 8)
  crcBit (crcBit (crcBit (crcBit (crcBit (crcBit (crcBit (crcBit r)))))))

/-- The CRC-16 of R222: terms at 16, 12, 5 and 0, the register starting at 65,535, no final
inversion. -/
def crc16 (bs : List Byte) : BitVec 16 := bs.foldl crcByte 0xFFFF#16

/-! ### The trunk frame -/

/-- The source code of a source (R222). -/
def sourceCode : Source → Nat
  | .kiosk k => k.val
  | .backend => 4
  | .station => 5
  | .service => 6

/-- The source that a code names; codes 7 to 15 name none (R222). -/
def sourceOf (code : Nat) : Option Source :=
  if h : code < 4 then some (.kiosk ⟨code, h⟩)
  else if code = 4 then some .backend
  else if code = 5 then some .station
  else if code = 6 then some .service
  else none

/-- The byte at offset 3: bank id and source code (R222). -/
def addressByte (bank : BankId) (source : Source) : Byte := BitVec.ofNat 8 (bank.val * 16 + sourceCode source)

/-- A trunk frame around what stands from offset 3 to the end of its body (R222). -/
def frameBytes (content : List Byte) : List Byte :=
  let checked := be 2 content.length ++ content
  (90 : Byte) :: checked ++ be 2 (crc16 checked).toNat

/-- The bytes of a request's frame (R222). -/
def requestBytes (kind : Byte) (r : Request) : List Byte :=
  frameBytes (addressByte r.bank r.source :: kind :: be 2 r.tag.toNat ++ r.body)

/-- What stands from offset 3 to the end of the body, when the bytes are a frame with the right
delimiter, a length field of 4 to 244, all the bytes that it gives and the right check (R208, R222).
Bytes after the frame's end belong to no part of it (log 26). -/
def frameContent : List Byte → Option (List Byte)
  | d :: l1 :: l0 :: rest =>
    let len := ofBytes [l1, l0]
    let content := rest.take len
    if d = 90 ∧ 4 ≤ len ∧ len ≤ 244 ∧ len + 2 ≤ rest.length
        ∧ ofBytes ((rest.drop len).take 2) = (crc16 (l1 :: l0 :: content)).toNat then
      some content
    else none
  | _ => none

/-- The frame that received bytes give, when they pass every check of R208. -/
def parseFrame (bs : List Byte) : Option Frame :=
  match frameContent bs with
  | some (a :: kind :: t1 :: t0 :: body) =>
    match sourceOf (a.toNat % 16) with
    | some source =>
      some { kind := kind,
             request := { bank := Fin.ofNat 16 (a.toNat / 16), source := source,
                          tag := BitVec.ofNat 16 (ofBytes [t1, t0]), body := body } }
    | none => none
  | _ => none

/-- The code of a status word (section 11.4). -/
def statusCode : Status → Nat
  | .accepted => 0 | .quote => 1 | .empty => 2 | .noSuchCode => 3 | .lockedOut => 4 | .busy => 5
  | .noRoom => 6 | .noCode => 7 | .backlog => 8 | .noTime => 9 | .closed => 10 | .lockdown => 11
  | .notPermitted => 12 | .notSignedOn => 13 | .quota => 14 | .stale => 15 | .noQuote => 16
  | .mismatch => 17 | .expired => 18 | .retryLater => 19 | .tooLate => 20 | .held => 21
  | .duplicate => 22 | .full => 23 | .outOfRange => 24 | .badState => 25 | .unconfigured => 26
  | .maintenanceLocked => 27

/-- The bytes of a reply's frame: its body begins with the status code (R222). -/
def replyBytes (r : Reply) : List Byte :=
  frameBytes (addressByte r.bank r.source :: r.kind :: be 2 r.tag.toNat
    ++ be 1 (statusCode r.status) ++ r.body)

/-! ### The column poll and reply -/

/-- The bytes of a poll (R223). Bits 6 and 5 of byte 1, which the layout leaves open, are sent as 0 (log 43). -/
def pollBytes (board : BoardNo) (strike : Option LineNo) (expected : Bool) : List Byte :=
  let flags := (if strike.isSome then 128 else 0) + (if expected then 16 else 0)
    + (match strike with | some l => l.val | none => 0)
  let head := be 1 board.val ++ be 1 flags
  head ++ be 2 (crc16 head).toNat

/-- What a good reply says beside its readings: the strike taken, and the strike report with its
line, whether it is a FAULT, and its report bit (R179). -/
structure BoardReply where
  readings : Vector Reading 12
  taken    : Option LineNo
  report   : Option (LineNo × Bool × Bool)
  deriving DecidableEq, Repr

/-- The line in bits 3 to 0 of a byte, when it is one of the 12 lines (R223). -/
def lineField (b : Byte) : Option LineNo :=
  if h : b.toNat % 16 < 12 then some ⟨b.toNat % 16, h⟩ else none

/-- A good reply to a poll of `board` (R180, R223): ten bytes with the right check value, the
board's own address, the fault flag clear, and no line of 12 to 15 under a set flag. Bits that the layout leaves
open are ignored (log 43). -/
def goodReply (board : BoardNo) : Option (List Byte) → Option BoardReply
  | some [a, d1, d0, o1, o0, t, r, f, c1, c0] =>
    let doors := ofBytes [d1, d0]
    let occ := ofBytes [o1, o0]
    let bad := (t.getLsbD 7 && (lineField t).isNone) || (r.getLsbD 7 && (lineField r).isNone)
    if a.toNat = board.val ∧ f.getLsbD 0 = false ∧ bad = false
        ∧ ofBytes [c1, c0] = (crc16 [a, d1, d0, o1, o0, t, r, f]).toNat then
      some { readings := Vector.ofFn fun i : Fin 12 => ⟨doors.testBit i.val, occ.testBit i.val⟩,
             taken := if t.getLsbD 7 then lineField t else none,
             report := if r.getLsbD 7 then (lineField r).map (fun l => (l, r.getLsbD 6, r.getLsbD 5)) else none }
    else none
  | _ => none

/-! ### Reading a request body

A reader takes its field from the front of the bytes and gives the rest. -/

/-- Reads a number of `width` bytes. -/
def readNat (width : Nat) (bs : List Byte) : Option (Nat × List Byte) :=
  if width ≤ bs.length then some (ofBytes (bs.take width), bs.drop width) else none

/-- Reads a flag byte; a value other than 0 and 1 is none (R225). -/
def readFlag : List Byte → Option (Bool × List Byte)
  | b :: bs => if b = 0 then some (false, bs) else if b = 1 then some (true, bs) else none
  | [] => none

/-- Ends a body: nothing may be left (R211). -/
def ended {α : Type} (x : α) (bs : List Byte) : Option α := if bs.isEmpty then some x else none

/-- A body with no fields. -/
def bodyEmpty (bs : List Byte) : Option Unit := ended () bs

/-- A body of one number. -/
def bodyNat (width : Nat) (bs : List Byte) : Option Nat := do
  let (v, bs) ← readNat width bs
  ended v bs

/-- The fields of a Pay (R73). -/
structure PayFields where
  compartment : Nat
  number      : Nat
  amount      : Nat
  reference   : Nat
  deriving DecidableEq, Repr

def bodyPay (bs : List Byte) : Option PayFields := do
  let (compartment, bs) ← readNat 2 bs
  let (number, bs) ← readNat 2 bs
  let (amount, bs) ← readNat 3 bs
  let (reference, bs) ← readNat 4 bs
  ended { compartment, number, amount, reference } bs

/-- The fields of a Sign On (R96): courier id and credential. -/
def bodySignOn (bs : List Byte) : Option (Nat × BitVec 32) := do
  let (id, bs) ← readNat 2 bs
  let (credential, bs) ← readNat 4 bs
  ended (id, BitVec.ofNat 32 credential) bs

/-- The fields of a Declare (R101). -/
structure DeclareFields where
  cls       : Nat
  upsize    : Bool
  reference : Nat
  prepaid   : Nat
  deriving DecidableEq, Repr

def bodyDeclare (bs : List Byte) : Option DeclareFields := do
  let (cls, bs) ← readNat 1 bs
  let (upsize, bs) ← readFlag bs
  let (reference, bs) ← readNat 5 bs
  let (prepaid, bs) ← readNat 3 bs
  ended { cls, upsize, reference, prepaid } bs

/-- The optional declaration number of a Session Status (R109). -/
def bodySessionStatus (bs : List Byte) : Option (Option Nat) := do
  let (named, bs) ← readFlag bs
  if named then
    let (number, bs) ← readNat 1 bs
    ended (some number) bs
  else ended none bs

/-- The kinds of a Sweep: RETURNS, RECOVER (R143). -/
def bodySweep (bs : List Byte) : Option (Bool × Bool) := do
  let (returns, bs) ← readFlag bs
  let (recover, bs) ← readFlag bs
  ended (returns, recover) bs

/-- The fields of a Load Courier (R91, R92). -/
def bodyLoadCourier (bs : List Byte) : Option Courier := do
  let (id, bs) ← readNat 2 bs
  let (credential, bs) ← readNat 4 bs
  let (deposit, bs) ← readFlag bs
  let (returns, bs) ← readFlag bs
  let (recover, bs) ← readFlag bs
  let (quota, bs) ← readNat 2 bs
  let (active, bs) ← readFlag bs
  ended { id, credential := BitVec.ofNat 32 credential, deposit, returns, recover, quota, active } bs

/-- The fields of a Load Return (R133). -/
structure LoadReturnFields where
  reference : Nat
  cls       : Nat
  courier   : Nat
  postage   : Nat
  expiry    : Nat
  deriving DecidableEq, Repr

def bodyLoadReturn (bs : List Byte) : Option LoadReturnFields := do
  let (reference, bs) ← readNat 5 bs
  let (cls, bs) ← readNat 1 bs
  let (courier, bs) ← readNat 2 bs
  let (postage, bs) ← readNat 3 bs
  let (expiry, bs) ← readNat 4 bs
  ended { reference, cls, courier, postage, expiry } bs

/-- The fields of a Broadcast: state code and station time (R193). -/
def bodyBroadcast (bs : List Byte) : Option (Nat × Nat) := do
  let (code, bs) ← readNat 1 bs
  let (time, bs) ← readNat 4 bs
  ended (code, time) bs

/-- The fields of an Unlock Key: index and word (R217). -/
def bodyUnlockKey (bs : List Byte) : Option (Nat × BitVec 32) := do
  let (index, bs) ← readNat 1 bs
  let (word, bs) ← readNat 4 bs
  ended (index, BitVec.ofNat 32 word) bs

/-- The map entry that a Load Map carries, before its checks (R3). -/
structure MapFields where
  board     : Nat
  line      : Nat
  cls       : Nat
  inService : Bool
  deriving DecidableEq, Repr

/-- The fields of a Load Map: the compartment, and a map entry or *absent* (R3). -/
def bodyLoadMap (bs : List Byte) : Option (Nat × Option MapFields) := do
  let (compartment, bs) ← readNat 2 bs
  let (entry, bs) ← readFlag bs
  if entry then
    let (board, bs) ← readNat 1 bs
    let (line, bs) ← readNat 1 bs
    let (cls, bs) ← readNat 1 bs
    let (inService, bs) ← readFlag bs
    ended (compartment, some { board, line, cls, inService }) bs
  else ended (compartment, none) bs

/-- The fields of a Load Tariff: the class and the row as carried (R51). -/
def bodyLoadTariff (bs : List Byte) : Option (Nat × TariffRow) := do
  let (cls, bs) ← readNat 1 bs
  let (freePeriod, bs) ← readNat 2 bs
  let (period, bs) ← readNat 2 bs
  let (rate, bs) ← readNat 2 bs
  let (cap, bs) ← readNat 3 bs
  let (ceiling, bs) ← readNat 3 bs
  let (allowance, bs) ← readNat 2 bs
  ended (cls, { freePeriod, period, rate, cap, ceiling, allowance }) bs

/-- The fields of a Load Slot: segment, slot, and a board and parity or *idle* (R175). -/
def bodyLoadSlot (bs : List Byte) : Option (Nat × Nat × Option (Nat × Nat)) := do
  let (segment, bs) ← readNat 1 bs
  let (slot, bs) ← readNat 1 bs
  let (content, bs) ← readFlag bs
  if content then
    let (board, bs) ← readNat 1 bs
    let (parity, bs) ← readNat 1 bs
    ended (segment, slot, some (board, parity)) bs
  else ended (segment, slot, none) bs

/-- The fields of a Set Budget: segment and value (R158). -/
def bodySetBudget (bs : List Byte) : Option (Nat × Nat) := do
  let (segment, bs) ← readNat 1 bs
  let (value, bs) ← readNat 1 bs
  ended (segment, value) bs

/-- Reads `n` flag bytes into a list. -/
def readFlags : Nat → List Byte → Option (List Bool × List Byte)
  | 0, bs => some ([], bs)
  | n + 1, bs => do
    let (b, bs) ← readFlag bs
    let (rest, bs) ← readFlags n bs
    some (b :: rest, bs)

/-- The eight enables of a Set Enables, in priority order of the kinds (R203, R201). -/
def bodySetEnables (bs : List Byte) : Option (List Bool) := do
  let (enables, bs) ← readFlags 8 bs
  ended enables bs

/-- The four key words of a Set Keys (R218). -/
def bodySetKeys (bs : List Byte) : Option (Vector (BitVec 32) 4) := do
  let (k0, bs) ← readNat 4 bs
  let (k1, bs) ← readNat 4 bs
  let (k2, bs) ← readNat 4 bs
  let (k3, bs) ← readNat 4 bs
  ended #v[BitVec.ofNat 32 k0, BitVec.ofNat 32 k1, BitVec.ofNat 32 k2, BitVec.ofNat 32 k3] bs

/-! ### Numbers as names of objects -/

/-- The compartment that a number names, 0 to 767. -/
def compNo? (n : Nat) : Option CompNo := if h : n < 768 then some ⟨n, h⟩ else none

/-- The board that a number names, 0 to 63. -/
def boardNo? (n : Nat) : Option BoardNo := if h : n < 64 then some ⟨n, h⟩ else none

/-- The line that a number names, 0 to 11. -/
def lineNo? (n : Nat) : Option LineNo := if h : n < 12 then some ⟨n, h⟩ else none

/-- The segment that a number names, 0 to 3. -/
def segNo? (n : Nat) : Option SegNo := if h : n < 4 then some ⟨n, h⟩ else none

/-- The slot that a number names, 0 to 15. -/
def slotNo? (n : Nat) : Option SlotNo := if h : n < 16 then some ⟨n, h⟩ else none

/-- The size class of a code, S 0 to XL 3 (R224). -/
def classOf? (n : Nat) : Option SizeClass :=
  match n with
  | 0 => some .S
  | 1 => some .M
  | 2 => some .L
  | 3 => some .XL
  | _ => none

/-- The parity of a code, in the order of R175. -/
def parityOf? (n : Nat) : Option Parity :=
  match n with
  | 0 => some .every
  | 1 => some .even
  | 2 => some .odd
  | _ => none

/-- The concourse state of a broadcast code; the others are unknown (R193). -/
def concourseOf? (code : Nat) : Option Concourse :=
  match code with
  | 1 => some .opened
  | 2 => some .closed
  | 3 => some .restricted
  | 4 => some .evacuate
  | 5 => some .lockdown
  | _ => none

end Sys2Proof.Machine
end

