-- ==== Sys2Proof/Machine/Replies.lean ====
section
/-! DEFINITION. The codes of enumerated values and the layouts of reply bodies, notices and the
compartment image (R224, R225). -/

namespace Sys2Proof.Machine

/-! ### Codes -/

/-- S 0 to XL 3 (R224). -/
def classCode : SizeClass → Nat
  | .S => 0 | .M => 1 | .L => 2 | .XL => 3

/-- UNSERVED 0 to RECONCILE 10 (R224). -/
def stateCode : CompState → Nat
  | .unserved => 0 | .vacant => 1 | .reserved => 2 | .loading => 3 | .held => 4 | .releasing => 5
  | .unloading => 6 | .abandoned => 7 | .jammed => 8 | .suspect => 9 | .reconcile => 10

/-- The state that a prior state names (R5). -/
def PriorState.state : PriorState → CompState
  | .reserved => .reserved | .loading => .loading | .releasing => .releasing | .unloading => .unloading

/-- DEPOSIT 0, DROP 1, COLLECT 2, RETRIEVE 3 (R224). -/
def purposeCode : Purpose → Nat
  | .deposit => 0 | .drop => 1 | .collect => 2 | .retrieve => 3

/-- The purpose of a transient part's particulars (R5). -/
def Particulars.purpose : Particulars → Purpose
  | .deposit _ _ _ _ _ => .deposit
  | .drop _ _ _ => .drop
  | .collect => .collect
  | .retrieve _ _ => .retrieve

/-- The code of R193. -/
def concourseCode : Concourse → Nat
  | .opened => 1 | .closed => 2 | .restricted => 3 | .evacuate => 4 | .lockdown => 5

/-- The order of R201. -/
def alarmCode : AlarmKind → Fin 8
  | .forced => 0 | .jammed => 1 | .boardLost => 2 | .ajar => 3 | .mismatch => 4 | .backlog => 5
  | .lockout => 6 | .retention => 7

/-- The order of R145 and R151 (log 18). -/
def parcelKindCode : ParcelKind → Nat
  | .returned => 0 | .delivery => 1

/-- The order of R105. -/
def declStateCode : DeclState → Nat
  | .waitingDoor => 0 | .loading => 1

/-- The order of R107. -/
def declOutcomeCode : DeclOutcome → Nat
  | .committed => 0 | .abortedEmpty => 1 | .cancelled => 2 | .jammed => 3

/-- The order of R129. -/
def doorOutcomeCode : DoorOutcome → Nat
  | .completed => 0 | .incomplete => 1 | .cancelled => 2 | .jammed => 3 | .suspect => 4

/-- The order of R175. -/
def parityCode : Parity → Nat
  | .every => 0 | .even => 1 | .odd => 2

/-- The order of R181. -/
def linkCode : LinkState → Nat
  | .unknown => 0 | .online => 1 | .lost => 2 | .withdrawn => 3

/-- A door image, OPEN, CLOSED or UNKNOWN in the order of R187 (log 18). -/
def doorImageCode : Option Bool → Nat
  | some true => 0 | some false => 1 | none => 2

/-! ### Fields -/

/-- The largest station time (R196). -/
def maxTime : Nat := 4294967295

/-- A station time in four bytes. A quote expiry time above the largest has no stated bytes (log
22). -/
def timeField (t : Nat) : List Byte := be 4 (if t ≤ maxTime then t else Config.lateTimeField t)

def compField (c : CompNo) : List Byte := be 2 c.val

def classField (cls : SizeClass) : List Byte := be 1 (classCode cls)

/-- The six fields of a tariff row (R51). -/
def tariffField (t : TariffRow) : List Byte :=
  be 2 t.freePeriod ++ be 2 t.period ++ be 2 t.rate ++ be 3 t.cap ++ be 3 t.ceiling ++ be 2 t.allowance

/-- The five figures of a kiosk's takings (R85, R87). -/
def takingsField (t : Takings) : List Byte :=
  be 4 t.collectionSum ++ be 2 t.collectionCount ++ be 4 t.postageSum ++ be 2 t.postageCount
    ++ flag t.saturated

/-- The fields of a returns entry, with its postage paid mark (R134). -/
def returnField (e : ReturnEntry) : List Byte :=
  be 5 e.reference ++ classField e.cls ++ be 2 e.courier ++ be 3 e.postage ++ timeField e.expiry
    ++ flag e.inUse ++ optional (be 3) e.paidMark

/-- A declaration of a pipeline as Session Status gives it (R109). -/
def declarationField (d : Declaration) : List Byte :=
  be 1 d.number ++ compField d.compartment ++ classField d.cls ++ be 1 (declStateCode d.state)

/-- An outcome table entry as Session Status gives it (R109). -/
def outcomeField (o : OutcomeEntry) : List Byte :=
  be 1 (declOutcomeCode o.outcome) ++ compField o.compartment ++ be 5 o.reference

/-- The notice kind, in the order of the table of R213. -/
def noticeCode : Notice → Nat
  | .deposited .. => 0 | .dropped .. => 1 | .collected .. => 2 | .retrieved .. => 3
  | .abandoned .. => 4 | .cleared .. => 5

/-- The fields of a notice in the order of its rule: R110, R17, R128, R151, R24, R26. -/
def noticeFields : Notice → List Byte
  | .deposited c courier reference code time prepaid =>
    compField c ++ be 2 courier ++ be 5 reference ++ be 4 code ++ optional timeField time ++ be 3 prepaid
  | .dropped c reference courier postage time =>
    compField c ++ be 5 reference ++ be 2 courier ++ be 3 postage ++ optional timeField time
  | .collected c reference courier deposited paid time =>
    compField c ++ be 5 reference ++ be 2 courier ++ optional timeField deposited ++ be 3 paid
      ++ optional timeField time
  | .retrieved c kind reference courier time =>
    compField c ++ be 1 (parcelKindCode kind) ++ be 5 reference ++ be 2 courier ++ optional timeField time
  | .abandoned c courier reference deposited abandoned =>
    compField c ++ be 2 courier ++ be 5 reference ++ timeField deposited ++ timeField abandoned
  | .cleared c reference courier deposited paid =>
    compField c ++ be 5 reference ++ be 2 courier ++ optional timeField deposited ++ be 3 paid

/-- A notice in a reply: its kind, its sequence number and its fields (R225). -/
def noticeField (n : SentNotice) : List Byte :=
  be 1 (noticeCode n.notice) ++ be 2 n.sequence ++ noticeFields n.notice

/-! ### The compartment image (R224)

The bits of offsets 2, 6, 8 and 48 to which the layout gives no field are sent as 0, the model's choice
(log 44). -/

/-- Offsets 2 to 4: flags and class, board and line. Open bits are 0 (log 44). -/
def imageMap : Option MapEntry → List Byte
  | none => be 3 0
  | some m =>
    be 1 (128 + (if m.inService then 64 else 0) + classCode m.cls) ++ be 1 m.board.val ++ be 1 m.line.val

/-- Offsets 6 and 7: the transient part, and the prior state code or 255. Open bits are 0 (log 44). -/
def imageTransient (state : CompState) : Option Transient → List Byte
  | none => be 1 0 ++ be 1 255
  | some t =>
    be 1 (128 + purposeCode t.particulars.purpose * 32 + t.kiosk.val * 8 + (if t.strikeIssued then 4 else 0))
      ++ be 1 (match state, t.prior with
        | .reconcile, some p => stateCode p.state
        | _, _ => 255)

/-- Offsets 8 to 47: the parcel record, its code shown as present or not. Open bits are 0 (log 44). -/
def imageParcel : Option Parcel → List Byte
  | none => be 40 0
  | some (.delivery d) =>
    be 1 (128 + (if d.code.isSome then 32 else 0) + (if d.depositTime.isSome then 16 else 0)
        + (if d.abandonedTime.isSome then 8 else 0))
      ++ be 6 d.reference ++ be 2 d.courier ++ timeField (d.depositTime.getD 0)
      ++ timeField (d.abandonedTime.getD 0) ++ tariffField d.snapshot ++ be 3 d.prepaid ++ be 3 d.paid
      ++ be 3 0
  | some (.returned r) =>
    be 1 (192 + (if r.depositTime.isSome then 16 else 0))
      ++ be 6 r.reference ++ be 2 r.courier ++ timeField (r.depositTime.getD 0) ++ be 4 0 ++ be 14 0
      ++ be 3 0 ++ be 3 0 ++ be 3 r.postagePaid

/-- Offsets 48 to 62: the quote record. Open bits are 0 (log 44). -/
def imageQuote : Option Quote → List Byte
  | none => be 15 0
  | some q =>
    let (postage, reference) := match q.purpose with
      | .collection => (0, 0)
      | .postage reference => (64, reference)
    be 1 (128 + postage + q.kiosk.val) ++ be 2 q.number ++ be 3 q.amount ++ timeField q.expiry
      ++ be 5 reference

/-- The 65 bytes of a compartment image, with the door and occupancy images given: OPEN or
OCCUPIED 1, CLOSED or EMPTY 2, UNKNOWN 0. -/
def compartmentImage (c : CompNo) (x : Compartment) (q : Option Quote) (door occ : Option Bool) : List Byte :=
  let code : Option Bool → Nat
    | some true => 1 | some false => 2 | none => 0
  compField c ++ imageMap x.map ++ be 1 (stateCode x.state) ++ imageTransient x.state x.transient
    ++ imageParcel x.parcel ++ imageQuote q ++ be 1 (code door) ++ be 1 (code occ)

end Sys2Proof.Machine
end

