-- ==== Sys2Proof/Machine/Ops.lean ====
section
/-! DEFINITION. The named operations over the state: reading and writing its tables, the outbox, the
alarms, the directory entries of a compartment, the returns list, and the door results. -/

namespace Sys2Proof.Machine

/-- The entry of a table. -/
def look {α : Type} {n : Nat} (v : Vector α n) (i : Fin n) : α := v[i.val]

/-- A table with one entry replaced. -/
def put {α : Type} {n : Nat} (v : Vector α n) (i : Fin n) (x : α) : Vector α n := v.set i.val x i.isLt

/-- Applies an update for every number of a range, in ascending order. -/
def forEach {n : Nat} (f : Fin n → State → State) (s : State) : State :=
  (List.finRange n).foldl (fun s i => f i s) s

/-! ### Tables of the state -/

def State.comp (s : State) (c : CompNo) : Compartment := look s.ret.compartments c

def State.setComp (s : State) (c : CompNo) (x : Compartment) : State :=
  { s with ret := { s.ret with compartments := put s.ret.compartments c x } }

def State.quoteOf (s : State) (c : CompNo) : Option Quote := look s.quotes c

def State.setQuote (s : State) (c : CompNo) (q : Option Quote) : State :=
  { s with quotes := put s.quotes c q }

def State.kiosk (s : State) (k : KioskNo) : Kiosk := look s.kiosks k

def State.setKiosk (s : State) (k : KioskNo) (x : Kiosk) : State :=
  { s with kiosks := put s.kiosks k x }

def State.seg (s : State) (g : SegNo) : Segment := look s.segments g

def State.setSeg (s : State) (g : SegNo) (x : Segment) : State :=
  { s with segments := put s.segments g x }

def State.board (s : State) (b : BoardNo) : Board := look s.boards b

def State.setBoard (s : State) (b : BoardNo) (x : Board) : State :=
  { s with boards := put s.boards b x }

def State.line (s : State) (b : BoardNo) (l : LineNo) : Line := look (s.board b).lines l

def State.setLine (s : State) (b : BoardNo) (l : LineNo) (x : Line) : State :=
  s.setBoard b { s.board b with lines := put (s.board b).lines l x }

def State.setAjar (s : State) (c : CompNo) (w : Option AjarWatch) : State :=
  { s with ajar := put s.ajar c w }

/-! ### Where a compartment is -/

/-- The segment of a board: its number divided by 16, rounded down (R155). -/
def segmentOf (b : BoardNo) : SegNo := ⟨b.val / 16, by omega⟩

/-- The board of a compartment, by its map entry. -/
def boardOf (s : State) (c : CompNo) : Option BoardNo := (s.comp c).map.map (·.board)

/-- The segment of a compartment, by its map entry (R155). -/
def segOf (s : State) (c : CompNo) : Option SegNo := (boardOf s c).map segmentOf

/-- Whether the board of a compartment is ONLINE. -/
def onlineComp (s : State) (c : CompNo) : Bool :=
  match boardOf s c with
  | some b => (s.board b).link = .online
  | none => false

/-- The compartment whose map entry names a board and line. At most one does (R3). -/
def compAt (s : State) (b : BoardNo) (l : LineNo) : Option CompNo :=
  (List.finRange 768).find? fun c =>
    match (s.comp c).map with
    | some m => m.board = b && m.line = l
    | none => false

/-- The size class of a compartment, by its map entry. A compartment in use has one (R4; log 23). -/
def classAt (s : State) (c : CompNo) : SizeClass :=
  match (s.comp c).map with
  | some m => m.cls
  | none => .S

/-- The table index of a size class. -/
def SizeClass.index : SizeClass → Fin 4
  | .S => 0 | .M => 1 | .L => 2 | .XL => 3

/-- The door image of a compartment's line: set for OPEN, none for UNKNOWN (R187). -/
def doorImage (s : State) (c : CompNo) : Option Bool :=
  match (s.comp c).map with
  | some m => if (s.board m.board).link = .online then (s.line m.board m.line).doorOpen else none
  | none => none

/-- The occupancy image of a compartment's line: set for OCCUPIED, none for UNKNOWN (R187). -/
def occupancyImage (s : State) (c : CompNo) : Option Bool :=
  match (s.comp c).map with
  | some m => if (s.board m.board).link = .online then (s.line m.board m.line).occupied else none
  | none => none

/-! ### Alarms (ALU) -/

/-- A posting of an alarm, which merges with one of the same kind and object (R202). The attention
line is set at the end of the event (R205). -/
def postAlarm (kind : AlarmKind) (object : Nat) (s : State) : State :=
  if s.alarms.any (fun a => a.kind = kind && a.object = object) then s
  else { s with alarms := s.alarms ++ [{ kind, object, posted := s.clock }] }

/-! ### The notice outbox (TIU) -/

/-- Whether an outbox slot can be reserved: notices plus reservations is below 32 (R212). -/
def outboxHasRoom (s : State) : Bool := s.ret.outbox.length + s.ret.reservations < 32

/-- Reserves an outbox slot that is there to reserve, posting BACKLOG when it makes the outbox
full (R212). -/
def takeSlot (s : State) : State :=
  let s' := { s with ret := { s.ret with reservations := s.ret.reservations + 1 } }
  if s.ret.outbox.length + s.ret.reservations + 1 = 32 then postAlarm .backlog 0 s' else s'

/-- A request for an outbox slot reservation (R212). -/
def reserveSlot (s : State) : Option State := if outboxHasRoom s then some (takeSlot s) else none

/-- Releases a reservation that made no notice (R213). -/
def releaseSlot (s : State) : State :=
  { s with ret := { s.ret with reservations := s.ret.reservations - 1 } }

/-- Fills a reservation with its notice (R213). -/
def fillSlot (n : Notice) (s : State) : State :=
  { s with ret := { s.ret with
      outbox := s.ret.outbox ++ [{ sequence := s.ret.noticeSequence, notice := n }]
      reservations := s.ret.reservations - 1
      noticeSequence := (s.ret.noticeSequence + 1) % 65536 } }

/-! ### The entry that names a compartment (CDU) -/

/-- Applies a change to the directory entry that names a compartment; none removes it (R35). -/
def changeEntry (c : CompNo) (change : DirEntry → Option DirEntry) (s : State) : State :=
  { s with ret := { s.ret with
      directory := s.ret.directory.map fun ways =>
        ways.filterMap fun e => if e.compartment = c then change e else some e } }

/-- Gives the entry that names a compartment a status (R35). -/
def setEntryStatus (c : CompNo) (status : CodeStatus) (s : State) : State :=
  changeEntry c (fun e => some { e with status }) s

/-- Removes the entry that names a compartment (R35). -/
def removeEntry (c : CompNo) (s : State) : State := changeEntry c (fun _ => none) s

/-- The set of a code: the code modulo 256 (R33). -/
def codeSet (code : Nat) : Fin 256 := Fin.ofNat 256 code

/-- The tag of a code: the code divided by 256, rounded down (R33). -/
def codeTag (code : Nat) : Nat := code / 256

/-- Writes an entry into a free way of its code's set (R39, R46). -/
def addEntry (code : Nat) (c : CompNo) (status : CodeStatus) (s : State) : State :=
  { s with ret := { s.ret with
      directory := put s.ret.directory (codeSet code)
        (look s.ret.directory (codeSet code) ++ [{ tag := codeTag code, compartment := c, status }]) } }

/-- The code of the entry that names a compartment: 256 times its tag, plus its set (R33). -/
def codeNaming (s : State) (c : CompNo) : Option Nat :=
  (List.finRange 256).findSome? fun i =>
    ((look s.ret.directory i).find? (·.compartment = c)).map fun e => 256 * e.tag + i.val

/-! ### The returns list (RLU) -/

/-- Applies a change to the entry with a return reference; none removes it. -/
def changeReturn (reference : Nat) (change : ReturnEntry → Option ReturnEntry) (s : State) : State :=
  { s with ret := { s.ret with
      returns := s.ret.returns.filterMap fun e => if e.reference = reference then change e else some e } }

/-- Marks the entry of a drop that ended without committing not in use, with a postage paid mark
of the drop's postage paid when that is above 0 (R135). -/
def freeReturn (reference paid : Nat) (s : State) : State :=
  changeReturn reference
    (fun e => some { e with inUse := false, paidMark := if paid = 0 then none else some paid }) s

/-! ### Door results (CTU) -/

/-- Writes a kiosk's last door result (R129). -/
def setDoorResult (k : KioskNo) (r : Option DoorResult) (s : State) : State :=
  s.setKiosk k { s.kiosk k with doorResult := r }

/-! ### Kiosk failure counts (CDU) -/

/-- A success sets a kiosk's failure count to 0 (R41). -/
def countSuccess (k : KioskNo) (s : State) : State := s.setKiosk k { s.kiosk k with failures := 0 }

/-- A failure raises a kiosk's count by one; the rise from 4 to 5 starts a lockout of 60 s and posts
LOCKOUT (R41, R42). -/
def countFailure (k : KioskNo) (s : State) : State :=
  let x := s.kiosk k
  if x.failures < 4 then s.setKiosk k { x with failures := x.failures + 1 }
  else if x.failures = 4 then
    postAlarm .lockout k.val (s.setKiosk k { x with failures := 5, lockout := some (s.elapsed + 60) })
  else s

/-! ### Events -/

/-- The parcel's state when it is returned to its compartment: ABANDONED while a DELIVERY record
has its abandoned time, else HELD (R6). -/
def restedState : Option Parcel → CompState
  | some (.delivery d) => if d.abandonedTime.isSome then .abandoned else .held
  | _ => .held

end Sys2Proof.Machine
end

