-- ==== Sys2Proof/Machine/Codes.lean ====
section
/-! DEFINITION. The code generator and code generation, the directory lookup, and the allocation of
a compartment. -/

namespace Sys2Proof.Machine

/-- One step of the generator: the state doubled modulo 2^32, plus the feedback digit of positions
31, 21, 1 and 0 (R36). -/
def generatorStep (g : BitVec 32) : BitVec 32 :=
  let feedback := ((g.getLsbD 31 ^^ g.getLsbD 21) ^^ g.getLsbD 1) ^^ g.getLsbD 0
  (g <<< 1) + (if feedback then 1 else 0)

/-- The generator advanced `n` steps. -/
def generatorAdvance : Nat → BitVec 32 → BitVec 32
  | 0, g => g
  | n + 1, g => generatorAdvance n (generatorStep g)

/-- The entry of a code in the directory, if it has one; a value above 99,999,999 has none (R33,
R40). -/
def lookupCode (s : State) (code : Nat) : Option DirEntry :=
  if code ≤ 99999999 then (look s.ret.directory (codeSet code)).find? (·.tag = codeTag code) else none

/-- Whether all eight digits of a code are equal (R33). -/
def repeatedDigits (code : Nat) : Bool := (List.range 10).any fun d => code = d * 11111111

/-- Whether a candidate is rejected: repeated digits, a code in the directory, or a full set (R37). -/
def rejected (directory : Vector (List DirEntry) 256) (code : Nat) : Bool :=
  repeatedDigits code
    || (look directory (codeSet code)).any (·.tag = codeTag code)
    || 4 ≤ (look directory (codeSet code)).length

/-- Up to `tries` candidates, each 32 steps of the generator further on: the generator state they
leave and the first candidate that is not rejected (R37). -/
def generateCode (directory : Vector (List DirEntry) 256) : Nat → BitVec 32 → BitVec 32 × Option Nat
  | 0, g => (g, none)
  | tries + 1, g =>
    let g := generatorAdvance 32 g
    let candidate := g.toNat % 100000000
    if rejected directory candidate then generateCode directory tries g else (g, some candidate)

/-- A code generation: up to 8 candidates (R37). -/
def generation (s : State) : State × Option Nat :=
  let (g, code) := generateCode s.ret.directory 8 s.ret.generator
  ({ s with ret := { s.ret with generator := g } }, code)

/-! ### Allocation -/

/-- Whether a queue entry or an active strike names a compartment (R8). -/
def striking (s : State) (c : CompNo) : Bool :=
  (List.finRange 4).any fun g =>
    (s.seg g).queue.any (·.compartment = c) || (s.seg g).active.any (·.compartment = c)

/-- Whether a compartment is allocatable (R8). -/
def allocatable (s : State) (c : CompNo) : Bool :=
  match (s.comp c).map with
  | some m =>
    (s.comp c).state = .vacant && m.inService && (s.board m.board).link = .online && !striking s c
  | none => false

/-- The next compartment number, from 767 to 0 (R9). -/
def nextComp (c : CompNo) : CompNo := if h : c.val + 1 < 768 then ⟨c.val + 1, h⟩ else 0

/-- The first of `n` compartment numbers from `c` on that is of the class and allocatable (R9). -/
def searchFrom (s : State) (cls : SizeClass) : Nat → CompNo → Option CompNo
  | 0, _ => none
  | n + 1, c =>
    if ((s.comp c).map.map (·.cls) = some cls) && allocatable s c then some c
    else searchFrom s cls n (nextComp c)

/-- The search of one class, from one past its cursor (R9). -/
def searchClass (s : State) (cls : SizeClass) : Option CompNo :=
  searchFrom s cls 768 (nextComp (look s.ret.cursors cls.index))

/-- The larger classes in ascending order. -/
def largerClasses : SizeClass → List SizeClass
  | .S => [.M, .L, .XL]
  | .M => [.L, .XL]
  | .L => [.XL]
  | .XL => []

/-- The classes that an allocation searches: the class asked for, and with upsizing the larger
ones, less those without a tariff row for a DEPOSIT (R9). -/
def searchedClasses (s : State) (cls : SizeClass) (upsize deposit : Bool) : List SizeClass :=
  cls :: (if upsize then
      (largerClasses cls).filter fun k => !deposit || (look s.ret.tariff k.index).isSome
    else [])

/-- Allocation: the compartment of the first class that yields one, with that class's cursor set
to it (R9). -/
def allocate (s : State) (cls : SizeClass) (upsize deposit : Bool) : Option (State × CompNo) :=
  (searchedClasses s cls upsize deposit).findSome? fun k =>
    (searchClass s k).map fun c =>
      ({ s with ret := { s.ret with cursors := put s.ret.cursors k.index c } }, c)

end Sys2Proof.Machine
end

