-- ==== Sys2Proof/Machine/Strikes.lean ====
section
/-! DEFINITION. The strike scheduler: queues, budgets and issue, and the issue of a courier sweep's
pickup entries. -/

namespace Sys2Proof.Machine

/-- Whether a strike queue has room: it holds fewer than 16 entries (R157). -/
def queueHasRoom (s : State) (g : SegNo) : Bool := (s.seg g).queue.length < 16

/-- Whether the strike queue of a compartment's segment has room. -/
def compHasRoom (s : State) (c : CompNo) : Bool :=
  match segOf s c with
  | some g => queueHasRoom s g
  | none => false

/-- The budget in force on a segment (R159). -/
def budgetInForce (s : State) (g : SegNo) : Nat :=
  if s.ret.concourse = .restricted then 1 else look s.ret.budgets g

/-- Whether an active strike is in phase ISSUED. -/
def ActiveStrike.isIssued (a : ActiveStrike) : Bool :=
  match a.phase with
  | .issued _ => true
  | .confirming _ => false

/-- The energised count of a segment (R159). -/
def energised (s : State) (g : SegNo) : Nat := ((s.seg g).active.filter (·.isIssued)).length

/-- Sets or clears the strike issued mark of a compartment's transient part (R12). -/
def setMark (c : CompNo) (mark : Bool) (s : State) : State :=
  s.setComp c { s.comp c with
    transient := (s.comp c).transient.map fun t => { t with strikeIssued := mark } }

/-- The issue of one queued entry on the board and line of its compartment: it leaves the queue,
becomes an active strike in ISSUED with its deadline 5 s ahead, the mark is set, and it joins its
board's hand-off list (R161, R179). -/
def issueEntry (g : SegNo) (e : StrikeEntry) (m : MapEntry) (s : State) : State :=
  let x := s.seg g
  let a : ActiveStrike :=
    { compartment := e.compartment, purpose := e.purpose, attempt := e.attempt, board := m.board,
      line := m.line, doorSeen := false, phase := .issued (s.elapsed + 5) }
  let s := s.setSeg g { x with
    queue := x.queue.filter (·.compartment ≠ e.compartment), active := x.active ++ [a] }
  let s := setMark e.compartment true s
  s.setBoard m.board { s.board m.board with handOff := (s.board m.board).handOff ++ [m.line] }

/-- Whether the SSU holds a board ONLINE: its link state is, and its declaration has been reported (R183;
log 49). -/
def onlineToIssue (s : State) (b : BoardNo) : Bool := (s.board b).link = .online && s.declaring ≠ some b

/-- The entry that issue would take on a segment: outside LOCKDOWN and below the budget in force,
the first whose compartment's board is ONLINE, with its map entry (R160). -/
def nextIssue (s : State) (g : SegNo) : Option (StrikeEntry × MapEntry) :=
  if s.ret.concourse ≠ .lockdown ∧ energised s g < budgetInForce s g then
    (s.seg g).queue.findSome? fun e =>
      match (s.comp e.compartment).map with
      | some m => if onlineToIssue s m.board then some (e, m) else none
      | none => none
  else none

/-- Issue, repeated at most `n` times (R160). -/
def issueUpTo (g : SegNo) : Nat → State → State
  | 0, s => s
  | n + 1, s =>
    match nextIssue s g with
    | some (e, m) => issueUpTo g n (issueEntry g e m s)
    | none => s

/-- Issue applied to a segment: it ends when a condition fails or no entry on an ONLINE board
remains, so the length of the queue bounds it (R160). -/
def applyIssue (g : SegNo) (s : State) : State := issueUpTo g (s.seg g).queue.length s

/-- A strike queued at a grant: attempt 1 at the tail of the queue of the compartment's segment,
with issue applied at the same event (R156). -/
def queueStrike (c : CompNo) (purpose : Purpose) (s : State) : State :=
  match segOf s c with
  | some g =>
    applyIssue g (s.setSeg g { s.seg g with
      queue := (s.seg g).queue ++
        [{ compartment := c, purpose, attempt := .first, enqueued := s.elapsed }] })
  | none => s

/-- The active strike of a compartment with its segment. -/
def activeOf (s : State) (c : CompNo) : Option (SegNo × ActiveStrike) :=
  (List.finRange 4).findSome? fun g =>
    ((s.seg g).active.find? (·.compartment = c)).map fun a => (g, a)

/-- The queued entry of a compartment with its segment. -/
def queuedOf (s : State) (c : CompNo) : Option (SegNo × StrikeEntry) :=
  (List.finRange 4).findSome? fun g =>
    ((s.seg g).queue.find? (·.compartment = c)).map fun e => (g, e)

/-- Takes a compartment's entry out of a segment's queue. -/
def dropQueued (g : SegNo) (c : CompNo) (s : State) : State :=
  s.setSeg g { s.seg g with queue := (s.seg g).queue.filter (·.compartment ≠ c) }

/-- Withdraws the queued strike of a compartment, if it has one (R171). -/
def withdrawStrike (c : CompNo) (s : State) : State := forEach (fun g => dropQueued g c) s

/-- Replaces a compartment's active strike. -/
def setActive (g : SegNo) (a : ActiveStrike) (s : State) : State :=
  s.setSeg g { s.seg g with
    active := (s.seg g).active.map fun b => if b.compartment = a.compartment then a else b }

/-- Forgets that the poll under way on a segment carries a strike of a board, so that its reply can
no longer take it (R179; log 16). -/
def disownPoll (g : SegNo) (b : BoardNo) (l : LineNo) (s : State) : State :=
  match (s.seg g).phase with
  | .polling slot board (some carried) =>
    if board = b ∧ carried = l then s.setSeg g { s.seg g with phase := .polling slot board none } else s
  | _ => s

/-- Ends an active strike: it leaves the segment's active strikes and its board's hand-off list
(R162, R179). -/
def endStrike (g : SegNo) (a : ActiveStrike) (s : State) : State :=
  let s := s.setSeg g { s.seg g with
    active := (s.seg g).active.filter (·.compartment ≠ a.compartment) }
  let s := s.setBoard a.board { s.board a.board with
    handOff := (s.board a.board).handOff.filter (· ≠ a.line) }
  disownPoll g a.board a.line s

/-! ### Courier sweeps: the issue of pickup entries -/

/-- The open session of a kiosk. -/
def sessionOf (s : State) (k : KioskNo) : Option Session := (s.kiosk k).session

def setSession (k : KioskNo) (x : Option Session) (s : State) : State :=
  s.setKiosk k { s.kiosk k with session := x }

/-- Session activity: the inactivity deadline of the kiosk's open session is set 120 s ahead (R99). -/
def touchSession (k : KioskNo) (s : State) : State :=
  match sessionOf s k with
  | some x => setSession k (some { x with deadline := s.elapsed + 120 }) s
  | none => s

/-- A sweep with its list, or none once the last entry has left (R145). -/
def CourierSweep.orEnded (w : CourierSweep) : Option CourierSweep := if w.entries = [] then none else some w

/-- Whether a compartment still stands as its pickup entry lists it (R146). -/
def asListed (s : State) (courier : Nat) (e : PickupEntry) : Bool :=
  let x := s.comp e.compartment
  onlineComp s e.compartment &&
    match e.kind, x.parcel with
    | .returned, some (.returned r) => x.state = .held && r.courier = courier
    | .delivery, some (.delivery d) => x.state = .abandoned && d.courier = courier
    | _, _ => false

/-- The first UNISSUED entry of a sweep. -/
def CourierSweep.firstUnissued (w : CourierSweep) : Option PickupEntry := w.entries.find? (!·.inFlight)

/-- The number of entries IN_FLIGHT. -/
def CourierSweep.inFlight (w : CourierSweep) : Nat := (w.entries.filter (·.inFlight)).length

/-- Whether a LOCKDOWN, the outbox or the strike queue of the entry's segment holds up the issue of
an entry (R146). An entry whose compartment has lost its map entry has no board, so no queue holds it
up: it no longer stands as listed and is removed (log 40). -/
def issueHeldUp (s : State) (e : PickupEntry) : Bool :=
  s.ret.concourse = .lockdown || !outboxHasRoom s
    || match segOf s e.compartment with
      | some g => !queueHasRoom s g
      | none => false

/-- The retrieval grant: RELEASING with a transient part of purpose RETRIEVE, and the strike queued
(R11, R146). -/
def grantRetrieval (k : KioskNo) (serial courier : Nat) (c : CompNo) (s : State) : State :=
  let s := s.setComp c { s.comp c with
    state := .releasing
    transient := some { particulars := .retrieve serial courier, kiosk := k, strikeIssued := false, prior := none } }
  queueStrike c .retrieve (s.setQuote c none)

/-- One application of the issue rule to a kiosk's sweep: none when nothing is issued or removed
(R146). -/
def issuePickup (k : KioskNo) (s : State) : Option State := do
  let x ← sessionOf s k
  let w ← x.sweep
  let e ← w.firstUnissued
  if w.draining || 4 ≤ w.inFlight || issueHeldUp s e then none
  else if asListed s x.courier e then
    let entries := w.entries.map fun f => if f.compartment = e.compartment then { f with inFlight := true } else f
    some (grantRetrieval k x.serial x.courier e.compartment
      (setSession k (some { x with sweep := some { w with entries } }) (takeSlot s)))
  else
    let entries := w.entries.filter (·.compartment ≠ e.compartment)
    some (setSession k (some { x with sweep := ({ w with entries, skipped := w.skipped + 1 }).orEnded }) s)

/-- The issue rule repeated at most `n` times. -/
def issuePickups (k : KioskNo) : Nat → State → State
  | 0, s => s
  | n + 1, s =>
    match issuePickup k s with
    | some s' => issuePickups k n s'
    | none => s

/-- The length of a kiosk's pickup list. -/
def listLength (s : State) (k : KioskNo) : Nat :=
  match (sessionOf s k).bind (·.sweep) with
  | some w => w.entries.length
  | none => 0

/-- The issue rule applied to a kiosk's sweep while its conditions hold; each round issues or
removes an entry of the list, so its length bounds the rounds (R146). -/
def applyPickup (k : KioskNo) (s : State) : State := issuePickups k (listLength s k) s

end Sys2Proof.Machine
end

