-- ==== Sys2Proof/Machine/Doors.lean ====
section
/-! DEFINITION. How a transaction ends: the reports to the CSU, the reverts, close handling, forced
doors, occupancy, and the fate of an active strike. -/

namespace Sys2Proof.Machine

/-! ### Reports to the CSU -/

/-- Delivers a declaration's outcome to the session that declared it, or drops it (R108). -/
def reportOutcome (c : CompNo) (k : KioskNo) (serial declaration : Nat) (outcome : DeclOutcome) (s : State) : State :=
  match sessionOf s k with
  | some x =>
    match x.pipeline.find? (fun d => d.compartment = c && d.number = declaration) with
    | some d =>
      if x.serial = serial then
        setSession k (some { x with
          pipeline := x.pipeline.filter fun d => !(d.compartment = c && d.number = declaration)
          outcomes := put x.outcomes (Fin.ofNat 256 declaration) (some { outcome, compartment := c, reference := d.reference })
          deadline := s.elapsed + 120 }) s
      else s
    | none => s
  | none => s

/-- Delivers the end of a retrieval to the session whose list holds the compartment IN_FLIGHT, or
drops it. On delivery the entry leaves the list, a count rises, the session's deadline moves, and a
sweep in ISSUING applies its issue rule (R148). -/
def reportRetrieval (c : CompNo) (k : KioskNo) (serial : Nat) (retrieved : Bool) (s : State) : State :=
  match sessionOf s k with
  | some x =>
    match x.sweep with
    | some w =>
      if x.serial = serial ∧ w.entries.any (fun e => e.compartment = c && e.inFlight) then
        let w := { w with
          entries := w.entries.filter (·.compartment ≠ c)
          retrieved := w.retrieved + (if retrieved then 1 else 0)
          skipped := w.skipped + (if retrieved then 0 else 1) }
        applyPickup k (setSession k (some { x with deadline := s.elapsed + 120, sweep := w.orEnded }) s)
      else s
    | none => s
  | none => s

/-- Reports the opening of a door at a strike's success: a DEPOSIT declaration turns to LOADING in
its session's pipeline (R106), and a RETRIEVE extends its session's deadline (R148). -/
def reportOpening (c : CompNo) (t : Transient) (s : State) : State :=
  match sessionOf s t.kiosk, t.particulars with
  | some x, .deposit _ _ _ _ _ =>
    if x.pipeline.any (·.compartment = c) then
      setSession t.kiosk (some { x with
        pipeline := x.pipeline.map fun d => if d.compartment = c then { d with state := .loading } else d
        deadline := s.elapsed + 120 }) s
    else s
  | some x, .retrieve serial _ =>
    match x.sweep with
    | some w =>
      if x.serial = serial ∧ w.entries.any (fun e => e.compartment = c && e.inFlight) then
        setSession t.kiosk (some { x with deadline := s.elapsed + 120 }) s
      else s
    | none => s
  | _, _ => s

/-! ### Transactions that end without their door phase -/

/-- How a transaction ends without close handling: by cancellation (R14), by a second strike failure
(R15), or by a forced door (R20). -/
inductive Ending where
  | cancelled | jammed | forced
  deriving DecidableEq, Repr

/-- The state in which an ending leaves the compartment (R14, R15, R20). -/
def Ending.state (e : Ending) (t : Transient) (p : Option Parcel) : CompState :=
  match e, t.particulars with
  | .jammed, _ => .jammed
  | .forced, _ => .suspect
  | .cancelled, .deposit _ _ _ _ _ => .vacant
  | .cancelled, .drop _ _ _ => .vacant
  | .cancelled, .collect => .held
  | .cancelled, .retrieve _ _ => restedState p

/-- The door result that an ending writes (R129). -/
def Ending.doorOutcome : Ending → DoorOutcome
  | .cancelled => .cancelled | .jammed => .jammed | .forced => .suspect

/-- Writes the door result of a COLLECT or DROP, unless it ends in RECONCILE or in the door phase that
RECONCILE was resolved to (R129; log 38). -/
def noteDoor (state : CompState) (c : CompNo) (t : Transient) (outcome : DoorOutcome) (s : State) : State :=
  if state = .reconcile ∨ t.resolved then s
  else setDoorResult t.kiosk (some { compartment := c, purpose := t.particulars.purpose, outcome }) s

/-- Ends the transaction of a compartment: the transient part and any POSTAGE quote are deleted,
the slot reservation is released, and the owners of the purpose are told (R14, R15, R20). -/
def endTransaction (e : Ending) (c : CompNo) (s : State) : State :=
  let x := s.comp c
  match x.transient with
  | none => s
  | some t =>
    let s := releaseSlot ((s.setComp c { x with state := e.state t x.parcel, transient := none }).setQuote c none)
    match t.particulars with
    | .deposit serial declaration _ _ _ =>
      reportOutcome c t.kiosk serial declaration (if e = .jammed then .jammed else .cancelled) (removeEntry c s)
    | .drop _ reference paid => noteDoor x.state c t e.doorOutcome (freeReturn reference paid s)
    | .collect =>
      noteDoor x.state c t e.doorOutcome (if e = .cancelled then setEntryStatus c .live s else s)
    | .retrieve serial _ => reportRetrieval c t.kiosk serial false s

/-- Removes the quote of a compartment unpaid: a COLLECTION's compartment stays HELD, a POSTAGE
drop is reverted (R72, R14). -/
def dropQuote (c : CompNo) (s : State) : State :=
  match s.quoteOf c with
  | some q =>
    match q.purpose with
    | .collection => s.setQuote c none
    | .postage _ => endTransaction .cancelled c (s.setQuote c none)
  | none => s

/-- Whether a quote's expiry time has been passed (R72). -/
def quotePassed (s : State) (q : Quote) : Bool :=
  match s.clock with
  | some now => q.expiry < now
  | none => false

/-! ### Close handling -/

/-- The DELIVERY record of a committed deposit: its snapshot is the row of the compartment's class
(R17, R55), which is present at every commit (R52; log 23). -/
def committedDelivery (s : State) (c : CompNo) (courier reference prepaid : Nat) : Delivery :=
  { reference, courier, depositTime := s.clock
    snapshot := (look s.ret.tariff (classAt s c).index).getD
      { freePeriod := 0, period := 1, rate := 0, cap := 1, ceiling := 0, allowance := 1 }
    prepaid, paid := 0, code := codeNaming s c, abandonedTime := none }

/-- The COLLECTED notice of a completed collection (R18, R128). -/
def collectedNotice (s : State) (c : CompNo) (d : Delivery) : Notice :=
  .collected c d.reference d.courier d.depositTime d.paid s.clock

/-- The RETRIEVED notice of a completed retrieval (R18, R151). -/
def retrievedNotice (s : State) (c : CompNo) (courier : Nat) : Parcel → Notice
  | .delivery d => .retrieved c .delivery d.reference courier s.clock
  | .returned r => .retrieved c .returned r.reference courier s.clock

/-- Makes the notice of a completed collection from its parcel record (R18, R128, R213). -/
def noticeCollected (c : CompNo) (parcel : Option Parcel) (s : State) : State :=
  match parcel with
  | some (.delivery d) => fillSlot (collectedNotice s c d) s
  | _ => releaseSlot s

/-- Makes the notice of a completed retrieval from its parcel record (R18, R151, R213). -/
def noticeRetrieved (c : CompNo) (courier : Nat) (parcel : Option Parcel) (s : State) : State :=
  match parcel with
  | some p => fillSlot (retrievedNotice s c courier p) s
  | none => releaseSlot s

/-- Close handling: the procedure by which a door phase ends, on the purpose in the transient part
and the occupancy reading (R16, R17, R18). -/
def closeHandling (c : CompNo) (occupied : Bool) (s : State) : State :=
  let x := s.comp c
  let s := s.setAjar c none
  match x.transient with
  | none => s
  | some t =>
    match t.particulars, occupied with
    | .deposit serial declaration courier reference prepaid, true =>
      let d := committedDelivery s c courier reference prepaid
      let s := s.setComp c { x with state := .held, transient := none, parcel := some (.delivery d) }
      let s := fillSlot (.deposited c courier reference (d.code.getD 0) d.depositTime prepaid) (setEntryStatus c .live s)
      reportOutcome c t.kiosk serial declaration .committed s
    | .deposit serial declaration _ _ _, false =>
      let s := releaseSlot (removeEntry c (s.setComp c { x with state := .vacant, transient := none }))
      reportOutcome c t.kiosk serial declaration .abortedEmpty s
    | .drop courier reference paid, true =>
      let s := s.setComp c { x with
        state := .held, transient := none
        parcel := some (.returned { reference, courier, depositTime := s.clock, postagePaid := paid }) }
      let s := fillSlot (.dropped c reference courier paid s.clock) (changeReturn reference (fun _ => none) s)
      noteDoor x.state c t .completed s
    | .drop _ reference paid, false =>
      let s := releaseSlot (freeReturn reference paid (s.setComp c { x with state := .vacant, transient := none }))
      noteDoor x.state c t .incomplete s
    | .collect, false =>
      let s := noticeCollected c x.parcel (s.setComp c { x with state := .vacant, transient := none, parcel := none })
      noteDoor x.state c t .completed (removeEntry c s)
    | .collect, true =>
      let s := releaseSlot (setEntryStatus c .live (s.setComp c { x with state := .held, transient := none }))
      noteDoor x.state c t .incomplete s
    | .retrieve serial courier, false =>
      let s := noticeRetrieved c courier x.parcel (s.setComp c { x with state := .vacant, transient := none, parcel := none })
      reportRetrieval c t.kiosk serial true s
    | .retrieve serial _, true =>
      let s := releaseSlot (s.setComp c { x with state := restedState x.parcel, transient := none })
      reportRetrieval c t.kiosk serial false s

/-- A confirmed close reaches the CTU: close handling in LOADING, UNLOADING and RECONCILE, no change
in any other state (R16, R28). -/
def confirmedClose (c : CompNo) (occupied : Bool) (s : State) : State :=
  match (s.comp c).state with
  | .loading | .unloading | .reconcile => closeHandling c occupied s
  | _ => s

/-- An occupancy confirmation reaches the CTU (R21, R185, R188). -/
def occupancyConfirmed (c : CompNo) (occupied : Bool) (s : State) : State :=
  match (s.comp c).state, occupied with
  | .vacant, true => postAlarm .mismatch c.val (s.setComp c { s.comp c with state := .suspect })
  | .held, false | .abandoned, false => postAlarm .mismatch c.val s
  | _, _ => s

/-! ### Forced doors and door openings -/

/-- A forced door (R20): the compartment becomes SUSPECT and FORCED is posted. -/
def forceDoor (c : CompNo) (s : State) : State :=
  let x := s.comp c
  let s := match x.state with
    | .held => setEntryStatus c .suspended ((s.setComp c { x with state := .suspect }).setQuote c none)
    | .reserved | .releasing | .reconcile => endTransaction .forced c (withdrawStrike c s)
    | _ => s.setComp c { x with state := .suspect }
  postAlarm .forced c.val s

/-- Starts a compartment's ajar watch, 90 s ahead (R172). -/
def startWatch (c : CompNo) (s : State) : State := s.setAjar c (some (.running (s.elapsed + 90)))

/-- A RECONCILE compartment found open returns to, or enters, the door phase of its prior state
(R28, R172), and keeps that it was resolved from RECONCILE (R129; log 38). -/
def resumeOpen (c : CompNo) (state : CompState) (s : State) : State :=
  startWatch c (s.setComp c { s.comp c with
    state, transient := (s.comp c).transient.map fun t => { t with prior := none, resolved := true } })

/-- A door open confirmation with no active strike reaches the CTU (R13, R20, R28). -/
def doorOpenUnstruck (c : CompNo) (s : State) : State :=
  let x := s.comp c
  match x.state, x.transient with
  | .vacant, _ | .held, _ | .abandoned, _ => forceDoor c s
  | .reserved, some t | .releasing, some t => if t.strikeIssued then s else forceDoor c s
  | .reconcile, some t =>
    match t.prior, t.strikeIssued with
    | some .loading, _ | some .reserved, true => resumeOpen c .loading s
    | some .unloading, _ | some .releasing, true => resumeOpen c .unloading s
    | some .reserved, false | some .releasing, false => forceDoor c s
    | none, _ => s
  | _, _ => s

/-! ### The active strike -/

/-- The door phase that the success of a strike begins (R13). -/
def CompState.opened : CompState → CompState
  | .reserved => .loading
  | .releasing => .unloading
  | other => other

/-- The door phase of a compartment begins, and the CSU is told (R13, R106, R148). -/
def enterDoorPhase (c : CompNo) (s : State) : State :=
  let x := s.comp c
  let s := s.setComp c { x with state := x.state.opened }
  match x.transient with
  | some t => reportOpening c t s
  | none => s

/-- A strike succeeds: the compartment moves to its door phase, the CSU is told, and the ajar watch
starts; but when the door was seen in ISSUED and has since been confirmed closed, close handling
runs at once on the occupancy of that close (R13, R164). -/
def strikeSucceeds (g : SegNo) (a : ActiveStrike) (s : State) : State :=
  let s := enterDoorPhase a.compartment (endStrike g a s)
  let l := s.line a.board a.line
  match a.doorSeen, l.doorOpen, l.closeOccupied with
  | true, some false, some occupied => closeHandling a.compartment occupied s
  | _, _, _ => startWatch a.compartment s

/-- Cancels the transaction of an entry that has left its queue (R169, R14). -/
def cancelTransaction (c : CompNo) (s : State) : State := endTransaction .cancelled c s

/-- The requeue of a failed first attempt at the head of its segment's queue, with the tail entry
displaced and cancelled when the queue holds 16 entries, and the new entry cancelled at once in
EVACUATE (R166; log 11). -/
def requeue (g : SegNo) (a : ActiveStrike) (s : State) : State :=
  let q := (s.seg g).queue
  let e : StrikeEntry :=
    { compartment := a.compartment, purpose := a.purpose, attempt := .second, enqueued := s.elapsed }
  let displaced := if 16 ≤ q.length then q.getLast? else none
  let kept := if 16 ≤ q.length then q.dropLast else q
  let s := setMark a.compartment false (s.setSeg g { s.seg g with queue := e :: kept })
  let s := match displaced with
    | some d => cancelTransaction d.compartment s
    | none => s
  if s.ret.concourse = .evacuate then cancelTransaction a.compartment (dropQueued g a.compartment s) else s

/-- A strike's attempt fails: the first is requeued as attempt 2 (R166), the second makes the
compartment JAMMED (R167, R15). Issue is applied at the same event, after the end of every transaction that
the failure ends and what that end sets off (log 47). -/
def attemptFails (g : SegNo) (a : ActiveStrike) (s : State) : State :=
  let s := endStrike g a s
  let s := match a.attempt with
    | .first => requeue g a s
    | .second => postAlarm .jammed a.compartment.val (endTransaction .jammed a.compartment s)
  applyIssue g s

/-- The energised period of an ISSUED strike ends by a fault, a lost board or its deadline: success
when the door was seen, a failed attempt otherwise (R162). Issue follows the success and the close
handling it may run, a choice of the model (log 39). -/
def energiseEnds (g : SegNo) (a : ActiveStrike) (s : State) : State :=
  if a.doorSeen then applyIssue g (strikeSucceeds g a s) else attemptFails g a s

/-- A strike done report for an ISSUED strike: success when the door was seen, else CONFIRMING with
a deadline 3 s ahead; issue is applied (R162), after the success and its close handling (log 39). -/
def strikeDone (g : SegNo) (a : ActiveStrike) (s : State) : State :=
  if a.doorSeen then applyIssue g (strikeSucceeds g a s)
  else applyIssue g (setActive g { a with phase := .confirming (s.elapsed + 3) } s)

/-- A door open confirmation of a compartment goes first to the SSU, which takes it for an active
strike, and otherwise to the CTU (R163). -/
def doorOpened (c : CompNo) (s : State) : State :=
  match activeOf s c with
  | some (g, a) => if a.isIssued then setActive g { a with doorSeen := true } s else strikeSucceeds g a s
  | none => doorOpenUnstruck c s

end Sys2Proof.Machine
end

