-- ==== Sys2Proof/Machine/Boards.lean ====
section
/-! DEFINITION. The segment poll controllers: sweeps and rate modes, board link states, readings and
confirmations, and the outcome of a poll. -/

namespace Sys2Proof.Machine

/-! ### Sweeps and rate modes -/

/-- Whether a sweep whose counter has this value polls a slot (R177). -/
def slotPolled (s : State) (counter : Nat) (content : SlotContent) : Bool :=
  (s.board content.board).link ≠ .withdrawn &&
    match content.parity with
    | .every => true
    | .even => counter % 2 = 0
    | .odd => counter % 2 = 1

/-- The first slot from `first` on that the segment's sweep polls, with its board (R177). -/
def nextPolled (s : State) (g : SegNo) (first : Nat) : Option (SlotNo × BoardNo) :=
  (List.finRange 16).findSome? fun i =>
    match look (look s.ret.slots g) i with
    | some content =>
      if first ≤ i.val ∧ slotPolled s (s.seg g).sweepCounter content then some (i, content.board) else none
    | none => none

/-- Sends a poll to a slot's board, carrying the oldest strike of its hand-off list and its
expected report bit (R179, R223). -/
def sendPoll (g : SegNo) (slot : SlotNo) (b : BoardNo) (s : State) : State :=
  let strike := (s.board b).handOff.head?
  s.setSeg g { s.seg g with
    phase := .polling slot b strike, linkOut := pollBytes b strike (s.board b).expectedBit }

/-- Starts a sweep of a segment (R177, R178). -/
def startSweep (g : SegNo) (s : State) : State :=
  let s := s.setSeg g { s.seg g with sweepStart := s.elapsed, phase := .noSlots }
  match nextPolled s g 0 with
  | some (slot, b) => sendPoll g slot b s
  | none => s

/-- Ends a sweep: the counter advances, and the next sweep starts at once in FULL mode, or in QUIET
mode once 1 s has passed since the start of this one (R177, R178). -/
def endSweep (g : SegNo) (s : State) : State :=
  let x := s.seg g
  let s := s.setSeg g { x with sweepCounter := (x.sweepCounter + 1) % 65536, phase := .waiting }
  if x.rate = .full ∨ x.sweepStart + 1 ≤ s.elapsed then startSweep g s else s

/-- Goes on from a slot whose slot time has ended: the next slot polled, or the end of the sweep
(R177). -/
def advanceSweep (g : SegNo) (slot : SlotNo) (s : State) : State :=
  match nextPolled s g (slot.val + 1) with
  | some (next, b) => sendPoll g next b s
  | none => endSweep g s

/-- The three conditions of QUIET mode (R178). -/
def quietHolds (s : State) (g : SegNo) : Bool :=
  s.ret.concourse = .closed && s.kioskIdle.isNone && (s.seg g).queue.isEmpty && (s.seg g).active.isEmpty

/-- Brings a segment's rate mode in step with the three conditions; a return to FULL starts the
sweep that was waiting for its second (R178). -/
def setRate (g : SegNo) (s : State) : State :=
  let x := s.seg g
  match x.rate, quietHolds s g with
  | .full, true => s.setSeg g { x with rate := .quiet }
  | .quiet, false =>
    let s := s.setSeg g { x with rate := .full }
    if x.phase = .waiting then startSweep g s else s
  | _, _ => s

/-- The rate modes of all segments (R178). -/
def setRates (s : State) : State := forEach setRate s

/-! ### Confirmations -/

/-- A confirmed close of a line: the confirmed occupancy is the newer reply's, and the close goes to the
CTU (R184, R185). -/
def lineClosed (b : BoardNo) (l : LineNo) (newer : Reading) (s : State) : State :=
  let s := s.setLine b l { s.line b l with
    doorOpen := some false, occupied := some newer.occupied, closeOccupied := some newer.occupied }
  match compAt s b l with
  | some c => confirmedClose c newer.occupied s
  | none => s

/-- The occupancy confirmation that follows a confirmed close whose two replies agree on the occupancy
(R185). -/
def closeOccupancy (b : BoardNo) (l : LineNo) (s : State) : State :=
  match (s.line b l).older, (s.line b l).newer, compAt s b l with
  | some o, some n, some c => if o.occupied = n.occupied then occupancyConfirmed c n.occupied s else s
  | _, _, _ => s

/-- A door open confirmation of a line: its confirmed occupancy becomes none, and the confirmation
goes to the SSU for the line's compartment (R184, R185, R163). -/
def lineOpened (b : BoardNo) (l : LineNo) (s : State) : State :=
  let s := s.setLine b l { s.line b l with doorOpen := some true, occupied := none }
  match compAt s b l with
  | some c => doorOpened c s
  | none => s

/-- Derives a line's confirmed door state from its latest two readings while the board is ONLINE
(R184); at an ONLINE declaration the confirmed state is none before (R182, R183). -/
def confirmDoor (b : BoardNo) (l : LineNo) (s : State) : State :=
  let x := s.line b l
  match x.older, x.newer with
  | some o, some n =>
    if (s.board b).link = .online ∧ o.doorOpen = n.doorOpen ∧ x.doorOpen ≠ some n.doorOpen then
      if n.doorOpen then lineOpened b l s else lineClosed b l n s
    else s
  | _, _ => s

/-- Derives an occupancy confirmation while the confirmed door state is CLOSED (R185). -/
def confirmOccupancy (b : BoardNo) (l : LineNo) (s : State) : State :=
  let x := s.line b l
  match x.older, x.newer with
  | some o, some n =>
    if (s.board b).link = .online ∧ x.doorOpen = some false ∧ o.doorOpen = false ∧ n.doorOpen = false
        ∧ o.occupied = n.occupied ∧ x.occupied ≠ some n.occupied then
      let s := s.setLine b l { x with occupied := some n.occupied }
      match compAt s b l with
      | some c => occupancyConfirmed c n.occupied s
      | none => s
    else s
  | _, _ => s

/-- Whether a line has been confirmed closed since its board's lines stood as `before`. -/
def closedSince (before : Vector Line 12) (b : BoardNo) (l : LineNo) (s : State) : Bool :=
  (look before l).doorOpen ≠ some false && (s.line b l).doorOpen = some false

/-- The occupancy confirmation of a line, derived by itself or following the line's close since `before`
(R185). -/
def confirmOccupancies (before : Vector Line 12) (b : BoardNo) (l : LineNo) (s : State) : State :=
  if closedSince before b l s then closeOccupancy b l s else confirmOccupancy b l s

/-- Derives a line's door state at an ONLINE declaration; a close is followed at once by its occupancy
confirmation (R183). -/
def confirmFresh (b : BoardNo) (l : LineNo) (s : State) : State :=
  let t := confirmDoor b l s
  if closedSince (s.board b).lines b l t then closeOccupancy b l t else t

/-- Takes a good reply's readings: the older of each line is replaced by the newer (R184). -/
def takeReadings (b : BoardNo) (readings : Vector Reading 12) (s : State) : State :=
  let x := s.board b
  s.setBoard b { x with
    lines := Vector.ofFn fun l => { look x.lines l with
      older := (look x.lines l).newer, newer := some (look readings l) } }

/-! ### Board link states -/

/-- Declares a board LOST (R182). Its ISSUED strikes end in the order of their issue (R162; log 10). -/
def declareLost (b : BoardNo) (s : State) : State :=
  let g := segmentOf b
  let x := s.board b
  let s := s.setBoard b { x with
    link := .lost, goodRun := 0, window := [], handOff := []
    lines := x.lines.map fun l => { l with doorOpen := none, occupied := none, closeOccupied := none } }
  let s := postAlarm .boardLost b.val s
  let ends := (s.seg g).active.filter fun a => a.isIssued && a.board = b
  ends.foldl (fun s a => energiseEnds g a s) s

/-- The UNSERVED compartments of a board whose map entries are in service become VACANT (R22). -/
def serveBoard (b : BoardNo) (s : State) : State :=
  { s with ret := { s.ret with compartments := s.ret.compartments.map fun x =>
      match x.map with
      | some m => if m.board = b ∧ m.inService ∧ x.state = .unserved then { x with state := .vacant } else x
      | none => x } }

/-- The confirmations of an ONLINE declaration, line by line. The SSU hears of the declaration only after
them, so what they set off issues no strike on the board (R183; log 49). -/
def confirmLines (b : BoardNo) (s : State) : State :=
  let t := forEach (fun l => confirmFresh b l) { s with declaring := some b }
  { t with declaring := s.declaring }

/-- Declares a board ONLINE (R183). -/
def declareOnline (b : BoardNo) (s : State) : State :=
  let s := s.setBoard b { s.board b with link := .online, goodRun := 0, window := [] }
  applyIssue (segmentOf b) (confirmLines b (serveBoard b s))

/-- The outcomes of the latest 32 polls (R181). -/
def appendOutcome (window : List Bool) (good : Bool) : List Bool :=
  (if 32 ≤ window.length then window.drop 1 else window) ++ [good]

/-- Link supervision of a poll outcome (R181). A board withdrawn while its poll was under way is
not supervised (log 14). One that a load has unnamed in the meantime is, also where it has been named again
(R176; log 52). -/
def supervise (b : BoardNo) (good : Bool) (s : State) : State :=
  let x := s.board b
  match x.link with
  | .online =>
    let window := appendOutcome x.window good
    let s := s.setBoard b { x with window }
    if !good && 8 ≤ window.count false then declareLost b s else s
  | .unknown | .lost =>
    if good then
      if 32 ≤ x.goodRun + 1 then declareOnline b s else s.setBoard b { x with goodRun := x.goodRun + 1 }
    else s.setBoard b { x with goodRun := 0 }
  | .withdrawn => s

/-! ### The outcome of a poll -/

/-- A good reply that names the strike its poll carried as taken removes it from the hand-off list
(R179). -/
def strikeTaken (b : BoardNo) (carried taken : Option LineNo) (s : State) : State :=
  match carried, taken with
  | some l, some t =>
    if l = t then s.setBoard b { s.board b with handOff := (s.board b).handOff.filter (· ≠ t) } else s
  | _, _ => s

/-- A new strike report of an ONLINE board reaches the SSU: it acts on the ISSUED strike of the
line, and is dropped where there is none (R162, R179). -/
def reportStrike (b : BoardNo) (l : LineNo) (fault : Bool) (s : State) : State :=
  let g := segmentOf b
  match (s.seg g).active.find? (fun a => a.isIssued && a.board = b && a.line = l) with
  | some a => if fault then energiseEnds g a s else strikeDone g a s
  | none => s

/-- Takes the strike report of a good reply: a report whose bit equals the expected bit is new,
flips the bit, and goes to the SSU while the board is ONLINE (R179, R186). -/
def takeReport (b : BoardNo) (report : Option (LineNo × Bool × Bool)) (s : State) : State :=
  match report with
  | some (l, fault, bit) =>
    let x := s.board b
    if bit = x.expectedBit then
      let s := s.setBoard b { x with expectedBit := !x.expectedBit }
      if x.link = .online then reportStrike b l fault s else s
    else s
  | none => s

/-- Takes a good reply in the order of R186: all door confirmations come before the occupancy
confirmations, those of the lines just closed among them. The readings of a WITHDRAWN board are not kept (R189;
log 14). -/
def takeReply (b : BoardNo) (carried : Option LineNo) (r : BoardReply) (s : State) : State :=
  let s := if (s.board b).link = .withdrawn then s else takeReadings b r.readings s
  let s := strikeTaken b carried r.taken (supervise b true s)
  let before := (s.board b).lines
  let s := forEach (fun l => confirmDoor b l) s
  let s := forEach (fun l => confirmOccupancies before b l) s
  takeReport b r.report s

/-- Takes the outcome of a poll of a board (R180, R186). -/
def takeOutcome (b : BoardNo) (carried : Option LineNo) (heard : Option (List Byte)) (s : State) : State :=
  match goodReply b heard with
  | some r => takeReply b carried r s
  | none => supervise b false s

end Sys2Proof.Machine
end

