-- ==== Sys2Proof/Machine/Flags.lean ====
section
/-! DEFINITION. What every event leaves in step: the rate modes, the attention line and the
retention check word; and the frame of an event and of a request, with its status word and reply. -/

namespace Sys2Proof.Machine

/-- The outcome of a command. -/
abbrev Result := Host.Outcome State Fault Refusal

/-- Whether alarms of a kind are enabled (R203). -/
def enabled (s : State) (k : AlarmKind) : Bool := look s.ret.enables (alarmCode k)

/-- The level of the attention line: asserted while an enabled alarm is pending (R205). -/
def attentionLevel (s : State) : Bool := s.alarms.any fun a => enabled s a.kind

/-- What an event leaves in step at its end: rate modes (R178), attention line (R205) and the
retention check word (R29). -/
def settle (s : State) : State :=
  let s := setRates s
  { s with attention := attentionLevel s, checkWord := Config.retentionCheck s.ret }

/-- An event: without main power nothing is taken (R29), and an event that is not due changes
nothing (log 1). -/
def event (s : State) (effect : State → Option State) : Result :=
  if s.run = .unpowered then .next s
  else
    match effect s with
    | some s' => .next (settle s')
    | none => .next s

/-- The answer of a request's owner: the state it leaves, the status word and the reply's fields. -/
structure Answer where
  state  : State
  status : Status
  body   : List Byte

/-- A refusal that changes no state (R2). -/
def refuse (s : State) (status : Status) : Answer := { state := s, status, body := [] }

/-- A request from a kiosk source sets the kiosk idle deadline 120 s ahead (R178, R210). -/
def touchIdle (r : Request) (s : State) : State :=
  match r.source with
  | .kiosk _ => { s with kioskIdle := some (s.elapsed + 120) }
  | _ => s

/-- Puts the reply to a request at the tail of the transmit queue (R210). A request with bank id 15,
which only a Broadcast to all banks is, is never answered (R209). -/
def sendReply (kind : Byte) (r : Request) (a : Answer) : State :=
  if r.bank = 15 then a.state
  else
    { a.state with transmit := a.state.transmit ++
        [{ bank := a.state.bankId, source := r.source, kind, tag := r.tag, status := a.status, body := a.body }] }

/-- The state in which the TIU takes a frame: it runs, the transmit queue has room for one more
reply, and the frame is the oldest of the receive queue (R210, R220, R221). The frame leaves the
queue. -/
def takeFrame (f : Frame) (s : State) : Option State :=
  match s.receive with
  | oldest :: rest =>
    if s.run = .running ∧ s.transmit.length < 4 ∧ oldest = f then some { s with receive := rest } else none
  | [] => none

/-- A request of a kind taken as one event, from its frame to its reply (R210). -/
def request (kind : Byte) (r : Request) (s : State) (own : State → Answer) : Result :=
  event s fun s => (takeFrame { kind, request := r } s).map fun s => sendReply kind r (own (touchIdle r s))

/-- The body check of R211: a malformed body is answered OUT_OF_RANGE. -/
def withBody {α : Type} (parsed : Option α) (s : State) (own : α → Answer) : Answer :=
  match parsed with
  | some x => own x
  | none => refuse s .outOfRange

/-- The source check of a kind permitted to the kiosks (R211). -/
def fromKiosk (r : Request) (s : State) (own : KioskNo → Answer) : Answer :=
  match r.source with
  | .kiosk k => own k
  | _ => refuse s .notPermitted

/-- The source check of a kind permitted to BACKEND alone (R211). -/
def fromBackend (r : Request) (s : State) (own : Answer) : Answer :=
  if r.source = .backend then own else refuse s .notPermitted

/-- The deadline of the SKC's states after a request that reached it in UNLOCKED (R216). -/
def extendUnlock (s : State) : State := { s with unlockDeadline := some (s.elapsed + 600) }

/-- The SKC's admission of a maintenance kind from SERVICE (R216). -/
def admitted (s : State) (own : State → Answer) : Answer :=
  match s.skc with
  | .noKeys => own s
  | .unlocked => own (extendUnlock s)
  | .idle | .barred => refuse s .maintenanceLocked
  | .collected1 | .collected2 | .collected3 =>
    refuse { s with skc := .barred, unlockDeadline := none } .maintenanceLocked

/-- A maintenance kind permitted to SERVICE alone: source, body length, admission, and then the
owner's checks (R211, R216). -/
def maintenance {α : Type} (r : Request) (parsed : Option α) (s : State) (own : α → State → Answer) : Answer :=
  if r.source = .service then withBody parsed s fun x => admitted s (own x) else refuse s .notPermitted

/-- A kind permitted to BACKEND and SERVICE, admitted by the SKC only from SERVICE (R211). -/
def staffRequest {α : Type} (r : Request) (parsed : Option α) (s : State) (own : α → State → Answer) : Answer :=
  match r.source with
  | .backend => withBody parsed s fun x => own x s
  | .service => withBody parsed s fun x => admitted s (own x)
  | _ => refuse s .notPermitted

/-- The concourse check of the customer requests (R116). -/
def customerConcourse (s : State) (own : Answer) : Answer :=
  match s.ret.concourse with
  | .opened | .restricted => own
  | .closed | .evacuate => refuse s .closed
  | .lockdown => refuse s .lockdown

/-- The concourse check of Sign On, Declare and Sweep: OPEN, CLOSED or RESTRICTED (R96, R102, R143). -/
def courierConcourse (s : State) (own : Answer) : Answer :=
  match s.ret.concourse with
  | .opened | .closed | .restricted => own
  | .evacuate => refuse s .closed
  | .lockdown => refuse s .lockdown

/-- The lockout check (R43). -/
def notLockedOut (k : KioskNo) (s : State) (own : Answer) : Answer :=
  if (s.kiosk k).lockout.isSome then refuse s .lockedOut else own

/-- The clock check (R116, R137, R102). -/
def withClock (s : State) (own : Nat → Answer) : Answer :=
  match s.clock with
  | some now => own now
  | none => refuse s .noTime

/-- The class checks of a customer request without the clock check (R73, R130). -/
def customer {α : Type} (r : Request) (parsed : Option α) (s : State) (own : KioskNo → α → Answer) : Answer :=
  fromKiosk r s fun k => withBody parsed s fun x => customerConcourse s (notLockedOut k s (own k x))

/-- The checks that precede a courier request's own: the source, then, the session's activity noted
whatever follows (R99), the body (R211). -/
def courierRequest {α : Type} (r : Request) (parsed : Option α) (s : State)
    (own : KioskNo → α → State → Answer) : Answer :=
  fromKiosk r s fun k =>
    let s := touchSession k s
    withBody parsed s fun x => own k x s

/-- The session check of a courier request: an empty slot is answered NOT_SIGNED_ON. -/
def withSession (k : KioskNo) (s : State) (own : Session → Answer) : Answer :=
  match sessionOf s k with
  | some x => own x
  | none => refuse s .notSignedOn

end Sys2Proof.Machine
end

