-- ==== Sys2Proof/Machine/CourierRequests.lean ====
section
/-! DEFINITION. The courier requests: Sign On, Sign Off, Declare, Session Status, Sweep and Sweep
End. -/

namespace Sys2Proof.Machine

/-- The courier table entry of an id (R91). -/
def courierOf (s : State) (id : Nat) : Option Courier := s.ret.couriers.find? (·.id = id)

/-- Whether a compartment counts towards a courier's held count (R94). -/
def heldBy (id : Nat) (x : Compartment) : Bool :=
  let declared := match x.transient with
    | some { particulars := .deposit _ _ courier _ _, .. } =>
      courier = id && (x.state = .reserved || x.state = .loading || x.state = .reconcile)
    | _ => false
  let deposited := match x.parcel with
    | some (.delivery d) =>
      d.courier = id && (x.state = .held || x.state = .releasing || x.state = .unloading
        || x.state = .abandoned || x.state = .jammed || x.state = .suspect || x.state = .reconcile)
    | _ => false
  declared || deposited

/-- A courier's held count (R94). -/
def heldCount (s : State) (id : Nat) : Nat := s.ret.compartments.toList.countP (heldBy id)

/-- Whether a courier has an open session at any kiosk (R95). -/
def hasSession (s : State) (id : Nat) : Bool :=
  (List.finRange 4).any fun k => ((sessionOf s k).map (·.courier)) = some id

/-! ### Sign On and Sign Off -/

/-- The session that an accepted Sign On opens (R97). -/
def openSession (s : State) (id : Nat) : Session :=
  { courier := id, serial := s.nextSerial, nextDeclaration := 0, deadline := s.elapsed + 120,
    pipeline := [], outcomes := Vector.replicate 256 none, sweep := none }

/-- An accepted Sign On (R97). -/
def acceptSignOn (k : KioskNo) (e : Courier) (s : State) : Answer :=
  let body := be 2 s.nextSerial ++ flag e.deposit ++ flag e.returns ++ flag e.recover ++ be 2 e.quota
    ++ be 2 (heldCount s e.id)
  let s := setSession k (some (openSession s e.id)) (countSuccess k s)
  { state := { s with nextSerial := (s.nextSerial + 1) % 65536 }, status := .accepted, body }

/-- Checks 4 to 6 of a Sign On (R96). -/
def ownSignOn (k : KioskNo) (id : Nat) (credential : BitVec 32) (s : State) : Answer :=
  if (sessionOf s k).isSome then refuse s .busy
  else
    match courierOf s id with
    | some e =>
      if e.credential = credential ∧ e.active then
        if hasSession s id then refuse s .busy else acceptSignOn k e s
      else refuse (countFailure k s) .notPermitted
    | none => refuse (countFailure k s) .notPermitted

/-- SIGN_ON (R96, R97). -/
def execSignOn (r : Request) (s : State) : Result :=
  request 5 r s fun s =>
    courierRequest r (bodySignOn r.body) s fun k (id, credential) s =>
      courierConcourse s (notLockedOut k s (ownSignOn k id credential s))

/-- SIGN_OFF (R98). The session ends: its slot becomes empty (R100). -/
def execSignOff (r : Request) (s : State) : Result :=
  request 6 r s fun s =>
    courierRequest r (bodyEmpty r.body) s fun k _ s =>
      withSession k s fun x =>
        { state := setSession k none s, status := .accepted, body := be 1 x.pipeline.length }

/-! ### Declare -/

/-- An accepted Declare: a PENDING entry for its code, its compartment RESERVED, its place in the
pipeline, and its strike queued (R104). -/
def acceptDeclare (k : KioskNo) (x : Session) (f : DeclareFields) (c : CompNo) (code : Nat) (s : State) : Answer :=
  let n := x.nextDeclaration
  let s := addEntry code c .pending s
  let s := setSession k (some { x with
    pipeline := x.pipeline ++
      [{ number := n, compartment := c, cls := classAt s c, reference := f.reference, state := .waitingDoor }]
    outcomes := put x.outcomes (Fin.ofNat 256 n) none
    nextDeclaration := (n + 1) % 256
    deadline := s.elapsed + 120 }) s
  { state := queueStrike c .deposit s, status := .accepted
    body := compField c ++ be 1 n ++ classField (classAt s c) }

/-- The compartment reserved for a deposit (R10, R104). -/
def reserveDeposit (k : KioskNo) (x : Session) (f : DeclareFields) (c : CompNo) (s : State) : State :=
  s.setComp c { s.comp c with
    state := .reserved
    transient := some { particulars := .deposit x.serial x.nextDeclaration x.courier f.reference f.prepaid,
                        kiosk := k, strikeIssued := false, prior := none } }

/-- Undoes a reservation: VACANT, without its transient part (R10). -/
def undoReservation (c : CompNo) (s : State) : State :=
  s.setComp c { s.comp c with state := .vacant, transient := none }

/-- Checks 8 to 10 of a Declare and its acceptance (R103). -/
def placeDeclare (k : KioskNo) (x : Session) (f : DeclareFields) (cls : SizeClass) (s : State) : Answer :=
  match reserveSlot s with
  | none => refuse s .backlog
  | some s =>
    match allocate s cls f.upsize true with
    | none => refuse (releaseSlot s) .noRoom
    | some (s, c) =>
      if !compHasRoom s c then refuse (releaseSlot s) .retryLater
      else
        match generation (reserveDeposit k x f c s) with
        | (s, some code) => acceptDeclare k x f c code s
        | (s, none) => refuse (releaseSlot (undoReservation c s)) .noCode

/-- The greatest consignment reference, 12 digits (R101). -/
def maxConsignment : Nat := 999999999999

/-- Checks 4 to 7 of a Declare (R102, R103). -/
def rangeDeclare (k : KioskNo) (x : Session) (e : Courier) (f : DeclareFields) (s : State) : Answer :=
  withClock s fun _ =>
    match classOf? f.cls with
    | none => refuse s .outOfRange
    | some cls =>
      if maxConsignment < f.reference ∨ 999999 < f.prepaid then refuse s .outOfRange
      else if (look s.ret.tariff cls.index).isNone then refuse s .unconfigured
      else if 2 ≤ x.pipeline.length ∨ x.sweep.isSome then refuse s .busy
      else if e.quota ≤ heldCount s x.courier then refuse s .quota
      else placeDeclare k x f cls s

/-- DECLARE (R101 to R104). -/
def execDeclare (r : Request) (s : State) : Result :=
  request 7 r s fun s =>
    courierRequest r (bodyDeclare r.body) s fun k f s =>
      withSession k s fun x =>
        match courierOf s x.courier with
        | some e => if e.deposit then courierConcourse s (rangeDeclare k x e f s) else refuse s .notPermitted
        | none => refuse s .notPermitted

/-! ### Session Status -/

/-- Whether a sweep in ISSUING waits for LOCKDOWN to end, the outbox or the strike queue (R152). -/
def sweepWaiting (s : State) (w : CourierSweep) : Bool :=
  match w.firstUnissued with
  | some e => !w.draining && w.inFlight < 4 && issueHeldUp s e
  | none => false

/-- The phase of an IN_FLIGHT compartment: QUEUED 0, STRIKING 1, OPEN 2 (R152). -/
def retrievalPhase (s : State) (c : CompNo) : Nat :=
  match (s.comp c).state, (s.comp c).transient with
  | .releasing, some t => if t.strikeIssued then 1 else 0
  | .releasing, none => 0
  | _, _ => 2

/-- The figures of a sweep (R152). -/
def sweepField (s : State) (w : CourierSweep) : List Byte :=
  be 1 (if w.draining then 1 else 0) ++ flag w.returns ++ flag w.recover
    ++ counted (fun e => compField e.compartment) (w.entries.filter (!·.inFlight))
    ++ counted (fun e => compField e.compartment ++ be 1 (retrievalPhase s e.compartment)) (w.entries.filter (·.inFlight))
    ++ flag (sweepWaiting s w) ++ be 1 w.retrieved ++ be 1 w.skipped ++ be 1 w.dropped

/-- What a session knows of a declaration number: its state in the pipeline, otherwise its outcome
table entry or absent (R109; log 17). -/
def namedField (x : Session) (n : Nat) : List Byte :=
  match x.pipeline.find? (·.number = n) with
  | some d => flag true ++ be 1 (declStateCode d.state)
  | none => flag false ++ optional outcomeField (look x.outcomes (Fin.ofNat 256 n))

/-- The fields of a Session Status reply (R109). -/
def sessionBody (s : State) (x : Session) (named : Option Nat) : List Byte :=
  be 2 x.courier ++ be 2 x.serial
    ++ flag (x.pipeline.length < 2 && x.sweep.isNone) ++ flag x.pipeline.isEmpty
    ++ counted declarationField x.pipeline
    ++ be 2 (heldCount s x.courier)
    ++ be 2 (match courierOf s x.courier with | some e => e.quota | none => 0)
    ++ optional (namedField x) named
    ++ optional (sweepField s) x.sweep

/-- SESSION_STATUS (R109). -/
def execSessionStatus (r : Request) (s : State) : Result :=
  request 8 r s fun s =>
    courierRequest r (bodySessionStatus r.body) s fun k named s =>
      withSession k s fun x => { state := s, status := .accepted, body := sessionBody s x named }

/-! ### Sweep and Sweep End -/

/-- Whether a compartment stands on the pickup list of a kiosk's session (R144). -/
def onList (s : State) (k : KioskNo) (c : CompNo) : Bool :=
  match (sessionOf s k).bind (·.sweep) with
  | some w => w.entries.any (·.compartment = c)
  | none => false

/-- The kind under which a Sweep lists a compartment, if it does (R144). -/
def listedKind (s : State) (k : KioskNo) (courier : Nat) (returns recover : Bool) (c : CompNo) : Option ParcelKind :=
  let elsewhere := (List.finRange 4).any fun j => j ≠ k && onList s j c
  let kind : Option ParcelKind :=
    if returns && asListed s courier { compartment := c, kind := .returned, inFlight := false } then some .returned
    else if recover && asListed s courier { compartment := c, kind := .delivery, inFlight := false } then some .delivery
    else none
  if elsewhere then none else kind

/-- The pickup list of a Sweep: the 64 lowest-numbered compartments that qualify, in ascending order
(R144). -/
def pickupList (s : State) (k : KioskNo) (courier : Nat) (returns recover : Bool) : List PickupEntry :=
  ((List.finRange 768).filterMap fun c =>
    (listedKind s k courier returns recover c).map fun kind =>
      { compartment := c, kind, inFlight := false : PickupEntry }).take 64

/-- The reply to an accepted Sweep: the list length and the listed compartments with their kinds
(R145; log 27). -/
def sweepReply (entries : List PickupEntry) : List Byte :=
  be 1 entries.length
    ++ counted (fun e => compField e.compartment ++ be 1 (parcelKindCode e.kind)) entries

/-- Checks 4 and 5 of a Sweep and its acceptance, at whose event issuing begins (R143, R145, R146). -/
def startCourierSweep (k : KioskNo) (x : Session) (returns recover : Bool) (s : State) : Answer :=
  if x.pipeline ≠ [] ∨ x.sweep.isSome then refuse s .busy
  else
    let entries := pickupList s k x.courier returns recover
    if entries = [] then refuse s .empty
    else
      let w : CourierSweep :=
        { entries, returns, recover, draining := false, retrieved := 0, skipped := 0, dropped := 0 }
      { state := applyPickup k (setSession k (some { x with sweep := some w }) s), status := .accepted
        body := sweepReply entries }

/-- SWEEP (R143). -/
def execSweep (r : Request) (s : State) : Result :=
  request 9 r s fun s =>
    courierRequest r (bodySweep r.body) s fun k (returns, recover) s =>
      withSession k s fun x =>
        if !returns && !recover then refuse s .outOfRange
        else
          match courierOf s x.courier with
          | some e =>
            if (returns && !e.returns) || (recover && !e.recover) then refuse s .notPermitted
            else courierConcourse s (startCourierSweep k x returns recover s)
          | none => refuse s .notPermitted

/-- The figures of a Sweep End reply (R149). -/
def sweepEndBody (w : CourierSweep) : List Byte :=
  be 1 w.retrieved ++ be 1 w.skipped ++ be 1 w.dropped ++ be 1 w.inFlight

/-- A sweep after Sweep End: its UNISSUED entries dropped, in DRAINING (R149). -/
def CourierSweep.drain (w : CourierSweep) : CourierSweep :=
  if w.draining then w
  else { w with
    entries := w.entries.filter (·.inFlight)
    dropped := w.dropped + (w.entries.filter (!·.inFlight)).length
    draining := true }

/-- SWEEP_END (R149). -/
def execSweepEnd (r : Request) (s : State) : Result :=
  request 10 r s fun s =>
    courierRequest r (bodyEmpty r.body) s fun k _ s =>
      withSession k s fun x =>
        match x.sweep with
        | none => refuse s .badState
        | some w =>
          { state := setSession k (some { x with sweep := w.drain.orEnded }) s, status := .accepted
            body := sweepEndBody w.drain }

end Sys2Proof.Machine
end

