-- ==== Sys2Proof/Machine/Backend.lean ====
section
/-! DEFINITION. The backend's requests, and the three requests that staff may send from BACKEND or
SERVICE. -/

namespace Sys2Proof.Machine

/-- FETCH_NOTICE (R214). -/
def execFetchNotice (r : Request) (s : State) : Result :=
  request 11 r s fun s =>
    fromBackend r s (withBody (bodyEmpty r.body) s fun _ =>
      match s.ret.outbox with
      | oldest :: rest =>
        { state := { s with ret := { s.ret with outbox := rest } }, status := .accepted
          body := noticeField oldest ++ be 1 rest.length ++ be 1 s.ret.reservations }
      | [] => { state := s, status := .empty, body := be 1 s.ret.reservations })

/-- A compartment whose collection has been granted: RELEASING, UNLOADING or RECONCILE with transient
purpose COLLECT (R44, R46). -/
def collectionGranted (x : Compartment) : Bool :=
  (x.state = .releasing || x.state = .unloading || x.state = .reconcile)
    && (x.transient.map (·.particulars)) = some .collect

/-- The DELIVERY record of a HELD compartment (R44, R46). -/
def heldDelivery (x : Compartment) : Option Delivery :=
  match x.state, x.parcel with
  | .held, some (.delivery d) => some d
  | _, _ => none

/-- Code withdrawal: the quote is removed, the record loses its code and receives its abandoned
time, and the compartment becomes ABANDONED (R25). -/
def withdrawCode (c : CompNo) (d : Delivery) (s : State) : State :=
  let time := match s.clock with
    | some now => now
    | none => d.depositTime.getD 0
  (s.setComp c { s.comp c with
    state := .abandoned
    parcel := some (.delivery { d with code := none, abandonedTime := some time }) }).setQuote c none

/-- REVOKE (R44). -/
def execRevoke (r : Request) (s : State) : Result :=
  request 12 r s fun s =>
    fromBackend r s (withBody (bodyNat 2 r.body) s fun n =>
      match compNo? n with
      | none => refuse s .outOfRange
      | some c =>
        match heldDelivery (s.comp c) with
        | some d => { state := withdrawCode c d (removeEntry c s), status := .accepted, body := [] }
        | none => if collectionGranted (s.comp c) then refuse s .tooLate else refuse s .badState)

/-- REISSUE (R46, R47). The generation is made while the old entry still stands. -/
def execReissue (r : Request) (s : State) : Result :=
  request 13 r s fun s =>
    fromBackend r s (withBody (bodyNat 2 r.body) s fun n =>
      match compNo? n with
      | none => refuse s .outOfRange
      | some c =>
        if collectionGranted (s.comp c) then refuse s .tooLate
        else
          match heldDelivery (s.comp c) with
          | none => refuse s .badState
          | some d =>
            match generation s with
            | (s, none) => refuse s .noCode
            | (s, some code) =>
              let s := addEntry code c .live (removeEntry c s)
              { state := s.setComp c { s.comp c with parcel := some (.delivery { d with code := some code }) }
                status := .accepted
                body := compField c ++ be 4 code })

/-- Ends any open session of a courier (R92, R93, R100). -/
def endSessionsOf (id : Nat) (s : State) : State :=
  { s with kiosks := s.kiosks.map fun x =>
      if (x.session.map (·.courier)) = some id then { x with session := none } else x }

/-- LOAD_COURIER (R92). -/
def execLoadCourier (r : Request) (s : State) : Result :=
  request 14 r s fun s =>
    fromBackend r s (withBody (bodyLoadCourier r.body) s fun e =>
      if e.id = 0 ∨ 65535 < e.id ∨ 768 < e.quota then refuse s .outOfRange
      else
        let present := (courierOf s e.id).isSome
        if !present && 64 ≤ s.ret.couriers.length then refuse s .full
        else
          let couriers := if present then s.ret.couriers.map (fun d => if d.id = e.id then e else d)
            else s.ret.couriers ++ [e]
          { state := endSessionsOf e.id { s with ret := { s.ret with couriers } }, status := .accepted
            body := [] })

/-- REMOVE_COURIER (R93). -/
def execRemoveCourier (r : Request) (s : State) : Result :=
  request 15 r s fun s =>
    fromBackend r s (withBody (bodyNat 2 r.body) s fun id =>
      if id = 0 ∨ 65535 < id then refuse s .outOfRange
      else if (courierOf s id).isNone then refuse s .badState
      else
        let couriers := s.ret.couriers.filter (·.id ≠ id)
        { state := endSessionsOf id { s with ret := { s.ret with couriers } }, status := .accepted
          body := [] })

/-- The greatest return reference, 10 digits (R132). -/
def maxReturnReference : Nat := 9999999999

/-- The entry that the fields of a Load Return make (R133). -/
def newReturn (f : LoadReturnFields) (cls : SizeClass) : ReturnEntry :=
  { reference := f.reference, cls, courier := f.courier, postage := f.postage, expiry := f.expiry,
    inUse := false, paidMark := none }

/-- LOAD_RETURN (R133). -/
def execLoadReturn (r : Request) (s : State) : Result :=
  request 16 r s fun s =>
    fromBackend r s (withBody (bodyLoadReturn r.body) s fun f =>
      match classOf? f.cls with
      | none => refuse s .outOfRange
      | some cls =>
        if maxReturnReference < f.reference ∨ f.courier = 0 ∨ 65535 < f.courier ∨ 999999 < f.postage then
          refuse s .outOfRange
        else if s.ret.returns.any (·.reference = f.reference) then refuse s .duplicate
        else if 256 ≤ s.ret.returns.length then refuse s .full
        else
          { state := { s with ret := { s.ret with returns := s.ret.returns ++ [newReturn f cls] } }
            status := .accepted, body := [] })

/-- REMOVE_RETURN (R134). -/
def execRemoveReturn (r : Request) (s : State) : Result :=
  request 17 r s fun s =>
    fromBackend r s (withBody (bodyNat 5 r.body) s fun reference =>
      if maxReturnReference < reference then refuse s .outOfRange
      else
        match s.ret.returns.find? (·.reference = reference) with
        | none => refuse s .badState
        | some e =>
          if e.inUse then refuse s .busy
          else { state := changeReturn reference (fun _ => none) s, status := .accepted, body := returnField e })

/-- The reply to a Settle: the repeat indication, the number and the twenty figures (R87, R88). -/
def settleBody (again : Bool) (x : Settlement) : List Byte :=
  flag again ++ be 2 x.number ++ x.figures.toList.flatMap takingsField

/-- A new settlement: the takings are taken into the last settlement record and zeroed (R87). -/
def newSettlement (number : Nat) (s : State) : Answer :=
  let x : Settlement := { number, figures := s.ret.takings }
  { state := { s with ret := { s.ret with takings := Vector.replicate 4 zeroTakings, lastSettlement := some x } }
    status := .accepted, body := settleBody false x }

/-- SETTLE (R87, R88). -/
def execSettle (r : Request) (s : State) : Result :=
  request 18 r s fun s =>
    fromBackend r s (withBody (bodyNat 2 r.body) s fun number =>
      match s.ret.lastSettlement with
      | some x =>
        if x.number = number then { state := s, status := .accepted, body := settleBody true x }
        else newSettlement number s
      | none => newSettlement number s)

/-- QUERY_COMPARTMENT (R32, R224). -/
def execQueryCompartment (r : Request) (s : State) : Result :=
  request 19 r s fun s =>
    staffRequest r (bodyNat 2 r.body) s fun n s =>
      match compNo? n with
      | none => refuse s .outOfRange
      | some c =>
        { state := s, status := .accepted
          body := compartmentImage c (s.comp c) (s.quoteOf c) (doorImage s c) (occupancyImage s c) }

/-- The CLEARED notice (R26). -/
def clearedNotice (c : CompNo) (d : Delivery) : Notice :=
  .cleared c d.reference d.courier d.depositTime d.paid

/-- Clear of a compartment whose door is closed and which is empty (R26). -/
def clearEmpty (c : CompNo) (s : State) : Answer :=
  let x := s.comp c
  let vacated := fun s : State => s.setComp c { x with state := .vacant, parcel := none }
  match x.parcel with
  | some (.delivery d) =>
    if d.code.isSome then
      match reserveSlot s with
      | none => refuse s .backlog
      | some s =>
        { state := removeEntry c (fillSlot (clearedNotice c d) (vacated s)), status := .accepted, body := [] }
    else { state := vacated s, status := .accepted, body := [] }
  | _ => { state := vacated s, status := .accepted, body := [] }

/-- Clear of a compartment whose door is closed and which is occupied (R26). -/
def clearOccupied (c : CompNo) (s : State) : Answer :=
  let x := s.comp c
  match x.parcel with
  | none => refuse s .badState
  | some p =>
    let s := s.setComp c { x with state := restedState (some p) }
    let coded := match p with
      | .delivery d => d.code.isSome
      | .returned _ => false
    { state := if coded then setEntryStatus c .live s else s, status := .accepted, body := [] }

/-- CLEAR (R26). -/
def execClear (r : Request) (s : State) : Result :=
  request 20 r s fun s =>
    staffRequest r (bodyNat 2 r.body) s fun n s =>
      match compNo? n with
      | none => refuse s .outOfRange
      | some c =>
        if (s.comp c).state ≠ .jammed ∧ (s.comp c).state ≠ .suspect then refuse s .badState
        else
          match doorImage s c, occupancyImage s c with
          | some false, some false => clearEmpty c s
          | some false, some true => clearOccupied c s
          | _, _ => refuse s .badState

/-- Whether an alarm comes before another in Fetch Alarm: by priority of the kind, then by object
number (R204). -/
def Alarm.before (a b : Alarm) : Bool :=
  (alarmCode a.kind).val < (alarmCode b.kind).val
    || (alarmCode a.kind = alarmCode b.kind && a.object < b.object)

/-- The first alarm of a list in Fetch Alarm's order (R204). -/
def firstAlarm : List Alarm → Option Alarm
  | [] => none
  | a :: rest =>
    match firstAlarm rest with
    | some b => if b.before a then some b else some a
    | none => some a

/-- The enabled pending alarms (R203). -/
def visibleAlarms (s : State) : List Alarm := s.alarms.filter fun a => enabled s a.kind

/-- The fields of a Fetch Alarm reply: the alarm and the number of enabled alarms left (R204). That the object
takes two bytes for every kind is the model's choice (log 42). -/
def alarmBody (a : Alarm) (left : Nat) : List Byte :=
  be 1 (alarmCode a.kind).val ++ be 2 a.object ++ optional timeField a.posted ++ be 2 left

/-- FETCH_ALARM (R204). -/
def execFetchAlarm (r : Request) (s : State) : Result :=
  request 21 r s fun s =>
    staffRequest r (bodyEmpty r.body) s fun _ s =>
      match firstAlarm (visibleAlarms s) with
      | none => { state := s, status := .empty, body := [] }
      | some a =>
        let s := { s with alarms := s.alarms.filter fun b => !(b.kind = a.kind && b.object = a.object) }
        { state := s, status := .accepted, body := alarmBody a (visibleAlarms s).length }

end Sys2Proof.Machine
end

