-- ==== Sys2Proof/Machine/Charge.lean ====
section
/-! DEFINITION. The tariff unit: clamps of a loaded row, the charge computation and the abandonment
time. -/

namespace Sys2Proof.Machine

/-- A value clamped into a range (R51, R54, R158). -/
def clamp (low high v : Nat) : Nat := max low (min high v)

/-- Division rounded up. -/
def divUp (a b : Nat) : Nat := (a + b - 1) / b

/-- The row as Load Tariff stores it: C, X and A clamped into range (R50, R51). -/
def clampRow (t : TariffRow) : TariffRow :=
  { t with cap := clamp 1 999999 t.cap, ceiling := clamp 0 999999 t.ceiling,
           allowance := clamp 1 43200 t.allowance }

/-- Stages 1 and 2: the whole minutes begun between deposit and `now`, with no credit for a clock
stepped back past the deposit (R57). -/
def minutesBegun (deposited now : Nat) : Nat := divUp (now - deposited) 60

/-- The periods that a day is cut into, Q (R58). -/
def periodsPerDay (t : TariffRow) : Nat := divUp 1440 t.period

/-- The charge of a whole day (R58). -/
def dayCharge (t : TariffRow) : Nat := min t.cap (t.rate * periodsPerDay t)

/-- The charge of the minutes `r` past the last whole day (R58). -/
def partCharge (t : TariffRow) (r : Nat) : Nat :=
  if r = 0 then 0 else min t.cap (t.rate * divUp r t.period)

/-- Stage 3: the gross charge G of a stay of `m` minutes (R58). -/
def grossCharge (t : TariffRow) (m : Nat) : Nat :=
  if m ≤ t.freePeriod then 0
  else
    let u := m - t.freePeriod
    (u / 1440) * dayCharge t + partCharge t (u % 1440)

/-- Stage 4: the capped charge G′ (R59). -/
def cappedCharge (t : TariffRow) (m : Nat) : Nat := min (grossCharge t m) t.ceiling

/-- The capped charge of a delivery deposited at `deposited` (R57 to R59). -/
def cappedAt (d : Delivery) (deposited now : Nat) : Nat :=
  cappedCharge d.snapshot (minutesBegun deposited now)

/-- Stage 5: the net charge N, with the prepaid and paid amounts netted off (R59). -/
def netCharge (d : Delivery) (deposited now : Nat) : Nat :=
  cappedAt d deposited now - (d.prepaid + d.paid)

/-- The abandonment time Ta (R63). -/
def abandonTime (t : TariffRow) (deposited : Nat) : Nat := deposited + 60 * (t.freePeriod + t.allowance)

end Sys2Proof.Machine
end

