-- ==== Sys2Proof/Machine/Customer.lean ====
section
/-! DEFINITION. The customer requests: Collect, Pay, Return Drop and Door Status. -/

namespace Sys2Proof.Machine

/-- Issues a quote: it takes the counter's value as its number, and the counter advances (R68). Its
expiry is now plus H (R54). -/
def issueQuote (c : CompNo) (k : KioskNo) (amount now : Nat) (purpose : QuotePurpose) (s : State) : State × Quote :=
  let q : Quote := { number := s.ret.quoteCounter, amount, kiosk := k, expiry := now + s.ret.hold, purpose }
  ({ s.setQuote c (some q) with ret := { s.ret with quoteCounter := (s.ret.quoteCounter + 1) % 65536 } }, q)

/-- The QUOTE reply to a Collect (R69). -/
def quoteBody (c : CompNo) (q : Quote) : List Byte :=
  compField c ++ be 2 q.number ++ be 3 q.amount ++ timeField q.expiry

/-- The collection grant: any quote is removed, the compartment becomes RELEASING for the kiosk, the
directory entry SUSPENDED, the kiosk's last door result absent, and the strike is queued (R11, R118,
R76). -/
def grantCollection (c : CompNo) (k : KioskNo) (s : State) : State :=
  let s := s.setComp c { s.comp c with
    state := .releasing
    transient := some { particulars := .collect, kiosk := k, strikeIssued := false, prior := none } }
  queueStrike c .collect (setDoorResult k none (setEntryStatus c .suspended (s.setQuote c none)))

/-! ### Collect -/

/-- Steps 3 to 7 of a Collect: the charge, and then a quote, a refusal or the grant (R117 to R120).
The compartment of a LIVE entry is HELD with a DELIVERY record (R34; log 23). -/
def chargeCollect (k : KioskNo) (now : Nat) (c : CompNo) (s : State) : Answer :=
  match (s.comp c).state, (s.comp c).parcel with
  | .held, some (.delivery d) =>
    let deposited := d.depositTime.getD now
    let n := netCharge d deposited now
    if 0 < n then
      let (s, q) := issueQuote c k n now .collection s
      { state := s, status := .quote, body := quoteBody c q }
    else if !compHasRoom s c then refuse s .retryLater
    else
      match reserveSlot s with
      | none => refuse s .backlog
      | some s' =>
        { state := grantCollection c k s', status := .accepted
          body := compField c ++ classField (classAt s c) ++ be 3 d.paid ++ be 3 d.prepaid
            ++ be 3 (cappedAt d deposited now) ++ be 1 (if onlineComp s c then 0 else 1) }
  | _, _ => refuse s .busy

/-- A Collect's own steps (R117): the lookup with its failure count (R40, R41), the standing quote
(R71, R72), and then the charge. -/
def ownCollect (k : KioskNo) (code now : Nat) (s : State) : Answer :=
  match lookupCode s code with
  | none => refuse (countFailure k s) .noSuchCode
  | some e =>
    if e.status ≠ .live then refuse s .busy
    else
      let s := countSuccess k s
      let c := e.compartment
      match s.quoteOf c with
      | some q =>
        if quotePassed s q then chargeCollect k now c (dropQuote c s)
        else if q.kiosk = k then chargeCollect k now c s
        else refuse s .busy
      | none => chargeCollect k now c s

/-- COLLECT (R116, R117). -/
def execCollect (r : Request) (s : State) : Result :=
  request 1 r s fun s =>
    customer r (bodyNat 4 r.body) s fun k code => withClock s fun now => ownCollect k code now s

/-! ### Pay -/

/-- Adds to a sum that holds at most `top`, with whether the addition saturated it (R86). -/
def addSaturating (top sum amount : Nat) : Nat × Bool :=
  if sum + amount ≤ top then (sum + amount, false) else (top, true)

/-- Adds a collection payment to a takings record (R85, R86). -/
def Takings.addCollection (t : Takings) (amount : Nat) : Takings :=
  let (sum, full) := addSaturating 4294967295 t.collectionSum amount
  let (count, overrun) := addSaturating 65535 t.collectionCount 1
  { t with collectionSum := sum, collectionCount := count, saturated := t.saturated || full || overrun }

/-- Adds a postage payment to a takings record (R85, R86). -/
def Takings.addPostage (t : Takings) (amount : Nat) : Takings :=
  let (sum, full) := addSaturating 4294967295 t.postageSum amount
  let (count, overrun) := addSaturating 65535 t.postageCount 1
  { t with postageSum := sum, postageCount := count, saturated := t.saturated || full || overrun }

/-- Applies an addition to a kiosk's takings. -/
def addTakings (k : KioskNo) (add : Takings → Takings) (s : State) : State :=
  { s with ret := { s.ret with takings := put s.ret.takings k (add (look s.ret.takings k)) } }

/-- Writes a kiosk's last accepted payment record (R78). -/
def setLastPayment (k : KioskNo) (p : LastPayment) (s : State) : State :=
  s.setKiosk k { s.kiosk k with lastPayment := some p }

/-- The paid total of a delivery after a payment (R76). -/
def addPaid (amount : Nat) : Parcel → Parcel
  | .delivery d => .delivery { d with paid := d.paid + amount }
  | p => p

/-- The paid total of a parcel record. -/
def paidTotal : Option Parcel → Nat
  | some (.delivery d) => d.paid
  | _ => 0

/-- The fields that an ACCEPTED Pay reply carries, the repeat indication first and Y for a
COLLECTION (R76, R77, R78, R225). -/
def payAccepted (again : Bool) (p : PayFields) (paid : Option Nat) : List Byte :=
  flag again ++ be 2 p.compartment ++ be 2 p.number ++ be 3 p.amount ++ be 4 p.reference
    ++ (match paid with | some y => be 3 y | none => [])

/-- The fields that every other Pay reply echoes (R73; log 19). -/
def payEcho (p : PayFields) : List Byte := be 2 p.compartment ++ be 2 p.number ++ be 4 p.reference

/-- A Pay refused with its echo. -/
def refusePay (p : PayFields) (s : State) (status : Status) : Answer :=
  { state := s, status, body := payEcho p }

/-- A Pay accepted against a COLLECTION quote (R76); its slot has been reserved. -/
def acceptCollectionPay (k : KioskNo) (p : PayFields) (c : CompNo) (s : State) : Answer :=
  let s := addTakings k (·.addCollection p.amount) s
  let s := s.setComp c { s.comp c with parcel := (s.comp c).parcel.map (addPaid p.amount) }
  let y := paidTotal (s.comp c).parcel
  let s := setLastPayment k
    { compartment := c, number := p.number, amount := p.amount, reference := p.reference, paid := some y } s
  { state := grantCollection c k s, status := .accepted, body := payAccepted false p (some y) }

/-- The particulars of a drop with its postage paid written (R77). -/
def Particulars.withPostage (amount : Nat) : Particulars → Particulars
  | .drop courier reference _ => .drop courier reference amount
  | p => p

/-- A Pay accepted against a POSTAGE quote (R77). -/
def acceptPostagePay (k : KioskNo) (p : PayFields) (c : CompNo) (s : State) : Answer :=
  let s := addTakings k (·.addPostage p.amount) s
  let s := s.setComp c { s.comp c with
    transient := (s.comp c).transient.map fun t => { t with particulars := t.particulars.withPostage p.amount } }
  let s := setLastPayment k
    { compartment := c, number := p.number, amount := p.amount, reference := p.reference, paid := none } s
  { state := queueStrike c .drop (s.setQuote c none), status := .accepted, body := payAccepted false p none }

/-- Whether a Pay repeats a kiosk's last accepted payment (R78). -/
def LastPayment.repeats (l : LastPayment) (p : PayFields) : Bool :=
  l.compartment.val = p.compartment && l.number = p.number && l.amount = p.amount && l.reference = p.reference

/-- A Pay that found no quote with its number: a repeat, or NO_QUOTE (R78). -/
def payWithoutQuote (k : KioskNo) (p : PayFields) (s : State) : Answer :=
  match (s.kiosk k).lastPayment with
  | some l =>
    if l.repeats p then { state := s, status := .accepted, body := payAccepted true p l.paid }
    else refusePay p s .noQuote
  | none => refusePay p s .noQuote

/-- Checks 2 to 6 of a Pay against its quote, and its acceptance (R74 to R77). The compartment of a
COLLECTION quote is HELD (R7; log 23). A Pay from another kiosk ends at check 2, in the order of R74, also
where the quote's time has been passed, whose expiry R72 has the request take first (log 50). -/
def payQuote (k : KioskNo) (p : PayFields) (c : CompNo) (q : Quote) (s : State) : Answer :=
  if q.kiosk ≠ k then refusePay p s .notPermitted
  else if quotePassed s q then refusePay p (dropQuote c s) .stale
  else if p.amount ≠ q.amount then refusePay p s .mismatch
  else if !compHasRoom s c then refusePay p s .retryLater
  else
    match q.purpose with
    | .postage _ => acceptPostagePay k p c s
    | .collection =>
      if (s.comp c).state ≠ .held then refusePay p s .noQuote
      else
        match reserveSlot s with
        | some s => acceptCollectionPay k p c s
        | none => refusePay p s .backlog

/-- A Pay's own checks (R74). -/
def ownPay (k : KioskNo) (p : PayFields) (s : State) : Answer :=
  match compNo? p.compartment with
  | some c =>
    match s.quoteOf c with
    | some q => if q.number = p.number then payQuote k p c q s else payWithoutQuote k p s
    | none => payWithoutQuote k p s
  | none => payWithoutQuote k p s

/-- Gives a refusal without fields the echo of a Pay whose body could be read (R73). -/
def echoPay (parsed : Option PayFields) (a : Answer) : Answer :=
  match parsed, a.body with
  | some p, [] => { a with body := payEcho p }
  | _, _ => a

/-- PAY (R73, R74). -/
def execPay (r : Request) (s : State) : Result :=
  request 2 r s fun s =>
    echoPay (bodyPay r.body) (customer r (bodyPay r.body) s fun k p => ownPay k p s)

/-! ### Return Drop -/

/-- The returns entry of a reference (R132). -/
def returnOf (s : State) (reference : Nat) : Option ReturnEntry :=
  s.ret.returns.find? (·.reference = reference)

/-- The admission of a Return Drop to a compartment, without a quote (R139) or with a POSTAGE quote
(R140). -/
def admitDrop (k : KioskNo) (now : Nat) (e : ReturnEntry) (c : CompNo) (s : State) : Answer :=
  let s := changeReturn e.reference (fun e => some { e with inUse := true }) s
  let s := s.setComp c { s.comp c with
    state := .reserved
    transient := some { particulars := .drop e.courier e.reference (e.paidMark.getD 0), kiosk := k,
                        strikeIssued := false, prior := none } }
  let s := setDoorResult k none s
  let head := compField c ++ classField (classAt s c)
  if e.postage = 0 ∨ e.paidMark.isSome then
    { state := queueStrike c .drop s, status := .accepted, body := head }
  else
    let (s, q) := issueQuote c k e.postage now (.postage e.reference) s
    { state := s, status := .quote, body := head ++ be 2 q.number ++ be 3 q.amount ++ timeField q.expiry }

/-- A Return Drop's own checks (R138). -/
def ownReturnDrop (k : KioskNo) (reference now : Nat) (s : State) : Answer :=
  match returnOf s reference with
  | none => refuse (countFailure k s) .noSuchCode
  | some e =>
    let s := countSuccess k s
    if e.inUse then refuse s .busy
    else if e.expiry < now then refuse s .expired
    else
      match reserveSlot s with
      | none => refuse s .backlog
      | some s =>
        match allocate s e.cls true false with
        | none => refuse (releaseSlot s) .noRoom
        | some (s, c) =>
          if compHasRoom s c then admitDrop k now e c s else refuse (releaseSlot s) .retryLater

/-- RETURN_DROP (R137, R138). -/
def execReturnDrop (r : Request) (s : State) : Result :=
  request 3 r s fun s =>
    customer r (bodyNat 5 r.body) s fun k reference => withClock s fun now => ownReturnDrop k reference now s

/-! ### Door Status -/

/-- The phase that Door Status reports, with what it carries (R130). -/
inductive DoorPhase where
  | reconcile (door : Option Bool)
  | awaitingPayment (q : Quote)
  | queued (door : Option Bool)
  | striking (door : Option Bool)
  | opened (door : Option Bool)
  | ended (r : DoorResult)
  | none
  deriving DecidableEq, Repr

/-- The phases of a compartment whose transaction another kiosk owns, or that has none: the kiosk's
last door result if it names the compartment. The row of the table that says so is taken before the text
under it, by which another kiosk's compartment answers NONE (R130; log 46). -/
def phaseEnded (s : State) (k : KioskNo) (c : CompNo) : DoorPhase :=
  match (s.kiosk k).doorResult with
  | some r => if r.compartment = c then .ended r else .none
  | Option.none => .none

/-- The phase of a compartment for a kiosk, from the top of the table of R130. -/
def doorPhase (s : State) (k : KioskNo) (c : CompNo) : DoorPhase :=
  match (s.comp c).transient with
  | some t =>
    if t.kiosk ≠ k then phaseEnded s k c
    else
      match (s.comp c).state, s.quoteOf c with
      | .reconcile, _ => .reconcile (doorImage s c)
      | .reserved, some q =>
        match q.purpose with
        | .postage _ => .awaitingPayment q
        | .collection => if t.strikeIssued then .striking (doorImage s c) else .queued (doorImage s c)
      | .reserved, Option.none | .releasing, _ =>
        if t.strikeIssued then .striking (doorImage s c) else .queued (doorImage s c)
      | .loading, _ | .unloading, _ => .opened (doorImage s c)
      | _, _ => phaseEnded s k c
  | Option.none => phaseEnded s k c

/-- The reply's fields for a phase: its position in the table of R130 and what it carries. That no flag byte
stands before what the phase carries is the model's choice (log 41). -/
def phaseBody : DoorPhase → List Byte
  | .reconcile d => be 1 0 ++ be 1 (doorImageCode d)
  | .awaitingPayment q => be 1 1 ++ be 2 q.number ++ be 3 q.amount ++ timeField q.expiry
  | .queued d => be 1 2 ++ be 1 (doorImageCode d)
  | .striking d => be 1 3 ++ be 1 (doorImageCode d)
  | .opened d => be 1 4 ++ be 1 (doorImageCode d)
  | .ended r => be 1 5 ++ be 1 (purposeCode r.purpose) ++ be 1 (doorOutcomeCode r.outcome)
  | .none => be 1 6

/-- DOOR_STATUS (R130). -/
def execDoorStatus (r : Request) (s : State) : Result :=
  request 4 r s fun s =>
    customer r (bodyNat 2 r.body) s fun k n =>
      match compNo? n with
      | some c => { state := s, status := .accepted, body := phaseBody (doorPhase s k c) }
      | none => refuse s .outOfRange

end Sys2Proof.Machine
end

