-- ==== Sys2Proof/Machine/Deadlines.lean ====
section
/-! DEFINITION. The passing of the part's deadlines. Each is an event of its own, taken once its time
has come; before that, and where its object is gone, it changes nothing (log 1, log 4). -/

namespace Sys2Proof.Machine

/-- Whether a deadline in elapsed running time has passed. -/
def due (s : State) (deadline : Nat) : Bool := deadline ≤ s.elapsed

/-- QUOTE_EXPIRY: a quote whose expiry time the station clock has passed is removed (R72). -/
def execQuoteExpiry (c : CompNo) (s : State) : Result :=
  event s fun s =>
    match s.quoteOf c with
    | some q => if quotePassed s q then some (dropQuote c s) else none
    | none => none

/-- LOCKOUT_DEADLINE: the lockout ends and the kiosk's count returns to 0 (R43). -/
def execLockoutDeadline (k : KioskNo) (s : State) : Result :=
  event s fun s =>
    match (s.kiosk k).lockout with
    | some d => if due s d then some (s.setKiosk k { s.kiosk k with lockout := none, failures := 0 }) else none
    | none => none

/-- INACTIVITY_DEADLINE: the kiosk's session ends (R99, R100). -/
def execInactivityDeadline (k : KioskNo) (s : State) : Result :=
  event s fun s =>
    match sessionOf s k with
    | some x => if due s x.deadline then some (setSession k none s) else none
    | none => none

/-- ENERGISE_DEADLINE: a compartment's ISSUED strike succeeds or its attempt fails (R162). -/
def execEnergiseDeadline (c : CompNo) (s : State) : Result :=
  event s fun s =>
    match activeOf s c with
    | some (g, a) =>
      match a.phase with
      | .issued d => if due s d then some (energiseEnds g a s) else none
      | .confirming _ => none
    | none => none

/-- CONFIRM_DEADLINE: the attempt of a compartment's CONFIRMING strike fails (R165). -/
def execConfirmDeadline (c : CompNo) (s : State) : Result :=
  event s fun s =>
    match activeOf s c with
    | some (g, a) =>
      match a.phase with
      | .confirming d => if due s d then some (attemptFails g a s) else none
      | .issued _ => none
    | none => none

/-- STRIKE_AGEING: a compartment's queued entry leaves its queue 60 s after its enqueue time, and its
transaction is cancelled (R168, R169). Issue then takes the next entry (R168; log 35). -/
def execStrikeAgeing (c : CompNo) (s : State) : Result :=
  event s fun s =>
    match queuedOf s c with
    | some (g, e) =>
      if due s (e.enqueued + 60) then some (applyIssue g (cancelTransaction c (dropQueued g c s))) else none
    | none => none

/-- AJAR_DEADLINE: AJAR is posted, once for a door phase (R172). -/
def execAjarDeadline (c : CompNo) (s : State) : Result :=
  event s fun s =>
    match look s.ajar c with
    | some (.running d) => if due s d then some (postAlarm .ajar c.val (s.setAjar c (some .passed))) else none
    | some .passed | none => none

/-- KIOSK_IDLE_DEADLINE: segments whose other conditions hold enter QUIET mode (R178). -/
def execKioskIdleDeadline (s : State) : Result :=
  event s fun s =>
    match s.kioskIdle with
    | some d => if due s d then some { s with kioskIdle := none } else none
    | none => none

/-- The SKC's state once its deadline has passed, in the states that hold one (R216). -/
def SkcState.lapsed : SkcState → SkcState
  | .collected1 | .collected2 | .collected3 | .unlocked | .idle => .idle
  | .noKeys => .noKeys
  | .barred => .barred

/-- UNLOCK_DEADLINE: COLLECTED_1 to COLLECTED_3 and UNLOCKED lapse to IDLE (R216). -/
def execUnlockDeadline (s : State) : Result :=
  event s fun s =>
    match s.unlockDeadline with
    | some d => if due s d then some { s with skc := s.skc.lapsed, unlockDeadline := none } else none
    | none => none

end Sys2Proof.Machine
end

