-- ==== Sys2Proof/Machine/Polling.lean ====
section
/-! DEFINITION. The events of the segment poll controllers and of a waiting courier sweep. -/

namespace Sys2Proof.Machine

/-- QUIET_SWEEP_START: in QUIET mode a sweep starts 1 s after the start of the one before (R178). -/
def execQuietSweepStart (g : SegNo) (s : State) : Result :=
  event s fun s =>
    let x := s.seg g
    if x.rate = .quiet ∧ x.phase = .waiting ∧ x.sweepStart + 1 ≤ s.elapsed then some (startSweep g s) else none

/-- POLL_OUTCOME: the slot time of the poll under way ends with what was heard, its outcome is taken,
and the sweep goes on (R177, R180, R186). The rate modes that the outcome leaves decide when the next
sweep starts (R178). -/
def execPollOutcome (g : SegNo) (heard : Option (List Byte)) (s : State) : Result :=
  event s fun s =>
    match (s.seg g).phase with
    | .polling slot b strike => some (advanceSweep g slot (setRates (takeOutcome b strike heard s)))
    | .noSlots | .waiting => none

/-- SWEEP_ISSUE: the waiting courier sweep of a kiosk's session applies its issue rule (R147). -/
def execSweepIssue (k : KioskNo) (s : State) : Result :=
  event s fun s => (issuePickup k s).map fun _ => applyPickup k s

/-- SWEEP_THAT_POLLS_NO_SLOT_ENDS: such a sweep ends after one slot time (R177). -/
def execSweepThatPollsNoSlotEnds (g : SegNo) (s : State) : Result :=
  event s fun s => if (s.seg g).phase = .noSlots then some (endSweep g s) else none

end Sys2Proof.Machine
end

