-- ==== Sys2Proof/Machine/Resets.lean ====
section
/-! DEFINITION. Restart, blank start and the loss of main power. -/

namespace Sys2Proof.Machine

/-- The prior state that a transient state is written as (R27). -/
def priorOf? : CompState → Option PriorState
  | .reserved => some .reserved
  | .loading => some .loading
  | .releasing => some .releasing
  | .unloading => some .unloading
  | .unserved | .vacant | .held | .abandoned | .jammed | .suspect | .reconcile => none

/-- A compartment moved to RECONCILE at a restart, when it stands in a transient state (R27). -/
def reconciled (x : Compartment) : Compartment :=
  match priorOf? x.state with
  | some p =>
    { x with state := .reconcile, transient := x.transient.map fun t => { t with prior := some p } }
  | none => x

/-- The retained state after a restart that passes the check (R27, R30, R48, R89, R114, R153, R173,
R191, R200, R206, R215). -/
def restarted (r : Retained) : Retained := { r with compartments := r.compartments.map reconciled }

/-- The part right after a reset that leaves the retained state `r`: every unretained item at its
reset value, the straps read, and a sweep started on every segment (R89, R114, R131, R154, R173,
R178, R191, R200, R206, R209, R215, R220). The check word is computed over `r`, which a restart has
reconciled since the word was stored (R27, R29, R30; log 45). -/
def coldStart (r : Retained) (straps : BankId) (alarms : List Alarm) (s : State) : State :=
  forEach startSweep
    { ret            := r
      checkWord      := Config.retentionCheck r
      quotes         := Vector.replicate 768 none
      kiosks         := Vector.replicate 4 freshKiosk
      nextSerial     := 0
      segments       := Vector.replicate 4 freshSegment
      boards         := r.withdrawn.map freshBoard
      ajar           := Vector.replicate 768 none
      kioskIdle      := some 120
      history        := []
      clock          := none
      alarms         := alarms
      attention      := !alarms.isEmpty
      bankId         := straps
      receive        := []
      transmit       := []
      trunkOut       := []
      skc            := if r.keys.isSome then .idle else .noKeys
      unlockDeadline := none
      run            := .running
      declaring      := none
      elapsed        := 0
      boundariesDue  := 0
      freeCounter    := s.freeCounter
      pending        := s.pending }

/-- A restart that passes the retention check (R220, R30). The pending set of alarms is empty (R206). -/
def restartPart (straps : BankId) (s : State) : State := coldStart (restarted s.ret) straps [] s

/-- A blank start: every retained item takes its blank value, and RETENTION is posted with no time
(R221, R31, R207). All eight enables are set, so the attention line is asserted. -/
def blankPart (straps : BankId) (s : State) : State :=
  coldStart blankRetained straps [{ kind := .retention, object := 0, posted := none }] s

/-- A reset: a restart where the stored check word agrees with the retained state, and else a blank
start (R29, R219). -/
def resetPart (straps : BankId) (s : State) : State :=
  if Config.retentionCheck s.ret = s.checkWord then restartPart straps s else blankPart straps s

/-- Whether a cause can bring about a restart: the pin while there is power, power-on while there is
none, and an admitted Restart once every reply has left (R219, R220; log 37). -/
def resetDue (cause : ResetCause) (s : State) : Bool :=
  match cause with
  | .pin => s.run ≠ .unpowered
  | .powerOn => s.run = .unpowered
  | .requested => s.run = .restartPending && s.transmit.isEmpty

/-- RESET (R219, R220). -/
def execReset (cause : ResetCause) (straps : BankId) (s : State) : Result :=
  .next (if resetDue cause s then resetPart straps s else s)

/-- BLANK_START: the blank start of an accepted Blank once every reply has left (R221; log 37). -/
def execBlankStart (straps : BankId) (s : State) : Result :=
  .next (if s.run = .blankPending ∧ s.transmit = [] then blankPart straps s else s)

/-- A check word that disagrees with the retained state, and is otherwise free (R29; log 7). -/
def disagreeingWord (s : State) : Nat :=
  let w := Config.interruptedWord s.freeCounter
  if w = Config.retentionCheck s.ret then w + 1 else w

/-- LOSS_OF_MAIN_POWER: the part does nothing more until power-on. A change to retained state that it
interrupts leaves the state and the word in disagreement (R29; log 7, log 30). -/
def execLossOfMainPower (interrupted : Bool) (s : State) : Result :=
  .next (
    if s.run = .unpowered then s
    else if interrupted then
      { s with run := .unpowered, checkWord := disagreeingWord s, freeCounter := s.freeCounter + 1 }
    else { s with run := .unpowered })

end Sys2Proof.Machine
end

