-- ==== Sys2Proof/Machine/Service.lean ====
section
/-! DEFINITION. The service terminal's requests: the Service Key Checker's two, and the maintenance
kinds permitted to SERVICE alone. -/

namespace Sys2Proof.Machine

/-! ### The Service Key Checker -/

/-- Moves the SKC to a state with its unlock deadline (R216). -/
def moveSkc (state : SkcState) (deadline : Option Nat) (s : State) : State :=
  { s with skc := state, unlockDeadline := deadline }

/-- The SKC is barred (R216, R217). -/
def bar (s : State) : Answer := refuse (moveSkc .barred none s) .maintenanceLocked

/-- The index that Unlock Key must carry in IDLE and COLLECTED_n (R217). -/
def SkcState.expected : SkcState → Option (Fin 4)
  | .idle => some 0
  | .collected1 => some 1
  | .collected2 => some 2
  | .collected3 => some 3
  | .noKeys | .unlocked | .barred => none

/-- Whether a word is all zeros or all ones (R217, R218). -/
def flatWord (w : BitVec 32) : Bool := w = 0 || w = BitVec.allOnes 32

/-- Whether the word presented at an index is correct where index `n` is expected (R217). -/
def correctWord (s : State) (n : Fin 4) (index : Nat) (word : BitVec 32) : Bool :=
  index = n.val && !flatWord word &&
    match s.ret.keys with
    | some keys => word = look keys n
    | none => false

/-- The state that a correct word at an expected index moves the SKC to, with its deadline (R217). -/
def collectWord (n : Fin 4) (s : State) : State :=
  match n with
  | 0 => moveSkc .collected1 (some (s.elapsed + 60)) s
  | 1 => moveSkc .collected2 (some (s.elapsed + 60)) s
  | 2 => moveSkc .collected3 (some (s.elapsed + 60)) s
  | 3 => moveSkc .unlocked (some (s.elapsed + 600)) s

/-- The SKC's answer to an Unlock Key (R216, R217). -/
def unlockWith (index : Nat) (word : BitVec 32) (s : State) : Answer :=
  match s.skc.expected with
  | some n =>
    if correctWord s n index word then
      { state := collectWord n s, status := .accepted, body := be 1 (n.val + 1) }
    else bar s
  | none =>
    if s.skc = .noKeys then refuse s .badState
    else if s.skc = .unlocked then refuse (extendUnlock s) .badState
    else bar s

/-- UNLOCK_KEY (R216, R217). -/
def execUnlockKey (r : Request) (s : State) : Result :=
  request 23 r s fun s =>
    if r.source = .service then withBody (bodyUnlockKey r.body) s fun (index, word) => unlockWith index word s
    else refuse s .notPermitted

/-- The SKC's answer to an End Service (R216). -/
def endService (s : State) : Answer :=
  match s.skc with
  | .noKeys | .idle => { state := s, status := .accepted, body := [] }
  | .unlocked => { state := moveSkc .idle none s, status := .accepted, body := [] }
  | .collected1 | .collected2 | .collected3 | .barred => bar s

/-- END_SERVICE (R216). -/
def execEndService (r : Request) (s : State) : Result :=
  request 24 r s fun s =>
    if r.source = .service then withBody (bodyEmpty r.body) s fun _ => endService s
    else refuse s .notPermitted

/-- Stores four key words; from NO_KEYS the SKC moves to UNLOCKED (R218). -/
def storeKeys (keys : Vector (BitVec 32) 4) (s : State) : State :=
  let s := { s with ret := { s.ret with keys := some keys } }
  if s.skc = .noKeys then moveSkc .unlocked (some (s.elapsed + 600)) s else s

/-- SET_KEYS (R218). -/
def execSetKeys (r : Request) (s : State) : Result :=
  request 32 r s fun s =>
    maintenance r (bodySetKeys r.body) s fun keys s =>
      if keys.any flatWord then refuse s .outOfRange
      else { state := storeKeys keys s, status := .accepted, body := [] }

/-! ### The compartment map -/

/-- The map entry that the fields of a Load Map name, when each is in range (R3). -/
def mapEntry? (f : MapFields) : Option MapEntry := do
  let board ← boardNo? f.board
  let line ← lineNo? f.line
  let cls ← classOf? f.cls
  some { board, line, cls, inService := f.inService }

/-- Whether a compartment is VACANT or UNSERVED (R3, R23, R31). -/
def Compartment.idle (x : Compartment) : Bool := x.state = .vacant || x.state = .unserved

/-- Whether another compartment's map entry names the same board and line (R3). -/
def namedByOther (s : State) (c : CompNo) (m : MapEntry) : Bool :=
  (List.finRange 768).any fun d =>
    d ≠ c &&
      match (s.comp d).map with
      | some n => n.board = m.board && n.line = m.line
      | none => false

/-- The state that a compartment takes from its new map entry (R4). -/
def mappedState (s : State) : Option MapEntry → CompState
  | some m => if m.inService ∧ (s.board m.board).link ≠ .withdrawn then .vacant else .unserved
  | none => .unserved

/-- An accepted Load Map (R3, R4). -/
def storeMap (c : CompNo) (m : Option MapEntry) (s : State) : Answer :=
  { state := s.setComp c { s.comp c with map := m, state := mappedState s m }, status := .accepted, body := [] }

/-- LOAD_MAP (R3, R4). -/
def execLoadMap (r : Request) (s : State) : Result :=
  request 25 r s fun s =>
    maintenance r (bodyLoadMap r.body) s fun (n, entry) s =>
      match compNo? n, entry with
      | none, _ => refuse s .outOfRange
      | some c, none => if (s.comp c).idle then storeMap c none s else refuse s .held
      | some c, some f =>
        match mapEntry? f with
        | none => refuse s .outOfRange
        | some m =>
          if !(s.comp c).idle then refuse s .held
          else if namedByOther s c m then refuse s .duplicate
          else storeMap c (some m) s

/-! ### Tariff and hold time -/

/-- Replaces the row of a class (R51). -/
def storeRow (cls : SizeClass) (t : TariffRow) (s : State) : State :=
  { s with ret := { s.ret with tariff := put s.ret.tariff cls.index (some t) } }

/-- LOAD_TARIFF (R51). -/
def execLoadTariff (r : Request) (s : State) : Result :=
  request 26 r s fun s =>
    maintenance r (bodyLoadTariff r.body) s fun (n, t) s =>
      match classOf? n with
      | none => refuse s .outOfRange
      | some cls =>
        if 20160 < t.freePeriod ∨ t.period = 0 ∨ 1440 < t.period ∨ 65535 < t.rate then refuse s .outOfRange
        else { state := storeRow cls (clampRow t) s, status := .accepted, body := tariffField (clampRow t) }

/-- SET_HOLD (R54). -/
def execSetHold (r : Request) (s : State) : Result :=
  request 29 r s fun s =>
    maintenance r (bodyNat 2 r.body) s fun v s =>
      let hold := clamp 60 600 v
      { state := { s with ret := { s.ret with hold } }, status := .accepted, body := be 2 hold }

/-! ### Slots -/

/-- The number of slots of a segment that name a board, other than one slot (R175). -/
def otherSlotsNaming (s : State) (g : SegNo) (slot : SlotNo) (b : BoardNo) : Nat :=
  ((List.finRange 16).filter fun i =>
    i ≠ slot && ((look (look s.ret.slots g) i).map (·.board)) = some b).length

/-- What the slots of a segment say of a board: whether any names it (R176). -/
def slotted (s : State) (g : SegNo) (b : BoardNo) : Bool :=
  (List.finRange 16).any fun i => ((look (look s.ret.slots g) i).map (·.board)) = some b

/-- A board that a load left named by no slot (R176). A poll of it that is under way still has its outcome
taken (log 52). -/
def unnameBoard (b : BoardNo) (s : State) : State :=
  match (s.board b).link with
  | .online => declareLost b s
  | .unknown | .lost => s.setBoard b { s.board b with goodRun := 0 }
  | .withdrawn => s

/-- A board named by a slot again starts its good run from 0 at the load (R176; log 15). The outcome of a poll
that was under way when its naming ended, taken after this, still acts on the run (log 52). -/
def nameBoard (b : BoardNo) (s : State) : State :=
  match (s.board b).link with
  | .unknown | .lost => s.setBoard b { s.board b with goodRun := 0 }
  | .online | .withdrawn => s

/-- Replaces a slot's content and acts on the boards that it leaves unnamed or newly names (R175,
R176). -/
def storeSlot (g : SegNo) (slot : SlotNo) (content : Option SlotContent) (s : State) : State :=
  let former := look (look s.ret.slots g) slot
  let before := s
  let s := { s with ret := { s.ret with slots := put s.ret.slots g (put (look s.ret.slots g) slot content) } }
  let s := match former with
    | some x => if slotted s g x.board then s else unnameBoard x.board s
    | none => s
  match content with
  | some x => if slotted before g x.board then s else nameBoard x.board s
  | none => s

/-- The stored content of a slot as the reply gives it: idle, or its board and parity, and then the
link state of the board named, if any (R175; log 34). -/
def slotBody (s : State) : Option SlotContent → List Byte
  | none => flag false ++ flag false
  | some x =>
    flag true ++ be 1 x.board.val ++ be 1 (parityCode x.parity) ++ flag true
      ++ be 1 (linkCode (s.board x.board).link)

/-- An accepted Load Slot (R175). -/
def acceptSlot (g : SegNo) (slot : SlotNo) (content : Option SlotContent) (s : State) : Answer :=
  let s := storeSlot g slot content s
  { state := s, status := .accepted, body := slotBody s content }

/-- The slot content that a board number and a parity code name, when in range (R175). -/
def slotContent? (board parity : Nat) : Option SlotContent := do
  let board ← boardNo? board
  let parity ← parityOf? parity
  some { board, parity }

/-- LOAD_SLOT (R175, R176). -/
def execLoadSlot (r : Request) (s : State) : Result :=
  request 27 r s fun s =>
    maintenance r (bodyLoadSlot r.body) s fun (segment, number, content) s =>
      match segNo? segment, slotNo? number, content with
      | some g, some slot, none => acceptSlot g slot none s
      | some g, some slot, some (board, parity) =>
        match slotContent? board parity with
        | none => refuse s .outOfRange
        | some x =>
          if segmentOf x.board ≠ g then refuse s .outOfRange
          else if 2 ≤ otherSlotsNaming s g slot x.board then refuse s .duplicate
          else acceptSlot g slot (some x) s
      | _, _, _ => refuse s .outOfRange

/-! ### Budgets, enables, generator -/

/-- Stores a segment's budget value and applies issue to the segment (R158). -/
def storeBudget (g : SegNo) (v : Nat) (s : State) : State :=
  applyIssue g { s with ret := { s.ret with budgets := put s.ret.budgets g v } }

/-- SET_BUDGET (R158). -/
def execSetBudget (r : Request) (s : State) : Result :=
  request 28 r s fun s =>
    maintenance r (bodySetBudget r.body) s fun (segment, value) s =>
      match segNo? segment with
      | none => refuse s .outOfRange
      | some g =>
        let v := clamp 1 3 value
        let s := storeBudget g v s
        { state := s, status := .accepted, body := be 1 g.val ++ be 1 v ++ be 1 (budgetInForce s g) }

/-- The enables as stored: as given, but FORCED always set (R203). -/
def storedEnables (given : List Bool) : Vector Bool 8 :=
  Vector.ofFn fun i => if i = alarmCode .forced then true else given.getD i.val false

/-- SET_ENABLES (R203). -/
def execSetEnables (r : Request) (s : State) : Result :=
  request 30 r s fun s =>
    maintenance r (bodySetEnables r.body) s fun given s =>
      let enables := storedEnables given
      { state := { s with ret := { s.ret with enables } }, status := .accepted
        body := enables.toList.flatMap flag }

/-- SEED_GENERATOR: a seed of 0 is taken as 1 (R38). -/
def execSeedGenerator (r : Request) (s : State) : Result :=
  request 31 r s fun s =>
    maintenance r (bodyNat 4 r.body) s fun seed s =>
      let generator := BitVec.ofNat 32 (if seed = 0 then 1 else seed)
      { state := { s with ret := { s.ret with generator } }, status := .accepted, body := [] }

/-! ### Withdraw and Reinstate -/

/-- Whether a compartment's map entry names a board. -/
def Compartment.mappedTo (x : Compartment) (b : BoardNo) : Bool := (x.map.map (·.board)) = some b

/-- The CTU's check of a Withdraw: every compartment mapped to the board is VACANT or UNSERVED (R23). -/
def boardIdle (s : State) (b : BoardNo) : Bool := s.ret.compartments.all fun x => !x.mappedTo b || x.idle

/-- Withdraws a board: its flag is set, its compartments become UNSERVED, and everything else of it
but the expected report bit is discarded (R189, R23). -/
def withdrawBoard (b : BoardNo) (s : State) : State :=
  let s := { s with ret := { s.ret with
    withdrawn := put s.ret.withdrawn b true
    compartments := s.ret.compartments.map fun (x : Compartment) =>
      if x.mappedTo b then { x with state := .unserved } else x } }
  s.setBoard b { freshBoard true with expectedBit := (s.board b).expectedBit }

/-- WITHDRAW (R189). -/
def execWithdraw (r : Request) (s : State) : Result :=
  request 33 r s fun s =>
    maintenance r (bodyNat 1 r.body) s fun n s =>
      match boardNo? n with
      | none => refuse s .outOfRange
      | some b =>
        if (s.board b).link = .withdrawn then refuse s .badState
        else if !boardIdle s b then refuse s .held
        else { state := withdrawBoard b s, status := .accepted, body := [] }

/-- Reinstates a board: as after a reset, but for its expected report bit (R190). -/
def reinstateBoard (b : BoardNo) (s : State) : State :=
  let s := { s with ret := { s.ret with withdrawn := put s.ret.withdrawn b false } }
  s.setBoard b { freshBoard false with expectedBit := (s.board b).expectedBit }

/-- REINSTATE (R190). -/
def execReinstate (r : Request) (s : State) : Result :=
  request 34 r s fun s =>
    maintenance r (bodyNat 1 r.body) s fun n s =>
      match boardNo? n with
      | none => refuse s .outOfRange
      | some b =>
        if (s.board b).link ≠ .withdrawn then refuse s .badState
        else { state := reinstateBoard b s, status := .accepted, body := [] }

/-! ### Restart and Blank -/

/-- RESTART: accepted in every state; no further frame is taken (R220). -/
def execRestart (r : Request) (s : State) : Result :=
  request 35 r s fun s =>
    maintenance r (bodyEmpty r.body) s fun _ s =>
      { state := { s with run := .restartPending }, status := .accepted, body := [] }

/-- BLANK: accepted while every compartment is VACANT or UNSERVED (R221, R31). -/
def execBlank (r : Request) (s : State) : Result :=
  request 36 r s fun s =>
    maintenance r (bodyEmpty r.body) s fun _ s =>
      if s.ret.compartments.all (·.idle) then
        { state := { s with run := .blankPending }, status := .accepted, body := [] }
      else refuse s .held

end Sys2Proof.Machine
end

