-- ==== Sys2Proof/Machine/Station.lean ====
section
/-! DEFINITION. The station's Broadcast, the adoption of a concourse state, the station clock and the
minute boundary. -/

namespace Sys2Proof.Machine

/-! ### Minute boundaries -/

/-- A HELD delivery that the expiry scan finds due at `now`, with its deposit time (R24, R63). -/
def abandonDue (x : Compartment) (now : Nat) : Option (Delivery × Nat) :=
  match x.state, x.parcel with
  | .held, some (.delivery d) =>
    match d.depositTime with
    | some deposited => if abandonTime d.snapshot deposited ≤ now then some (d, deposited) else none
    | none => none
  | _, _ => none

/-- One compartment made ABANDONED by the expiry scan, its slot already reserved (R24). -/
def abandonParcel (c : CompNo) (d : Delivery) (deposited now : Nat) (s : State) : State :=
  let s := removeEntry c s
  let s := s.setComp c { s.comp c with
    state := .abandoned
    parcel := some (.delivery { d with code := none, abandonedTime := some now }) }
  fillSlot (.abandoned c d.courier d.reference deposited now) s

/-- The expiry scan's visit of a compartment: an expired COLLECTION quote is taken first, and a due
delivery without a quote is abandoned where a slot can be reserved (R24). -/
def scanComp (now : Nat) (c : CompNo) (s : State) : State :=
  let s := match (s.comp c).state, s.quoteOf c with
    | .held, some q => if quotePassed s q then dropQuote c s else s
    | _, _ => s
  match abandonDue (s.comp c) now, s.quoteOf c with
  | some (d, deposited), none =>
    match reserveSlot s with
    | some s => abandonParcel c d deposited now s
    | none => s
  | _, _ => s

/-- The removal of lapsed returns entries (R136). -/
def lapseReturns (now : Nat) (s : State) : State :=
  { s with ret := { s.ret with returns := s.ret.returns.filter fun e => e.inUse || now ≤ e.expiry } }

/-- A minute boundary handed to the CTU and the RLU with the clock's value (R199, R24, R136). -/
def takeBoundary (now : Nat) (s : State) : State := lapseReturns now (forEach (scanComp now) s)

/-- MINUTE_BOUNDARY: a boundary reached by counting is taken (R199; log 5). -/
def execMinuteBoundary (s : State) : Result :=
  event s fun s =>
    match s.clock with
    | some now =>
      if 0 < s.boundariesDue then some { takeBoundary now s with boundariesDue := s.boundariesDue - 1 } else none
    | none => none

/-! ### The clock -/

/-- CLOCK_TICK: a second of elapsed running time; the set clock advances by one up to its largest
value, and a multiple of 60 that it reaches is a minute boundary (R197, R199). -/
def execClockTick (s : State) : Result :=
  event s fun s =>
    let s := { s with elapsed := s.elapsed + 1 }
    match s.clock with
    | some v =>
      if v < maxTime then
        some { s with clock := some (v + 1), boundariesDue := s.boundariesDue + (if (v + 1) % 60 = 0 then 1 else 0) }
      else some s
    | none => some s

/-- Fills the absent deposit times when the clock becomes set (R19). -/
def fillDepositTime (t : Nat) : Parcel → Parcel
  | .delivery d => .delivery { d with depositTime := d.depositTime.orElse fun _ => some t }
  | .returned r => .returned { r with depositTime := r.depositTime.orElse fun _ => some t }

/-- Fills the absent deposit times of every parcel record (R19). -/
def fillDepositTimes (t : Nat) (s : State) : State :=
  { s with ret := { s.ret with
      compartments := s.ret.compartments.map fun x => { x with parcel := x.parcel.map (fillDepositTime t) } } }

/-- The expiry of a compartment's quote, if its time has been passed (R72). -/
def expireQuote (c : CompNo) (s : State) : State :=
  match s.quoteOf c with
  | some q => if quotePassed s q then dropQuote c s else s
  | none => s

/-- Steps the clock: after a forward step the quotes passed expire, in ascending compartment number by the
model's choice (log 48), and a step over a multiple of 60 gives one boundary (R198, R199, R72). -/
def stepClock (v t : Nat) (s : State) : State :=
  let s := { s with clock := some t }
  if v < t then
    let s := forEach expireQuote s
    if v / 60 < t / 60 then takeBoundary t s else s
  else s

/-- The first stage of a Broadcast: its time sets the unset clock, or steps the set clock when they
differ by more than 2 s (R193, R196, R198). -/
def applyTime (t : Nat) (s : State) : State :=
  match s.clock with
  | none => fillDepositTimes t { s with clock := some t }
  | some v => if v ≤ t + 2 ∧ t ≤ v + 2 then s else stepClock v t s

/-! ### Adoption -/

/-- Cancels the entries of a segment's queue, head first, at most `n` of them (R170). -/
def cancelQueue (g : SegNo) : Nat → State → State
  | 0, s => s
  | n + 1, s =>
    match (s.seg g).queue with
    | e :: _ => cancelQueue g n (cancelTransaction e.compartment (dropQueued g e.compartment s))
    | [] => s

/-- The effects of an EVACUATE adoption: sessions end (R100), queued strikes are cancelled (R170)
and quotes are removed (R82). The sessions end first (R195; log 12). That the queues are cancelled from segment
0 to 3 and the quotes removed in ascending compartment number is the model's choice (log 51). -/
def evacuate (s : State) : State :=
  let s := { s with kiosks := s.kiosks.map fun x => { x with session := none } }
  let s := forEach (fun g s => cancelQueue g (s.seg g).queue.length s) s
  forEach dropQuote s

/-- Adoption of a concourse state (R195). Issue is applied to every segment: it can take a strike
only where LOCKDOWN or RESTRICTED was left (R160). The rate modes follow at the event's end (R178). -/
def adopt (state : Concourse) (s : State) : State :=
  let s := { s with ret := { s.ret with concourse := state } }
  let s := if state = .evacuate then evacuate s else s
  forEach applyIssue s

/-- The history with a code appended, of the latest 5 (R194). -/
def appendCode (history : List Nat) (code : Nat) : List Nat :=
  (if 5 ≤ history.length then history.drop 1 else history) ++ [code]

/-- The known code that stands at least 4 times in a history (R194). -/
def qualifying (history : List Nat) : Option Concourse :=
  ([1, 2, 3, 4, 5].find? fun code => 4 ≤ history.count code).bind concourseOf?

/-- The second stage of a Broadcast: its code enters the history and may be adopted (R193, R194). -/
def applyCode (code : Nat) (s : State) : State :=
  let s := { s with history := appendCode s.history code }
  match qualifying s.history with
  | some state => if state = s.ret.concourse then s else adopt state s
  | none => s

/-- BROADCAST (R193); the reply to one addressed to the bank's own id carries the concourse state
and the clock after it (R209). -/
def execBroadcast (r : Request) (s : State) : Result :=
  request 22 r s fun s =>
    if r.source = .station then
      withBody (bodyBroadcast r.body) s fun (code, time) =>
        let s := applyCode code (applyTime time s)
        { state := s, status := .accepted
          body := be 1 (concourseCode s.ret.concourse) ++ optional timeField s.clock }
    else refuse s .notPermitted

end Sys2Proof.Machine
end

