-- ==== Sys2Proof/Machine/Trunk.lean ====
section
/-! DEFINITION. The trunk: frames received, replies transmitted, and requests of an unknown kind. -/

namespace Sys2Proof.Machine

/-- The kind code of Broadcast (R211). -/
def broadcastKind : Byte := 22

/-- Whether a frame is addressed to this bank. Bank id 15 addresses only Broadcasts from STATION,
also where the straps read 15 (R209; log 21). -/
def addressed (s : State) (f : Frame) : Bool :=
  if f.request.bank = 15 then f.request.source = .station && f.kind = broadcastKind
  else f.request.bank = s.bankId

/-- FRAME_RECEIVE: a frame that passes the checks of R208 and is addressed to this bank joins the
receive queue; any other, and one that finds four frames there, is ignored (R208, R209). -/
def execFrameReceive (bytes : List Byte) (s : State) : Result :=
  event s fun s =>
    match parseFrame bytes with
    | some f =>
      if addressed s f ∧ s.receive.length < 4 then some { s with receive := s.receive ++ [f] } else none
    | none => none

/-- REPLY_TRANSMITTED: the oldest reply leaves on the transmit line (R210). -/
def execReplyTransmitted (s : State) : Result :=
  event s fun s =>
    match s.transmit with
    | oldest :: rest => some { s with transmit := rest, trunkOut := replyBytes oldest }
    | [] => none

/-- UNKNOWN_KIND: a kind code of 0 or above the last is permitted to no source (R211). -/
def execUnknownKind (kind : Byte) (r : Request) (s : State) : Result :=
  if kind.toNat = 0 ∨ 36 < kind.toNat then request kind r s fun s => refuse s .notPermitted else .next s

end Sys2Proof.Machine
end

