-- ==== Sys2Proof/Machine/Dispatch.lean ====
section
/-! DEFINITION. One arm per command: the meaning that the command has. -/

namespace Sys2Proof.Machine

def exec (i : Instr) (s : State) : Host.Outcome State Fault Refusal :=
  match i with
  | .frameReceive bytes => Sys2Proof.Machine.execFrameReceive bytes s
  | .replyTransmitted => Sys2Proof.Machine.execReplyTransmitted s
  | .unknownKind kind r => Sys2Proof.Machine.execUnknownKind kind r s
  | .collect r => Sys2Proof.Machine.execCollect r s
  | .pay r => Sys2Proof.Machine.execPay r s
  | .returnDrop r => Sys2Proof.Machine.execReturnDrop r s
  | .doorStatus r => Sys2Proof.Machine.execDoorStatus r s
  | .signOn r => Sys2Proof.Machine.execSignOn r s
  | .signOff r => Sys2Proof.Machine.execSignOff r s
  | .declare r => Sys2Proof.Machine.execDeclare r s
  | .sessionStatus r => Sys2Proof.Machine.execSessionStatus r s
  | .sweep r => Sys2Proof.Machine.execSweep r s
  | .sweepEnd r => Sys2Proof.Machine.execSweepEnd r s
  | .fetchNotice r => Sys2Proof.Machine.execFetchNotice r s
  | .revoke r => Sys2Proof.Machine.execRevoke r s
  | .reissue r => Sys2Proof.Machine.execReissue r s
  | .loadCourier r => Sys2Proof.Machine.execLoadCourier r s
  | .removeCourier r => Sys2Proof.Machine.execRemoveCourier r s
  | .loadReturn r => Sys2Proof.Machine.execLoadReturn r s
  | .removeReturn r => Sys2Proof.Machine.execRemoveReturn r s
  | .settle r => Sys2Proof.Machine.execSettle r s
  | .queryCompartment r => Sys2Proof.Machine.execQueryCompartment r s
  | .clear r => Sys2Proof.Machine.execClear r s
  | .fetchAlarm r => Sys2Proof.Machine.execFetchAlarm r s
  | .broadcast r => Sys2Proof.Machine.execBroadcast r s
  | .unlockKey r => Sys2Proof.Machine.execUnlockKey r s
  | .endService r => Sys2Proof.Machine.execEndService r s
  | .loadMap r => Sys2Proof.Machine.execLoadMap r s
  | .loadTariff r => Sys2Proof.Machine.execLoadTariff r s
  | .loadSlot r => Sys2Proof.Machine.execLoadSlot r s
  | .setBudget r => Sys2Proof.Machine.execSetBudget r s
  | .setHold r => Sys2Proof.Machine.execSetHold r s
  | .setEnables r => Sys2Proof.Machine.execSetEnables r s
  | .seedGenerator r => Sys2Proof.Machine.execSeedGenerator r s
  | .setKeys r => Sys2Proof.Machine.execSetKeys r s
  | .withdraw r => Sys2Proof.Machine.execWithdraw r s
  | .reinstate r => Sys2Proof.Machine.execReinstate r s
  | .restart r => Sys2Proof.Machine.execRestart r s
  | .blank r => Sys2Proof.Machine.execBlank r s
  | .reset cause straps => Sys2Proof.Machine.execReset cause straps s
  | .blankStart straps => Sys2Proof.Machine.execBlankStart straps s
  | .clockTick => Sys2Proof.Machine.execClockTick s
  | .minuteBoundary => Sys2Proof.Machine.execMinuteBoundary s
  | .quoteExpiry c => Sys2Proof.Machine.execQuoteExpiry c s
  | .lockoutDeadline k => Sys2Proof.Machine.execLockoutDeadline k s
  | .inactivityDeadline k => Sys2Proof.Machine.execInactivityDeadline k s
  | .energiseDeadline c => Sys2Proof.Machine.execEnergiseDeadline c s
  | .confirmDeadline c => Sys2Proof.Machine.execConfirmDeadline c s
  | .strikeAgeing c => Sys2Proof.Machine.execStrikeAgeing c s
  | .ajarDeadline c => Sys2Proof.Machine.execAjarDeadline c s
  | .kioskIdleDeadline => Sys2Proof.Machine.execKioskIdleDeadline s
  | .unlockDeadline => Sys2Proof.Machine.execUnlockDeadline s
  | .quietSweepStart g => Sys2Proof.Machine.execQuietSweepStart g s
  | .pollOutcome g heard => Sys2Proof.Machine.execPollOutcome g heard s
  | .sweepIssue k => Sys2Proof.Machine.execSweepIssue k s
  | .sweepThatPollsNoSlotEnds g => Sys2Proof.Machine.execSweepThatPollsNoSlotEnds g s
  | .lossOfMainPower interrupted => Sys2Proof.Machine.execLossOfMainPower interrupted s

end Sys2Proof.Machine
end

