-- ==== Sys2Proof/WellFormed.lean ====
section
/-! DEFINITION. The checks a command meets to be one the outside can send. The meanings are total:
an ill-formed command that is run changes nothing. -/

namespace Sys2Proof

/-- A request's body fits the frame: its length field is at most 244, so its body at most 240
bytes (R208, R222). -/
def Request.wf (r : Request) : Bool := r.body.length ≤ 240

/-- A kind code that names no kind: 0, or above the last of the 36 kinds (R211). -/
def unknownKindCode (kind : Byte) : Bool := kind.toNat = 0 || 36 < kind.toNat

/-- What a column board can be heard to say in a slot time: at most the ten bytes of a reply
(R223). -/
def heardWf : Option (List Byte) → Bool
  | none => true
  | some bs => bs.length ≤ 10

/-- The commands that the outside can send. -/
def Instr.wf : Instr → Bool
  | .frameReceive bytes => bytes.length ≤ 249
  | .unknownKind kind r => unknownKindCode kind && r.wf
  | .collect r | .pay r | .returnDrop r | .doorStatus r | .signOn r | .signOff r | .declare r
  | .sessionStatus r | .sweep r | .sweepEnd r | .fetchNotice r | .revoke r | .reissue r
  | .loadCourier r | .removeCourier r | .loadReturn r | .removeReturn r | .settle r
  | .queryCompartment r | .clear r | .fetchAlarm r | .broadcast r | .unlockKey r | .endService r
  | .loadMap r | .loadTariff r | .loadSlot r | .setBudget r | .setHold r | .setEnables r
  | .seedGenerator r | .setKeys r | .withdraw r | .reinstate r | .restart r | .blank r => r.wf
  | .pollOutcome _ heard => heardWf heard
  | .replyTransmitted | .reset _ _ | .blankStart _ | .clockTick | .minuteBoundary
  | .quoteExpiry _ | .lockoutDeadline _ | .inactivityDeadline _ | .energiseDeadline _
  | .confirmDeadline _ | .strikeAgeing _ | .ajarDeadline _ | .kioskIdleDeadline | .unlockDeadline
  | .quietSweepStart _ | .sweepIssue _ | .sweepThatPollsNoSlotEnds _ | .lossOfMainPower _ => true

end Sys2Proof
end

