-- ==== Sys2Proof/Safety.lean ====
section
/-! DEFINITION. What claims about the part are stated in: the conditions under which a request is
taken, what its reply adds, the parts of the state a command leaves alone, and the invariants. -/

namespace Sys2Proof.Machine

/-! ### Requests -/

/-- The kind code and the frame of a request command (R211). -/
def kindOf : Instr → Option (Nat × Request)
  | .unknownKind kind r => if unknownKindCode kind then some (kind.toNat, r) else none
  | .collect r => some (1, r)
  | .pay r => some (2, r)
  | .returnDrop r => some (3, r)
  | .doorStatus r => some (4, r)
  | .signOn r => some (5, r)
  | .signOff r => some (6, r)
  | .declare r => some (7, r)
  | .sessionStatus r => some (8, r)
  | .sweep r => some (9, r)
  | .sweepEnd r => some (10, r)
  | .fetchNotice r => some (11, r)
  | .revoke r => some (12, r)
  | .reissue r => some (13, r)
  | .loadCourier r => some (14, r)
  | .removeCourier r => some (15, r)
  | .loadReturn r => some (16, r)
  | .removeReturn r => some (17, r)
  | .settle r => some (18, r)
  | .queryCompartment r => some (19, r)
  | .clear r => some (20, r)
  | .fetchAlarm r => some (21, r)
  | .broadcast r => some (22, r)
  | .unlockKey r => some (23, r)
  | .endService r => some (24, r)
  | .loadMap r => some (25, r)
  | .loadTariff r => some (26, r)
  | .loadSlot r => some (27, r)
  | .setBudget r => some (28, r)
  | .setHold r => some (29, r)
  | .setEnables r => some (30, r)
  | .seedGenerator r => some (31, r)
  | .setKeys r => some (32, r)
  | .withdraw r => some (33, r)
  | .reinstate r => some (34, r)
  | .restart r => some (35, r)
  | .blank r => some (36, r)
  | .frameReceive _ | .replyTransmitted | .reset _ _ | .blankStart _ | .clockTick | .minuteBoundary
  | .quoteExpiry _ | .lockoutDeadline _ | .inactivityDeadline _ | .energiseDeadline _
  | .confirmDeadline _ | .strikeAgeing _ | .ajarDeadline _ | .kioskIdleDeadline | .unlockDeadline
  | .quietSweepStart _ | .pollOutcome _ _ | .sweepIssue _ | .sweepThatPollsNoSlotEnds _
  | .lossOfMainPower _ => none

/-- Whether a kind is permitted to a source (the table of R211). -/
def permitted (kind : Nat) : Source → Bool
  | .kiosk _ => 1 ≤ kind && kind ≤ 10
  | .backend => 11 ≤ kind && kind ≤ 21
  | .station => kind = 22
  | .service => (19 ≤ kind && kind ≤ 21) || (23 ≤ kind && kind ≤ 36)

/-- The TIU can take a request: the part runs, the transmit queue has room for one more reply, and
the request is the oldest frame of the receive queue (R210). -/
abbrev Ready (kind : Nat) (r : Request) (s : State) : Prop :=
  s.run = .running ∧ s.transmit.length < 4 ∧ s.receive.head? = some { kind := BitVec.ofNat 8 kind, request := r }

/-- What the reply to a request adds to the transmit queue: nothing for bank id 15 (R209, R210). -/
def replyTo (s : State) (kind : Nat) (r : Request) (status : Status) (body : List Byte) : List Reply :=
  if r.bank = 15 then []
  else [{ bank := s.bankId, source := r.source, kind := BitVec.ofNat 8 kind, tag := r.tag, status, body }]

/-- The kiosk idle deadline after a request (R178). -/
def idleAfter (s : State) (r : Request) : Option Nat :=
  match r.source with
  | .kiosk _ => some (s.elapsed + 120)
  | _ => s.kioskIdle

/-- The trunk's part of a request's effect: its frame is gone, its reply joins the transmit queue, and
a kiosk's request moves the kiosk idle deadline (R210). -/
def Answered (kind : Nat) (r : Request) (status : Status) (body : List Byte) (s t : State) : Prop :=
  t.receive = s.receive.tail ∧ t.transmit = s.transmit ++ replyTo s kind r status body
    ∧ t.kioskIdle = idleAfter s r

/-- The strikes and the sweep counters of every segment are unchanged: only its rate mode and its sweep
may have moved (R178). -/
def KeepsStrikes (s t : State) : Prop :=
  ∀ g, (t.seg g).queue = (s.seg g).queue ∧ (t.seg g).active = (s.seg g).active
    ∧ (t.seg g).sweepCounter = (s.seg g).sweepCounter

/-- The state with a request taken and its reply queued, nothing else changed. -/
def answered (kind : Nat) (r : Request) (status : Status) (body : List Byte) (s : State) : State :=
  { s with receive := s.receive.tail, transmit := s.transmit ++ replyTo s kind r status body,
           kioskIdle := idleAfter s r }

/-- The SKC admits maintenance kinds from SERVICE (R216). -/
abbrev ServiceOpen (s : State) : Prop := s.skc = .noKeys ∨ s.skc = .unlocked

/-- The state after the SKC has admitted a maintenance kind from SERVICE: in UNLOCKED the deadline is
600 s ahead (R216). -/
def admittedState (s : State) : State :=
  if s.skc = .unlocked then { s with unlockDeadline := some (s.elapsed + 600) } else s

/-- The state with its retention check word in step (R29). -/
def resealed (s : State) : State := { s with checkWord := Config.retentionCheck s.ret }

/-- A request has been answered, and beside the trunk and the rate modes only the kiosks' records may have
changed. -/
def Replied (kind : Nat) (r : Request) (status : Status) (body : List Byte) (kiosks : Vector Kiosk 4) (s t : State) : Prop :=
  KeepsStrikes s t ∧ t = { answered kind r status body s with kiosks, segments := t.segments }

/-- The kiosks after a success: the kiosk's failure count is 0 (R41). -/
def zeroedKiosks (k : KioskNo) (s : State) : Vector Kiosk 4 := put s.kiosks k { s.kiosk k with failures := 0 }

/-- The kiosks after a courier request: the inactivity deadline of the kiosk's open session is 120 s ahead
(R99). -/
def touchedKiosks (k : KioskNo) (s : State) : Vector Kiosk 4 :=
  match (s.kiosk k).session with
  | some x => put s.kiosks k { s.kiosk k with session := some { x with deadline := s.elapsed + 120 } }
  | none => s.kiosks

/-- A request has been refused with a failure: the kiosk's count has risen by one, and its rise from 4 to 5 has
started a lockout of 60 s and posted LOCKOUT (R41, R42). -/
def FailureCounted (kind : Nat) (r : Request) (status : Status) (k : KioskNo) (s t : State) : Prop :=
  t = { answered kind r status [] s with
      kiosks := put s.kiosks k { s.kiosk k with
        failures := (s.kiosk k).failures + 1
        lockout := if (s.kiosk k).failures = 4 then some (s.elapsed + 60) else none }
      checkWord := t.checkWord, segments := t.segments, alarms := t.alarms, attention := t.attention }
    ∧ KeepsStrikes s t
    ∧ ((s.kiosk k).failures = 4 → ∃ a ∈ t.alarms, a.kind = .lockout ∧ a.object = k.val)
    ∧ ((s.kiosk k).failures < 4 → t.alarms = s.alarms)

/-- The concourse serves customers (R116). -/
abbrev ConcourseServes (s : State) : Prop := s.ret.concourse = .opened ∨ s.ret.concourse = .restricted

/-- The concourse serves Sign On, Declare and Sweep (R96, R102, R143). -/
abbrev ConcourseServesCouriers (s : State) : Prop :=
  s.ret.concourse = .opened ∨ s.ret.concourse = .closed ∨ s.ret.concourse = .restricted

/-- A successor of a state: the outcome is a next state with a property. -/
def Completes (o : Result) (holds : State → Prop) : Prop := ∃ t, o = .next t ∧ holds t

/-! ### Allocation -/

/-- The classes that a search may take a compartment from (R9): the class asked for, and with upsizing each
larger one, for a DEPOSIT only where its tariff row is present. -/
def Searched (s : State) (cls : SizeClass) (upsize deposit : Bool) (k : SizeClass) : Prop :=
  k = cls ∨ upsize = true ∧ cls.index < k.index ∧ (deposit = true → (look s.ret.tariff k.index).isSome = true)

/-- A class has an allocatable compartment with this number (R8, R9). -/
def Offers (s : State) (k : SizeClass) (c : CompNo) : Prop :=
  allocatable s c = true ∧ (s.comp c).map.map (·.cls) = some k

/-- How many numbers a search visits before this one: it begins one past the cursor and wraps from 767 to 0
(R9). -/
def visitedBefore (cursor c : CompNo) : Nat := (c.val + 767 - cursor.val) % 768

/-! ### What a command leaves alone -/

/-- The station, the clocks, the SKC, the trunk output and the model's own fields are unchanged. -/
structure KeepsStation (s t : State) : Prop where
  clock          : t.clock = s.clock
  history        : t.history = s.history
  bankId         : t.bankId = s.bankId
  trunkOut       : t.trunkOut = s.trunkOut
  skc            : t.skc = s.skc
  unlockDeadline : t.unlockDeadline = s.unlockDeadline
  run            : t.run = s.run
  declaring      : t.declaring = s.declaring
  elapsed        : t.elapsed = s.elapsed
  boundariesDue  : t.boundariesDue = s.boundariesDue
  freeCounter    : t.freeCounter = s.freeCounter
  pending        : t.pending = s.pending

/-- The trunk queues and the kiosk idle deadline are unchanged. -/
def KeepsTrunk (s t : State) : Prop :=
  t.receive = s.receive ∧ t.transmit = s.transmit ∧ t.kioskIdle = s.kioskIdle

/-- The tables that only staff, the backend or the station load are unchanged. -/
structure KeepsTables (s t : State) : Prop where
  tariff         : t.ret.tariff = s.ret.tariff
  hold           : t.ret.hold = s.ret.hold
  couriers       : t.ret.couriers = s.ret.couriers
  budgets        : t.ret.budgets = s.ret.budgets
  slots          : t.ret.slots = s.ret.slots
  withdrawn      : t.ret.withdrawn = s.ret.withdrawn
  concourse      : t.ret.concourse = s.ret.concourse
  enables        : t.ret.enables = s.ret.enables
  keys           : t.ret.keys = s.ret.keys
  lastSettlement : t.ret.lastSettlement = s.ret.lastSettlement

/-- Two transient parts agree but for the strike issued mark. -/
def sameButMark : Option Transient → Option Transient → Bool
  | some t, some u => { t with strikeIssued := false } = { u with strikeIssued := false }
  | none, none => true
  | _, _ => false

/-- A compartment's record is unchanged but for the strike issued mark, which the issue of a strike
may set (R12). -/
def KeepsComp (s t : State) (c : CompNo) : Prop :=
  (t.comp c).map = (s.comp c).map ∧ (t.comp c).state = (s.comp c).state ∧ (t.comp c).parcel = (s.comp c).parcel
    ∧ sameButMark (t.comp c).transient (s.comp c).transient = true ∧ t.quoteOf c = s.quoteOf c

/-- Every compartment but one keeps its record, but for strike issued marks. -/
def KeepsOtherComps (c : CompNo) (s t : State) : Prop := ∀ d, d ≠ c → KeepsComp s t d

/-- A request of the kinds that BACKEND and SERVICE may both send, admitted from either (R211). -/
abbrev StaffMay (r : Request) (s : State) : Prop :=
  r.source = .backend ∨ (r.source = .service ∧ ServiceOpen s)

/-- The state after a staff request has been admitted (R211, R216). -/
def staffState (r : Request) (s : State) : State := if r.source = .service then admittedState s else s

/-- Every kiosk but one is unchanged. -/
def KeepsOtherKiosks (k : KioskNo) (s t : State) : Prop := ∀ j, j ≠ k → t.kiosk j = s.kiosk j

/-! ### How transactions end -/

/-- An alarm of a kind and object is pending. -/
def Pending (t : State) (kind : AlarmKind) (object : Nat) : Prop :=
  ∃ a ∈ t.alarms, a.kind = kind ∧ a.object = object

/-- Of the retained state only compartment records have changed. -/
def OnlyComps (s t : State) : Prop := t.ret = { s.ret with compartments := t.ret.compartments }

/-- Between two states no record, kiosk or alarm has changed but for strike issued marks. -/
def RecordsKept (s t : State) : Prop :=
  (∀ d, KeepsComp s t d) ∧ OnlyComps s t ∧ t.kiosks = s.kiosks ∧ t.alarms = s.alarms

/-- The outbox is unchanged. -/
def KeepsOutbox (s t : State) : Prop :=
  t.ret.outbox = s.ret.outbox ∧ t.ret.noticeSequence = s.ret.noticeSequence

/-- A notice has joined the outbox with the next sequence number, and the outbox has not changed
otherwise (R213). -/
def NoticeMade (n : Notice) (s t : State) : Prop :=
  t.ret.outbox = s.ret.outbox ++ [{ sequence := s.ret.noticeSequence, notice := n }]
    ∧ t.ret.noticeSequence = (s.ret.noticeSequence + 1) % 65536

/-- The state that a cancelled transaction leaves the compartment in (the table of R14). -/
def revertedState (p : Particulars) (parcel : Option Parcel) : CompState :=
  match p with
  | .deposit _ _ _ _ _ | .drop _ _ _ => .vacant
  | .collect => .held
  | .retrieve _ _ => restedState parcel

/-- The state in which a transaction that ends without its door phase leaves the compartment (R14, R15,
R20). -/
def endedState (e : Ending) (p : Particulars) (parcel : Option Parcel) : CompState :=
  match e with
  | .cancelled => revertedState p parcel
  | .jammed => .jammed
  | .forced => .suspect

/-- The outcome of a declaration has reached the session that declared it: the declaration has left
its pipeline and stands in its outcome table (R107, R108). -/
def OutcomeReported (c : CompNo) (k : KioskNo) (serial number : Nat) (outcome : DeclOutcome) (s t : State) : Prop :=
  ((s.kiosk k).session = none → t.kiosk k = s.kiosk k)
    ∧ ∀ y d, (s.kiosk k).session = some y → y.serial = serial →
      y.pipeline.find? (fun d => d.compartment = c && d.number = number) = some d →
      ∃ z, (t.kiosk k).session = some z ∧ z.serial = y.serial ∧ z.deadline = s.elapsed + 120
        ∧ (∀ e ∈ z.pipeline, ¬ (e.compartment = c ∧ e.number = number))
        ∧ z.outcomes = put y.outcomes (Fin.ofNat 256 number) (some { outcome, compartment := c, reference := d.reference })

/-- The end of a retrieval has reached the session that has it IN_FLIGHT: its entry has left the list
and is counted retrieved or skipped; entries that the sweep then removes are skipped too (R146,
R148). -/
def RetrievalReported (c : CompNo) (k : KioskNo) (serial : Nat) (retrieved : Bool) (s t : State) : Prop :=
  ((s.kiosk k).session = none → t.kiosk k = s.kiosk k)
    ∧ ∀ y w, (s.kiosk k).session = some y → y.serial = serial → y.sweep = some w →
      (∃ e ∈ w.entries, e.compartment = c ∧ e.inFlight = true) →
      ∃ z, (t.kiosk k).session = some z ∧ z.serial = y.serial ∧ z.deadline = s.elapsed + 120
        ∧ (w.entries.filter (·.compartment ≠ c) = [] → z.sweep = none)
        ∧ ∀ v, z.sweep = some v →
            (∀ e ∈ v.entries, e.compartment ≠ c)
              ∧ v.retrieved = w.retrieved + (if retrieved then 1 else 0)
              ∧ w.skipped + (if retrieved then 0 else 1) ≤ v.skipped

/-- The end of a COLLECT or DROP stands in its kiosk's last door result, unless it ended in RECONCILE
or was resolved from it (R129; log 38). -/
def DoorNoted (c : CompNo) (x : Transient) (outcome : DoorOutcome) (s t : State) : Prop :=
  t.kiosk x.kiosk =
    if (s.comp c).state = .reconcile ∨ x.resolved = true then s.kiosk x.kiosk
    else { s.kiosk x.kiosk with
      doorResult := some { compartment := c, purpose := x.particulars.purpose, outcome } }

/-- A transaction that is not a retrieval has ended: its reservation is gone, and no other compartment
has changed. -/
def SlotReleased (c : CompNo) (s t : State) : Prop :=
  t.ret.reservations = s.ret.reservations - 1 ∧ KeepsOtherComps c s t

/-- A retrieval has ended: its reservation is gone, though its sweep may have taken more, and no other
compartment's map entry or parcel has changed. -/
def SweepSlotReleased (c : CompNo) (s t : State) : Prop :=
  s.ret.reservations - 1 ≤ t.ret.reservations
    ∧ ∀ d, d ≠ c → (t.comp d).map = (s.comp d).map ∧ (t.comp d).parcel = (s.comp d).parcel

/-- The returns list after a drop that has ended without committing: the entry is not in use, and has a
mark where postage was paid (R135). -/
def freedReturns (reference paid : Nat) (s : State) : List ReturnEntry :=
  s.ret.returns.map fun e =>
    if e.reference = reference then { e with inUse := false, paidMark := if paid = 0 then none else some paid } else e

/-- The transaction of a compartment has ended without its door phase: cancelled (R14, R169), by a
second strike failure (R15), or by a forced door (R20). -/
def Reverted (e : Ending) (c : CompNo) (x : Transient) (s t : State) : Prop :=
  (t.comp c).state = endedState e x.particulars (s.comp c).parcel
    ∧ (t.comp c).transient = none ∧ (t.comp c).parcel = (s.comp c).parcel ∧ (t.comp c).map = (s.comp c).map
    ∧ t.quoteOf c = none ∧ KeepsOutbox s t ∧ KeepsOtherKiosks x.kiosk s t
    ∧ match x.particulars with
      | .deposit serial number _ _ _ =>
        t.ret.directory = (removeEntry c s).ret.directory ∧ t.ret.returns = s.ret.returns ∧ SlotReleased c s t
          ∧ OutcomeReported c x.kiosk serial number (if e = .jammed then .jammed else .cancelled) s t
      | .drop _ reference paid =>
        t.ret.directory = s.ret.directory ∧ t.ret.returns = freedReturns reference paid s ∧ SlotReleased c s t
          ∧ DoorNoted c x (match e with | .cancelled => .cancelled | .jammed => .jammed | .forced => .suspect) s t
      | .collect =>
        t.ret.directory = (if e = .cancelled then (setEntryStatus c .live s).ret.directory else s.ret.directory)
          ∧ t.ret.returns = s.ret.returns ∧ SlotReleased c s t
          ∧ DoorNoted c x (match e with | .cancelled => .cancelled | .jammed => .jammed | .forced => .suspect) s t
      | .retrieve serial _ =>
        t.ret.directory = s.ret.directory ∧ t.ret.returns = s.ret.returns ∧ SweepSlotReleased c s t
          ∧ RetrievalReported c x.kiosk serial false s t

/-- What the close of a LOADING compartment leaves, occupied or empty (R17). The record of a commit
takes the row of its class and its PENDING entry's code. -/
def DepositClosed (c : CompNo) (courier reference prepaid : Nat) (occupied : Bool) (s t : State) : Prop :=
  if occupied then
    (t.comp c).state = .held ∧ t.ret.directory = (setEntryStatus c .live s).ret.directory
      ∧ ∀ row code, look s.ret.tariff (classAt s c).index = some row → codeNaming s c = some code →
          (t.comp c).parcel = some (.delivery
            { reference, courier, depositTime := s.clock, snapshot := row, prepaid, paid := 0, code := some code,
              abandonedTime := none })
            ∧ NoticeMade (.deposited c courier reference code s.clock prepaid) s t
  else
    (t.comp c).state = .vacant ∧ (t.comp c).parcel = (s.comp c).parcel
      ∧ t.ret.directory = (removeEntry c s).ret.directory ∧ KeepsOutbox s t

/-- Close handling of a compartment with this transient part, on this occupancy (R16, R17, R18). -/
def Closed (c : CompNo) (x : Transient) (occupied : Bool) (s t : State) : Prop :=
  (t.comp c).transient = none ∧ (t.comp c).map = (s.comp c).map ∧ look t.ajar c = none
    ∧ KeepsOtherKiosks x.kiosk s t
    ∧ match x.particulars with
      | .deposit serial number courier reference prepaid =>
        DepositClosed c courier reference prepaid occupied s t ∧ t.ret.returns = s.ret.returns ∧ SlotReleased c s t
          ∧ OutcomeReported c x.kiosk serial number (if occupied then .committed else .abortedEmpty) s t
      | .drop courier reference paid =>
        t.ret.directory = s.ret.directory ∧ SlotReleased c s t
          ∧ (if occupied then
              (t.comp c).state = .held
                ∧ (t.comp c).parcel = some (.returned { reference, courier, depositTime := s.clock, postagePaid := paid })
                ∧ t.ret.returns = s.ret.returns.filter (·.reference ≠ reference)
                ∧ NoticeMade (.dropped c reference courier paid s.clock) s t
            else
              (t.comp c).state = .vacant ∧ (t.comp c).parcel = (s.comp c).parcel
                ∧ t.ret.returns = freedReturns reference paid s ∧ KeepsOutbox s t)
          ∧ DoorNoted c x (if occupied then .completed else .incomplete) s t
      | .collect =>
        t.ret.returns = s.ret.returns ∧ SlotReleased c s t
          ∧ (if occupied then
              (t.comp c).state = .held ∧ (t.comp c).parcel = (s.comp c).parcel
                ∧ t.ret.directory = (setEntryStatus c .live s).ret.directory ∧ KeepsOutbox s t
            else
              (t.comp c).state = .vacant ∧ (t.comp c).parcel = none
                ∧ t.ret.directory = (removeEntry c s).ret.directory
                ∧ ∀ d, (s.comp c).parcel = some (.delivery d) →
                    NoticeMade (.collected c d.reference d.courier d.depositTime d.paid s.clock) s t)
          ∧ DoorNoted c x (if occupied then .incomplete else .completed) s t
      | .retrieve serial courier =>
        t.ret.directory = s.ret.directory ∧ t.ret.returns = s.ret.returns ∧ SweepSlotReleased c s t
          ∧ (if occupied then
              (t.comp c).state = restedState (s.comp c).parcel ∧ (t.comp c).parcel = (s.comp c).parcel ∧ KeepsOutbox s t
            else
              (t.comp c).state = .vacant ∧ (t.comp c).parcel = none
                ∧ (∀ d, (s.comp c).parcel = some (.delivery d) →
                    NoticeMade (.retrieved c .delivery d.reference courier s.clock) s t)
                ∧ ∀ r, (s.comp c).parcel = some (.returned r) →
                    NoticeMade (.retrieved c .returned r.reference courier s.clock) s t)
          ∧ RetrievalReported c x.kiosk serial (!occupied) s t

/-! ### How strikes are issued and end -/

/-- Issue has been applied to a segment until it can take no more (R160, R161): what was active stays,
the newly ISSUED strikes come from the queue, with 5 s ahead, and do not exceed the budget in force,
and no strike is lost. -/
def Issued (g : SegNo) (s t : State) : Prop :=
  nextIssue t g = none ∧ (∀ c, striking s c = true → striking t c = true)
    ∧ energised t g ≤ max (energised s g) (budgetInForce s g)
    ∧ (t.seg g).queue.Sublist (s.seg g).queue
    ∧ ∃ issued, (t.seg g).active = (s.seg g).active ++ issued
        ∧ ∀ a ∈ issued, a.doorSeen = false ∧ a.phase = .issued (s.elapsed + 5)
            ∧ ∃ e ∈ (s.seg g).queue, a.compartment = e.compartment ∧ a.purpose = e.purpose ∧ a.attempt = e.attempt

/-- The strike of a failed first attempt stands at the head of its queue as attempt 2 with the mark clear,
or has been issued as attempt 2 with the mark set (R166, R12). -/
def SecondAttempt (g : SegNo) (a : ActiveStrike) (s t : State) : Prop :=
  ((∃ rest, (t.seg g).queue =
        { compartment := a.compartment, purpose := a.purpose, attempt := .second, enqueued := s.elapsed } :: rest)
      ∧ (∀ b ∈ (t.seg g).active, b.compartment ≠ a.compartment)
      ∧ (t.comp a.compartment).transient =
          (s.comp a.compartment).transient.map (fun x => { x with strikeIssued := false }))
    ∨ ((∃ m, (s.comp a.compartment).map = some m
        ∧ { compartment := a.compartment, purpose := a.purpose, attempt := .second, board := m.board, line := m.line,
            doorSeen := false, phase := .issued (s.elapsed + 5) } ∈ (t.seg g).active)
      ∧ (∀ b ∈ (t.seg g).active, b.compartment = a.compartment → b.attempt = .second)
      ∧ (∀ e ∈ (t.seg g).queue, e.compartment ≠ a.compartment)
      ∧ (t.comp a.compartment).transient =
          (s.comp a.compartment).transient.map (fun x => { x with strikeIssued := true }))

/-- A first attempt has failed with room in its queue (R166): its strike is attempt 2 now, and nothing
else of the records has changed. -/
def Requeued (g : SegNo) (a : ActiveStrike) (s t : State) : Prop :=
  (∀ b, KeepsComp s t b) ∧ OnlyComps s t ∧ t.kiosks = s.kiosks ∧ t.alarms = s.alarms
    ∧ (∀ b ∈ (s.seg g).active, b.compartment ≠ a.compartment → b ∈ (t.seg g).active)
    ∧ SecondAttempt g a s t

/-- A second attempt has failed (R167, R15). -/
def Jammed (a : ActiveStrike) (x : Transient) (s t : State) : Prop :=
  Reverted .jammed a.compartment x s t ∧ Pending t .jammed a.compartment.val

/-- A strike has succeeded with its door not known closed (R164, R13, R106, R172): the door phase has
begun, its session knows, and its ajar watch runs. -/
def Opened (a : ActiveStrike) (x : Transient) (s t : State) : Prop :=
  (t.comp a.compartment).state = (if (s.comp a.compartment).state = .reserved then .loading else .unloading)
    ∧ (t.comp a.compartment).parcel = (s.comp a.compartment).parcel
    ∧ (t.comp a.compartment).map = (s.comp a.compartment).map
    ∧ sameButMark (t.comp a.compartment).transient (some x) = true
    ∧ t.quoteOf a.compartment = s.quoteOf a.compartment
    ∧ look t.ajar a.compartment = some (.running (s.elapsed + 90))
    ∧ KeepsOtherComps a.compartment s t ∧ OnlyComps s t ∧ t.alarms = s.alarms ∧ KeepsOtherKiosks x.kiosk s t
    ∧ ∀ y serial number courier reference prepaid, (s.kiosk x.kiosk).session = some y →
        x.particulars = .deposit serial number courier reference prepaid →
        ∃ z, (t.kiosk x.kiosk).session = some z ∧ z.pipeline =
          y.pipeline.map fun d => if d.compartment = a.compartment then { d with state := .loading } else d

/-- A strike that has ended is no longer active. -/
def StrikeGone (g : SegNo) (c : CompNo) (s t : State) : Prop :=
  queuedOf s c = none → ∀ b ∈ (t.seg g).active, b.compartment ≠ c

/-- A strike has succeeded (R164): with its door confirmed closed again, close handling has run on the
occupancy of that close; else the door phase has begun. -/
def Succeeded (g : SegNo) (a : ActiveStrike) (x : Transient) (s t : State) : Prop :=
  StrikeGone g a.compartment s t
    ∧ (a.doorSeen = true → (s.line a.board a.line).doorOpen = some false →
        ∀ occupied, (s.line a.board a.line).closeOccupied = some occupied → Closed a.compartment x occupied s t)
    ∧ ((a.doorSeen = false ∨ (s.line a.board a.line).doorOpen ≠ some false) → Opened a x s t)

/-- An attempt has failed (R166, R167): a first one has taken its place at the head of its queue, has
displaced the tail of a full one (R169), or has been cancelled in EVACUATE (R170); a second one leaves the
compartment JAMMED. -/
def AttemptFailed (g : SegNo) (a : ActiveStrike) (s t : State) : Prop :=
  (a.attempt = .first → s.ret.concourse ≠ .evacuate → (s.seg g).queue.length < 16 → Requeued g a s t)
    ∧ (∀ e x, a.attempt = .first → s.ret.concourse ≠ .evacuate → 16 ≤ (s.seg g).queue.length →
        (s.seg g).queue.getLast? = some e → (s.comp e.compartment).transient = some x →
        Reverted .cancelled e.compartment x s t ∧ striking t a.compartment = true
          ∧ ((∀ n m, x.particulars ≠ .retrieve n m) → e.compartment ≠ a.compartment → SecondAttempt g a s t))
    ∧ (∀ x, a.attempt = .first → s.ret.concourse = .evacuate → (s.seg g).queue.length < 16 →
        (s.comp a.compartment).transient = some x →
        Reverted .cancelled a.compartment x s t
          ∧ (∀ e ∈ (t.seg g).queue, e.compartment ≠ a.compartment) ∧ ∀ d ∈ (t.seg g).active, d.compartment ≠ a.compartment)
    ∧ ∀ x, a.attempt = .second → (s.comp a.compartment).transient = some x →
        Jammed a x s t ∧ StrikeGone g a.compartment s t

/-- The state in which the ISSUED strikes of a board end when it is declared LOST: the link state LOST, the
window, the good run, the hand-off list and the confirmed states gone, and BOARD_LOST posted (R182). -/
def disconnected (b : BoardNo) (s : State) : State :=
  { s.setBoard b { s.board b with
      link := .lost, goodRun := 0, window := [], handOff := []
      lines := (s.board b).lines.map fun l => { l with doorOpen := none, occupied := none, closeOccupied := none } } with
    alarms := (postAlarm .boardLost b.val s).alarms }

/-- The ISSUED strikes of a LOST board have ended (the third row of R162): where there is none nothing has
changed; a single one has succeeded where its door was seen, and its attempt has failed otherwise. -/
def LostStrikes (b : BoardNo) (s t : State) : Prop :=
  let g := segmentOf b
  let ends := (s.seg g).active.filter fun a => a.isIssued && a.board = b
  (ends = [] → RecordsKept s t ∧ ∀ h, (t.seg h).queue = (s.seg h).queue ∧ (t.seg h).active = (s.seg h).active)
    ∧ ∀ a, ends = [a] →
        nextIssue t g = none
          ∧ (∀ x, a.doorSeen = true → (s.comp a.compartment).transient = some x →
              ((s.comp a.compartment).state = .reserved ∨ (s.comp a.compartment).state = .releasing) →
              Opened a x s t ∧ StrikeGone g a.compartment s t)
          ∧ (a.doorSeen = false → AttemptFailed g a s t)

/-! ### The sweeps of a segment -/

/-- A poll of a board has been sent from a slot: it carries the oldest strike of the board's hand-off list and
its expected report bit (R179). -/
def PollSent (g : SegNo) (i : SlotNo) (b : BoardNo) (t : State) : Prop :=
  (t.seg g).phase = .polling i b (t.board b).handOff.head?
    ∧ (t.seg g).linkOut = pollBytes b (t.board b).handOff.head? (t.board b).expectedBit

/-- After the poll of slot `i` the segment's sweep has gone on (R177, R178): the board of the next slot that
it polls has been sent its poll; or, where none is left, the sweep has ended with its counter advanced, and
the next one has started in FULL mode or once its second has passed, and is waited for otherwise. -/
def SweepWentOn (g : SegNo) (i : SlotNo) (s t : State) : Prop :=
  let next := nextPolled (t.setSeg g { t.seg g with sweepCounter := (s.seg g).sweepCounter }) g (i.val + 1)
  (∀ j b, next = some (j, b) →
      PollSent g j b t ∧ (t.seg g).sweepCounter = (s.seg g).sweepCounter ∧ (t.seg g).sweepStart = (s.seg g).sweepStart)
    ∧ (next = none →
      (t.seg g).sweepCounter = ((s.seg g).sweepCounter + 1) % 65536
        ∧ ((t.seg g).rate = .full ∨ (s.seg g).sweepStart + 1 ≤ s.elapsed →
            (t.seg g).sweepStart = s.elapsed
              ∧ (∀ j b, nextPolled t g 0 = some (j, b) → PollSent g j b t)
              ∧ (nextPolled t g 0 = none → (t.seg g).phase = .noSlots ∧ (t.seg g).linkOut = (s.seg g).linkOut))
        ∧ ((t.seg g).rate = .quiet → s.elapsed ≤ (s.seg g).sweepStart →
            (t.seg g).phase = .waiting ∧ (t.seg g).linkOut = (s.seg g).linkOut
              ∧ (t.seg g).sweepStart = (s.seg g).sweepStart))

/-! ### The issue of a courier sweep's entries -/

/-- The issue rule has been applied to a kiosk's sweep whose entries `A` are IN_FLIGHT and whose entries `B`
wait (R146): it has gone through the first `n` of `B`, of which those that stand as listed have been granted
and are IN_FLIGHT, and the others have left the list and count as skipped. No other compartment or kiosk has
changed, and it has stopped at four IN_FLIGHT, at the end of the list, or at an entry that is held up. -/
def PickupsTaken (k : KioskNo) (x : Session) (w : CourierSweep) (A B : List PickupEntry) (s t : State) : Prop :=
  ∃ n taken, 0 < n ∧ n ≤ B.length ∧ taken = (B.take n).filter (asListed s x.courier) ∧ A.length + taken.length ≤ 4
    ∧ (let left := A ++ taken.map (fun f => { f with inFlight := true }) ++ B.drop n
       t.kiosk k = { s.kiosk k with session := some { x with
         sweep := if left = [] then none else
           some { w with entries := left, skipped := w.skipped + (n - taken.length) } } })
    ∧ KeepsOtherKiosks k s t
    ∧ t.ret.reservations = s.ret.reservations + taken.length
    ∧ (∀ f ∈ taken,
        (t.comp f.compartment).state = .releasing
          ∧ (∃ mark, (t.comp f.compartment).transient =
              some { particulars := .retrieve x.serial x.courier, kiosk := k, strikeIssued := mark, prior := none })
          ∧ (t.comp f.compartment).map = (s.comp f.compartment).map
          ∧ (t.comp f.compartment).parcel = (s.comp f.compartment).parcel
          ∧ t.quoteOf f.compartment = none ∧ striking t f.compartment = true)
    ∧ (∀ c, c ∉ taken.map (·.compartment) → KeepsComp s t c)
    ∧ (4 ≤ A.length + taken.length ∨ n = B.length ∨ ∃ f, (B.drop n).head? = some f ∧ issueHeldUp t f = true)

/-! ### What the contents of a good reply do -/

/-- Neither a door nor an occupancy confirmation is derived for a line from its newer reading and the
reply's (R184, R185). -/
def LineQuiet (s : State) (b : BoardNo) (readings : Vector Reading 12) (l : LineNo) : Prop :=
  ∀ o, (s.line b l).newer = some o →
    ¬ (o.doorOpen = (look readings l).doorOpen ∧ (s.line b l).doorOpen ≠ some (look readings l).doorOpen)
      ∧ ¬ ((s.line b l).doorOpen = some false ∧ o.doorOpen = false ∧ (look readings l).doorOpen = false
            ∧ o.occupied = (look readings l).occupied ∧ (s.line b l).occupied ≠ some (look readings l).occupied)

/-- A good poll leaves the board ONLINE: it is, or this poll makes its good run 32 (R181). -/
abbrev OnlineAfter (s : State) (b : BoardNo) : Prop :=
  (s.board b).link = .online ∨ ((s.board b).link = .unknown ∨ (s.board b).link = .lost) ∧ 32 ≤ (s.board b).goodRun + 1

/-- The state whose compartments a good poll's contents find: at an ONLINE declaration the UNSERVED
compartments of the board have become VACANT where they are in service (R22, R183). -/
def readied (b : BoardNo) (s : State) : State :=
  if (s.board b).link = .online then s
  else { s with ret := { s.ret with compartments := s.ret.compartments.map fun (x : Compartment) =>
    match x.map with
    | some m => if m.board = b ∧ m.inService = true ∧ x.state = .unserved then { x with state := .vacant } else x
    | none => x } }

/-- The readings of a good reply have become the newer of every line of its board (R184). -/
def ReadingsTaken (b : BoardNo) (readings : Vector Reading 12) (s t : State) : Prop :=
  ∀ l, (t.line b l).newer = some (look readings l) ∧ (t.line b l).older = (s.line b l).newer

/-- An occupancy confirmation has been taken for a compartment (the table of R21 and R185). -/
def OccupancyTaken (c : CompNo) (occupied : Bool) (s t : State) : Prop :=
  OnlyComps s t ∧ KeepsOtherComps c s t ∧ t.kiosks = s.kiosks
    ∧ (t.comp c).parcel = (s.comp c).parcel ∧ (t.comp c).map = (s.comp c).map
    ∧ sameButMark (t.comp c).transient (s.comp c).transient = true ∧ t.quoteOf c = s.quoteOf c
    ∧ (if (s.comp c).state = .vacant ∧ occupied = true then (t.comp c).state = .suspect
        else (t.comp c).state = (s.comp c).state)
    ∧ (if ((s.comp c).state = .vacant ∧ occupied = true)
          ∨ ((s.comp c).state = .held ∨ (s.comp c).state = .abandoned) ∧ occupied = false then
        Pending t .mismatch c.val
      else t.alarms = s.alarms)

/-- A RECONCILE compartment found open waits for its close in a door phase (R28, R172). -/
def ResumedOpen (c : CompNo) (x : Transient) (phase : CompState) (s t : State) : Prop :=
  (t.comp c).state = phase ∧ (t.comp c).parcel = (s.comp c).parcel ∧ (t.comp c).map = (s.comp c).map
    ∧ sameButMark (t.comp c).transient (some { x with prior := none, resolved := true }) = true
    ∧ look t.ajar c = some (.running (s.elapsed + 90))
    ∧ KeepsOtherComps c s t ∧ OnlyComps s t ∧ t.kiosks = s.kiosks ∧ t.alarms = s.alarms

/-- A door has been found open without an active strike (R20, R28): a forced door, a door phase resumed,
or no change. -/
def OpenedUnstruck (c : CompNo) (s t : State) : Prop :=
  let x := s.comp c
  ((x.state = .vacant ∨ x.state = .held ∨ x.state = .abandoned) →
      (t.comp c).state = .suspect ∧ (t.comp c).parcel = x.parcel ∧ (t.comp c).map = x.map
        ∧ KeepsOtherComps c s t ∧ t.kiosks = s.kiosks ∧ Pending t .forced c.val
        ∧ t.ret = { s.ret with
            compartments := t.ret.compartments
            directory := if x.state = .held then (setEntryStatus c .suspended s).ret.directory else s.ret.directory }
        ∧ t.quoteOf c = if x.state = .held then none else s.quoteOf c)
    ∧ (∀ y, x.transient = some y → (x.state = .reserved ∨ x.state = .releasing) →
        if y.strikeIssued then RecordsKept s t
        else Reverted .forced c y s t ∧ Pending t .forced c.val)
    ∧ (∀ y p, x.transient = some y → x.state = .reconcile → y.prior = some p →
        match p, y.strikeIssued with
        | .loading, _ | .reserved, true => ResumedOpen c y .loading s t
        | .unloading, _ | .releasing, true => ResumedOpen c y .unloading s t
        | .reserved, false | .releasing, false => Reverted .forced c y s t ∧ Pending t .forced c.val)
    ∧ ((x.state = .unserved ∨ x.state = .loading ∨ x.state = .unloading ∨ x.state = .jammed ∨ x.state = .suspect) →
        RecordsKept s t)

/-- A confirmed close has reached the compartment of a line whose latest two readings are `o` and `n`: close
handling on the newer occupancy, or nothing but the occupancy confirmation where the two agree (R16, R28,
R184, R185). -/
def CloseTaken (c : CompNo) (o n : Reading) (s t : State) : Prop :=
  (∀ x, (s.comp c).transient = some x →
      ((s.comp c).state = .loading ∨ (s.comp c).state = .unloading ∨ (s.comp c).state = .reconcile) →
      Closed c x n.occupied s t)
    ∧ ((s.comp c).state ≠ .loading → (s.comp c).state ≠ .unloading → (s.comp c).state ≠ .reconcile →
        if o.occupied = n.occupied then OccupancyTaken c n.occupied s t else RecordsKept s t)

/-- A door open confirmation has reached a compartment (R163, R164): its active strike has seen the door or
succeeded, and without one the CTU has taken it. -/
def OpeningTaken (c : CompNo) (s t : State) : Prop :=
  (activeOf s c = none → OpenedUnstruck c s t)
    ∧ (∀ g a d, activeOf s c = some (g, a) → a.phase = .issued d →
        { a with doorSeen := true } ∈ (t.seg g).active ∧ RecordsKept s t)
    ∧ ∀ g a d x, activeOf s c = some (g, a) → a.phase = .confirming d → a.doorSeen = false →
        (s.comp c).transient = some x → ((s.comp c).state = .reserved ∨ (s.comp c).state = .releasing) →
        Opened a x s t ∧ StrikeGone g c s t

/-! ### The ONLINE declaration -/

/-- The state in which step 3 of an ONLINE declaration begins, on the readings of the reply that makes the
good run 32 (R183): the board ONLINE with its window and good run empty, the readings taken, and its
UNSERVED compartments in service VACANT. The SSU has not yet heard of it (log 49). -/
def freshlyOnline (b : BoardNo) (readings : Vector Reading 12) (s : State) : State :=
  { (readied b s).setBoard b { s.board b with
      link := .online, goodRun := 0, window := []
      lines := Vector.ofFn fun l => { s.line b l with older := (s.line b l).newer, newer := some (look readings l) } } with
    declaring := some b }

/-- No strike of a board has been issued between two states: one that is active on it was so before. -/
def NoneIssuedOn (b : BoardNo) (s t : State) : Prop :=
  ∀ g, ∀ a ∈ (t.seg g).active, a.board = b → ∃ d ∈ (s.seg g).active, d.compartment = a.compartment ∧ d.board = b

/-- One line of step 3 of an ONLINE declaration (R183): readings that agree on closed are a confirmed close,
readings that agree on open a door open confirmation, and others confirm nothing. The other lines of the
board stay, and none of its strikes is issued. -/
def LineConfirmed (b : BoardNo) (l : LineNo) (s t : State) : Prop :=
  (∀ k, k ≠ l → t.line b k = s.line b k) ∧ NoneIssuedOn b s t
    ∧ match (s.line b l).older, (s.line b l).newer with
      | some o, some n =>
        match o.doorOpen, n.doorOpen with
        | false, false =>
          t.line b l = { s.line b l with
              doorOpen := some false, occupied := some n.occupied, closeOccupied := some n.occupied }
            ∧ (compAt s b l = none → RecordsKept s t) ∧ ∀ c, compAt s b l = some c → CloseTaken c o n s t
        | true, true =>
          t.line b l = { s.line b l with doorOpen := some true, occupied := none }
            ∧ (compAt s b l = none → RecordsKept s t) ∧ ∀ c, compAt s b l = some c → OpeningTaken c s t
        | _, _ => t = s
      | _, _ => t = s

/-- Step 3 of an ONLINE declaration, on these lines in their order (R183). -/
def LinesConfirmed (b : BoardNo) : List LineNo → State → State → Prop
  | [], s, t => t = s
  | l :: rest, s, t => ∃ u, LineConfirmed b l s u ∧ LinesConfirmed b rest u t

/-! ### The expiry scan and the adoption of EVACUATE -/

/-- The successor of a notice sequence number (R213). -/
def nextSequence (n : Nat) : Nat := (n + 1) % 65536

/-- Whether the expiry scan finds a compartment due: a HELD delivery past its abandonment time, without a
quote or with one whose expiry time has passed (R24). -/
def scanFinds (s : State) (now : Nat) (c : CompNo) : Bool :=
  (abandonDue (s.comp c) now).isSome && (s.quoteOf c).all (quotePassed s)

/-- The record that the scan leaves in a compartment it abandons (R24). -/
def abandonedComp (x : Compartment) (now : Nat) : Compartment :=
  match abandonDue x now with
  | some (d, _) => { x with
      state := .abandoned, parcel := some (.delivery { d with code := none, abandonedTime := some now }) }
  | none => x

/-- The notice of a compartment that the scan abandons (R24). -/
def abandonedNotice (s : State) (now : Nat) (c : CompNo) : Option Notice :=
  (abandonDue (s.comp c) now).map fun (d, deposited) => .abandoned c d.courier d.reference deposited now

/-- Whether the adoption of EVACUATE cancels a compartment's transaction: its strike is queued, or it
has a POSTAGE quote (R170, R82). -/
def evacuated (s : State) (c : CompNo) : Bool :=
  (queuedOf s c).isSome
    || match (s.quoteOf c).map (fun q : Quote => q.purpose) with
      | some (.postage _) => true
      | some .collection | none => false

/-- The record that a cancellation leaves in a compartment (R14). -/
def cancelledComp (x : Compartment) : Compartment :=
  match x.transient with
  | some y => { x with state := revertedState y.particulars x.parcel, transient := none }
  | none => x

/-- What the cancellations of a set of compartments make of a directory entry: a PENDING entry's
removal, a collection's return to LIVE (R14). -/
def cancelledEntry (cancels : CompNo → Bool) (s : State) (e : DirEntry) : Option DirEntry :=
  match cancels e.compartment, (s.comp e.compartment).transient.map (fun x : Transient => x.particulars) with
  | true, some (.deposit _ _ _ _ _) => none
  | true, some .collect => some { e with status := .live }
  | _, _ => some e

/-! ### Broadcasts -/

/-- The return reference of the drop whose unpaid POSTAGE quote has expired at `now`, if a compartment has one
(R72). -/
def lapsing (s : State) (now : Nat) (c : CompNo) : Option Nat :=
  match s.quoteOf c with
  | some q =>
    match q.purpose with
    | .postage n => if q.expiry < now then some n else none
    | .collection => none
  | none => none

/-- Whether a compartment's drop so ends with a door result at a kiosk (R129; log 38). -/
def lapsesAt (s : State) (now : Nat) (k : KioskNo) (c : CompNo) : Bool :=
  (lapsing s now c).isSome && (s.comp c).transient.any fun x => x.kiosk = k && !x.resolved

/-- Every POSTAGE quote that has expired at `now` stands on a RESERVED compartment, for the unpaid drop of its
return reference (R70). -/
def LapsingDrops (s : State) (now : Nat) : Prop :=
  ∀ c n, lapsing s now c = some n →
    (s.comp c).state = .reserved
      ∧ ∃ x courier, (s.comp c).transient = some x ∧ x.particulars = .drop courier n 0

/-- The clock has been stepped to `now`, and every quote whose time it has passed has expired (R72, R198): a
COLLECTION's compartment stays, and the drop of a POSTAGE quote is reverted, its slot released and its returns
entry not in use. Of several drops of one kiosk the highest compartment stands in its last door result
(log 48). -/
def QuotesExpired (now : Nat) (s t : State) : Prop :=
  (∀ c, t.comp c = if (lapsing s now c).isSome then cancelledComp (s.comp c) else s.comp c)
    ∧ (∀ c, t.quoteOf c = if (s.quoteOf c).any (fun q => q.expiry < now) then none else s.quoteOf c)
    ∧ (∀ k, t.kiosk k =
        match ((List.finRange 768).filter (lapsesAt s now k)).getLast? with
        | some c => { s.kiosk k with doorResult := some { compartment := c, purpose := .drop, outcome := .cancelled } }
        | none => s.kiosk k)
    ∧ t = { s with
        clock := some now
        ret := { s.ret with
          compartments := t.ret.compartments
          returns := s.ret.returns.map fun e =>
            if (List.finRange 768).any (fun c => lapsing s now c = some e.reference) then
              { e with inUse := false, paidMark := none }
            else e
          reservations := s.ret.reservations - ((List.finRange 768).filter fun c => (lapsing s now c).isSome).length }
        quotes := t.quotes, kiosks := t.kiosks }

/-- A minute boundary has been taken at `now` (R24, R136, R199): the expiry scan has abandoned the deliveries due,
in ascending number while an outbox slot was free, HELD compartments have lost their expired quotes, and
the lapsed returns entries not in use have left the list. -/
def BoundaryTaken (now : Nat) (s t : State) : Prop :=
  let taken := ((List.finRange 768).filter (scanFinds s now)).take (32 - (s.ret.outbox.length + s.ret.reservations))
  (∀ c, t.comp c = if c ∈ taken then abandonedComp (s.comp c) now else s.comp c)
    ∧ (∀ c, t.quoteOf c =
        if (s.comp c).state = .held ∧ (s.quoteOf c).any (quotePassed s) = true then none else s.quoteOf c)
    ∧ t = { s with
        ret := { s.ret with
          compartments := t.ret.compartments
          directory := s.ret.directory.map fun ways => ways.filter fun e => decide (e.compartment ∉ taken)
          outbox := s.ret.outbox ++ List.zipWith (fun n x => { sequence := n, notice := x })
            (List.iterate nextSequence s.ret.noticeSequence taken.length) (taken.filterMap (abandonedNotice s now))
          noticeSequence := nextSequence^[taken.length] s.ret.noticeSequence
          returns := s.ret.returns.filter fun e => e.inUse || now ≤ e.expiry }
        quotes := t.quotes
        alarms := if taken ≠ [] ∧ s.ret.outbox.length + s.ret.reservations + taken.length = 32 then
            (postAlarm .backlog 0 s).alarms else s.alarms }

/-- The clock has been stepped from `v` to `now` (R198, R199): a backward step has changed nothing else; at a
forward step the quotes passed have expired, and where it went over a multiple of 60, one boundary has been
taken after them. -/
def ClockStepped (v now : Nat) (s t : State) : Prop :=
  (now ≤ v → t = { s with clock := some now })
    ∧ (v < now → ∃ u, QuotesExpired now s u
        ∧ (v / 60 = now / 60 → t = u) ∧ (v / 60 < now / 60 → BoundaryTaken now u t))

/-- The code of a Broadcast has been applied (R194, R195). Where it has been adopted as EVACUATE, the transactions
of queued strikes and of POSTAGE quotes are cancelled, and active strikes and every other record stay; where
another state has been adopted, no record has changed but strike issued marks; otherwise none has. -/
def CodeApplied (s t : State) : Prop :=
  (t.ret.concourse ≠ s.ret.concourse → t.ret.concourse = .evacuate →
      (∀ c, t.comp c = if evacuated s c then cancelledComp (s.comp c) else s.comp c)
        ∧ t.ret.directory = s.ret.directory.map (fun ways => ways.filterMap (cancelledEntry (evacuated s) s))
        ∧ (∀ c x n reference paid, evacuated s c = true → (s.comp c).transient = some x →
            x.particulars = .drop n reference paid →
            ∀ e ∈ t.ret.returns, e.reference = reference → e.inUse = false)
        ∧ (∀ c x, evacuated s c = true → (s.comp c).transient = some x →
            (x.particulars.purpose = .collect ∨ x.particulars.purpose = .drop) →
            (s.comp c).state ≠ .reconcile → x.resolved = false →
            ∃ d, (t.kiosk x.kiosk).doorResult = some d ∧ d.outcome = .cancelled)
        ∧ KeepsOutbox s t ∧ t.alarms = s.alarms ∧ t.boards = s.boards ∧ t.ajar = s.ajar
        ∧ ∀ g, (t.seg g).active = (s.seg g).active)
    ∧ (t.ret.concourse ≠ s.ret.concourse → t.ret.concourse ≠ .evacuate →
      (∀ c, KeepsComp s t c) ∧ t.ret = { s.ret with concourse := t.ret.concourse, compartments := t.ret.compartments }
        ∧ t.quotes = s.quotes ∧ t.kiosks = s.kiosks ∧ t.alarms = s.alarms ∧ t.ajar = s.ajar
        ∧ ∀ g, Issued g { s with ret := { s.ret with concourse := t.ret.concourse } } t)
    ∧ (t.ret.concourse = s.ret.concourse →
      t.ret = s.ret ∧ t.quotes = s.quotes ∧ t.kiosks = s.kiosks ∧ t.boards = s.boards
        ∧ t.alarms = s.alarms ∧ KeepsStrikes s t)

/-! ### The bodies of maintenance requests -/

/-- A staff request's body has the fields of its kind (R211, R225). -/
def bodyFits : Instr → Bool
  | .queryCompartment r | .clear r => (bodyNat 2 r.body).isSome
  | .fetchAlarm r | .restart r | .blank r => (bodyEmpty r.body).isSome
  | .loadMap r => (bodyLoadMap r.body).isSome
  | .loadTariff r => (bodyLoadTariff r.body).isSome
  | .loadSlot r => (bodyLoadSlot r.body).isSome
  | .setBudget r => (bodySetBudget r.body).isSome
  | .setHold r => (bodyNat 2 r.body).isSome
  | .setEnables r => (bodySetEnables r.body).isSome
  | .seedGenerator r => (bodyNat 4 r.body).isSome
  | .setKeys r => (bodySetKeys r.body).isSome
  | .withdraw r | .reinstate r => (bodyNat 1 r.body).isSome
  | _ => false

/-! ### Invariants -/

/-- The rate modes follow the three conditions of R178. -/
def RatesFollow (s : State) : Prop :=
  ∀ g, (s.seg g).rate = if quietHolds s g then .quiet else .full

/-- What every event leaves in step while there is main power: the check word agrees with the
retained state (R29), the attention line is asserted exactly while an enabled alarm is pending
(R205), and the rate modes follow their conditions (R178). -/
def Settled (s : State) : Prop :=
  s.run ≠ .unpowered →
    s.checkWord = Config.retentionCheck s.ret
      ∧ (s.attention = true ↔ ∃ a ∈ s.alarms, look s.ret.enables (alarmCode a.kind) = true)
      ∧ RatesFollow s

/-- The queues of the trunk and the broadcast history hold no more than they can (R208, R210, R194). -/
def TrunkBounded (s : State) : Prop :=
  s.receive.length ≤ 4 ∧ s.transmit.length ≤ 4 ∧ s.history.length ≤ 5

/-- A present row lies in the ranges of R50. -/
def RowInRange (t : TariffRow) : Prop :=
  t.freePeriod ≤ 20160 ∧ 1 ≤ t.period ∧ t.period ≤ 1440 ∧ t.rate ≤ 65535
    ∧ 1 ≤ t.cap ∧ t.cap ≤ 999999 ∧ t.ceiling ≤ 999999 ∧ 1 ≤ t.allowance ∧ t.allowance ≤ 43200

/-- The loaded values lie in their ranges: hold time (R54), budgets (R158), tariff rows (R50); FORCED
is always enabled (R203), and no stored key word is all zeros or all ones (R218). -/
def LoadsInRange (s : State) : Prop :=
  (60 ≤ s.ret.hold ∧ s.ret.hold ≤ 600)
    ∧ (∀ g, 1 ≤ look s.ret.budgets g ∧ look s.ret.budgets g ≤ 3)
    ∧ (∀ i t, look s.ret.tariff i = some t → RowInRange t)
    ∧ look s.ret.enables (alarmCode .forced) = true
    ∧ (∀ keys, s.ret.keys = some keys → ∀ i, look keys i ≠ 0 ∧ look keys i ≠ BitVec.allOnes 32)

/-- The generator state is never 0 (R36), a set of the directory has 4 ways (R34), the courier table
64 entries (R91), and the returns list 256 (R132). -/
def TablesBounded (s : State) : Prop :=
  s.ret.generator ≠ 0 ∧ (∀ i, (look s.ret.directory i).length ≤ 4)
    ∧ s.ret.couriers.length ≤ 64 ∧ s.ret.returns.length ≤ 256

/-- The SKC is in NO_KEYS exactly while no key words are stored, and its deadline is present exactly
in COLLECTED_1 to COLLECTED_3 and UNLOCKED (R216). -/
def SkcConsistent (s : State) : Prop :=
  (s.skc = .noKeys ↔ s.ret.keys = none)
    ∧ (s.unlockDeadline ≠ none ↔
        s.skc = .collected1 ∨ s.skc = .collected2 ∨ s.skc = .collected3 ∨ s.skc = .unlocked)

/-- A board is WITHDRAWN exactly while its withdrawn flag is set (R189, R190, R191). -/
def WithdrawnAgrees (s : State) : Prop :=
  ∀ b, (s.board b).link = .withdrawn ↔ look s.ret.withdrawn b = true

/-- The confirmed states of a board's lines are none while it is not ONLINE (R182, R184, R185). -/
def ImagesFollowLinks (s : State) : Prop :=
  ∀ b, (s.board b).link ≠ .online → ∀ l, (s.line b l).doorOpen = none ∧ (s.line b l).occupied = none

/-- No ONLINE declaration is under way between commands: the model's own field (log 49). -/
def NoneDeclared (s : State) : Prop := s.declaring = none

/-- A pickup list names each compartment once, and its IN_FLIGHT entries stand before the UNISSUED ones, since
entries are issued in list order (R144, R146). -/
def PickupsInOrder (s : State) : Prop :=
  ∀ k x w, (s.kiosk k).session = some x → x.sweep = some w →
    (w.entries.map (·.compartment)).Nodup
      ∧ ∃ A B, w.entries = A ++ B ∧ (∀ e ∈ A, e.inFlight = true) ∧ ∀ e ∈ B, e.inFlight = false

/-- A failure count is 0 to 5, and is 5 exactly while the kiosk's lockout runs (R41, R42, R43). -/
def LockoutsAgree (s : State) : Prop :=
  ∀ k, (s.kiosk k).failures ≤ 5 ∧ ((s.kiosk k).lockout.isSome ↔ (s.kiosk k).failures = 5)

/-- The pending set holds at most one alarm of a kind and object (R202). -/
def AlarmsDistinct (s : State) : Prop := (s.alarms.map fun a => (a.kind, a.object)).Nodup

/-- A strike queue holds at most 16 entries (R155). -/
def QueuesBounded (s : State) : Prop := ∀ g, (s.seg g).queue.length ≤ 16

/-- The five states whose records hold a transient part (the table of section 1.2). -/
def CompState.transacting : CompState → Bool
  | .reserved | .loading | .releasing | .unloading | .reconcile => true
  | .unserved | .vacant | .held | .abandoned | .jammed | .suspect => false

/-- Each compartment that holds a transient part holds one reservation (R212): the transient part is
present exactly in the five states, the reservation count is the number of such compartments, and
notices and reservations never exceed 32. -/
def ReservationsAgree (s : State) : Prop :=
  (∀ c, (s.comp c).transient.isSome = (s.comp c).state.transacting)
    ∧ s.ret.reservations = s.ret.compartments.toList.countP (fun x => x.state.transacting)
    ∧ s.ret.outbox.length + s.ret.reservations ≤ 32

end Sys2Proof.Machine
end

