-- ==== Sys2Proof/Certificates/Slice0/Obligations.lean ====
section
/-! DEFINITION. The statements for the provers. -/

open Sys2Proof Sys2Proof.Machine

/-! ### The step and the queue of commands -/

/-- A step takes the command at the front of the queue and runs it on the state with the rest (log 3). -/
def Obligations.StepRunsFrontCommand : Prop :=
  ∀ (c : Instr) (rest : List Instr) (s : State),
    step { s with pending := c :: rest } = exec c { s with pending := rest }

/-- With no command waiting the part idles: the model's choice (log 3). -/
def Obligations.IdleStepChangesNothing : Prop :=
  ∀ s : State, s.pending = [] → step s = .next s

/-- Every command completes in every state, and leaves the queue of waiting commands alone: the spec
gives the part no event at which it stops (R2). -/
def Obligations.CommandsAlwaysComplete : Prop :=
  ∀ (c : Instr) (s : State), Completes (exec c s) fun t => t.pending = s.pending

/-- A request that is not ready to be taken changes nothing (R210; log 2), and without main power no
command but power-on does (R29; log 30). -/
def Obligations.NothingTakenUnlessDue : Prop :=
  (∀ (c : Instr) (kind : Nat) (r : Request) (s : State),
      kindOf c = some (kind, r) → ¬ Ready kind r s → exec c s = .next s)
    ∧ ∀ (c : Instr) (s : State), s.run = .unpowered → (∀ straps, c ≠ .reset .powerOn straps) → exec c s = .next s

/-! ### Frames and authority -/

/-- A request's frame is read back as the request (R222). -/
def Obligations.RequestFrameIsReadBack : Prop :=
  ∀ (kind : Byte) (r : Request), r.wf = true →
    parseFrame (requestBytes kind r) = some { kind := kind, request := r }

/-- FRAME_RECEIVE and REPLY_TRANSMITTED (R208, R209, R210): a frame that passes the checks and is
addressed to this bank, by its bank id, or with bank id 15 as a Broadcast from STATION (log 21), joins
the receive queue while it holds fewer than four, and is ignored otherwise; the oldest reply leaves on
the transmit line. That REPLY_TRANSMITTED with an empty transmit queue changes nothing is the model's
choice (log 1). -/
def Obligations.TrunkQueuesMove : Prop :=
  (∀ (bytes : List Byte) (f : Frame) (s : State), Settled s → s.run ≠ .unpowered →
      parseFrame bytes = some f →
      exec (.frameReceive bytes) s =
        .next (
          if (f.request.bank ≠ 15 ∧ f.request.bank = s.bankId
              ∨ f.request.bank = 15 ∧ f.request.source = .station ∧ f.kind = 22) ∧ s.receive.length < 4 then
            { s with receive := s.receive ++ [f] }
          else s))
    ∧ (∀ (bytes : List Byte) (s : State), parseFrame bytes = none → exec (.frameReceive bytes) s = .next s)
    ∧ (∀ (o : Reply) (rest : List Reply) (s : State), Settled s → s.run ≠ .unpowered → s.transmit = o :: rest →
        exec .replyTransmitted s = .next { s with transmit := rest, trunkOut := replyBytes o })
    ∧ ∀ s : State, s.transmit = [] → exec .replyTransmitted s = .next s

/-- A request of a kind that is not permitted to its source is answered NOT_PERMITTED and changes
nothing else but the kiosk idle deadline with the rate modes that follow it (R211, R178). -/
def Obligations.UnpermittedSourceRefused : Prop :=
  ∀ (c : Instr) (kind : Nat) (r : Request) (s : State),
    kindOf c = some (kind, r) → Ready kind r s → Settled s → permitted kind r.source = false →
    Completes (exec c s) fun t =>
      ∃ body, t = { answered kind r .notPermitted body s with segments := t.segments } ∧ KeepsStrikes s t

/-- UNKNOWN_KIND: a kind code of 0 or above the last is permitted to no source (R211). -/
def Obligations.UnknownKindRefused : Prop :=
  ∀ (kind : Byte) (r : Request) (s : State),
    unknownKindCode kind = true → Ready kind.toNat r s → Settled s →
    Completes (exec (.unknownKind kind r) s) fun t =>
      t = { answered kind.toNat r .notPermitted [] s with segments := t.segments } ∧ KeepsStrikes s t

/-! ### Customers -/

/-- COLLECT with nothing to pay is granted (R117, R118, R11): the compartment becomes RELEASING for the
kiosk with its strike queued or struck, the directory entry SUSPENDED, a slot is reserved, the kiosk's
failure count is 0 and its last door result absent; nothing else of the records changes. A standing quote of
the kiosk's own is removed by the grant, and one whose time has been passed, of any kiosk, by its expiry (R71,
R72); that its HELD compartment has no transient part follows from the invariant of ReservationsAreKept. The
codes of the link byte, ONLINE 0 and DELAYED 1, are the model's reading of R225 (log 18). -/
def Obligations.CollectGrantsFreeCollection : Prop :=
  ∀ (r : Request) (s : State) (k : KioskNo) (code now deposited : Nat) (e : DirEntry) (d : Delivery),
    Ready 1 r s → r.source = .kiosk k → bodyNat 4 r.body = some code → ConcourseServes s →
    (s.kiosk k).lockout = none → s.clock = some now → lookupCode s code = some e → e.status = .live →
    (s.comp e.compartment).state = .held → (s.comp e.compartment).parcel = some (.delivery d) →
    d.depositTime = some deposited → netCharge d deposited now = 0 →
    (s.comp e.compartment).transient = none →
    (∀ y, s.quoteOf e.compartment = some y → y.kiosk = k ∨ quotePassed s y = true) →
    compHasRoom s e.compartment = true → outboxHasRoom s = true →
    Completes (exec (.collect r) s) fun t =>
      (t.comp e.compartment).state = .releasing
        ∧ (∃ mark, (t.comp e.compartment).transient =
            some { particulars := .collect, kiosk := k, strikeIssued := mark, prior := none })
        ∧ (t.comp e.compartment).map = (s.comp e.compartment).map
        ∧ (t.comp e.compartment).parcel = (s.comp e.compartment).parcel
        ∧ striking t e.compartment = true
        ∧ KeepsOtherComps e.compartment s t
        ∧ t.ret = { s.ret with
            compartments := t.ret.compartments
            directory := (setEntryStatus e.compartment .suspended s).ret.directory
            reservations := s.ret.reservations + 1 }
        ∧ t = { answered 1 r .accepted
              (compField e.compartment ++ classField (classAt s e.compartment) ++ be 3 d.paid ++ be 3 d.prepaid
                ++ be 3 (cappedAt d deposited now) ++ be 1 (if onlineComp s e.compartment then 0 else 1)) s with
            ret := t.ret, checkWord := t.checkWord, segments := t.segments, boards := t.boards
            quotes := put s.quotes e.compartment none
            kiosks := put s.kiosks k { s.kiosk k with failures := 0, doorResult := none }
            alarms := (takeSlot s).alarms, attention := t.attention }

/-- COLLECT with a net charge is quoted (R69, R119): the quote stands on the compartment with the
counter's number and the expiry now plus H, in place of a standing quote of the kiosk's own or of one whose
time has been passed (R71, R72); no slot is reserved and no strike queued. A quote of another kiosk whose time
has not been passed is kept and answers BUSY (R71), and so does a code whose entry is PENDING or SUSPENDED, with
the failure count unchanged (R40). With nothing to pay, a strike queue without room answers
RETRY_LATER and a full outbox BACKLOG, and the quote is kept but where its time has been passed (R120). The
failure count is 0 after each of the others (R40). That a HELD compartment has no transient part follows from the
invariant of ReservationsAreKept. The bytes of an expiry time that four bytes do not hold are free (log
22). -/
def Obligations.CollectQuotesCharge : Prop :=
  (∀ (r : Request) (s : State) (k : KioskNo) (code now deposited : Nat) (e : DirEntry) (d : Delivery) (q : Quote),
    Ready 1 r s → r.source = .kiosk k → bodyNat 4 r.body = some code → ConcourseServes s → Settled s →
    (s.kiosk k).lockout = none → s.clock = some now → lookupCode s code = some e → e.status = .live →
    (s.comp e.compartment).state = .held → (s.comp e.compartment).parcel = some (.delivery d) →
    d.depositTime = some deposited → 0 < netCharge d deposited now →
    (s.comp e.compartment).transient = none →
    (∀ y, s.quoteOf e.compartment = some y → y.kiosk = k ∨ quotePassed s y = true) →
    q = { number := s.ret.quoteCounter, amount := netCharge d deposited now, kiosk := k,
          expiry := now + s.ret.hold, purpose := .collection } →
    Completes (exec (.collect r) s) fun t =>
      KeepsStrikes s t
        ∧ t = { resealed { s with ret := { s.ret with quoteCounter := (s.ret.quoteCounter + 1) % 65536 } } with
            receive := s.receive.tail
            transmit := s.transmit ++ replyTo s 1 r .quote
              (compField e.compartment ++ be 2 q.number ++ be 3 q.amount ++ timeField q.expiry)
            kioskIdle := some (s.elapsed + 120)
            quotes := put s.quotes e.compartment (some q)
            kiosks := put s.kiosks k { s.kiosk k with failures := 0 }
            segments := t.segments })
  ∧ (∀ (r : Request) (s : State) (k : KioskNo) (code now : Nat) (e : DirEntry) (y : Quote),
    Ready 1 r s → r.source = .kiosk k → bodyNat 4 r.body = some code → ConcourseServes s → Settled s →
    (s.kiosk k).lockout = none → s.clock = some now → lookupCode s code = some e → e.status = .live →
    s.quoteOf e.compartment = some y → y.kiosk ≠ k → quotePassed s y = false →
    Completes (exec (.collect r) s) fun t =>
      KeepsStrikes s t
        ∧ t = { answered 1 r .busy [] s with
            kiosks := put s.kiosks k { s.kiosk k with failures := 0 }
            segments := t.segments })
  ∧ (∀ (r : Request) (s : State) (k : KioskNo) (code now deposited : Nat) (e : DirEntry) (d : Delivery),
    Ready 1 r s → r.source = .kiosk k → bodyNat 4 r.body = some code → ConcourseServes s → Settled s →
    (s.kiosk k).lockout = none → s.clock = some now → lookupCode s code = some e → e.status = .live →
    (s.comp e.compartment).state = .held → (s.comp e.compartment).parcel = some (.delivery d) →
    d.depositTime = some deposited → netCharge d deposited now = 0 →
    (s.comp e.compartment).transient = none →
    (∀ y, s.quoteOf e.compartment = some y → y.kiosk = k ∨ quotePassed s y = true) →
    (compHasRoom s e.compartment = false ∨ outboxHasRoom s = false) →
    Completes (exec (.collect r) s) fun t =>
      KeepsStrikes s t
        ∧ t = { answered 1 r (if compHasRoom s e.compartment = false then .retryLater else .backlog) [] s with
            quotes := match s.quoteOf e.compartment with
              | some y => if quotePassed s y then put s.quotes e.compartment none else s.quotes
              | none => s.quotes
            kiosks := put s.kiosks k { s.kiosk k with failures := 0 }
            segments := t.segments })
  ∧ ∀ (r : Request) (s : State) (k : KioskNo) (code now : Nat) (e : DirEntry),
    Ready 1 r s → r.source = .kiosk k → bodyNat 4 r.body = some code → ConcourseServes s → Settled s →
    (s.kiosk k).lockout = none → s.clock = some now → lookupCode s code = some e → e.status ≠ .live →
    Completes (exec (.collect r) s) (Replied 1 r .busy [] s.kiosks s)

/-- COLLECT of a code that has no entry is a failure (R40, R41, R42): the count rises by one, and its
rise from 4 to 5 starts a lockout of 60 s and posts LOCKOUT. -/
def Obligations.CollectOfUnknownCodeIsFailure : Prop :=
  ∀ (r : Request) (s : State) (k : KioskNo) (code now : Nat),
    Ready 1 r s → r.source = .kiosk k → bodyNat 4 r.body = some code → ConcourseServes s →
    (s.kiosk k).lockout = none → s.clock = some now → lookupCode s code = none → (s.kiosk k).failures < 5 →
    Completes (exec (.collect r) s) fun t =>
      t = { answered 1 r .noSuchCode [] s with
          kiosks := put s.kiosks k { s.kiosk k with
            failures := (s.kiosk k).failures + 1
            lockout := if (s.kiosk k).failures = 4 then some (s.elapsed + 60) else none }
          checkWord := t.checkWord, segments := t.segments, alarms := t.alarms, attention := t.attention }
        ∧ KeepsStrikes s t
        ∧ ((s.kiosk k).failures = 4 → ∃ a ∈ t.alarms, a.kind = .lockout ∧ a.object = k.val)
        ∧ ((s.kiosk k).failures < 4 → t.alarms = s.alarms)

/-- PAY against a COLLECTION quote that passes its checks is accepted (R74, R76, R85, R78): the amount
joins the kiosk's takings and the paid total, the collection is granted, and the payment is remembered.
That the paid total follows the reference without a flag is the model's reading (log 19).
A Pay that finds no quote with its number is answered ACCEPTED with the repeat indication where it repeats the
kiosk's last accepted payment, and NO_QUOTE otherwise (R78). One that finds it is refused, in this order, with
NOT_PERMITTED for another kiosk's quote, also where its time has been passed (log 50); STALE where it has been,
with the quote removed as at its expiry (R75); MISMATCH; RETRY_LATER; and BACKLOG (R74). The refusals change
nothing else and echo the Pay in the fields that the model reads R73 to name (log 19). -/
def Obligations.PayAcceptsCollection : Prop :=
  (∀ (r : Request) (s : State) (k : KioskNo) (p : PayFields) (c : CompNo) (q : Quote) (d : Delivery),
    Ready 2 r s → r.source = .kiosk k → bodyPay r.body = some p → ConcourseServes s →
    (s.kiosk k).lockout = none → p.compartment = c.val → s.quoteOf c = some q → q.purpose = .collection →
    q.number = p.number → q.kiosk = k → quotePassed s q = false → p.amount = q.amount →
    (s.comp c).state = .held → (s.comp c).parcel = some (.delivery d) →
    compHasRoom s c = true → outboxHasRoom s = true →
    Completes (exec (.pay r) s) fun t =>
      (t.comp c).state = .releasing
        ∧ (∃ mark, (t.comp c).transient =
            some { particulars := .collect, kiosk := k, strikeIssued := mark, prior := none })
        ∧ (t.comp c).map = (s.comp c).map
        ∧ (t.comp c).parcel = some (.delivery { d with paid := d.paid + p.amount })
        ∧ striking t c = true
        ∧ KeepsOtherComps c s t
        ∧ t.ret = { s.ret with
            compartments := t.ret.compartments
            directory := (setEntryStatus c .suspended s).ret.directory
            takings := put s.ret.takings k ((look s.ret.takings k).addCollection p.amount)
            reservations := s.ret.reservations + 1 }
        ∧ t = { answered 2 r .accepted
              (flag false ++ be 2 p.compartment ++ be 2 p.number ++ be 3 p.amount ++ be 4 p.reference
                ++ be 3 (d.paid + p.amount)) s with
            ret := t.ret, checkWord := t.checkWord, segments := t.segments, boards := t.boards
            quotes := put s.quotes c none
            kiosks := put s.kiosks k { s.kiosk k with
              doorResult := none
              lastPayment := some { compartment := c, number := p.number, amount := p.amount,
                                    reference := p.reference, paid := some (d.paid + p.amount) } }
            alarms := (takeSlot s).alarms, attention := t.attention })
  ∧ ∀ (r : Request) (s : State) (k : KioskNo) (p : PayFields),
    Ready 2 r s → r.source = .kiosk k → bodyPay r.body = some p → ConcourseServes s → Settled s →
    (s.kiosk k).lockout = none →
    let echo := be 2 p.compartment ++ be 2 p.number ++ be 4 p.reference
    let repeats := fun l : LastPayment =>
      l.compartment.val = p.compartment ∧ l.number = p.number ∧ l.amount = p.amount ∧ l.reference = p.reference
    ((∀ c q, p.compartment = c.val → s.quoteOf c = some q → q.number ≠ p.number) →
        (∀ l, (s.kiosk k).lastPayment = some l → repeats l →
          Completes (exec (.pay r) s) (Replied 2 r .accepted
            (flag true ++ be 2 p.compartment ++ be 2 p.number ++ be 3 p.amount ++ be 4 p.reference
              ++ (match l.paid with | some y => be 3 y | none => [])) s.kiosks s))
        ∧ ((∀ l, (s.kiosk k).lastPayment = some l → ¬ repeats l) →
          Completes (exec (.pay r) s) (Replied 2 r .noQuote echo s.kiosks s)))
      ∧ ∀ c q, p.compartment = c.val → s.quoteOf c = some q → q.number = p.number →
        (q.kiosk ≠ k → Completes (exec (.pay r) s) (Replied 2 r .notPermitted echo s.kiosks s))
        ∧ (q.kiosk = k → quotePassed s q = true →
            (q.purpose = .collection → Completes (exec (.pay r) s) fun t =>
              KeepsStrikes s t
                ∧ t = { answered 2 r .stale echo s with quotes := put s.quotes c none, segments := t.segments })
            ∧ ∀ courier reference j mark, q.purpose = .postage reference → (s.comp c).state = .reserved →
                (s.comp c).transient =
                  some { particulars := .drop courier reference 0, kiosk := j, strikeIssued := mark, prior := none } →
                Completes (exec (.pay r) s) fun t =>
                  KeepsStrikes s t
                    ∧ t = { answered 2 r .stale echo s with
                        ret := { s.ret with
                          compartments := put s.ret.compartments c { s.comp c with state := .vacant, transient := none }
                          returns := s.ret.returns.map fun e =>
                            if e.reference = reference then { e with inUse := false, paidMark := none } else e
                          reservations := s.ret.reservations - 1 }
                        checkWord := t.checkWord, segments := t.segments
                        quotes := put s.quotes c none
                        kiosks := put s.kiosks j { s.kiosk j with
                          doorResult := some { compartment := c, purpose := .drop, outcome := .cancelled } } })
        ∧ (q.kiosk = k → quotePassed s q = false →
            (p.amount ≠ q.amount → Completes (exec (.pay r) s) (Replied 2 r .mismatch echo s.kiosks s))
            ∧ (p.amount = q.amount → compHasRoom s c = false →
                Completes (exec (.pay r) s) (Replied 2 r .retryLater echo s.kiosks s))
            ∧ (p.amount = q.amount → compHasRoom s c = true → q.purpose = .collection → (s.comp c).state = .held →
                outboxHasRoom s = false →
                Completes (exec (.pay r) s) (Replied 2 r .backlog echo s.kiosks s)))

/-- PAY against a POSTAGE quote that passes its checks is accepted (R74, R77, R78): the amount joins the
postage takings and the drop's transient part, the quote is removed and the strike queued. That the
reply has no field for a paid total is the model's reading (log 19). The map entry and the parcel record
stay. -/
def Obligations.PayAcceptsPostage : Prop :=
  ∀ (r : Request) (s : State) (k : KioskNo) (p : PayFields) (c : CompNo) (q : Quote) (courier reference paid : Nat),
    Ready 2 r s → r.source = .kiosk k → bodyPay r.body = some p → ConcourseServes s →
    (s.kiosk k).lockout = none → p.compartment = c.val → s.quoteOf c = some q →
    q.purpose = .postage reference → q.number = p.number → q.kiosk = k → quotePassed s q = false →
    p.amount = q.amount → compHasRoom s c = true →
    (s.comp c).state = .reserved →
    (s.comp c).transient =
      some { particulars := .drop courier reference paid, kiosk := k, strikeIssued := false, prior := none } →
    Completes (exec (.pay r) s) fun t =>
      (t.comp c).state = .reserved
        ∧ (∃ mark, (t.comp c).transient =
            some { particulars := .drop courier reference p.amount, kiosk := k, strikeIssued := mark, prior := none })
        ∧ (t.comp c).map = (s.comp c).map ∧ (t.comp c).parcel = (s.comp c).parcel
        ∧ striking t c = true
        ∧ KeepsOtherComps c s t
        ∧ t.ret = { s.ret with
            compartments := t.ret.compartments
            takings := put s.ret.takings k ((look s.ret.takings k).addPostage p.amount) }
        ∧ t = { answered 2 r .accepted
              (flag false ++ be 2 p.compartment ++ be 2 p.number ++ be 3 p.amount ++ be 4 p.reference) s with
            ret := t.ret, checkWord := t.checkWord, segments := t.segments, boards := t.boards
            quotes := put s.quotes c none
            kiosks := put s.kiosks k { s.kiosk k with
              lastPayment := some { compartment := c, number := p.number, amount := p.amount,
                                    reference := p.reference, paid := none } }
            attention := t.attention }

/-- RETURN_DROP of an entry with no postage due, or with its postage paid mark, is admitted without a
quote (R138, R139): the compartment is RESERVED with its strike queued or struck, its map entry and parcel
record as before, the entry in use, a slot reserved. Its refusals (R138), in their order: NO_SUCH_CODE with one
failure (R41); BUSY, EXPIRED, BACKLOG, NO_ROOM and RETRY_LATER with the failure count 0, the last with the
cursor moved (R9). That BACKLOG is posted where a slot so reserved fills the outbox and is released again is
the model's reading (log 13). -/
def Obligations.ReturnDropAdmitted : Prop :=
  (∀ (r : Request) (s u : State) (k : KioskNo) (reference now : Nat) (e : ReturnEntry) (c : CompNo),
    Ready 3 r s → r.source = .kiosk k → bodyNat 5 r.body = some reference → ConcourseServes s →
    (s.kiosk k).lockout = none → s.clock = some now → returnOf s reference = some e →
    e.inUse = false → now ≤ e.expiry → (e.postage = 0 ∨ e.paidMark.isSome = true) →
    outboxHasRoom s = true → allocate s e.cls true false = some (u, c) → compHasRoom s c = true →
    Completes (exec (.returnDrop r) s) fun t =>
      (t.comp c).state = .reserved
        ∧ (∃ mark, (t.comp c).transient =
            some { particulars := .drop e.courier e.reference (e.paidMark.getD 0), kiosk := k,
                   strikeIssued := mark, prior := none })
        ∧ (t.comp c).map = (s.comp c).map ∧ (t.comp c).parcel = (s.comp c).parcel
        ∧ striking t c = true
        ∧ KeepsOtherComps c s t
        ∧ t.ret = { s.ret with
            compartments := t.ret.compartments
            cursors := u.ret.cursors
            returns := s.ret.returns.map fun x => if x.reference = reference then { x with inUse := true } else x
            reservations := s.ret.reservations + 1 }
        ∧ t = { answered 3 r .accepted (compField c ++ classField (classAt s c)) s with
            ret := t.ret, checkWord := t.checkWord, segments := t.segments, boards := t.boards
            kiosks := put s.kiosks k { s.kiosk k with failures := 0, doorResult := none }
            alarms := (takeSlot s).alarms, attention := t.attention })
  ∧ ∀ (r : Request) (s : State) (k : KioskNo) (reference now : Nat),
    Ready 3 r s → r.source = .kiosk k → bodyNat 5 r.body = some reference → ConcourseServes s → Settled s →
    (s.kiosk k).lockout = none → s.clock = some now →
    let refused := fun status => Completes (exec (.returnDrop r) s) (Replied 3 r status [] (zeroedKiosks k s) s)
    (returnOf s reference = none → (s.kiosk k).failures < 5 →
        Completes (exec (.returnDrop r) s) (FailureCounted 3 r .noSuchCode k s))
      ∧ ∀ e, returnOf s reference = some e →
        (e.inUse = true → refused .busy)
        ∧ (e.inUse = false → e.expiry < now → refused .expired)
        ∧ (e.inUse = false → now ≤ e.expiry → outboxHasRoom s = false → refused .backlog)
        ∧ (e.inUse = false → now ≤ e.expiry → outboxHasRoom s = true →
            (allocate s e.cls true false = none → Completes (exec (.returnDrop r) s) fun t =>
              KeepsStrikes s t
                ∧ t = { answered 3 r .noRoom [] s with
                    kiosks := zeroedKiosks k s, segments := t.segments
                    alarms := (takeSlot s).alarms, attention := t.attention })
            ∧ ∀ u c, allocate s e.cls true false = some (u, c) → compHasRoom s c = false →
                Completes (exec (.returnDrop r) s) fun t =>
                  KeepsStrikes s t
                    ∧ t = { answered 3 r .retryLater [] s with
                        ret := { s.ret with cursors := u.ret.cursors }, checkWord := t.checkWord
                        kiosks := zeroedKiosks k s, segments := t.segments
                        alarms := (takeSlot s).alarms, attention := t.attention })

/-- RETURN_DROP of an entry with postage due is admitted with a POSTAGE quote (R140, R70): the
compartment is RESERVED with no strike, the entry in use, a slot reserved. That the reply carries the
size class is the model's reading of R140 over R70 (log 20). -/
def Obligations.ReturnDropQuoted : Prop :=
  ∀ (r : Request) (s u : State) (k : KioskNo) (reference now : Nat) (e : ReturnEntry) (c : CompNo) (q : Quote),
    Ready 3 r s → r.source = .kiosk k → bodyNat 5 r.body = some reference → ConcourseServes s →
    (s.kiosk k).lockout = none → s.clock = some now → returnOf s reference = some e →
    e.inUse = false → now ≤ e.expiry → 0 < e.postage → e.paidMark = none →
    outboxHasRoom s = true → allocate s e.cls true false = some (u, c) → compHasRoom s c = true →
    q = { number := s.ret.quoteCounter, amount := e.postage, kiosk := k, expiry := now + s.ret.hold,
          purpose := .postage reference } →
    Completes (exec (.returnDrop r) s) fun t =>
      t.comp c = { s.comp c with
          state := .reserved
          transient := some { particulars := .drop e.courier reference 0, kiosk := k,
                              strikeIssued := false, prior := none } }
        ∧ KeepsOtherComps c s t ∧ KeepsStrikes s t
        ∧ t.ret = { s.ret with
            compartments := t.ret.compartments
            cursors := u.ret.cursors
            quoteCounter := (s.ret.quoteCounter + 1) % 65536
            returns := s.ret.returns.map fun x => if x.reference = reference then { x with inUse := true } else x
            reservations := s.ret.reservations + 1 }
        ∧ t = { answered 3 r .quote
              (compField c ++ classField (classAt s c) ++ be 2 q.number ++ be 3 q.amount ++ timeField q.expiry) s with
            ret := t.ret, checkWord := t.checkWord, segments := t.segments
            quotes := put s.quotes c (some q)
            kiosks := put s.kiosks k { s.kiosk k with failures := 0, doorResult := none }
            alarms := (takeSlot s).alarms, attention := t.attention }

/-- DOOR_STATUS answers with the phase of the compartment and changes nothing else but the kiosk idle
deadline and the rate modes, which are FULL (R130, R178). The codes of the door image, the fields without a
flag after the phase, and the phase ENDED of a compartment that the kiosk's last door result names though
another kiosk owns its transaction, are the model's readings (logs 18, 41, 46). The bytes of an expiry time
that four bytes do not hold are free (log 22). -/
def Obligations.DoorStatusReports : Prop :=
  ∀ (r : Request) (s : State) (k : KioskNo) (c : CompNo),
    Ready 4 r s → r.source = .kiosk k → bodyNat 2 r.body = some c.val → ConcourseServes s → Settled s →
    (s.kiosk k).lockout = none →
    Completes (exec (.doorStatus r) s) fun t =>
      t = { answered 4 r .accepted (phaseBody (doorPhase s k c)) s with segments := t.segments }
        ∧ KeepsStrikes s t ∧ ∀ g, (t.seg g).rate = .full

/-! ### Couriers -/

/-- SIGN_ON that passes its checks opens a session (R96, R97, R95): serial from the counter, the first
declaration number 0, the deadline 120 s ahead, an empty pipeline and outcome table, no sweep. Its refusals, in
their order: CLOSED, LOCKDOWN, LOCKED_OUT, BUSY with a session open at the kiosk, NOT_PERMITTED with one failure
for a credential that does not fit an active entry (R41, R42), and BUSY with the courier's session open at another
kiosk; an open session of the kiosk has its deadline moved (R99). -/
def Obligations.SignOnOpensSession : Prop :=
  (∀ (r : Request) (s : State) (k : KioskNo) (id : Nat) (credential : BitVec 32) (e : Courier),
    Ready 5 r s → r.source = .kiosk k → bodySignOn r.body = some (id, credential) →
    ConcourseServesCouriers s → Settled s → (s.kiosk k).lockout = none → (s.kiosk k).session = none →
    courierOf s id = some e → e.credential = credential → e.active = true → hasSession s id = false →
    Completes (exec (.signOn r) s) fun t =>
      KeepsStrikes s t
        ∧ t = { answered 5 r .accepted
              (be 2 s.nextSerial ++ flag e.deposit ++ flag e.returns ++ flag e.recover ++ be 2 e.quota
                ++ be 2 (heldCount s id)) s with
            nextSerial := (s.nextSerial + 1) % 65536
            kiosks := put s.kiosks k { s.kiosk k with
              failures := 0
              session := some { courier := id, serial := s.nextSerial, nextDeclaration := 0,
                                deadline := s.elapsed + 120, pipeline := [],
                                outcomes := Vector.replicate 256 none, sweep := none } }
            segments := t.segments })
  ∧ ∀ (r : Request) (s : State) (k : KioskNo) (id : Nat) (credential : BitVec 32),
    Ready 5 r s → r.source = .kiosk k → bodySignOn r.body = some (id, credential) → Settled s →
    let refused := fun status => Completes (exec (.signOn r) s) (Replied 5 r status [] (touchedKiosks k s) s)
    (s.ret.concourse = .evacuate → refused .closed)
      ∧ (s.ret.concourse = .lockdown → refused .lockdown)
      ∧ (ConcourseServesCouriers s → (s.kiosk k).lockout ≠ none → refused .lockedOut)
      ∧ (ConcourseServesCouriers s → (s.kiosk k).lockout = none → (s.kiosk k).session ≠ none → refused .busy)
      ∧ (ConcourseServesCouriers s → (s.kiosk k).lockout = none → (s.kiosk k).session = none →
          ((s.kiosk k).failures < 5 →
            (∀ e, courierOf s id = some e → e.credential ≠ credential ∨ e.active = false) →
            Completes (exec (.signOn r) s) (FailureCounted 5 r .notPermitted k s))
          ∧ ∀ e, courierOf s id = some e → e.credential = credential → e.active = true → hasSession s id = true →
              refused .busy)

/-- SIGN_OFF (R98): NOT_PERMITTED from a source that is no kiosk; NOT_SIGNED_ON where the slot is empty;
otherwise accepted, in every concourse state and under lockout, with the number of declarations in the
pipeline, and the session ends. -/
def Obligations.SignOffEndsSession : Prop :=
  (∀ (r : Request) (s : State),
    Ready 6 r s → (∀ k, r.source ≠ .kiosk k) → Settled s →
    exec (.signOff r) s = .next (answered 6 r .notPermitted [] s))
  ∧ ∀ (r : Request) (s : State) (k : KioskNo),
    Ready 6 r s → r.source = .kiosk k → r.body = [] → Settled s →
    Completes (exec (.signOff r) s) fun t =>
      KeepsStrikes s t
        ∧ (∀ x, (s.kiosk k).session = some x →
            t = { answered 6 r .accepted (be 1 x.pipeline.length) s with
                kiosks := put s.kiosks k { s.kiosk k with session := none }
                segments := t.segments })
        ∧ ((s.kiosk k).session = none →
            t = { answered 6 r .notSignedOn [] s with segments := t.segments })

/-- DECLARE that passes its ten checks (R103, R104, R39, R10): the compartment is RESERVED for the
deposit with its strike queued or struck and its map entry and parcel record as before, a PENDING entry
names it, the declaration joins the pipeline, a slot is reserved. Its refusals, in the order of the checks (R102,
R103): NOT_SIGNED_ON, NOT_PERMITTED, CLOSED, LOCKDOWN, NO_TIME, OUT_OF_RANGE, UNCONFIGURED, BUSY, QUOTA, BACKLOG,
NO_ROOM, RETRY_LATER with the cursor moved (R9), and NO_CODE with the generator advanced too (R37); the session's
deadline is moved by each (R99), and nothing else changes. That BACKLOG is posted where a slot so reserved fills
the outbox and is released again is the model's reading (log 13). -/
def Obligations.DeclareReservesCompartment : Prop :=
  (∀ (r : Request) (s u : State) (k : KioskNo) (f : DeclareFields) (x : Session) (e : Courier) (now : Nat)
    (cls : SizeClass) (row : TariffRow) (c : CompNo) (g : BitVec 32) (code : Nat),
    Ready 7 r s → r.source = .kiosk k → bodyDeclare r.body = some f → (s.kiosk k).session = some x →
    courierOf s x.courier = some e → e.deposit = true → ConcourseServesCouriers s → s.clock = some now →
    classOf? f.cls = some cls → f.reference ≤ 999999999999 → f.prepaid ≤ 999999 →
    look s.ret.tariff cls.index = some row → x.pipeline.length < 2 → x.sweep = none →
    heldCount s x.courier < e.quota → outboxHasRoom s = true →
    allocate s cls f.upsize true = some (u, c) → compHasRoom s c = true →
    generateCode s.ret.directory 8 s.ret.generator = (g, some code) →
    Completes (exec (.declare r) s) fun t =>
      (t.comp c).state = .reserved
        ∧ (∃ mark, (t.comp c).transient =
            some { particulars := .deposit x.serial x.nextDeclaration x.courier f.reference f.prepaid,
                   kiosk := k, strikeIssued := mark, prior := none })
        ∧ (t.comp c).map = (s.comp c).map ∧ (t.comp c).parcel = (s.comp c).parcel
        ∧ striking t c = true
        ∧ KeepsOtherComps c s t
        ∧ t.ret = { s.ret with
            compartments := t.ret.compartments
            cursors := u.ret.cursors
            generator := g
            directory := put s.ret.directory (codeSet code)
              (look s.ret.directory (codeSet code) ++ [{ tag := codeTag code, compartment := c, status := .pending }])
            reservations := s.ret.reservations + 1 }
        ∧ t = { answered 7 r .accepted (compField c ++ be 1 x.nextDeclaration ++ classField (classAt s c)) s with
            ret := t.ret, checkWord := t.checkWord, segments := t.segments, boards := t.boards
            kiosks := put s.kiosks k { s.kiosk k with
              session := some { x with
                pipeline := x.pipeline ++ [{ number := x.nextDeclaration, compartment := c, cls := classAt s c,
                                             reference := f.reference, state := .waitingDoor }]
                outcomes := put x.outcomes (Fin.ofNat 256 x.nextDeclaration) none
                nextDeclaration := (x.nextDeclaration + 1) % 256
                deadline := s.elapsed + 120 } }
            alarms := (takeSlot s).alarms, attention := t.attention })
  ∧ ∀ (r : Request) (s : State) (k : KioskNo) (f : DeclareFields),
    Ready 7 r s → r.source = .kiosk k → bodyDeclare r.body = some f → Settled s →
    let refused := fun status => Completes (exec (.declare r) s) (Replied 7 r status [] (touchedKiosks k s) s)
    ((s.kiosk k).session = none → refused .notSignedOn)
      ∧ ∀ x e, (s.kiosk k).session = some x → courierOf s x.courier = some e →
        (e.deposit = false → refused .notPermitted)
        ∧ (e.deposit = true → s.ret.concourse = .evacuate → refused .closed)
        ∧ (e.deposit = true → s.ret.concourse = .lockdown → refused .lockdown)
        ∧ (e.deposit = true → ConcourseServesCouriers s →
          (s.clock = none → refused .noTime)
          ∧ (s.clock ≠ none →
            (classOf? f.cls = none ∨ 999999999999 < f.reference ∨ 999999 < f.prepaid → refused .outOfRange)
            ∧ ∀ cls, classOf? f.cls = some cls → f.reference ≤ 999999999999 → f.prepaid ≤ 999999 →
              (look s.ret.tariff cls.index = none → refused .unconfigured)
              ∧ (look s.ret.tariff cls.index ≠ none →
                (2 ≤ x.pipeline.length ∨ x.sweep ≠ none → refused .busy)
                ∧ (x.pipeline.length < 2 → x.sweep = none →
                  (e.quota ≤ heldCount s x.courier → refused .quota)
                  ∧ (heldCount s x.courier < e.quota → outboxHasRoom s = false → refused .backlog)
                  ∧ (heldCount s x.courier < e.quota → outboxHasRoom s = true →
                    (allocate s cls f.upsize true = none → Completes (exec (.declare r) s) fun t =>
                      KeepsStrikes s t
                        ∧ t = { answered 7 r .noRoom [] s with
                            kiosks := touchedKiosks k s, segments := t.segments
                            alarms := (takeSlot s).alarms, attention := t.attention })
                    ∧ ∀ u c, allocate s cls f.upsize true = some (u, c) →
                      (compHasRoom s c = false → Completes (exec (.declare r) s) fun t =>
                        KeepsStrikes s t
                          ∧ t = { answered 7 r .retryLater [] s with
                              ret := { s.ret with cursors := u.ret.cursors }, checkWord := t.checkWord
                              kiosks := touchedKiosks k s, segments := t.segments
                              alarms := (takeSlot s).alarms, attention := t.attention })
                      ∧ ∀ g, compHasRoom s c = true → generateCode s.ret.directory 8 s.ret.generator = (g, none) →
                          Completes (exec (.declare r) s) fun t =>
                            KeepsStrikes s t ∧ (∀ d, d ≠ c → t.comp d = s.comp d)
                              ∧ t.comp c = { s.comp c with state := .vacant, transient := none }
                              ∧ t = { answered 7 r .noCode [] s with
                                  ret := { s.ret with
                                    compartments := t.ret.compartments, cursors := u.ret.cursors, generator := g }
                                  checkWord := t.checkWord
                                  kiosks := touchedKiosks k s, segments := t.segments
                                  alarms := (takeSlot s).alarms, attention := t.attention })))))

/-- SESSION_STATUS answers with the session's figures; only the inactivity deadline moves (R109, R99).
The bytes of the named declaration are the model's choice (log 17). -/
def Obligations.SessionStatusReports : Prop :=
  ∀ (r : Request) (s : State) (k : KioskNo) (named : Option Nat) (x : Session),
    Ready 8 r s → r.source = .kiosk k → bodySessionStatus r.body = some named → Settled s →
    (s.kiosk k).session = some x →
    Completes (exec (.sessionStatus r) s) fun t =>
      KeepsStrikes s t
        ∧ t = { answered 8 r .accepted (sessionBody s x named) s with
            kiosks := put s.kiosks k { s.kiosk k with session := some { x with deadline := s.elapsed + 120 } }
            segments := t.segments }

/-- SWEEP that passes its checks starts a courier sweep over the pickup list (R143, R144, R145, R146):
the reply lists it, and entries are granted from its front until four are IN_FLIGHT, the list is used
up, or the next entry is held up. A granted compartment is RELEASING for the retrieval with its strike
queued or struck; every other compartment, listed or not, is unchanged; each grant holds a slot. That the
reply carries the list's length beside its own count (log 27) and the kind codes in it (log 18) are the
model's readings. -/
def Obligations.SweepStartsPickup : Prop :=
  ∀ (r : Request) (s : State) (k : KioskNo) (returns recover : Bool) (x : Session) (e : Courier)
    (listed : List PickupEntry),
    Ready 9 r s → r.source = .kiosk k → bodySweep r.body = some (returns, recover) →
    (s.kiosk k).session = some x → (returns = true ∨ recover = true) → courierOf s x.courier = some e →
    (returns = true → e.returns = true) → (recover = true → e.recover = true) →
    ConcourseServesCouriers s → x.pipeline = [] → x.sweep = none →
    listed = pickupList s k x.courier returns recover → listed ≠ [] →
    Completes (exec (.sweep r) s) fun t =>
      t = { answered 9 r .accepted (sweepReply listed) s with
          ret := { s.ret with compartments := t.ret.compartments, reservations := t.ret.reservations }
          checkWord := t.checkWord, quotes := t.quotes, kiosks := t.kiosks, segments := t.segments
          boards := t.boards, alarms := t.alarms, attention := t.attention }
        ∧ KeepsOtherKiosks k s t
        ∧ ∃ n, n ≤ 4 ∧ n ≤ listed.length
          ∧ t.kiosk k = { s.kiosk k with session := some { x with
              deadline := s.elapsed + 120
              sweep := some { returns, recover, draining := false, retrieved := 0, skipped := 0, dropped := 0
                              entries := (listed.take n).map (fun f => { f with inFlight := true }) ++ listed.drop n } } }
          ∧ t.ret.reservations = s.ret.reservations + n
          ∧ (∀ f ∈ listed.take n,
              (t.comp f.compartment).state = .releasing
                ∧ (∃ mark, (t.comp f.compartment).transient =
                    some { particulars := .retrieve x.serial x.courier, kiosk := k, strikeIssued := mark, prior := none })
                ∧ (t.comp f.compartment).map = (s.comp f.compartment).map
                ∧ (t.comp f.compartment).parcel = (s.comp f.compartment).parcel
                ∧ t.quoteOf f.compartment = none ∧ striking t f.compartment = true)
          ∧ (∀ c, c ∉ (listed.take n).map (·.compartment) → KeepsComp s t c)
          ∧ (n = 4 ∨ n = listed.length ∨ ∃ f, (listed.drop n).head? = some f ∧ issueHeldUp t f = true)

/-- SWEEP_END (R149), in its four rows: NOT_SIGNED_ON without a session; BAD_STATE without a pickup
list; in ISSUING every UNISSUED entry is dropped and counted and the sweep becomes DRAINING; in
DRAINING nothing changes; the figures answer both. -/
def Obligations.SweepEndDrains : Prop :=
  ∀ (r : Request) (s : State) (k : KioskNo),
    Ready 10 r s → r.source = .kiosk k → r.body = [] → Settled s →
    Completes (exec (.sweepEnd r) s) fun t =>
      KeepsStrikes s t
        ∧ ((s.kiosk k).session = none → t = { answered 10 r .notSignedOn [] s with segments := t.segments })
        ∧ (∀ x, (s.kiosk k).session = some x → x.sweep = none →
            t = { answered 10 r .badState [] s with
                kiosks := put s.kiosks k { s.kiosk k with session := some { x with deadline := s.elapsed + 120 } }
                segments := t.segments })
        ∧ (∀ x w, (s.kiosk k).session = some x → x.sweep = some w → w.draining = false →
            let left := w.entries.filter (·.inFlight)
            let dropped := w.dropped + (w.entries.filter (!·.inFlight)).length
            t = { answered 10 r .accepted
                  (be 1 w.retrieved ++ be 1 w.skipped ++ be 1 dropped ++ be 1 left.length) s with
                kiosks := put s.kiosks k { s.kiosk k with session := some { x with
                  deadline := s.elapsed + 120
                  sweep := if left = [] then none else some { w with entries := left, dropped, draining := true } } }
                segments := t.segments })
        ∧ (∀ x w, (s.kiosk k).session = some x → x.sweep = some w → w.draining = true → w.entries ≠ [] →
            t = { answered 10 r .accepted
                  (be 1 w.retrieved ++ be 1 w.skipped ++ be 1 w.dropped
                    ++ be 1 (w.entries.filter (·.inFlight)).length) s with
                kiosks := put s.kiosks k { s.kiosk k with session := some { x with deadline := s.elapsed + 120 } }
                segments := t.segments })

/-! ### The backend -/

/-- FETCH_NOTICE (R214): the oldest notice leaves the outbox and answers with the number left and the
reservation count; an empty outbox answers EMPTY with the reservation count. The codes of the parcel
kind in a RETRIEVED notice are the model's reading (log 18). -/
def Obligations.FetchNoticeTakesOldest : Prop :=
  ∀ (r : Request) (s : State),
    Ready 11 r s → r.source = .backend → r.body = [] → Settled s →
    (∀ o rest, s.ret.outbox = o :: rest →
        exec (.fetchNotice r) s = .next (resealed { answered 11 r .accepted
            (noticeField o ++ be 1 rest.length ++ be 1 s.ret.reservations) s with
          ret := { s.ret with outbox := rest } }))
      ∧ (s.ret.outbox = [] →
        exec (.fetchNotice r) s = .next (answered 11 r .empty (be 1 s.ret.reservations) s))

/-- REVOKE (R44, R25): TOO_LATE once the collection is granted, BAD_STATE where there is no HELD
delivery, and otherwise the code leaves the directory and the record, the quote is removed, the
abandoned time is written and the compartment becomes ABANDONED. -/
def Obligations.RevokeWithdrawsCode : Prop :=
  ∀ (r : Request) (s : State) (c : CompNo),
    Ready 12 r s → r.source = .backend → bodyNat 2 r.body = some c.val → Settled s →
    (∀ d, (s.comp c).state = .held → (s.comp c).parcel = some (.delivery d) →
        exec (.revoke r) s = .next (resealed { answered 12 r .accepted [] s with
          ret := { s.ret with
            directory := (removeEntry c s).ret.directory
            compartments := put s.ret.compartments c { s.comp c with
              state := .abandoned
              parcel := some (.delivery { d with
                code := none
                abandonedTime := some (match s.clock with | some now => now | none => d.depositTime.getD 0) }) } }
          quotes := put s.quotes c none }))
      ∧ (collectionGranted (s.comp c) = true → exec (.revoke r) s = .next (answered 12 r .tooLate [] s))
      ∧ (collectionGranted (s.comp c) = false → heldDelivery (s.comp c) = none →
          exec (.revoke r) s = .next (answered 12 r .badState [] s))

/-- REISSUE (R46, R47): the HELD delivery gets a newly generated code, LIVE in the directory in place of
the old, and nothing else of its record changes; where no candidate is found NO_CODE answers. -/
def Obligations.ReissueReplacesCode : Prop :=
  ∀ (r : Request) (s : State) (c : CompNo) (d : Delivery) (g : BitVec 32),
    Ready 13 r s → r.source = .backend → bodyNat 2 r.body = some c.val → Settled s →
    (s.comp c).state = .held → (s.comp c).parcel = some (.delivery d) →
    (∀ code, generateCode s.ret.directory 8 s.ret.generator = (g, some code) →
        exec (.reissue r) s = .next (resealed { answered 13 r .accepted (compField c ++ be 4 code) s with
          ret := { s.ret with
            generator := g
            directory := (addEntry code c .live (removeEntry c s)).ret.directory
            compartments := put s.ret.compartments c { s.comp c with
              parcel := some (.delivery { d with code := some code }) } } }))
      ∧ (generateCode s.ret.directory 8 s.ret.generator = (g, none) →
        exec (.reissue r) s = .next (resealed { answered 13 r .noCode [] s with
          ret := { s.ret with generator := g } }))

/-- LOAD_COURIER and REMOVE_COURIER (R91, R92, R93): the entry is added or replaced, or removed, and any
open session of the courier ends. -/
def Obligations.CourierTableLoads : Prop :=
  (∀ (r : Request) (s : State) (e : Courier),
    Ready 14 r s → r.source = .backend → bodyLoadCourier r.body = some e → Settled s →
    1 ≤ e.id → e.id ≤ 65535 → e.quota ≤ 768 →
    ((courierOf s e.id).isSome = true ∨ s.ret.couriers.length < 64) →
    exec (.loadCourier r) s = .next (resealed { answered 14 r .accepted [] s with
      ret := { s.ret with
        couriers := if (courierOf s e.id).isSome then s.ret.couriers.map (fun d => if d.id = e.id then e else d)
          else s.ret.couriers ++ [e] }
      kiosks := s.kiosks.map fun x =>
        if (x.session.map (·.courier)) = some e.id then { x with session := none } else x }))
  ∧ ∀ (r : Request) (s : State) (id : Nat) (e : Courier),
    Ready 15 r s → r.source = .backend → bodyNat 2 r.body = some id → Settled s →
    1 ≤ id → id ≤ 65535 → courierOf s id = some e →
    exec (.removeCourier r) s = .next (resealed { answered 15 r .accepted [] s with
      ret := { s.ret with couriers := s.ret.couriers.filter (·.id ≠ id) }
      kiosks := s.kiosks.map fun x =>
        if (x.session.map (·.courier)) = some id then { x with session := none } else x })

/-- LOAD_RETURN and REMOVE_RETURN (R132, R133, R134): a new entry joins the list, not in use and without
a mark; an entry not in use leaves it and answers with its fields; one in use answers BUSY. -/
def Obligations.ReturnsListLoads : Prop :=
  (∀ (r : Request) (s : State) (f : LoadReturnFields) (cls : SizeClass),
    Ready 16 r s → r.source = .backend → bodyLoadReturn r.body = some f → Settled s →
    classOf? f.cls = some cls → f.reference ≤ 9999999999 → 1 ≤ f.courier → f.courier ≤ 65535 →
    f.postage ≤ 999999 → returnOf s f.reference = none → s.ret.returns.length < 256 →
    exec (.loadReturn r) s = .next (resealed { answered 16 r .accepted [] s with
      ret := { s.ret with returns := s.ret.returns ++
        [{ reference := f.reference, cls, courier := f.courier, postage := f.postage, expiry := f.expiry,
           inUse := false, paidMark := none }] } }))
  ∧ ∀ (r : Request) (s : State) (reference : Nat) (e : ReturnEntry),
    Ready 17 r s → r.source = .backend → bodyNat 5 r.body = some reference → Settled s →
    reference ≤ 9999999999 → returnOf s reference = some e →
    exec (.removeReturn r) s =
      .next (if e.inUse then answered 17 r .busy [] s
        else resealed { answered 17 r .accepted (returnField e) s with
          ret := { s.ret with returns := s.ret.returns.filter (·.reference ≠ reference) } })

/-- SETTLE (R87, R88): a new number takes the takings into the last settlement record and zeroes them; a
repeat of the last number answers with the record as first reported and changes nothing. -/
def Obligations.SettleTakesTakings : Prop :=
  ∀ (r : Request) (s : State) (number : Nat),
    Ready 18 r s → r.source = .backend → bodyNat 2 r.body = some number → Settled s →
    (∀ x, s.ret.lastSettlement = some x → x.number = number →
        exec (.settle r) s = .next (answered 18 r .accepted
          (flag true ++ be 2 number ++ x.figures.toList.flatMap takingsField) s))
      ∧ ((∀ x, s.ret.lastSettlement = some x → x.number ≠ number) →
        exec (.settle r) s = .next (resealed { answered 18 r .accepted
            (flag false ++ be 2 number ++ s.ret.takings.toList.flatMap takingsField) s with
          ret := { s.ret with
            takings := Vector.replicate 4 zeroTakings
            lastSettlement := some { number, figures := s.ret.takings } } }))

/-- QUERY_COMPARTMENT answers with the compartment's image and changes nothing else, but that from
SERVICE in UNLOCKED the unlock deadline moves (R32, R187, R216, R224). That the unassigned bits of the
image are 0 is the model's choice (log 44). -/
def Obligations.QueryReportsImage : Prop :=
  ∀ (r : Request) (s : State) (c : CompNo),
    Ready 19 r s → StaffMay r s → bodyNat 2 r.body = some c.val → Settled s →
    exec (.queryCompartment r) s = .next (answered 19 r .accepted
      (compartmentImage c (s.comp c) (s.quoteOf c) (doorImage s c) (occupancyImage s c)) (staffState r s))

/-- CLEAR of a JAMMED or SUSPECT compartment with its door closed (R26): occupied with a record, it
rests in HELD or ABANDONED and its code is LIVE again; empty and without a code, it becomes VACANT
without its record; empty with a code, it also loses its directory entry, and a CLEARED notice is
made where a slot can be reserved; with its door not known closed it is refused. -/
def Obligations.ClearReturnsCompartment : Prop :=
  ∀ (r : Request) (s : State) (c : CompNo),
    Ready 20 r s → StaffMay r s → bodyNat 2 r.body = some c.val → Settled s →
    ((s.comp c).state = .jammed ∨ (s.comp c).state = .suspect) →
    (∀ p, doorImage s c = some false → occupancyImage s c = some true → (s.comp c).parcel = some p →
        exec (.clear r) s = .next (resealed { answered 20 r .accepted [] (staffState r s) with
          ret := { s.ret with
            compartments := put s.ret.compartments c { s.comp c with state := restedState (some p) }
            directory := match p with
              | .delivery d => if d.code.isSome then (setEntryStatus c .live s).ret.directory else s.ret.directory
              | .returned _ => s.ret.directory } }))
      ∧ (doorImage s c = some false → occupancyImage s c = some false →
          (∀ d, (s.comp c).parcel = some (.delivery d) → d.code = none) →
          exec (.clear r) s = .next (resealed { answered 20 r .accepted [] (staffState r s) with
            ret := { s.ret with
              compartments := put s.ret.compartments c { s.comp c with state := .vacant, parcel := none } } }))
      ∧ (∀ d code, doorImage s c = some false → occupancyImage s c = some false →
          (s.comp c).parcel = some (.delivery d) → d.code = some code → outboxHasRoom s = true →
          Completes (exec (.clear r) s) fun t =>
            t = { resealed { answered 20 r .accepted [] (staffState r s) with
                ret := { s.ret with
                  compartments := put s.ret.compartments c { s.comp c with state := .vacant, parcel := none }
                  directory := (removeEntry c s).ret.directory
                  outbox := s.ret.outbox ++
                    [{ sequence := s.ret.noticeSequence, notice := .cleared c d.reference d.courier d.depositTime d.paid }]
                  noticeSequence := (s.ret.noticeSequence + 1) % 65536 } } with
              alarms := (takeSlot s).alarms, attention := t.attention })
      ∧ (doorImage s c ≠ some false → exec (.clear r) s = .next (answered 20 r .badState [] (staffState r s)))

/-- FETCH_ALARM (R204, R205): the first enabled alarm by priority and object leaves the pending set and
answers with the number of enabled alarms left, which the attention line then follows; with none, EMPTY.
The two bytes of the object are the model's choice (log 42). -/
def Obligations.FetchAlarmTakesFirst : Prop :=
  ∀ (r : Request) (s : State),
    Ready 21 r s → StaffMay r s → r.body = [] → Settled s →
    (∀ a, firstAlarm (visibleAlarms s) = some a →
        let left := s.alarms.filter fun b => !(b.kind = a.kind && b.object = a.object)
        let visible := left.filter fun b => look s.ret.enables (alarmCode b.kind)
        exec (.fetchAlarm r) s = .next { answered 21 r .accepted
            (be 1 (alarmCode a.kind).val ++ be 2 a.object ++ optional timeField a.posted ++ be 2 visible.length)
            (staffState r s) with
          alarms := left, attention := !visible.isEmpty })
      ∧ (firstAlarm (visibleAlarms s) = none →
        exec (.fetchAlarm r) s = .next (answered 21 r .empty [] (staffState r s)))
      ∧ ∀ a, firstAlarm (visibleAlarms s) = some a →
          a ∈ visibleAlarms s ∧ ∀ b ∈ visibleAlarms s,
            (alarmCode a.kind).val < (alarmCode b.kind).val
              ∨ (a.kind = b.kind ∧ a.object ≤ b.object)

/-! ### The station -/

/-- BROADCAST (R193, R194, R196, R198): the time sets an unset clock, which fills the absent deposit times
(R19), and steps a set one when they differ by more than 2 s; then the code enters the history, and a
known code that stands there at least four times is the concourse state. The reply carries both (R209).
An adoption (R195) leaves no strike that issue could take (R160). That of EVACUATE ends every session
(R100), empties every strike queue (R170) and removes every quote (R82). It cancels the transactions of queued
strikes and POSTAGE quotes (R14) and leaves active strikes and every other record, and an adoption of another
state changes no record but the strike issued marks: that a waiting sweep does not issue within the adoption
R195 speaks of, but at a SWEEP_ISSUE of its own, is the model's reading of R147 (log 29). Where the state stays,
the code changes no record. All this is on the records as the time has left them: as they were where the clock
stands and at a backward step; a forward step lets the quotes passed expire, with the drops of POSTAGE quotes
reverted (R72), and over a multiple of 60 then gives one boundary with its scan and its lapsed returns entries
(R199). That two drops of one kiosk so end in ascending compartment number is the model's choice (log 48). -/
def Obligations.BroadcastSetsClockAndState : Prop :=
  ∀ (r : Request) (s : State) (code time : Nat),
    Ready 22 r s → r.source = .station → bodyBroadcast r.body = some (code, time) →
    Completes (exec (.broadcast r) s) fun t =>
      t.clock = (match s.clock with
          | none => some time
          | some v => if v ≤ time + 2 ∧ time ≤ v + 2 then some v else some time)
        ∧ t.history = (if 5 ≤ s.history.length then s.history.drop 1 else s.history) ++ [code]
        ∧ t.ret.concourse = (match qualifying t.history with | some x => x | none => s.ret.concourse)
        ∧ (∀ x, qualifying t.history = some x →
            ∃ n, concourseOf? n = some x ∧ 4 ≤ t.history.count n)
        ∧ Answered 22 r .accepted (be 1 (concourseCode t.ret.concourse) ++ optional timeField t.clock) s t
        ∧ (t.run = s.run ∧ t.elapsed = s.elapsed ∧ t.skc = s.skc ∧ t.unlockDeadline = s.unlockDeadline
            ∧ t.boundariesDue = s.boundariesDue ∧ t.nextSerial = s.nextSerial ∧ t.trunkOut = s.trunkOut)
        ∧ (s.clock = none → ∀ c,
            (∀ d, (s.comp c).parcel = some (.delivery d) →
                (t.comp c).parcel = some (.delivery { d with depositTime := some (d.depositTime.getD time) }))
              ∧ (∀ d, (s.comp c).parcel = some (.returned d) →
                (t.comp c).parcel = some (.returned { d with depositTime := some (d.depositTime.getD time) }))
              ∧ ((s.comp c).parcel = none → (t.comp c).parcel = none))
        ∧ (t.ret.concourse ≠ s.ret.concourse → ∀ g, nextIssue t g = none)
        ∧ (t.ret.concourse ≠ s.ret.concourse → t.ret.concourse = .evacuate →
            (∀ k, (t.kiosk k).session = none) ∧ (∀ g, (t.seg g).queue = []) ∧ ∀ c, t.quoteOf c = none)
        ∧ (t.clock = s.clock → CodeApplied s t)
        ∧ ∀ v, s.clock = some v → ¬ (v ≤ time + 2 ∧ time ≤ v + 2) → LapsingDrops s time →
            (∀ c q, s.quoteOf c = some q → (s.comp c).state = .held → q.purpose = .collection) →
            ∃ u, ClockStepped v time s u ∧ CodeApplied u t

/-! ### The service terminal -/

/-- UNLOCK_KEY and END_SERVICE, in every state of the SKC (R216, R217), and the SKC's refusal of every
other maintenance kind from SERVICE: MAINTENANCE_LOCKED in IDLE, COLLECTED_1 to COLLECTED_3 and BARRED,
where COLLECTED_1 to COLLECTED_3 move to BARRED. -/
def Obligations.SkcTable : Prop :=
  (∀ (r : Request) (s : State) (index : Nat) (word : BitVec 32),
    Ready 23 r s → r.source = .service → bodyUnlockKey r.body = some (index, word) → Settled s →
    (∀ (n : Fin 4) (next : SkcState) (ahead : Nat) (keys : Vector (BitVec 32) 4),
        (s.skc, n, next, ahead) ∈ [(SkcState.idle, (0 : Fin 4), SkcState.collected1, 60),
          (.collected1, 1, .collected2, 60), (.collected2, 2, .collected3, 60), (.collected3, 3, .unlocked, 600)] →
        s.ret.keys = some keys → index = n.val → word = look keys n → word ≠ 0 → word ≠ BitVec.allOnes 32 →
        exec (.unlockKey r) s = .next { answered 23 r .accepted (be 1 (n.val + 1)) s with
          skc := next, unlockDeadline := some (s.elapsed + ahead) })
      ∧ (∀ n : Fin 4, (s.skc, n) ∈ [(SkcState.idle, (0 : Fin 4)), (.collected1, 1), (.collected2, 2), (.collected3, 3)] →
          (index ≠ n.val ∨ word = 0 ∨ word = BitVec.allOnes 32 ∨ ∀ keys, s.ret.keys = some keys → word ≠ look keys n) →
          exec (.unlockKey r) s = .next { answered 23 r .maintenanceLocked [] s with
            skc := .barred, unlockDeadline := none })
      ∧ (s.skc = .noKeys → exec (.unlockKey r) s = .next (answered 23 r .badState [] s))
      ∧ (s.skc = .unlocked → exec (.unlockKey r) s = .next { answered 23 r .badState [] s with
          unlockDeadline := some (s.elapsed + 600) })
      ∧ (s.skc = .barred → exec (.unlockKey r) s = .next { answered 23 r .maintenanceLocked [] s with
          unlockDeadline := none }))
  ∧ (∀ (r : Request) (s : State),
    Ready 24 r s → r.source = .service → r.body = [] → Settled s →
    (s.skc = .noKeys ∨ s.skc = .idle → exec (.endService r) s = .next (answered 24 r .accepted [] s))
      ∧ (s.skc = .unlocked → exec (.endService r) s = .next { answered 24 r .accepted [] s with
          skc := .idle, unlockDeadline := none })
      ∧ (s.skc = .collected1 ∨ s.skc = .collected2 ∨ s.skc = .collected3 ∨ s.skc = .barred →
          exec (.endService r) s = .next { answered 24 r .maintenanceLocked [] s with
            skc := .barred, unlockDeadline := none }))
  ∧ ∀ (c : Instr) (kind : Nat) (r : Request) (s : State),
    kindOf c = some (kind, r) → Ready kind r s → r.source = .service → Settled s →
    (19 ≤ kind ∧ kind ≤ 21 ∨ 25 ≤ kind ∧ kind ≤ 36) → bodyFits c = true →
    (s.skc = .idle ∨ s.skc = .barred → exec c s = .next (answered kind r .maintenanceLocked [] s))
      ∧ (s.skc = .collected1 ∨ s.skc = .collected2 ∨ s.skc = .collected3 →
          exec c s = .next { answered kind r .maintenanceLocked [] s with skc := .barred, unlockDeadline := none })

/-- LOAD_MAP (R3, R4): HELD where the compartment is neither VACANT nor UNSERVED, DUPLICATE where another
compartment's entry names the board and line, and otherwise the entry is replaced and gives the
state. -/
def Obligations.LoadMapSetsEntry : Prop :=
  ∀ (r : Request) (s : State) (c : CompNo) (f : Option MapFields) (m : Option MapEntry),
    Ready 25 r s → r.source = .service → ServiceOpen s → Settled s →
    bodyLoadMap r.body = some (c.val, f) → (f = none ∧ m = none ∨ ∃ x, f = some x ∧ mapEntry? x = m ∧ m ≠ none) →
    let taken := ∃ n d x, m = some n ∧ d ≠ c ∧ (s.comp d).map = some x ∧ x.board = n.board ∧ x.line = n.line
    let free := (s.comp c).state = .vacant ∨ (s.comp c).state = .unserved
    (¬ free → exec (.loadMap r) s = .next (answered 25 r .held [] (admittedState s)))
      ∧ (free → taken → exec (.loadMap r) s = .next (answered 25 r .duplicate [] (admittedState s)))
      ∧ (free → ¬ taken → exec (.loadMap r) s = .next (resealed { answered 25 r .accepted [] (admittedState s) with
          ret := { s.ret with
            compartments := put s.ret.compartments c { s.comp c with
              map := m
              state := match m with
                | some n =>
                  if n.inService = true ∧ (s.board n.board).link ≠ .withdrawn then .vacant else .unserved
                | none => .unserved } } }))

/-- LOAD_TARIFF (R50, R51): F, P and r out of range are refused; otherwise the row of the class is
replaced as a whole, with C, X and A clamped into range, and the reply carries the stored row. -/
def Obligations.LoadTariffStoresRow : Prop :=
  ∀ (r : Request) (s : State) (n : Nat) (row : TariffRow),
    Ready 26 r s → r.source = .service → ServiceOpen s → Settled s → bodyLoadTariff r.body = some (n, row) →
    ((classOf? n = none ∨ 20160 < row.freePeriod ∨ row.period = 0 ∨ 1440 < row.period) →
        exec (.loadTariff r) s = .next (answered 26 r .outOfRange [] (admittedState s)))
      ∧ ∀ cls, classOf? n = some cls → row.freePeriod ≤ 20160 → 1 ≤ row.period → row.period ≤ 1440 →
          let stored : TariffRow := { row with
            cap := if row.cap < 1 then 1 else if 999999 < row.cap then 999999 else row.cap
            ceiling := if 999999 < row.ceiling then 999999 else row.ceiling
            allowance := if row.allowance < 1 then 1 else if 43200 < row.allowance then 43200 else row.allowance }
          exec (.loadTariff r) s = .next (resealed { answered 26 r .accepted (tariffField stored) (admittedState s) with
            ret := { s.ret with tariff := put s.ret.tariff cls.index (some stored) } })

/-- LOAD_SLOT that passes its checks (R175, R176): the slot is replaced; where the load leaves an ONLINE
board named by no slot, that board is declared LOST, BOARD_LOST is pending, and its ISSUED strikes end
(R162, R182); where it does not, beside the slot only the good run of an UNKNOWN or LOST board changes that
the load leaves unnamed or names again, which is 0. A third slot for a board is refused DUPLICATE. The two flags
of the reply are the model's choice (log 34), and that the good run of a board named again is 0 at the load is
its reading of R176 (log 15). -/
def Obligations.LoadSlotReplacesContent : Prop :=
  ∀ (r : Request) (s : State) (g : SegNo) (i : SlotNo) (f : Option (Nat × Nat)) (content : Option SlotContent),
    Ready 27 r s → r.source = .service → ServiceOpen s → Settled s →
    bodyLoadSlot r.body = some (g.val, i.val, f) →
    (f = none ∧ content = none ∨ ∃ b p x, f = some (b, p) ∧ slotContent? b p = some x ∧ content = some x
        ∧ segmentOf x.board = g) →
    let slots := put s.ret.slots g (put (look s.ret.slots g) i content)
    let unnamed := fun b : BoardNo =>
      (look (look s.ret.slots g) i).map (·.board) = some b ∧ ∀ j x, look (look slots g) j = some x → x.board ≠ b
    let named := fun b : BoardNo =>
      content.map (·.board) = some b ∧ ∀ j x, look (look s.ret.slots g) j = some x → x.board ≠ b
    ((∀ x, content = some x → otherSlotsNaming s g i x.board < 2) →
        Completes (exec (.loadSlot r) s) fun t =>
          Answered 27 r .accepted (slotBody s content) (admittedState s) t ∧ KeepsStation (admittedState s) t
            ∧ t.ret.slots = slots
            ∧ (∀ b, unnamed b → (s.board b).link = .online →
                (t.board b).link = .lost ∧ Pending t .boardLost b.val
                  ∧ LostStrikes b (disconnected b { s with ret := { s.ret with slots } }) t)
            ∧ ((∀ b, unnamed b → (s.board b).link ≠ .online) →
                t = resealed { answered 27 r .accepted (slotBody s content) (admittedState s) with
                    ret := { s.ret with slots }
                    boards := t.boards }
                  ∧ ∀ b, ((unnamed b ∨ named b) → ((s.board b).link = .unknown ∨ (s.board b).link = .lost) →
                        t.board b = { s.board b with goodRun := 0 })
                      ∧ (¬ unnamed b → ¬ named b → t.board b = s.board b)
                      ∧ ((s.board b).link = .online ∨ (s.board b).link = .withdrawn → t.board b = s.board b)))
      ∧ ∀ x, content = some x → 2 ≤ otherSlotsNaming s g i x.board →
          exec (.loadSlot r) s = .next (answered 27 r .duplicate [] (admittedState s))

/-- SET_BUDGET (R158, R159, R160, R161): the clamped value is stored and answered with the budget in
force, and issue is applied to the segment until no strike can be issued: what strikes keeps striking,
and the strikes newly ISSUED come from the queue and keep the energised count within the budget in
force. -/
def Obligations.SetBudgetStoresAndIssues : Prop :=
  ∀ (r : Request) (s : State) (g : SegNo) (v stored : Nat),
    Ready 28 r s → r.source = .service → ServiceOpen s → Settled s → bodySetBudget r.body = some (g.val, v) →
    stored = (if v < 1 then 1 else if 3 < v then 3 else v) →
    Completes (exec (.setBudget r) s) fun t =>
      Issued g { s with ret := { s.ret with budgets := put s.ret.budgets g stored } } t ∧ (∀ c, KeepsComp s t c)
        ∧ t = resealed { answered 28 r .accepted
              (be 1 g.val ++ be 1 stored ++ be 1 (if s.ret.concourse = .restricted then 1 else stored))
              (admittedState s) with
            ret := { s.ret with
              budgets := put s.ret.budgets g stored
              compartments := t.ret.compartments }
            segments := t.segments, boards := t.boards }
        ∧ ∀ h, h ≠ g → t.seg h = s.seg h

/-- SET_HOLD (R54) and SET_ENABLES (R203, R205): the hold time is clamped into 60 to 600 s; the enables are
stored as given but FORCED always set, and the attention line follows them at once. -/
def Obligations.SetHoldAndEnables : Prop :=
  (∀ (r : Request) (s : State) (v hold : Nat),
    Ready 29 r s → r.source = .service → ServiceOpen s → Settled s → bodyNat 2 r.body = some v →
    hold = (if v < 60 then 60 else if 600 < v then 600 else v) →
    exec (.setHold r) s = .next (resealed { answered 29 r .accepted (be 2 hold) (admittedState s) with
      ret := { s.ret with hold } }))
  ∧ ∀ (r : Request) (s : State) (given : Vector Bool 8) (enables : Vector Bool 8),
    Ready 30 r s → r.source = .service → ServiceOpen s → Settled s →
    bodySetEnables r.body = some given.toList →
    enables = put given (alarmCode .forced) true →
    exec (.setEnables r) s = .next { resealed { answered 30 r .accepted (enables.toList.flatMap flag) (admittedState s) with
        ret := { s.ret with enables } } with
      attention := s.alarms.any fun a => look enables (alarmCode a.kind) }

/-- SEED_GENERATOR (R38): the seed replaces the generator state, a seed of 0 as 1; no code of the
directory is touched. -/
def Obligations.SeedReplacesGenerator : Prop :=
  ∀ (r : Request) (s : State) (seed : Nat),
    Ready 31 r s → r.source = .service → ServiceOpen s → Settled s → bodyNat 4 r.body = some seed →
    exec (.seedGenerator r) s = .next (resealed { answered 31 r .accepted [] (admittedState s) with
      ret := { s.ret with generator := if seed = 0 then 1 else BitVec.ofNat 32 seed } })

/-- SET_KEYS (R218): refused where a word is all zeros or all ones, with the stored keys and the SKC's
state unchanged; otherwise the four words are stored, NO_KEYS becomes UNLOCKED with the deadline
600 s ahead, and UNLOCKED stays. The reply carries no key word. -/
def Obligations.SetKeysStoresWords : Prop :=
  ∀ (r : Request) (s : State) (keys : Vector (BitVec 32) 4),
    Ready 32 r s → r.source = .service → ServiceOpen s → Settled s → bodySetKeys r.body = some keys →
    ((∃ i, look keys i = 0 ∨ look keys i = BitVec.allOnes 32) →
        exec (.setKeys r) s = .next (answered 32 r .outOfRange [] (admittedState s)))
      ∧ ((∀ i, look keys i ≠ 0 ∧ look keys i ≠ BitVec.allOnes 32) →
        exec (.setKeys r) s = .next (resealed { answered 32 r .accepted [] s with
          ret := { s.ret with keys := some keys }, skc := .unlocked, unlockDeadline := some (s.elapsed + 600) }))

/-- WITHDRAW and REINSTATE (R189, R190, R23): a board with every compartment VACANT or UNSERVED is
withdrawn, its compartments UNSERVED, its supervision and readings discarded; a WITHDRAWN board
becomes UNKNOWN with nothing of its supervision but the expected report bit. -/
def Obligations.WithdrawAndReinstate : Prop :=
  (∀ (r : Request) (s : State) (b : BoardNo),
    Ready 33 r s → r.source = .service → ServiceOpen s → Settled s → bodyNat 1 r.body = some b.val →
    let used := ∃ c m, (s.comp c).map = some m ∧ m.board = b
      ∧ (s.comp c).state ≠ .vacant ∧ (s.comp c).state ≠ .unserved
    ((s.board b).link = .withdrawn → exec (.withdraw r) s = .next (answered 33 r .badState [] (admittedState s)))
      ∧ ((s.board b).link ≠ .withdrawn → used →
          exec (.withdraw r) s = .next (answered 33 r .held [] (admittedState s)))
      ∧ ((s.board b).link ≠ .withdrawn → ¬ used →
          exec (.withdraw r) s = .next (resealed { answered 33 r .accepted [] (admittedState s) with
            ret := { s.ret with
              withdrawn := put s.ret.withdrawn b true
              compartments := s.ret.compartments.map fun (x : Compartment) =>
                if (x.map.map (·.board)) = some b then { x with state := .unserved } else x }
            boards := put s.boards b { link := .withdrawn, goodRun := 0, window := [], handOff := [],
                                       expectedBit := (s.board b).expectedBit
                                       lines := Vector.replicate 12 freshLine } })))
  ∧ ∀ (r : Request) (s : State) (b : BoardNo),
    Ready 34 r s → r.source = .service → ServiceOpen s → Settled s → bodyNat 1 r.body = some b.val →
    exec (.reinstate r) s = .next (
      if (s.board b).link ≠ .withdrawn then answered 34 r .badState [] (admittedState s)
      else
        resealed { answered 34 r .accepted [] (admittedState s) with
          ret := { s.ret with withdrawn := put s.ret.withdrawn b false }
          boards := put s.boards b { link := .unknown, goodRun := 0, window := [], handOff := [],
                                     expectedBit := (s.board b).expectedBit, lines := Vector.replicate 12 freshLine } })

/-- RESTART and BLANK (R220, R221): an admitted Restart is accepted in every state; Blank is accepted
exactly where every compartment is VACANT or UNSERVED. From the acceptance no request is ready. -/
def Obligations.RestartAndBlankAccepted : Prop :=
  (∀ (r : Request) (s : State),
    Ready 35 r s → r.source = .service → ServiceOpen s → Settled s → r.body = [] →
    exec (.restart r) s = .next { answered 35 r .accepted [] (admittedState s) with run := .restartPending })
  ∧ (∀ (r : Request) (s : State),
    Ready 36 r s → r.source = .service → ServiceOpen s → Settled s → r.body = [] →
    exec (.blank r) s = .next (
      if ∀ c, (s.comp c).state = .vacant ∨ (s.comp c).state = .unserved then
        { answered 36 r .accepted [] (admittedState s) with run := .blankPending }
      else answered 36 r .held [] (admittedState s)))
  ∧ ∀ (kind : Nat) (r : Request) (s : State),
      (s.run = .restartPending ∨ s.run = .blankPending) → ¬ Ready kind r s

/-! ### Resets and power -/

/-- RESET, BLANK_START and LOSS_OF_MAIN_POWER (R219, R220, R221, R27, R29, R31, R207): a reset that
finds the check word in agreement keeps the retained state, with transient compartments in RECONCILE;
one that does not, and a blank start, give the state right after reset; an interrupted change leaves a
disagreement behind. The model's choices in it: the check word as an unconstrained function and its free
disagreeing value (logs 6, 7), the word computed afresh over the restarted state, where the table of R30 has it
as stored (log 45), the values of State.reset and the straps (log 8), elapsed running time 0 (log 9), the loss
of the boundaries counted and not taken (log 5), what is done without main power (log 30), the lines of a
reset (log 31), and the empty transmit queue before a requested reset (log 37). -/
def Obligations.ResetsAndPower : Prop :=
  (∀ (cause : ResetCause) (straps : BankId) (s : State),
    (cause = .pin ∧ s.run ≠ .unpowered ∨ cause = .powerOn ∧ s.run = .unpowered
      ∨ cause = .requested ∧ s.run = .restartPending ∧ s.transmit = []) →
    (Config.retentionCheck s.ret = s.checkWord →
        Completes (exec (.reset cause straps) s) fun t =>
          t.ret = { s.ret with compartments := t.ret.compartments }
            ∧ (∀ c, (s.comp c).state.transacting = false ∨ (s.comp c).state = .reconcile → t.comp c = s.comp c)
            ∧ (∀ c p, (s.comp c).state = p.state →
                t.comp c = { s.comp c with
                  state := .reconcile
                  transient := (s.comp c).transient.map fun x => { x with prior := some p } })
            ∧ (∀ g, (t.seg g).queue = [] ∧ (t.seg g).active = [] ∧ (t.seg g).rate = .full ∧ (t.seg g).sweepCounter = 0)
            ∧ t = { State.reset with
                ret := t.ret
                checkWord := Config.retentionCheck t.ret
                segments := t.segments
                boards := s.ret.withdrawn.map freshBoard
                alarms := [], attention := false
                skc := if s.ret.keys.isSome then .idle else .noKeys
                bankId := straps, freeCounter := s.freeCounter, pending := s.pending })
      ∧ (Config.retentionCheck s.ret ≠ s.checkWord →
        exec (.reset cause straps) s = .next { State.reset with
          bankId := straps, freeCounter := s.freeCounter, pending := s.pending }))
  ∧ (∀ (straps : BankId) (s : State), s.run = .blankPending → s.transmit = [] →
      exec (.blankStart straps) s = .next { State.reset with
        bankId := straps, freeCounter := s.freeCounter, pending := s.pending })
  ∧ (∀ s : State, s.run ≠ .unpowered → exec (.lossOfMainPower false) s = .next { s with run := .unpowered })
  ∧ ∀ s : State, s.run ≠ .unpowered →
      Completes (exec (.lossOfMainPower true) s) fun t =>
        t = { s with run := .unpowered, checkWord := t.checkWord, freeCounter := s.freeCounter + 1 }
          ∧ t.checkWord ≠ Config.retentionCheck t.ret

/-! ### Clock and deadlines -/

/-- CLOCK_TICK (R196, R197, R199): elapsed running time advances by a second; the set clock advances by
one up to its largest value, and a multiple of 60 that it reaches is a boundary to be taken (log 5).
Nothing else changes. -/
def Obligations.ClockTickAdvances : Prop :=
  ∀ s : State, s.run ≠ .unpowered → Settled s →
    (∀ v, s.clock = some v → v < 4294967295 →
        exec .clockTick s = .next { s with
          elapsed := s.elapsed + 1
          clock := some (v + 1)
          boundariesDue := if 60 ∣ v + 1 then s.boundariesDue + 1 else s.boundariesDue })
      ∧ (s.clock = none ∨ s.clock = some 4294967295 →
          exec .clockTick s = .next { s with elapsed := s.elapsed + 1 })

/-- MINUTE_BOUNDARY while no POSTAGE quote stands on a HELD compartment (R24, R72, R136, R199): the expiry
scan abandons the deliveries that are due, in ascending number, while an outbox slot is free, so that
those left HELD are the highest-numbered and are left only when the outbox is full. Each one abandoned
loses its code and its directory entry, takes the abandoned time and makes its ABANDONED notice; HELD
compartments lose their expired quotes; BACKLOG is posted when the outbox becomes full (R212); lapsed
returns entries that are not in use leave the list; nothing else changes. That a boundary waits for
this command is the model's reading of R199 (log 5). -/
def Obligations.MinuteBoundaryScans : Prop :=
  ∀ (s : State) (now : Nat) (taken : List CompNo),
    s.run ≠ .unpowered → Settled s → s.clock = some now → 0 < s.boundariesDue →
    (∀ c q, s.quoteOf c = some q → (s.comp c).state = .held → q.purpose = .collection) →
    taken = ((List.finRange 768).filter (scanFinds s now)).take (32 - (s.ret.outbox.length + s.ret.reservations)) →
    Completes (exec .minuteBoundary s) fun t =>
      (∀ c, t.comp c = if c ∈ taken then abandonedComp (s.comp c) now else s.comp c)
        ∧ (∀ c, t.quoteOf c =
            if (s.comp c).state = .held ∧ (s.quoteOf c).any (quotePassed s) = true then none else s.quoteOf c)
        ∧ t = resealed { s with
            ret := { s.ret with
              compartments := t.ret.compartments
              directory := s.ret.directory.map fun ways => ways.filter fun e => decide (e.compartment ∉ taken)
              outbox := s.ret.outbox ++ List.zipWith (fun n x => { sequence := n, notice := x })
                (List.iterate nextSequence s.ret.noticeSequence taken.length) (taken.filterMap (abandonedNotice s now))
              noticeSequence := nextSequence^[taken.length] s.ret.noticeSequence
              returns := s.ret.returns.filter fun e => e.inUse || now ≤ e.expiry }
            quotes := t.quotes
            alarms := if taken ≠ [] ∧ s.ret.outbox.length + s.ret.reservations + taken.length = 32 then
                (postAlarm .backlog 0 s).alarms else s.alarms
            attention := t.attention
            boundariesDue := s.boundariesDue - 1 }

/-- LOCKOUT_DEADLINE, INACTIVITY_DEADLINE, AJAR_DEADLINE, KIOSK_IDLE_DEADLINE and UNLOCK_DEADLINE once
their times have come (R43, R99, R100, R172, R178, R216). -/
def Obligations.DeadlinesPass : Prop :=
  (∀ (k : KioskNo) (d : Nat) (s : State), s.run ≠ .unpowered → Settled s →
      (s.kiosk k).lockout = some d → d ≤ s.elapsed →
      exec (.lockoutDeadline k) s = .next { s with
        kiosks := put s.kiosks k { s.kiosk k with lockout := none, failures := 0 } })
  ∧ (∀ (k : KioskNo) (x : Session) (s : State), s.run ≠ .unpowered → Settled s →
      (s.kiosk k).session = some x → x.deadline ≤ s.elapsed →
      exec (.inactivityDeadline k) s = .next { s with
        kiosks := put s.kiosks k { s.kiosk k with session := none } })
  ∧ (∀ (c : CompNo) (d : Nat) (s : State), s.run ≠ .unpowered → Settled s →
      look s.ajar c = some (.running d) → d ≤ s.elapsed →
      Completes (exec (.ajarDeadline c) s) fun t =>
        (∃ a ∈ t.alarms, a.kind = .ajar ∧ a.object = c.val) ∧ (∀ a ∈ s.alarms, a ∈ t.alarms)
          ∧ t = { s with ajar := put s.ajar c (some .passed), alarms := t.alarms, attention := t.attention })
  ∧ (∀ (d : Nat) (s : State), s.run ≠ .unpowered → Settled s → s.kioskIdle = some d → d ≤ s.elapsed →
      Completes (exec .kioskIdleDeadline s) fun t =>
        t = { s with kioskIdle := none, segments := t.segments } ∧ KeepsStrikes s t
          ∧ ∀ g, (t.seg g).rate =
              if s.ret.concourse = .closed ∧ (s.seg g).queue = [] ∧ (s.seg g).active = [] then .quiet else .full)
  ∧ ∀ (d : Nat) (s : State), s.run ≠ .unpowered → Settled s → s.unlockDeadline = some d → d ≤ s.elapsed →
      (s.skc = .collected1 ∨ s.skc = .collected2 ∨ s.skc = .collected3 ∨ s.skc = .unlocked) →
      exec .unlockDeadline s = .next { s with skc := .idle, unlockDeadline := none }

/-- QUOTE_EXPIRY once the clock has passed the expiry time (R72, R14): a COLLECTION quote is removed and
its compartment stays; a POSTAGE quote's drop returns to VACANT, its entry is not in use, its slot is
released, and its kiosk's last door result is CANCELLED. Before that nothing changes. That nothing
changes before the expiry is the model's choice (log 1). -/
def Obligations.QuoteExpiryRemovesQuote : Prop :=
  ∀ (c : CompNo) (q : Quote) (now : Nat) (s : State), s.run ≠ .unpowered → Settled s → s.quoteOf c = some q →
    s.clock = some now →
    (now ≤ q.expiry → exec (.quoteExpiry c) s = .next s)
      ∧ (q.expiry < now → q.purpose = .collection →
          exec (.quoteExpiry c) s = .next { s with quotes := put s.quotes c none })
      ∧ (∀ courier reference k mark, q.expiry < now → q.purpose = .postage reference → (s.comp c).state = .reserved →
          (s.comp c).transient =
            some { particulars := .drop courier reference 0, kiosk := k, strikeIssued := mark, prior := none } →
          exec (.quoteExpiry c) s = .next (resealed { s with
            ret := { s.ret with
              compartments := put s.ret.compartments c { s.comp c with state := .vacant, transient := none }
              returns := s.ret.returns.map fun e =>
                if e.reference = reference then { e with inUse := false, paidMark := none } else e
              reservations := s.ret.reservations - 1 }
            quotes := put s.quotes c none
            kiosks := put s.kiosks k { s.kiosk k with
              doorResult := some { compartment := c, purpose := .drop, outcome := .cancelled } } }))

/-! ### Strikes -/

/-- ENERGISE_DEADLINE and CONFIRM_DEADLINE once their times have come (R162 to R167). A strike whose door
was seen succeeds at its energise deadline, into its door phase or, with the door confirmed closed again,
through close handling (R16). Otherwise the attempt fails. A first attempt is requeued at the head of its
queue as attempt 2 and may be struck again at once; with sixteen entries queued it displaces the tail
entry, whose transaction is reverted (R169); in EVACUATE its own transaction is reverted instead. A second
makes the compartment JAMMED, with its alarm pending and its transaction reverted (R15). Issue has been
applied in every case (R160), after the success and its close handling by the model's choice (log 39). -/
def Obligations.StrikeDeadlines : Prop :=
  ∀ (c : CompNo) (g : SegNo) (a : ActiveStrike) (d : Nat) (i : Instr) (s : State),
    s.run ≠ .unpowered → activeOf s c = some (g, a) → d ≤ s.elapsed →
    ((i = .energiseDeadline c ∧ a.phase = .issued d) ∨ (i = .confirmDeadline c ∧ a.phase = .confirming d)) →
    (a.doorSeen = true → i = .energiseDeadline c → ((s.comp c).state = .reserved ∨ (s.comp c).state = .releasing) →
        ∀ x, (s.comp c).transient = some x →
        Completes (exec i s) fun t =>
          Succeeded g a x s t ∧ nextIssue t g = none ∧ KeepsStation s t ∧ KeepsTables s t)
      ∧ ((a.doorSeen = false ∨ i = .confirmDeadline c) → a.attempt = .first → s.ret.concourse ≠ .evacuate →
        (s.seg g).queue.length < 16 →
        Completes (exec i s) fun t =>
          Requeued g a s t ∧ nextIssue t g = none ∧ KeepsStation s t ∧ KeepsTables s t)
      ∧ ((a.doorSeen = false ∨ i = .confirmDeadline c) → a.attempt = .first → s.ret.concourse ≠ .evacuate →
        16 ≤ (s.seg g).queue.length →
        ∀ e x, (s.seg g).queue.getLast? = some e → (s.comp e.compartment).transient = some x →
        Completes (exec i s) fun t =>
          Reverted .cancelled e.compartment x s t ∧ striking t c = true
            ∧ ((∀ n m, x.particulars ≠ .retrieve n m) → e.compartment ≠ c → SecondAttempt g a s t)
            ∧ nextIssue t g = none ∧ KeepsStation s t ∧ KeepsTables s t)
      ∧ ((a.doorSeen = false ∨ i = .confirmDeadline c) → a.attempt = .first → s.ret.concourse = .evacuate →
        (s.seg g).queue.length < 16 →
        ∀ x, (s.comp c).transient = some x →
        Completes (exec i s) fun t =>
          Reverted .cancelled c x s t
            ∧ (∀ e ∈ (t.seg g).queue, e.compartment ≠ c) ∧ (∀ b ∈ (t.seg g).active, b.compartment ≠ c)
            ∧ nextIssue t g = none ∧ KeepsStation s t ∧ KeepsTables s t)
      ∧ ((a.doorSeen = false ∨ i = .confirmDeadline c) → a.attempt = .second →
        ∀ x, (s.comp c).transient = some x →
        Completes (exec i s) fun t =>
          Jammed a x s t ∧ StrikeGone g c s t ∧ nextIssue t g = none ∧ KeepsStation s t ∧ KeepsTables s t)

/-- STRIKE_AGEING of an entry that has waited 60 s (R168, R169, R14): it leaves its queue, and its
transaction is reverted for its purpose: a DEPOSIT's PENDING code is removed and its declaration is
CANCELLED, a DROP's returns entry is not in use again, with a mark where postage was paid, a COLLECT's code
is LIVE again, a RETRIEVE's entry leaves its pickup list and is skipped, and the last door result of a COLLECT
or DROP is CANCELLED (R129). Issue has been applied to the segment, by the model's reading (log 35); that
nothing changes before the 60 s is the model's choice (log 1). -/
def Obligations.StrikeAgeingCancels : Prop :=
  ∀ (c : CompNo) (g : SegNo) (e : StrikeEntry) (s : State),
    s.run ≠ .unpowered → queuedOf s c = some (g, e) →
    (s.elapsed < e.enqueued + 60 → exec (.strikeAgeing c) s = .next s)
      ∧ ∀ x, e.enqueued + 60 ≤ s.elapsed → (s.comp c).transient = some x →
        Completes (exec (.strikeAgeing c) s) fun t =>
          Reverted .cancelled c x s t ∧ (∀ b ∈ (t.seg g).queue, b.compartment ≠ c)
            ∧ nextIssue t g = none ∧ KeepsStation s t ∧ KeepsTables s t

/-! ### Sweeps and polls -/

/-- QUIET_SWEEP_START, SWEEP_THAT_POLLS_NO_SLOT_ENDS and POLL_OUTCOME (R177, R178, R179): a sweep starts at the
first slot it polls, whose board is sent its oldest strike and its expected report bit. After a poll outcome
it goes on with the next slot that it polls, and after the last one, or where it polls none, it ends: the
counter advances, and the next starts at once in FULL mode and in QUIET mode where its second has passed. The
whole second that times a QUIET sweep, what a line carries between polls, and the bits 6 and 5 of a poll's
byte 1, which are 0, are the model's choices (logs 33, 31, 43). -/
def Obligations.SweepsStartAndEnd : Prop :=
  (∀ (g : SegNo) (s : State), s.run ≠ .unpowered → Settled s →
      (s.seg g).rate = .quiet → (s.seg g).phase = .waiting → (s.seg g).sweepStart + 1 ≤ s.elapsed →
      exec (.quietSweepStart g) s = .next (s.setSeg g (match nextPolled s g 0 with
        | some (i, b) => { s.seg g with
            sweepStart := s.elapsed, phase := .polling i b (s.board b).handOff.head?
            linkOut := pollBytes b (s.board b).handOff.head? (s.board b).expectedBit }
        | none => { s.seg g with sweepStart := s.elapsed, phase := .noSlots })))
  ∧ (∀ (g : SegNo) (s : State), s.run ≠ .unpowered → Settled s → (s.seg g).phase = .noSlots →
      let x := { s.seg g with sweepCounter := ((s.seg g).sweepCounter + 1) % 65536 }
      ((s.seg g).rate = .full ∨ (s.seg g).sweepStart + 1 ≤ s.elapsed →
        exec (.sweepThatPollsNoSlotEnds g) s = .next (s.setSeg g (match nextPolled (s.setSeg g x) g 0 with
          | some (i, b) => { x with
              sweepStart := s.elapsed, phase := .polling i b (s.board b).handOff.head?
              linkOut := pollBytes b (s.board b).handOff.head? (s.board b).expectedBit }
          | none => { x with sweepStart := s.elapsed, phase := .noSlots })))
      ∧ ((s.seg g).rate = .quiet → s.elapsed ≤ (s.seg g).sweepStart →
        exec (.sweepThatPollsNoSlotEnds g) s = .next (s.setSeg g { x with phase := .waiting })))
  ∧ ∀ (g : SegNo) (heard : Option (List Byte)) (i : SlotNo) (b : BoardNo) (strike : Option LineNo) (s : State),
      s.run ≠ .unpowered → (s.seg g).phase = .polling i b strike →
      Completes (exec (.pollOutcome g heard) s) fun t => SweepWentOn g i s t

/-- POLL_OUTCOME (R180, R181, R182, R183, R184, R185, R179, R162). A failed poll sets the good run of an
UNKNOWN or LOST board to 0 and joins the window of an ONLINE board, whose eighth failure declares it LOST
with BOARD_LOST pending and its ISSUED strikes ended. A good poll lengthens the good run, and its readings become the newer of each
line. On an ONLINE board it joins the window, and the strike it took leaves the hand-off list; one that
makes the good run 32 declares the board ONLINE, its UNSERVED compartments VACANT (R22): each line, from 0 to
11, confirms what its two readings agree on, while no strike of the board is issued, and then issue is applied
to its segment (R183; log 49). Where one line's readings confirm a change: a close runs close handling, with the notice and the
reports of its purpose (R16, R17, R18), or is ignored but for its occupancy; an opening without an active
strike is a forced door (R20), resumes a door phase (R28), or is ignored, and one with an active strike is
seen or succeeds (R163); an occupancy changes what R21 says. A new strike report acts on the ISSUED strike of
its line, DONE or FAULT (R162). A drop resumed open writes no door result (log 38), and issue follows a success
and its close handling (log 39), both by the model's choice. -/
def Obligations.PollOutcomeSupervises : Prop :=
  ∀ (g : SegNo) (heard : Option (List Byte)) (i : SlotNo) (b : BoardNo) (strike : Option LineNo) (s : State),
    s.run ≠ .unpowered → (s.seg g).phase = .polling i b strike →
    let window := (if 32 ≤ (s.board b).window.length then (s.board b).window.drop 1 else (s.board b).window)
    (goodReply b heard = none → ((s.board b).link = .unknown ∨ (s.board b).link = .lost) →
        Completes (exec (.pollOutcome g heard) s) fun t =>
          t.board b = { s.board b with goodRun := 0 } ∧ t.ret = s.ret ∧ t.alarms = s.alarms ∧ KeepsStation s t)
      ∧ (goodReply b heard = none → (s.board b).link = .online → window.count false + 1 < 8 →
        Completes (exec (.pollOutcome g heard) s) fun t =>
          t.board b = { s.board b with window := window ++ [false] } ∧ t.ret = s.ret ∧ t.alarms = s.alarms
            ∧ KeepsStation s t)
      ∧ (goodReply b heard = none → (s.board b).link = .online → 8 ≤ window.count false + 1 →
        Completes (exec (.pollOutcome g heard) s) fun t =>
          (t.board b).link = .lost ∧ (t.board b).window = [] ∧ (t.board b).goodRun = 0 ∧ (t.board b).handOff = []
            ∧ (∃ a ∈ t.alarms, a.kind = .boardLost ∧ a.object = b.val)
            ∧ (∀ l, (t.line b l).doorOpen = none ∧ (t.line b l).occupied = none)
            ∧ LostStrikes b (disconnected b s) t ∧ KeepsStation s t ∧ KeepsTables s t)
      ∧ (∀ y, goodReply b heard = some y → ((s.board b).link = .unknown ∨ (s.board b).link = .lost) →
        (s.board b).goodRun + 1 < 32 →
        Completes (exec (.pollOutcome g heard) s) fun t =>
          (t.board b).link = (s.board b).link ∧ (t.board b).goodRun = (s.board b).goodRun + 1
            ∧ (∀ l, (t.line b l).newer = some (look y.readings l) ∧ (t.line b l).older = (s.line b l).newer)
            ∧ t.ret = s.ret ∧ t.alarms = s.alarms ∧ KeepsStation s t)
      ∧ (∀ y, goodReply b heard = some y → (s.board b).link = .online → (∀ l, LineQuiet s b y.readings l) →
        (∀ l fault bit, y.report = some (l, fault, bit) → bit ≠ (s.board b).expectedBit) →
        Completes (exec (.pollOutcome g heard) s) fun t =>
          t.board b = { s.board b with
              window := window ++ [true]
              handOff := match strike, y.taken with
                | some l, some m => if l = m then (s.board b).handOff.filter (· ≠ m) else (s.board b).handOff
                | _, _ => (s.board b).handOff
              lines := Vector.ofFn fun l =>
                { s.line b l with older := (s.line b l).newer, newer := some (look y.readings l) } }
            ∧ (∀ d, d ≠ b → t.board d = s.board d)
            ∧ (∀ h, (t.seg h).queue = (s.seg h).queue ∧ (t.seg h).active = (s.seg h).active)
            ∧ t.ret = s.ret ∧ t.quotes = s.quotes ∧ t.kiosks = s.kiosks ∧ t.alarms = s.alarms ∧ t.ajar = s.ajar
            ∧ KeepsStation s t)
      ∧ (∀ y, goodReply b heard = some y → ((s.board b).link = .unknown ∨ (s.board b).link = .lost) →
        32 ≤ (s.board b).goodRun + 1 → (∀ l, LineQuiet s b y.readings l) → y.report = none →
        Completes (exec (.pollOutcome g heard) s) fun t =>
          (t.board b).link = .online ∧ (t.board b).goodRun = 0 ∧ (t.board b).window = []
            ∧ ReadingsTaken b y.readings s t ∧ (∀ d, KeepsComp (readied b s) t d) ∧ OnlyComps s t
            ∧ t.kiosks = s.kiosks ∧ t.alarms = s.alarms ∧ Issued (segmentOf b) s t ∧ KeepsStation s t)
      ∧ (∀ y, goodReply b heard = some y → ((s.board b).link = .unknown ∨ (s.board b).link = .lost) →
        32 ≤ (s.board b).goodRun + 1 → (∀ l, (s.line b l).doorOpen = none) → y.report = none →
        Completes (exec (.pollOutcome g heard) s) fun t =>
          (t.board b).link = .online
            ∧ (∃ u, LinesConfirmed b (List.finRange 12) (freshlyOnline b y.readings s) u
                ∧ Issued (segmentOf b) u t ∧ RecordsKept u t ∧ t.ajar = u.ajar ∧ ∀ l, t.line b l = u.line b l)
            ∧ KeepsStation s t ∧ KeepsTables s t)
      ∧ (∀ y l o c, goodReply b heard = some y → OnlineAfter s b → (∀ k, k ≠ l → LineQuiet s b y.readings k) →
        y.report = none → (s.line b l).newer = some o → compAt s b l = some c →
        (o.doorOpen = false → (look y.readings l).doorOpen = false → (s.line b l).doorOpen ≠ some false →
          Completes (exec (.pollOutcome g heard) s) fun t =>
            (t.board b).link = .online ∧ (t.line b l).doorOpen = some false
              ∧ (t.line b l).occupied = some (look y.readings l).occupied
              ∧ CloseTaken c o (look y.readings l) (readied b s) t
              ∧ KeepsStation s t ∧ KeepsTables s t)
        ∧ (o.doorOpen = true → (look y.readings l).doorOpen = true → (s.line b l).doorOpen ≠ some true →
          Completes (exec (.pollOutcome g heard) s) fun t =>
            (t.board b).link = .online ∧ (t.line b l).doorOpen = some true ∧ (t.line b l).occupied = none
              ∧ OpeningTaken c (readied b s) t
              ∧ KeepsStation s t ∧ KeepsTables s t)
        ∧ (o.doorOpen = false → (look y.readings l).doorOpen = false → (s.line b l).doorOpen = some false →
          o.occupied = (look y.readings l).occupied → (s.line b l).occupied ≠ some (look y.readings l).occupied →
          Completes (exec (.pollOutcome g heard) s) fun t =>
            (t.board b).link = .online ∧ (t.line b l).occupied = some (look y.readings l).occupied
              ∧ OccupancyTaken c (look y.readings l).occupied (readied b s) t ∧ KeepsStation s t ∧ KeepsTables s t))
      ∧ (∀ y l fault, goodReply b heard = some y → (s.board b).link = .online → (∀ k, LineQuiet s b y.readings k) →
        y.report = some (l, fault, (s.board b).expectedBit) →
        let named := (s.seg (segmentOf b)).active.find? (fun a => a.isIssued && a.board = b && a.line = l)
        Completes (exec (.pollOutcome g heard) s) fun t =>
          (t.board b).expectedBit = !(s.board b).expectedBit
            ∧ (named = none → t.ret = s.ret ∧ t.kiosks = s.kiosks ∧ t.alarms = s.alarms
                ∧ ∀ h, (t.seg h).queue = (s.seg h).queue ∧ (t.seg h).active = (s.seg h).active)
            ∧ (∀ a, named = some a →
                nextIssue t (segmentOf b) = none
                  ∧ (∀ x, a.doorSeen = true → (s.comp a.compartment).transient = some x →
                      ((s.comp a.compartment).state = .reserved ∨ (s.comp a.compartment).state = .releasing) →
                      Succeeded (segmentOf b) a x s t)
                  ∧ (a.doorSeen = false → fault = false →
                      { a with phase := .confirming (s.elapsed + 3) } ∈ (t.seg (segmentOf b)).active ∧ RecordsKept s t)
                  ∧ (a.doorSeen = false → fault = true → AttemptFailed (segmentOf b) a s t))
            ∧ KeepsStation s t ∧ KeepsTables s t)

/-- SWEEP_ISSUE (R146, R147), for a sweep whose entries `A` are IN_FLIGHT and whose entries `B` wait. In DRAINING,
with four IN_FLIGHT, or with the first of `B` held up or missing, nothing changes. Otherwise the issue rule
goes through the first entries of `B`, at least one: those that stand as listed are granted, with their status
IN_FLIGHT, their compartment RELEASING, their slot reserved and their strike queued or struck; the others leave
the list and count as skipped. Nothing else of the records changes. That an entry whose compartment has lost its
map entry is held up by no strike queue, and so leaves the list, is the model's reading (log 40). -/
def Obligations.SweepIssueGrants : Prop :=
  ∀ (k : KioskNo) (x : Session) (w : CourierSweep) (A B : List PickupEntry) (s : State),
    s.run ≠ .unpowered → (s.kiosk k).session = some x → x.sweep = some w → w.entries = A ++ B →
    (∀ e ∈ A, e.inFlight = true) → (∀ e ∈ B, e.inFlight = false) → (w.entries.map (·.compartment)).Nodup →
    (w.draining = true ∨ 4 ≤ A.length ∨ (∀ e, B.head? = some e → issueHeldUp s e = true) →
        exec (.sweepIssue k) s = .next s)
      ∧ (∀ e, w.draining = false → A.length < 4 → B.head? = some e → issueHeldUp s e = false →
        Completes (exec (.sweepIssue k) s) fun t =>
          PickupsTaken k x w A B s t
            ∧ t = { s with
                ret := { s.ret with compartments := t.ret.compartments, reservations := t.ret.reservations }
                checkWord := t.checkWord, quotes := t.quotes, kiosks := t.kiosks, segments := t.segments
                boards := t.boards, alarms := t.alarms, attention := t.attention })

/-! ### Laws and invariants -/

/-- The charge (R57, R58, R59, R60, R61): the part charge is never above the day charge, the gross charge
and the net charge never fall as time goes on, and the net charge is at most the ceiling less what
was prepaid and paid. -/
def Obligations.ChargeGrowsWithinCeiling : Prop :=
  (∀ (t : TariffRow) (m : Nat), 1 ≤ t.period → m < 1440 → partCharge t m ≤ dayCharge t)
    ∧ (∀ (t : TariffRow) (m n : Nat), 1 ≤ t.period → m ≤ n → grossCharge t m ≤ grossCharge t n)
    ∧ (∀ (d : Delivery) (deposited now later : Nat), 1 ≤ d.snapshot.period → now ≤ later →
        netCharge d deposited now ≤ netCharge d deposited later)
    ∧ (∀ (d : Delivery) (deposited now : Nat),
        netCharge d deposited now ≤ d.snapshot.ceiling - (d.prepaid + d.paid))
    ∧ ∀ (d : Delivery) (deposited now : Nat), now ≤ deposited + 60 * d.snapshot.freePeriod →
        netCharge d deposited now = 0

/-- Codes and compartments are given out only where they are free (R8, R9, R33, R36, R37): the generator
never reaches 0; a generated code has 8 digits, not all equal, no entry in the directory and a free
way. An allocation takes the first allocatable compartment of its class from one past that class's cursor, which
then names it; a larger class only with upsizing, for a DEPOSIT only where its row is present, and only where no
smaller class searched offers any; where none offers any it fails. -/
def Obligations.GenerationAndAllocation : Prop :=
  (∀ (n : Nat) (g : BitVec 32), g ≠ 0 → generatorAdvance n g ≠ 0)
    ∧ (∀ (directory : Vector (List DirEntry) 256) (n : Nat) (g h : BitVec 32) (code : Nat),
        generateCode directory n g = (h, some code) →
        code < 100000000 ∧ (∀ x < 10, code ≠ x * 11111111)
          ∧ (∀ e ∈ look directory (codeSet code), e.tag ≠ codeTag code)
          ∧ (look directory (codeSet code)).length < 4 ∧ 256 * codeTag code + (codeSet code).val = code)
    ∧ ∀ (s : State) (cls : SizeClass) (upsize deposit : Bool),
        (∀ u c, allocate s cls upsize deposit = some (u, c) →
          ∃ k, Searched s cls upsize deposit k ∧ Offers s k c
            ∧ (∀ d, Offers s k d →
                visitedBefore (look s.ret.cursors k.index) c ≤ visitedBefore (look s.ret.cursors k.index) d)
            ∧ (∀ j d, Searched s cls upsize deposit j → j.index < k.index → ¬ Offers s j d)
            ∧ u = { s with ret := { s.ret with cursors := put s.ret.cursors k.index c } })
        ∧ (allocate s cls upsize deposit = none → ∀ k c, Searched s cls upsize deposit k → ¬ Offers s k c)

/-- Loaded tables change only by the commands that own them: the concourse state by BROADCAST (R192), and
each table by its own load (R50, R54, R91, R158, R175, R189, R190, R203, R216), beside the resets. -/
def Obligations.TablesChangeOnlyByTheirCommands : Prop :=
  ∀ (c : Instr) (s t : State), exec c s = .next t →
    (∀ cause straps, c ≠ .reset cause straps) → (∀ straps, c ≠ .blankStart straps) →
    ((∀ r, c ≠ .broadcast r) → t.ret.concourse = s.ret.concourse)
      ∧ ((∀ r, c ≠ .loadTariff r) → t.ret.tariff = s.ret.tariff)
      ∧ ((∀ r, c ≠ .setHold r) → t.ret.hold = s.ret.hold)
      ∧ ((∀ r, c ≠ .loadCourier r) → (∀ r, c ≠ .removeCourier r) → t.ret.couriers = s.ret.couriers)
      ∧ ((∀ r, c ≠ .setBudget r) → t.ret.budgets = s.ret.budgets)
      ∧ ((∀ r, c ≠ .loadSlot r) → t.ret.slots = s.ret.slots)
      ∧ ((∀ r, c ≠ .withdraw r) → (∀ r, c ≠ .reinstate r) → t.ret.withdrawn = s.ret.withdrawn)
      ∧ ((∀ r, c ≠ .setEnables r) → t.ret.enables = s.ret.enables)
      ∧ ((∀ r, c ≠ .setKeys r) → t.ret.keys = s.ret.keys)
      ∧ ((∀ r, c ≠ .pay r) → (∀ r, c ≠ .settle r) → t.ret.takings = s.ret.takings)

/-- The part right after reset meets every invariant, and holds the blank values of R31, R49, R67, R90,
R115, R153, R174, R191, R200, R207, R215 and R221. That State.reset stands right after a blank start, and
not after another reset, is the model's choice (log 8). -/
def Obligations.ResetMeetsInvariants : Prop :=
  (Settled State.reset ∧ TrunkBounded State.reset ∧ LoadsInRange State.reset ∧ TablesBounded State.reset
      ∧ SkcConsistent State.reset ∧ WithdrawnAgrees State.reset ∧ LockoutsAgree State.reset
      ∧ AlarmsDistinct State.reset ∧ QueuesBounded State.reset ∧ ReservationsAgree State.reset
      ∧ PickupsInOrder State.reset ∧ ImagesFollowLinks State.reset ∧ NoneDeclared State.reset)
    ∧ (∀ c, State.reset.comp c = { map := none, state := .unserved, transient := none, parcel := none }
        ∧ State.reset.quoteOf c = none ∧ look State.reset.ajar c = none)
    ∧ (∀ i, look State.reset.ret.cursors i = 767 ∧ look State.reset.ret.tariff i = none
        ∧ look State.reset.ret.budgets i = 2 ∧ look State.reset.ret.takings i = zeroTakings)
    ∧ (∀ i, look State.reset.ret.directory i = []) ∧ State.reset.ret.generator = 1 ∧ State.reset.ret.hold = 180
    ∧ State.reset.ret.concourse = .closed ∧ State.reset.ret.quoteCounter = 0
    ∧ State.reset.ret.couriers = [] ∧ State.reset.ret.returns = [] ∧ State.reset.ret.keys = none
    ∧ (∀ g i, look (look State.reset.ret.slots g) i = none)
    ∧ State.reset.clock = none ∧ State.reset.history = []
    ∧ State.reset.alarms = [{ kind := .retention, object := 0, posted := none }]
    ∧ State.reset.ret.lastSettlement = none
    ∧ (∀ k, State.reset.kiosk k =
        { failures := 0, lockout := none, session := none, lastPayment := none, doorResult := none })
    ∧ State.reset.nextSerial = 0
    ∧ (∀ i, look State.reset.ret.enables i = true)
    ∧ (∀ b, look State.reset.ret.withdrawn b = false
        ∧ State.reset.board b = { link := .unknown, goodRun := 0, window := [], handOff := [], expectedBit := false
                                  lines := Vector.replicate 12
                                    { older := none, newer := none, doorOpen := none, occupied := none
                                      closeOccupied := none } })
    ∧ (∀ g, (State.reset.seg g).queue = [] ∧ (State.reset.seg g).active = []
        ∧ (State.reset.seg g).sweepCounter = 0 ∧ (State.reset.seg g).rate = .full)
    ∧ State.reset.ret.outbox = [] ∧ State.reset.ret.reservations = 0 ∧ State.reset.ret.noticeSequence = 0
    ∧ State.reset.receive = [] ∧ State.reset.transmit = [] ∧ State.reset.skc = .noKeys
    ∧ State.reset.unlockDeadline = none

/-- Every step leaves the check word, the attention line and the rate modes in step (R29, R178, R205). -/
def Obligations.SettledIsKept : Prop :=
  ∀ s t : State, Settled s → step s = .next t → Settled t

/-- Every step keeps the queues, tables and pending alarms within what they can hold (R34, R36, R91, R132,
R155, R194, R202, R208, R210), and every pickup list in its order, with each compartment once (R144, R146). -/
def Obligations.CapacitiesAreKept : Prop :=
  ∀ s t : State, step s = .next t →
    (TrunkBounded s → TrunkBounded t) ∧ (QueuesBounded s → QueuesBounded t)
      ∧ (TablesBounded s → TablesBounded t) ∧ (AlarmsDistinct s → AlarmsDistinct t)
      ∧ (PickupsInOrder s → PickupsInOrder t)

/-- Every step keeps the loaded values in range, the SKC consistent, the withdrawn flags in agreement with
the link states, the lockouts with the failure counts, and the confirmed states of boards that are not ONLINE
none (R41, R42, R43, R50, R54, R158, R182, R191, R203, R216, R218). That no declaration is under way between
commands is a statement about a field of the model's own (log 49). -/
def Obligations.RangesAreKept : Prop :=
  ∀ s t : State, step s = .next t →
    (LoadsInRange s → LoadsInRange t) ∧ (SkcConsistent s → SkcConsistent t)
      ∧ (WithdrawnAgrees s → WithdrawnAgrees t) ∧ (LockoutsAgree s → LockoutsAgree t)
      ∧ (ImagesFollowLinks s → ImagesFollowLinks t) ∧ (NoneDeclared s → NoneDeclared t)

/-- Every step keeps one outbox reservation for each compartment with a transient part, and notices and
reservations within 32 (R212). -/
def Obligations.ReservationsAreKept : Prop :=
  ∀ s t : State, ReservationsAgree s → step s = .next t → ReservationsAgree t
end

