-- ==== Sys2Proof/Laws/State.lean ====
section
/-! SUPPORT. The tables of the state: reading back what was written, and what each named update of
the state leaves alone, field by field. -/

namespace Sys2Proof.Machine

/-! ### Table lookup -/

@[simp] theorem look_put_same {α : Type} {n : Nat} (v : Vector α n) (i : Fin n) (x : α) :
    look (put v i x) i = x := by simp [look, put]

theorem look_put {α : Type} {n : Nat} (v : Vector α n) (i j : Fin n) (x : α) :
    look (put v i x) j = if j = i then x else look v j := by
  simp [look, put, Vector.getElem_set, eq_comm, Fin.ext_iff]

theorem look_put_other {α : Type} {n : Nat} (v : Vector α n) {i j : Fin n} (x : α) (h : j ≠ i) :
    look (put v i x) j = look v j := by rw [look_put, if_neg h]

@[simp] theorem put_put {α : Type} {n : Nat} (v : Vector α n) (i : Fin n) (x y : α) : put (put v i x) i y = put v i y := by
  simp [put]

@[simp] theorem put_look {α : Type} {n : Nat} (v : Vector α n) (i : Fin n) : put v i (look v i) = v := by
  simp [look, put]

@[simp] theorem look_replicate {α : Type} {n : Nat} (x : α) (i : Fin n) :
    look (Vector.replicate n x) i = x := by simp [look]

@[simp] theorem look_map {α β : Type} {n : Nat} (f : α → β) (v : Vector α n) (i : Fin n) :
    look (v.map f) i = f (look v i) := by simp [look]

@[simp] theorem look_ofFn {α : Type} {n : Nat} (f : Fin n → α) (i : Fin n) :
    look (Vector.ofFn f) i = f i := by simp [look]

theorem vector_ext_look {α : Type} {n : Nat} {v w : Vector α n} (h : ∀ i, look v i = look w i) : v = w := by
  apply Vector.ext
  intro i hi
  exact h ⟨i, hi⟩

/-! ### setComp -/

@[simp] theorem State.setComp_checkWord (s : State) (c : CompNo) (x : Compartment) : (s.setComp c x).checkWord = s.checkWord := rfl
@[simp] theorem State.setComp_quotes (s : State) (c : CompNo) (x : Compartment) : (s.setComp c x).quotes = s.quotes := rfl
@[simp] theorem State.setComp_kiosks (s : State) (c : CompNo) (x : Compartment) : (s.setComp c x).kiosks = s.kiosks := rfl
@[simp] theorem State.setComp_nextSerial (s : State) (c : CompNo) (x : Compartment) : (s.setComp c x).nextSerial = s.nextSerial := rfl
@[simp] theorem State.setComp_segments (s : State) (c : CompNo) (x : Compartment) : (s.setComp c x).segments = s.segments := rfl
@[simp] theorem State.setComp_boards (s : State) (c : CompNo) (x : Compartment) : (s.setComp c x).boards = s.boards := rfl
@[simp] theorem State.setComp_ajar (s : State) (c : CompNo) (x : Compartment) : (s.setComp c x).ajar = s.ajar := rfl
@[simp] theorem State.setComp_kioskIdle (s : State) (c : CompNo) (x : Compartment) : (s.setComp c x).kioskIdle = s.kioskIdle := rfl
@[simp] theorem State.setComp_history (s : State) (c : CompNo) (x : Compartment) : (s.setComp c x).history = s.history := rfl
@[simp] theorem State.setComp_clock (s : State) (c : CompNo) (x : Compartment) : (s.setComp c x).clock = s.clock := rfl
@[simp] theorem State.setComp_alarms (s : State) (c : CompNo) (x : Compartment) : (s.setComp c x).alarms = s.alarms := rfl
@[simp] theorem State.setComp_attention (s : State) (c : CompNo) (x : Compartment) : (s.setComp c x).attention = s.attention := rfl
@[simp] theorem State.setComp_bankId (s : State) (c : CompNo) (x : Compartment) : (s.setComp c x).bankId = s.bankId := rfl
@[simp] theorem State.setComp_receive (s : State) (c : CompNo) (x : Compartment) : (s.setComp c x).receive = s.receive := rfl
@[simp] theorem State.setComp_transmit (s : State) (c : CompNo) (x : Compartment) : (s.setComp c x).transmit = s.transmit := rfl
@[simp] theorem State.setComp_trunkOut (s : State) (c : CompNo) (x : Compartment) : (s.setComp c x).trunkOut = s.trunkOut := rfl
@[simp] theorem State.setComp_skc (s : State) (c : CompNo) (x : Compartment) : (s.setComp c x).skc = s.skc := rfl
@[simp] theorem State.setComp_unlockDeadline (s : State) (c : CompNo) (x : Compartment) : (s.setComp c x).unlockDeadline = s.unlockDeadline := rfl
@[simp] theorem State.setComp_run (s : State) (c : CompNo) (x : Compartment) : (s.setComp c x).run = s.run := rfl
@[simp] theorem State.setComp_declaring (s : State) (c : CompNo) (x : Compartment) : (s.setComp c x).declaring = s.declaring := rfl
@[simp] theorem State.setComp_elapsed (s : State) (c : CompNo) (x : Compartment) : (s.setComp c x).elapsed = s.elapsed := rfl
@[simp] theorem State.setComp_boundariesDue (s : State) (c : CompNo) (x : Compartment) : (s.setComp c x).boundariesDue = s.boundariesDue := rfl
@[simp] theorem State.setComp_freeCounter (s : State) (c : CompNo) (x : Compartment) : (s.setComp c x).freeCounter = s.freeCounter := rfl
@[simp] theorem State.setComp_pending (s : State) (c : CompNo) (x : Compartment) : (s.setComp c x).pending = s.pending := rfl
@[simp] theorem State.setComp_ret_cursors (s : State) (c : CompNo) (x : Compartment) : (s.setComp c x).ret.cursors = s.ret.cursors := rfl
@[simp] theorem State.setComp_ret_directory (s : State) (c : CompNo) (x : Compartment) : (s.setComp c x).ret.directory = s.ret.directory := rfl
@[simp] theorem State.setComp_ret_generator (s : State) (c : CompNo) (x : Compartment) : (s.setComp c x).ret.generator = s.ret.generator := rfl
@[simp] theorem State.setComp_ret_tariff (s : State) (c : CompNo) (x : Compartment) : (s.setComp c x).ret.tariff = s.ret.tariff := rfl
@[simp] theorem State.setComp_ret_hold (s : State) (c : CompNo) (x : Compartment) : (s.setComp c x).ret.hold = s.ret.hold := rfl
@[simp] theorem State.setComp_ret_quoteCounter (s : State) (c : CompNo) (x : Compartment) : (s.setComp c x).ret.quoteCounter = s.ret.quoteCounter := rfl
@[simp] theorem State.setComp_ret_takings (s : State) (c : CompNo) (x : Compartment) : (s.setComp c x).ret.takings = s.ret.takings := rfl
@[simp] theorem State.setComp_ret_lastSettlement (s : State) (c : CompNo) (x : Compartment) : (s.setComp c x).ret.lastSettlement = s.ret.lastSettlement := rfl
@[simp] theorem State.setComp_ret_couriers (s : State) (c : CompNo) (x : Compartment) : (s.setComp c x).ret.couriers = s.ret.couriers := rfl
@[simp] theorem State.setComp_ret_returns (s : State) (c : CompNo) (x : Compartment) : (s.setComp c x).ret.returns = s.ret.returns := rfl
@[simp] theorem State.setComp_ret_budgets (s : State) (c : CompNo) (x : Compartment) : (s.setComp c x).ret.budgets = s.ret.budgets := rfl
@[simp] theorem State.setComp_ret_slots (s : State) (c : CompNo) (x : Compartment) : (s.setComp c x).ret.slots = s.ret.slots := rfl
@[simp] theorem State.setComp_ret_withdrawn (s : State) (c : CompNo) (x : Compartment) : (s.setComp c x).ret.withdrawn = s.ret.withdrawn := rfl
@[simp] theorem State.setComp_ret_concourse (s : State) (c : CompNo) (x : Compartment) : (s.setComp c x).ret.concourse = s.ret.concourse := rfl
@[simp] theorem State.setComp_ret_enables (s : State) (c : CompNo) (x : Compartment) : (s.setComp c x).ret.enables = s.ret.enables := rfl
@[simp] theorem State.setComp_ret_outbox (s : State) (c : CompNo) (x : Compartment) : (s.setComp c x).ret.outbox = s.ret.outbox := rfl
@[simp] theorem State.setComp_ret_reservations (s : State) (c : CompNo) (x : Compartment) : (s.setComp c x).ret.reservations = s.ret.reservations := rfl
@[simp] theorem State.setComp_ret_noticeSequence (s : State) (c : CompNo) (x : Compartment) : (s.setComp c x).ret.noticeSequence = s.ret.noticeSequence := rfl
@[simp] theorem State.setComp_ret_keys (s : State) (c : CompNo) (x : Compartment) : (s.setComp c x).ret.keys = s.ret.keys := rfl

/-! ### setQuote -/

@[simp] theorem State.setQuote_ret (s : State) (c : CompNo) (x : Option Quote) : (s.setQuote c x).ret = s.ret := rfl
@[simp] theorem State.setQuote_checkWord (s : State) (c : CompNo) (x : Option Quote) : (s.setQuote c x).checkWord = s.checkWord := rfl
@[simp] theorem State.setQuote_kiosks (s : State) (c : CompNo) (x : Option Quote) : (s.setQuote c x).kiosks = s.kiosks := rfl
@[simp] theorem State.setQuote_nextSerial (s : State) (c : CompNo) (x : Option Quote) : (s.setQuote c x).nextSerial = s.nextSerial := rfl
@[simp] theorem State.setQuote_segments (s : State) (c : CompNo) (x : Option Quote) : (s.setQuote c x).segments = s.segments := rfl
@[simp] theorem State.setQuote_boards (s : State) (c : CompNo) (x : Option Quote) : (s.setQuote c x).boards = s.boards := rfl
@[simp] theorem State.setQuote_ajar (s : State) (c : CompNo) (x : Option Quote) : (s.setQuote c x).ajar = s.ajar := rfl
@[simp] theorem State.setQuote_kioskIdle (s : State) (c : CompNo) (x : Option Quote) : (s.setQuote c x).kioskIdle = s.kioskIdle := rfl
@[simp] theorem State.setQuote_history (s : State) (c : CompNo) (x : Option Quote) : (s.setQuote c x).history = s.history := rfl
@[simp] theorem State.setQuote_clock (s : State) (c : CompNo) (x : Option Quote) : (s.setQuote c x).clock = s.clock := rfl
@[simp] theorem State.setQuote_alarms (s : State) (c : CompNo) (x : Option Quote) : (s.setQuote c x).alarms = s.alarms := rfl
@[simp] theorem State.setQuote_attention (s : State) (c : CompNo) (x : Option Quote) : (s.setQuote c x).attention = s.attention := rfl
@[simp] theorem State.setQuote_bankId (s : State) (c : CompNo) (x : Option Quote) : (s.setQuote c x).bankId = s.bankId := rfl
@[simp] theorem State.setQuote_receive (s : State) (c : CompNo) (x : Option Quote) : (s.setQuote c x).receive = s.receive := rfl
@[simp] theorem State.setQuote_transmit (s : State) (c : CompNo) (x : Option Quote) : (s.setQuote c x).transmit = s.transmit := rfl
@[simp] theorem State.setQuote_trunkOut (s : State) (c : CompNo) (x : Option Quote) : (s.setQuote c x).trunkOut = s.trunkOut := rfl
@[simp] theorem State.setQuote_skc (s : State) (c : CompNo) (x : Option Quote) : (s.setQuote c x).skc = s.skc := rfl
@[simp] theorem State.setQuote_unlockDeadline (s : State) (c : CompNo) (x : Option Quote) : (s.setQuote c x).unlockDeadline = s.unlockDeadline := rfl
@[simp] theorem State.setQuote_run (s : State) (c : CompNo) (x : Option Quote) : (s.setQuote c x).run = s.run := rfl
@[simp] theorem State.setQuote_declaring (s : State) (c : CompNo) (x : Option Quote) : (s.setQuote c x).declaring = s.declaring := rfl
@[simp] theorem State.setQuote_elapsed (s : State) (c : CompNo) (x : Option Quote) : (s.setQuote c x).elapsed = s.elapsed := rfl
@[simp] theorem State.setQuote_boundariesDue (s : State) (c : CompNo) (x : Option Quote) : (s.setQuote c x).boundariesDue = s.boundariesDue := rfl
@[simp] theorem State.setQuote_freeCounter (s : State) (c : CompNo) (x : Option Quote) : (s.setQuote c x).freeCounter = s.freeCounter := rfl
@[simp] theorem State.setQuote_pending (s : State) (c : CompNo) (x : Option Quote) : (s.setQuote c x).pending = s.pending := rfl

/-! ### setKiosk -/

@[simp] theorem State.setKiosk_ret (s : State) (k : KioskNo) (x : Kiosk) : (s.setKiosk k x).ret = s.ret := rfl
@[simp] theorem State.setKiosk_checkWord (s : State) (k : KioskNo) (x : Kiosk) : (s.setKiosk k x).checkWord = s.checkWord := rfl
@[simp] theorem State.setKiosk_quotes (s : State) (k : KioskNo) (x : Kiosk) : (s.setKiosk k x).quotes = s.quotes := rfl
@[simp] theorem State.setKiosk_nextSerial (s : State) (k : KioskNo) (x : Kiosk) : (s.setKiosk k x).nextSerial = s.nextSerial := rfl
@[simp] theorem State.setKiosk_segments (s : State) (k : KioskNo) (x : Kiosk) : (s.setKiosk k x).segments = s.segments := rfl
@[simp] theorem State.setKiosk_boards (s : State) (k : KioskNo) (x : Kiosk) : (s.setKiosk k x).boards = s.boards := rfl
@[simp] theorem State.setKiosk_ajar (s : State) (k : KioskNo) (x : Kiosk) : (s.setKiosk k x).ajar = s.ajar := rfl
@[simp] theorem State.setKiosk_kioskIdle (s : State) (k : KioskNo) (x : Kiosk) : (s.setKiosk k x).kioskIdle = s.kioskIdle := rfl
@[simp] theorem State.setKiosk_history (s : State) (k : KioskNo) (x : Kiosk) : (s.setKiosk k x).history = s.history := rfl
@[simp] theorem State.setKiosk_clock (s : State) (k : KioskNo) (x : Kiosk) : (s.setKiosk k x).clock = s.clock := rfl
@[simp] theorem State.setKiosk_alarms (s : State) (k : KioskNo) (x : Kiosk) : (s.setKiosk k x).alarms = s.alarms := rfl
@[simp] theorem State.setKiosk_attention (s : State) (k : KioskNo) (x : Kiosk) : (s.setKiosk k x).attention = s.attention := rfl
@[simp] theorem State.setKiosk_bankId (s : State) (k : KioskNo) (x : Kiosk) : (s.setKiosk k x).bankId = s.bankId := rfl
@[simp] theorem State.setKiosk_receive (s : State) (k : KioskNo) (x : Kiosk) : (s.setKiosk k x).receive = s.receive := rfl
@[simp] theorem State.setKiosk_transmit (s : State) (k : KioskNo) (x : Kiosk) : (s.setKiosk k x).transmit = s.transmit := rfl
@[simp] theorem State.setKiosk_trunkOut (s : State) (k : KioskNo) (x : Kiosk) : (s.setKiosk k x).trunkOut = s.trunkOut := rfl
@[simp] theorem State.setKiosk_skc (s : State) (k : KioskNo) (x : Kiosk) : (s.setKiosk k x).skc = s.skc := rfl
@[simp] theorem State.setKiosk_unlockDeadline (s : State) (k : KioskNo) (x : Kiosk) : (s.setKiosk k x).unlockDeadline = s.unlockDeadline := rfl
@[simp] theorem State.setKiosk_run (s : State) (k : KioskNo) (x : Kiosk) : (s.setKiosk k x).run = s.run := rfl
@[simp] theorem State.setKiosk_declaring (s : State) (k : KioskNo) (x : Kiosk) : (s.setKiosk k x).declaring = s.declaring := rfl
@[simp] theorem State.setKiosk_elapsed (s : State) (k : KioskNo) (x : Kiosk) : (s.setKiosk k x).elapsed = s.elapsed := rfl
@[simp] theorem State.setKiosk_boundariesDue (s : State) (k : KioskNo) (x : Kiosk) : (s.setKiosk k x).boundariesDue = s.boundariesDue := rfl
@[simp] theorem State.setKiosk_freeCounter (s : State) (k : KioskNo) (x : Kiosk) : (s.setKiosk k x).freeCounter = s.freeCounter := rfl
@[simp] theorem State.setKiosk_pending (s : State) (k : KioskNo) (x : Kiosk) : (s.setKiosk k x).pending = s.pending := rfl

/-! ### setSeg -/

@[simp] theorem State.setSeg_ret (s : State) (g : SegNo) (x : Segment) : (s.setSeg g x).ret = s.ret := rfl
@[simp] theorem State.setSeg_checkWord (s : State) (g : SegNo) (x : Segment) : (s.setSeg g x).checkWord = s.checkWord := rfl
@[simp] theorem State.setSeg_quotes (s : State) (g : SegNo) (x : Segment) : (s.setSeg g x).quotes = s.quotes := rfl
@[simp] theorem State.setSeg_kiosks (s : State) (g : SegNo) (x : Segment) : (s.setSeg g x).kiosks = s.kiosks := rfl
@[simp] theorem State.setSeg_nextSerial (s : State) (g : SegNo) (x : Segment) : (s.setSeg g x).nextSerial = s.nextSerial := rfl
@[simp] theorem State.setSeg_boards (s : State) (g : SegNo) (x : Segment) : (s.setSeg g x).boards = s.boards := rfl
@[simp] theorem State.setSeg_ajar (s : State) (g : SegNo) (x : Segment) : (s.setSeg g x).ajar = s.ajar := rfl
@[simp] theorem State.setSeg_kioskIdle (s : State) (g : SegNo) (x : Segment) : (s.setSeg g x).kioskIdle = s.kioskIdle := rfl
@[simp] theorem State.setSeg_history (s : State) (g : SegNo) (x : Segment) : (s.setSeg g x).history = s.history := rfl
@[simp] theorem State.setSeg_clock (s : State) (g : SegNo) (x : Segment) : (s.setSeg g x).clock = s.clock := rfl
@[simp] theorem State.setSeg_alarms (s : State) (g : SegNo) (x : Segment) : (s.setSeg g x).alarms = s.alarms := rfl
@[simp] theorem State.setSeg_attention (s : State) (g : SegNo) (x : Segment) : (s.setSeg g x).attention = s.attention := rfl
@[simp] theorem State.setSeg_bankId (s : State) (g : SegNo) (x : Segment) : (s.setSeg g x).bankId = s.bankId := rfl
@[simp] theorem State.setSeg_receive (s : State) (g : SegNo) (x : Segment) : (s.setSeg g x).receive = s.receive := rfl
@[simp] theorem State.setSeg_transmit (s : State) (g : SegNo) (x : Segment) : (s.setSeg g x).transmit = s.transmit := rfl
@[simp] theorem State.setSeg_trunkOut (s : State) (g : SegNo) (x : Segment) : (s.setSeg g x).trunkOut = s.trunkOut := rfl
@[simp] theorem State.setSeg_skc (s : State) (g : SegNo) (x : Segment) : (s.setSeg g x).skc = s.skc := rfl
@[simp] theorem State.setSeg_unlockDeadline (s : State) (g : SegNo) (x : Segment) : (s.setSeg g x).unlockDeadline = s.unlockDeadline := rfl
@[simp] theorem State.setSeg_run (s : State) (g : SegNo) (x : Segment) : (s.setSeg g x).run = s.run := rfl
@[simp] theorem State.setSeg_declaring (s : State) (g : SegNo) (x : Segment) : (s.setSeg g x).declaring = s.declaring := rfl
@[simp] theorem State.setSeg_elapsed (s : State) (g : SegNo) (x : Segment) : (s.setSeg g x).elapsed = s.elapsed := rfl
@[simp] theorem State.setSeg_boundariesDue (s : State) (g : SegNo) (x : Segment) : (s.setSeg g x).boundariesDue = s.boundariesDue := rfl
@[simp] theorem State.setSeg_freeCounter (s : State) (g : SegNo) (x : Segment) : (s.setSeg g x).freeCounter = s.freeCounter := rfl
@[simp] theorem State.setSeg_pending (s : State) (g : SegNo) (x : Segment) : (s.setSeg g x).pending = s.pending := rfl

/-! ### setBoard -/

@[simp] theorem State.setBoard_ret (s : State) (b : BoardNo) (x : Board) : (s.setBoard b x).ret = s.ret := rfl
@[simp] theorem State.setBoard_checkWord (s : State) (b : BoardNo) (x : Board) : (s.setBoard b x).checkWord = s.checkWord := rfl
@[simp] theorem State.setBoard_quotes (s : State) (b : BoardNo) (x : Board) : (s.setBoard b x).quotes = s.quotes := rfl
@[simp] theorem State.setBoard_kiosks (s : State) (b : BoardNo) (x : Board) : (s.setBoard b x).kiosks = s.kiosks := rfl
@[simp] theorem State.setBoard_nextSerial (s : State) (b : BoardNo) (x : Board) : (s.setBoard b x).nextSerial = s.nextSerial := rfl
@[simp] theorem State.setBoard_segments (s : State) (b : BoardNo) (x : Board) : (s.setBoard b x).segments = s.segments := rfl
@[simp] theorem State.setBoard_ajar (s : State) (b : BoardNo) (x : Board) : (s.setBoard b x).ajar = s.ajar := rfl
@[simp] theorem State.setBoard_kioskIdle (s : State) (b : BoardNo) (x : Board) : (s.setBoard b x).kioskIdle = s.kioskIdle := rfl
@[simp] theorem State.setBoard_history (s : State) (b : BoardNo) (x : Board) : (s.setBoard b x).history = s.history := rfl
@[simp] theorem State.setBoard_clock (s : State) (b : BoardNo) (x : Board) : (s.setBoard b x).clock = s.clock := rfl
@[simp] theorem State.setBoard_alarms (s : State) (b : BoardNo) (x : Board) : (s.setBoard b x).alarms = s.alarms := rfl
@[simp] theorem State.setBoard_attention (s : State) (b : BoardNo) (x : Board) : (s.setBoard b x).attention = s.attention := rfl
@[simp] theorem State.setBoard_bankId (s : State) (b : BoardNo) (x : Board) : (s.setBoard b x).bankId = s.bankId := rfl
@[simp] theorem State.setBoard_receive (s : State) (b : BoardNo) (x : Board) : (s.setBoard b x).receive = s.receive := rfl
@[simp] theorem State.setBoard_transmit (s : State) (b : BoardNo) (x : Board) : (s.setBoard b x).transmit = s.transmit := rfl
@[simp] theorem State.setBoard_trunkOut (s : State) (b : BoardNo) (x : Board) : (s.setBoard b x).trunkOut = s.trunkOut := rfl
@[simp] theorem State.setBoard_skc (s : State) (b : BoardNo) (x : Board) : (s.setBoard b x).skc = s.skc := rfl
@[simp] theorem State.setBoard_unlockDeadline (s : State) (b : BoardNo) (x : Board) : (s.setBoard b x).unlockDeadline = s.unlockDeadline := rfl
@[simp] theorem State.setBoard_run (s : State) (b : BoardNo) (x : Board) : (s.setBoard b x).run = s.run := rfl
@[simp] theorem State.setBoard_declaring (s : State) (b : BoardNo) (x : Board) : (s.setBoard b x).declaring = s.declaring := rfl
@[simp] theorem State.setBoard_elapsed (s : State) (b : BoardNo) (x : Board) : (s.setBoard b x).elapsed = s.elapsed := rfl
@[simp] theorem State.setBoard_boundariesDue (s : State) (b : BoardNo) (x : Board) : (s.setBoard b x).boundariesDue = s.boundariesDue := rfl
@[simp] theorem State.setBoard_freeCounter (s : State) (b : BoardNo) (x : Board) : (s.setBoard b x).freeCounter = s.freeCounter := rfl
@[simp] theorem State.setBoard_pending (s : State) (b : BoardNo) (x : Board) : (s.setBoard b x).pending = s.pending := rfl

/-! ### setLine -/

@[simp] theorem State.setLine_ret (s : State) (b : BoardNo) (l : LineNo) (x : Line) : (s.setLine b l x).ret = s.ret := rfl
@[simp] theorem State.setLine_checkWord (s : State) (b : BoardNo) (l : LineNo) (x : Line) : (s.setLine b l x).checkWord = s.checkWord := rfl
@[simp] theorem State.setLine_quotes (s : State) (b : BoardNo) (l : LineNo) (x : Line) : (s.setLine b l x).quotes = s.quotes := rfl
@[simp] theorem State.setLine_kiosks (s : State) (b : BoardNo) (l : LineNo) (x : Line) : (s.setLine b l x).kiosks = s.kiosks := rfl
@[simp] theorem State.setLine_nextSerial (s : State) (b : BoardNo) (l : LineNo) (x : Line) : (s.setLine b l x).nextSerial = s.nextSerial := rfl
@[simp] theorem State.setLine_segments (s : State) (b : BoardNo) (l : LineNo) (x : Line) : (s.setLine b l x).segments = s.segments := rfl
@[simp] theorem State.setLine_ajar (s : State) (b : BoardNo) (l : LineNo) (x : Line) : (s.setLine b l x).ajar = s.ajar := rfl
@[simp] theorem State.setLine_kioskIdle (s : State) (b : BoardNo) (l : LineNo) (x : Line) : (s.setLine b l x).kioskIdle = s.kioskIdle := rfl
@[simp] theorem State.setLine_history (s : State) (b : BoardNo) (l : LineNo) (x : Line) : (s.setLine b l x).history = s.history := rfl
@[simp] theorem State.setLine_clock (s : State) (b : BoardNo) (l : LineNo) (x : Line) : (s.setLine b l x).clock = s.clock := rfl
@[simp] theorem State.setLine_alarms (s : State) (b : BoardNo) (l : LineNo) (x : Line) : (s.setLine b l x).alarms = s.alarms := rfl
@[simp] theorem State.setLine_attention (s : State) (b : BoardNo) (l : LineNo) (x : Line) : (s.setLine b l x).attention = s.attention := rfl
@[simp] theorem State.setLine_bankId (s : State) (b : BoardNo) (l : LineNo) (x : Line) : (s.setLine b l x).bankId = s.bankId := rfl
@[simp] theorem State.setLine_receive (s : State) (b : BoardNo) (l : LineNo) (x : Line) : (s.setLine b l x).receive = s.receive := rfl
@[simp] theorem State.setLine_transmit (s : State) (b : BoardNo) (l : LineNo) (x : Line) : (s.setLine b l x).transmit = s.transmit := rfl
@[simp] theorem State.setLine_trunkOut (s : State) (b : BoardNo) (l : LineNo) (x : Line) : (s.setLine b l x).trunkOut = s.trunkOut := rfl
@[simp] theorem State.setLine_skc (s : State) (b : BoardNo) (l : LineNo) (x : Line) : (s.setLine b l x).skc = s.skc := rfl
@[simp] theorem State.setLine_unlockDeadline (s : State) (b : BoardNo) (l : LineNo) (x : Line) : (s.setLine b l x).unlockDeadline = s.unlockDeadline := rfl
@[simp] theorem State.setLine_run (s : State) (b : BoardNo) (l : LineNo) (x : Line) : (s.setLine b l x).run = s.run := rfl
@[simp] theorem State.setLine_declaring (s : State) (b : BoardNo) (l : LineNo) (x : Line) : (s.setLine b l x).declaring = s.declaring := rfl
@[simp] theorem State.setLine_elapsed (s : State) (b : BoardNo) (l : LineNo) (x : Line) : (s.setLine b l x).elapsed = s.elapsed := rfl
@[simp] theorem State.setLine_boundariesDue (s : State) (b : BoardNo) (l : LineNo) (x : Line) : (s.setLine b l x).boundariesDue = s.boundariesDue := rfl
@[simp] theorem State.setLine_freeCounter (s : State) (b : BoardNo) (l : LineNo) (x : Line) : (s.setLine b l x).freeCounter = s.freeCounter := rfl
@[simp] theorem State.setLine_pending (s : State) (b : BoardNo) (l : LineNo) (x : Line) : (s.setLine b l x).pending = s.pending := rfl

/-! ### setAjar -/

@[simp] theorem State.setAjar_ret (s : State) (c : CompNo) (x : Option AjarWatch) : (s.setAjar c x).ret = s.ret := rfl
@[simp] theorem State.setAjar_checkWord (s : State) (c : CompNo) (x : Option AjarWatch) : (s.setAjar c x).checkWord = s.checkWord := rfl
@[simp] theorem State.setAjar_quotes (s : State) (c : CompNo) (x : Option AjarWatch) : (s.setAjar c x).quotes = s.quotes := rfl
@[simp] theorem State.setAjar_kiosks (s : State) (c : CompNo) (x : Option AjarWatch) : (s.setAjar c x).kiosks = s.kiosks := rfl
@[simp] theorem State.setAjar_nextSerial (s : State) (c : CompNo) (x : Option AjarWatch) : (s.setAjar c x).nextSerial = s.nextSerial := rfl
@[simp] theorem State.setAjar_segments (s : State) (c : CompNo) (x : Option AjarWatch) : (s.setAjar c x).segments = s.segments := rfl
@[simp] theorem State.setAjar_boards (s : State) (c : CompNo) (x : Option AjarWatch) : (s.setAjar c x).boards = s.boards := rfl
@[simp] theorem State.setAjar_kioskIdle (s : State) (c : CompNo) (x : Option AjarWatch) : (s.setAjar c x).kioskIdle = s.kioskIdle := rfl
@[simp] theorem State.setAjar_history (s : State) (c : CompNo) (x : Option AjarWatch) : (s.setAjar c x).history = s.history := rfl
@[simp] theorem State.setAjar_clock (s : State) (c : CompNo) (x : Option AjarWatch) : (s.setAjar c x).clock = s.clock := rfl
@[simp] theorem State.setAjar_alarms (s : State) (c : CompNo) (x : Option AjarWatch) : (s.setAjar c x).alarms = s.alarms := rfl
@[simp] theorem State.setAjar_attention (s : State) (c : CompNo) (x : Option AjarWatch) : (s.setAjar c x).attention = s.attention := rfl
@[simp] theorem State.setAjar_bankId (s : State) (c : CompNo) (x : Option AjarWatch) : (s.setAjar c x).bankId = s.bankId := rfl
@[simp] theorem State.setAjar_receive (s : State) (c : CompNo) (x : Option AjarWatch) : (s.setAjar c x).receive = s.receive := rfl
@[simp] theorem State.setAjar_transmit (s : State) (c : CompNo) (x : Option AjarWatch) : (s.setAjar c x).transmit = s.transmit := rfl
@[simp] theorem State.setAjar_trunkOut (s : State) (c : CompNo) (x : Option AjarWatch) : (s.setAjar c x).trunkOut = s.trunkOut := rfl
@[simp] theorem State.setAjar_skc (s : State) (c : CompNo) (x : Option AjarWatch) : (s.setAjar c x).skc = s.skc := rfl
@[simp] theorem State.setAjar_unlockDeadline (s : State) (c : CompNo) (x : Option AjarWatch) : (s.setAjar c x).unlockDeadline = s.unlockDeadline := rfl
@[simp] theorem State.setAjar_run (s : State) (c : CompNo) (x : Option AjarWatch) : (s.setAjar c x).run = s.run := rfl
@[simp] theorem State.setAjar_declaring (s : State) (c : CompNo) (x : Option AjarWatch) : (s.setAjar c x).declaring = s.declaring := rfl
@[simp] theorem State.setAjar_elapsed (s : State) (c : CompNo) (x : Option AjarWatch) : (s.setAjar c x).elapsed = s.elapsed := rfl
@[simp] theorem State.setAjar_boundariesDue (s : State) (c : CompNo) (x : Option AjarWatch) : (s.setAjar c x).boundariesDue = s.boundariesDue := rfl
@[simp] theorem State.setAjar_freeCounter (s : State) (c : CompNo) (x : Option AjarWatch) : (s.setAjar c x).freeCounter = s.freeCounter := rfl
@[simp] theorem State.setAjar_pending (s : State) (c : CompNo) (x : Option AjarWatch) : (s.setAjar c x).pending = s.pending := rfl

/-! ### Reading back -/

@[simp] theorem State.comp_setComp_same (s : State) (i : CompNo) (x : Compartment) : (s.setComp i x).comp i = x := by
  simp [State.comp, State.setComp]

theorem State.comp_setComp (s : State) (i j : CompNo) (x : Compartment) :
    (s.setComp i x).comp j = if j = i then x else s.comp j := by
  simp [State.comp, State.setComp, look_put]

@[simp] theorem State.quoteOf_setQuote_same (s : State) (i : CompNo) (x : Option Quote) : (s.setQuote i x).quoteOf i = x := by
  simp [State.quoteOf, State.setQuote]

theorem State.quoteOf_setQuote (s : State) (i j : CompNo) (x : Option Quote) :
    (s.setQuote i x).quoteOf j = if j = i then x else s.quoteOf j := by
  simp [State.quoteOf, State.setQuote, look_put]

@[simp] theorem State.kiosk_setKiosk_same (s : State) (i : KioskNo) (x : Kiosk) : (s.setKiosk i x).kiosk i = x := by
  simp [State.kiosk, State.setKiosk]

theorem State.kiosk_setKiosk (s : State) (i j : KioskNo) (x : Kiosk) :
    (s.setKiosk i x).kiosk j = if j = i then x else s.kiosk j := by
  simp [State.kiosk, State.setKiosk, look_put]

@[simp] theorem State.seg_setSeg_same (s : State) (i : SegNo) (x : Segment) : (s.setSeg i x).seg i = x := by
  simp [State.seg, State.setSeg]

theorem State.seg_setSeg (s : State) (i j : SegNo) (x : Segment) :
    (s.setSeg i x).seg j = if j = i then x else s.seg j := by
  simp [State.seg, State.setSeg, look_put]

@[simp] theorem State.board_setBoard_same (s : State) (i : BoardNo) (x : Board) : (s.setBoard i x).board i = x := by
  simp [State.board, State.setBoard]

theorem State.board_setBoard (s : State) (i j : BoardNo) (x : Board) :
    (s.setBoard i x).board j = if j = i then x else s.board j := by
  simp [State.board, State.setBoard, look_put]

@[simp] theorem State.comp_setQuote (s : State) (c : CompNo) (x : Option Quote) (i : CompNo) : (s.setQuote c x).comp i = s.comp i := rfl
@[simp] theorem State.comp_setKiosk (s : State) (k : KioskNo) (x : Kiosk) (i : CompNo) : (s.setKiosk k x).comp i = s.comp i := rfl
@[simp] theorem State.comp_setSeg (s : State) (g : SegNo) (x : Segment) (i : CompNo) : (s.setSeg g x).comp i = s.comp i := rfl
@[simp] theorem State.comp_setBoard (s : State) (b : BoardNo) (x : Board) (i : CompNo) : (s.setBoard b x).comp i = s.comp i := rfl
@[simp] theorem State.comp_setLine (s : State) (b : BoardNo) (l : LineNo) (x : Line) (i : CompNo) : (s.setLine b l x).comp i = s.comp i := rfl
@[simp] theorem State.comp_setAjar (s : State) (c : CompNo) (x : Option AjarWatch) (i : CompNo) : (s.setAjar c x).comp i = s.comp i := rfl
@[simp] theorem State.quoteOf_setComp (s : State) (c : CompNo) (x : Compartment) (i : CompNo) : (s.setComp c x).quoteOf i = s.quoteOf i := rfl
@[simp] theorem State.quoteOf_setKiosk (s : State) (k : KioskNo) (x : Kiosk) (i : CompNo) : (s.setKiosk k x).quoteOf i = s.quoteOf i := rfl
@[simp] theorem State.quoteOf_setSeg (s : State) (g : SegNo) (x : Segment) (i : CompNo) : (s.setSeg g x).quoteOf i = s.quoteOf i := rfl
@[simp] theorem State.quoteOf_setBoard (s : State) (b : BoardNo) (x : Board) (i : CompNo) : (s.setBoard b x).quoteOf i = s.quoteOf i := rfl
@[simp] theorem State.quoteOf_setLine (s : State) (b : BoardNo) (l : LineNo) (x : Line) (i : CompNo) : (s.setLine b l x).quoteOf i = s.quoteOf i := rfl
@[simp] theorem State.quoteOf_setAjar (s : State) (c : CompNo) (x : Option AjarWatch) (i : CompNo) : (s.setAjar c x).quoteOf i = s.quoteOf i := rfl
@[simp] theorem State.kiosk_setComp (s : State) (c : CompNo) (x : Compartment) (i : KioskNo) : (s.setComp c x).kiosk i = s.kiosk i := rfl
@[simp] theorem State.kiosk_setQuote (s : State) (c : CompNo) (x : Option Quote) (i : KioskNo) : (s.setQuote c x).kiosk i = s.kiosk i := rfl
@[simp] theorem State.kiosk_setSeg (s : State) (g : SegNo) (x : Segment) (i : KioskNo) : (s.setSeg g x).kiosk i = s.kiosk i := rfl
@[simp] theorem State.kiosk_setBoard (s : State) (b : BoardNo) (x : Board) (i : KioskNo) : (s.setBoard b x).kiosk i = s.kiosk i := rfl
@[simp] theorem State.kiosk_setLine (s : State) (b : BoardNo) (l : LineNo) (x : Line) (i : KioskNo) : (s.setLine b l x).kiosk i = s.kiosk i := rfl
@[simp] theorem State.kiosk_setAjar (s : State) (c : CompNo) (x : Option AjarWatch) (i : KioskNo) : (s.setAjar c x).kiosk i = s.kiosk i := rfl
@[simp] theorem State.seg_setComp (s : State) (c : CompNo) (x : Compartment) (i : SegNo) : (s.setComp c x).seg i = s.seg i := rfl
@[simp] theorem State.seg_setQuote (s : State) (c : CompNo) (x : Option Quote) (i : SegNo) : (s.setQuote c x).seg i = s.seg i := rfl
@[simp] theorem State.seg_setKiosk (s : State) (k : KioskNo) (x : Kiosk) (i : SegNo) : (s.setKiosk k x).seg i = s.seg i := rfl
@[simp] theorem State.seg_setBoard (s : State) (b : BoardNo) (x : Board) (i : SegNo) : (s.setBoard b x).seg i = s.seg i := rfl
@[simp] theorem State.seg_setLine (s : State) (b : BoardNo) (l : LineNo) (x : Line) (i : SegNo) : (s.setLine b l x).seg i = s.seg i := rfl
@[simp] theorem State.seg_setAjar (s : State) (c : CompNo) (x : Option AjarWatch) (i : SegNo) : (s.setAjar c x).seg i = s.seg i := rfl
@[simp] theorem State.board_setComp (s : State) (c : CompNo) (x : Compartment) (i : BoardNo) : (s.setComp c x).board i = s.board i := rfl
@[simp] theorem State.board_setQuote (s : State) (c : CompNo) (x : Option Quote) (i : BoardNo) : (s.setQuote c x).board i = s.board i := rfl
@[simp] theorem State.board_setKiosk (s : State) (k : KioskNo) (x : Kiosk) (i : BoardNo) : (s.setKiosk k x).board i = s.board i := rfl
@[simp] theorem State.board_setSeg (s : State) (g : SegNo) (x : Segment) (i : BoardNo) : (s.setSeg g x).board i = s.board i := rfl
@[simp] theorem State.board_setAjar (s : State) (c : CompNo) (x : Option AjarWatch) (i : BoardNo) : (s.setAjar c x).board i = s.board i := rfl

end Sys2Proof.Machine
end

