-- ==== Sys2Proof/Laws/Fixed.lean ====
section
/-! SUPPORT. What no operation on strikes, doors, sweeps, polls and alarms changes: the clocks, the
trunk, the SKC, the model's own fields, and the tables that are loaded from outside. -/

namespace Sys2Proof.Machine

/-- The part of the state that the operations of the CTU, SSU, SPC, CSU and ALU read and never
write. -/
structure Fixed where
  checkWord : Nat
  nextSerial : Nat
  kioskIdle : Option Nat
  history : List Nat
  clock : Option Nat
  attention : Bool
  bankId : BankId
  receive : List Frame
  transmit : List Reply
  trunkOut : List Byte
  skc : SkcState
  unlockDeadline : Option Nat
  run : RunMode
  declaring : Option BoardNo
  elapsed : Nat
  boundariesDue : Nat
  freeCounter : Nat
  pending : List Instr
  cursors : Vector CompNo 4
  generator : BitVec 32
  tariff : Vector (Option TariffRow) 4
  hold : Nat
  quoteCounter : Nat
  takings : Vector Takings 4
  lastSettlement : Option Settlement
  couriers : List Courier
  budgets : Vector Nat 4
  slots : Vector (Vector (Option SlotContent) 16) 4
  withdrawn : Vector Bool 64
  concourse : Concourse
  enables : Vector Bool 8
  keys : Option (Vector (BitVec 32) 4)

/-- The fixed part of a state. -/
def State.fixed (s : State) : Fixed :=
  { checkWord := s.checkWord, nextSerial := s.nextSerial, kioskIdle := s.kioskIdle, history := s.history,
    clock := s.clock, attention := s.attention, bankId := s.bankId, receive := s.receive, transmit :=
    s.transmit, trunkOut := s.trunkOut, skc := s.skc, unlockDeadline := s.unlockDeadline, run := s.run,
    declaring := s.declaring,
    elapsed := s.elapsed, boundariesDue := s.boundariesDue, freeCounter := s.freeCounter, pending :=
    s.pending,
    cursors := s.ret.cursors, generator := s.ret.generator, tariff := s.ret.tariff, hold := s.ret.hold,
    quoteCounter := s.ret.quoteCounter, takings := s.ret.takings, lastSettlement := s.ret.lastSettlement,
    couriers := s.ret.couriers, budgets := s.ret.budgets, slots := s.ret.slots, withdrawn :=
    s.ret.withdrawn, concourse := s.ret.concourse, enables := s.ret.enables, keys := s.ret.keys }

/-! ### Reading a fixed field through an operation -/

theorem checkWord_of_fixed {s t : State} (h : t.fixed = s.fixed) : t.checkWord = s.checkWord := congrArg Fixed.checkWord h
theorem nextSerial_of_fixed {s t : State} (h : t.fixed = s.fixed) : t.nextSerial = s.nextSerial := congrArg Fixed.nextSerial h
theorem kioskIdle_of_fixed {s t : State} (h : t.fixed = s.fixed) : t.kioskIdle = s.kioskIdle := congrArg Fixed.kioskIdle h
theorem history_of_fixed {s t : State} (h : t.fixed = s.fixed) : t.history = s.history := congrArg Fixed.history h
theorem clock_of_fixed {s t : State} (h : t.fixed = s.fixed) : t.clock = s.clock := congrArg Fixed.clock h
theorem attention_of_fixed {s t : State} (h : t.fixed = s.fixed) : t.attention = s.attention := congrArg Fixed.attention h
theorem bankId_of_fixed {s t : State} (h : t.fixed = s.fixed) : t.bankId = s.bankId := congrArg Fixed.bankId h
theorem receive_of_fixed {s t : State} (h : t.fixed = s.fixed) : t.receive = s.receive := congrArg Fixed.receive h
theorem transmit_of_fixed {s t : State} (h : t.fixed = s.fixed) : t.transmit = s.transmit := congrArg Fixed.transmit h
theorem trunkOut_of_fixed {s t : State} (h : t.fixed = s.fixed) : t.trunkOut = s.trunkOut := congrArg Fixed.trunkOut h
theorem skc_of_fixed {s t : State} (h : t.fixed = s.fixed) : t.skc = s.skc := congrArg Fixed.skc h
theorem unlockDeadline_of_fixed {s t : State} (h : t.fixed = s.fixed) : t.unlockDeadline = s.unlockDeadline := congrArg Fixed.unlockDeadline h
theorem run_of_fixed {s t : State} (h : t.fixed = s.fixed) : t.run = s.run := congrArg Fixed.run h
theorem declaring_of_fixed {s t : State} (h : t.fixed = s.fixed) : t.declaring = s.declaring := congrArg Fixed.declaring h
theorem elapsed_of_fixed {s t : State} (h : t.fixed = s.fixed) : t.elapsed = s.elapsed := congrArg Fixed.elapsed h
theorem boundariesDue_of_fixed {s t : State} (h : t.fixed = s.fixed) : t.boundariesDue = s.boundariesDue := congrArg Fixed.boundariesDue h
theorem freeCounter_of_fixed {s t : State} (h : t.fixed = s.fixed) : t.freeCounter = s.freeCounter := congrArg Fixed.freeCounter h
theorem pending_of_fixed {s t : State} (h : t.fixed = s.fixed) : t.pending = s.pending := congrArg Fixed.pending h
theorem ret_cursors_of_fixed {s t : State} (h : t.fixed = s.fixed) : t.ret.cursors = s.ret.cursors := congrArg Fixed.cursors h
theorem ret_generator_of_fixed {s t : State} (h : t.fixed = s.fixed) : t.ret.generator = s.ret.generator := congrArg Fixed.generator h
theorem ret_tariff_of_fixed {s t : State} (h : t.fixed = s.fixed) : t.ret.tariff = s.ret.tariff := congrArg Fixed.tariff h
theorem ret_hold_of_fixed {s t : State} (h : t.fixed = s.fixed) : t.ret.hold = s.ret.hold := congrArg Fixed.hold h
theorem ret_quoteCounter_of_fixed {s t : State} (h : t.fixed = s.fixed) : t.ret.quoteCounter = s.ret.quoteCounter := congrArg Fixed.quoteCounter h
theorem ret_takings_of_fixed {s t : State} (h : t.fixed = s.fixed) : t.ret.takings = s.ret.takings := congrArg Fixed.takings h
theorem ret_lastSettlement_of_fixed {s t : State} (h : t.fixed = s.fixed) : t.ret.lastSettlement = s.ret.lastSettlement := congrArg Fixed.lastSettlement h
theorem ret_couriers_of_fixed {s t : State} (h : t.fixed = s.fixed) : t.ret.couriers = s.ret.couriers := congrArg Fixed.couriers h
theorem ret_budgets_of_fixed {s t : State} (h : t.fixed = s.fixed) : t.ret.budgets = s.ret.budgets := congrArg Fixed.budgets h
theorem ret_slots_of_fixed {s t : State} (h : t.fixed = s.fixed) : t.ret.slots = s.ret.slots := congrArg Fixed.slots h
theorem ret_withdrawn_of_fixed {s t : State} (h : t.fixed = s.fixed) : t.ret.withdrawn = s.ret.withdrawn := congrArg Fixed.withdrawn h
theorem ret_concourse_of_fixed {s t : State} (h : t.fixed = s.fixed) : t.ret.concourse = s.ret.concourse := congrArg Fixed.concourse h
theorem ret_enables_of_fixed {s t : State} (h : t.fixed = s.fixed) : t.ret.enables = s.ret.enables := congrArg Fixed.enables h
theorem ret_keys_of_fixed {s t : State} (h : t.fixed = s.fixed) : t.ret.keys = s.ret.keys := congrArg Fixed.keys h

/-! ### The operations -/

@[simp] theorem fixed_setComp (s : State) (c : CompNo) (x : Compartment) : (s.setComp c x).fixed = s.fixed := rfl

@[simp] theorem fixed_setQuote (s : State) (c : CompNo) (x : Option Quote) : (s.setQuote c x).fixed = s.fixed := rfl

@[simp] theorem fixed_setKiosk (s : State) (k : KioskNo) (x : Kiosk) : (s.setKiosk k x).fixed = s.fixed := rfl

@[simp] theorem fixed_setSeg (s : State) (g : SegNo) (x : Segment) : (s.setSeg g x).fixed = s.fixed := rfl

@[simp] theorem fixed_setBoard (s : State) (b : BoardNo) (x : Board) : (s.setBoard b x).fixed = s.fixed := rfl

@[simp] theorem fixed_setLine (s : State) (b : BoardNo) (l : LineNo) (x : Line) : (s.setLine b l x).fixed = s.fixed := rfl

@[simp] theorem fixed_setAjar (s : State) (c : CompNo) (x : Option AjarWatch) : (s.setAjar c x).fixed = s.fixed := rfl

theorem fixed_foldl {α : Type} (f : State → α → State) (hf : ∀ s a, (f s a).fixed = s.fixed) (l : List α) (s : State) :
    (l.foldl f s).fixed = s.fixed := by
  induction l generalizing s with
  | nil => rfl
  | cons a l ih => simp [ih, hf]

theorem fixed_forEach {n : Nat} (f : Fin n → State → State) (hf : ∀ i s, (f i s).fixed = s.fixed) (s : State) :
    (forEach f s).fixed = s.fixed := fixed_foldl _ (fun s i => hf i s) _ s

@[simp] theorem fixed_postAlarm (k : AlarmKind) (n : Nat) (s : State) : (postAlarm k n s).fixed = s.fixed := by
  unfold postAlarm; split <;> rfl

@[simp] theorem fixed_takeSlot (s : State) : (takeSlot s).fixed = s.fixed := by
  unfold takeSlot; dsimp only; split
  · rw [fixed_postAlarm]; rfl
  · rfl

@[simp] theorem fixed_releaseSlot (s : State) : (releaseSlot s).fixed = s.fixed := rfl

@[simp] theorem fixed_fillSlot (n : Notice) (s : State) : (fillSlot n s).fixed = s.fixed := rfl

@[simp] theorem fixed_changeEntry (c : CompNo) (f : DirEntry → Option DirEntry) (s : State) :
    (changeEntry c f s).fixed = s.fixed := rfl

@[simp] theorem fixed_setEntryStatus (c : CompNo) (x : CodeStatus) (s : State) :
    (setEntryStatus c x s).fixed = s.fixed := rfl

@[simp] theorem fixed_removeEntry (c : CompNo) (s : State) : (removeEntry c s).fixed = s.fixed := rfl

@[simp] theorem fixed_addEntry (code : Nat) (c : CompNo) (x : CodeStatus) (s : State) :
    (addEntry code c x s).fixed = s.fixed := rfl

@[simp] theorem fixed_changeReturn (n : Nat) (f : ReturnEntry → Option ReturnEntry) (s : State) :
    (changeReturn n f s).fixed = s.fixed := rfl

@[simp] theorem fixed_freeReturn (n p : Nat) (s : State) : (freeReturn n p s).fixed = s.fixed := rfl

@[simp] theorem fixed_setDoorResult (k : KioskNo) (r : Option DoorResult) (s : State) :
    (setDoorResult k r s).fixed = s.fixed := rfl

@[simp] theorem fixed_countSuccess (k : KioskNo) (s : State) : (countSuccess k s).fixed = s.fixed := rfl

@[simp] theorem fixed_countFailure (k : KioskNo) (s : State) : (countFailure k s).fixed = s.fixed := by
  unfold countFailure; dsimp only
  split
  · simp
  · split <;> simp

/-! ### Strikes and courier sweeps -/

@[simp] theorem fixed_setMark (c : CompNo) (m : Bool) (s : State) : (setMark c m s).fixed = s.fixed := rfl

@[simp] theorem fixed_issueEntry (g : SegNo) (e : StrikeEntry) (m : MapEntry) (s : State) :
    (issueEntry g e m s).fixed = s.fixed := by simp [issueEntry]

@[simp] theorem fixed_issueUpTo (g : SegNo) (n : Nat) (s : State) : (issueUpTo g n s).fixed = s.fixed := by
  induction n generalizing s with
  | zero => rfl
  | succ n ih =>
    unfold issueUpTo
    split
    · simp [ih]
    · rfl

@[simp] theorem fixed_applyIssue (g : SegNo) (s : State) : (applyIssue g s).fixed = s.fixed := by
  simp [applyIssue]

@[simp] theorem fixed_queueStrike (c : CompNo) (p : Purpose) (s : State) : (queueStrike c p s).fixed = s.fixed := by
  unfold queueStrike; split <;> simp

@[simp] theorem fixed_dropQueued (g : SegNo) (c : CompNo) (s : State) : (dropQueued g c s).fixed = s.fixed := rfl

@[simp] theorem fixed_withdrawStrike (c : CompNo) (s : State) : (withdrawStrike c s).fixed = s.fixed :=
  fixed_forEach _ (fun g s => fixed_dropQueued g c s) s

@[simp] theorem fixed_setActive (g : SegNo) (a : ActiveStrike) (s : State) : (setActive g a s).fixed = s.fixed := rfl

@[simp] theorem fixed_disownPoll (g : SegNo) (b : BoardNo) (l : LineNo) (s : State) :
    (disownPoll g b l s).fixed = s.fixed := by
  unfold disownPoll
  split
  · split <;> simp
  · rfl

@[simp] theorem fixed_endStrike (g : SegNo) (a : ActiveStrike) (s : State) : (endStrike g a s).fixed = s.fixed := by
  simp [endStrike]

@[simp] theorem fixed_setSession (k : KioskNo) (x : Option Session) (s : State) :
    (setSession k x s).fixed = s.fixed := rfl

@[simp] theorem fixed_touchSession (k : KioskNo) (s : State) : (touchSession k s).fixed = s.fixed := by
  unfold touchSession; split <;> simp

@[simp] theorem fixed_grantRetrieval (k : KioskNo) (n i : Nat) (c : CompNo) (s : State) :
    (grantRetrieval k n i c s).fixed = s.fixed := by simp [grantRetrieval]

theorem fixed_issuePickup {k : KioskNo} {s t : State} (h : issuePickup k s = some t) : t.fixed = s.fixed := by
  simp only [issuePickup, Option.bind_eq_bind, Option.bind_eq_some_iff] at h
  obtain ⟨x, -, w, -, e, -, h⟩ := h
  split at h
  · cases h
  · split at h <;> (cases h; simp)

@[simp] theorem fixed_issuePickups (k : KioskNo) (n : Nat) (s : State) : (issuePickups k n s).fixed = s.fixed := by
  induction n generalizing s with
  | zero => rfl
  | succ n ih =>
    unfold issuePickups
    split
    next t h => rw [ih, fixed_issuePickup h]
    next => rfl

@[simp] theorem fixed_applyPickup (k : KioskNo) (s : State) : (applyPickup k s).fixed = s.fixed := by
  simp [applyPickup]

/-! ### Doors -/

@[simp] theorem fixed_reportOutcome (c : CompNo) (k : KioskNo) (n d : Nat) (o : DeclOutcome) (s : State) :
    (reportOutcome c k n d o s).fixed = s.fixed := by
  unfold reportOutcome
  repeat' split
  all_goals simp

@[simp] theorem fixed_reportRetrieval (c : CompNo) (k : KioskNo) (n : Nat) (r : Bool) (s : State) :
    (reportRetrieval c k n r s).fixed = s.fixed := by
  unfold reportRetrieval
  repeat' split
  all_goals simp

@[simp] theorem fixed_reportOpening (c : CompNo) (t : Transient) (s : State) :
    (reportOpening c t s).fixed = s.fixed := by
  unfold reportOpening
  repeat' split
  all_goals simp

@[simp] theorem fixed_noteDoor (x : CompState) (c : CompNo) (t : Transient) (o : DoorOutcome) (s : State) :
    (noteDoor x c t o s).fixed = s.fixed := by
  unfold noteDoor; split <;> simp

@[simp] theorem fixed_endTransaction (e : Ending) (c : CompNo) (s : State) :
    (endTransaction e c s).fixed = s.fixed := by
  unfold endTransaction
  dsimp only
  split
  · rfl
  · split
    · simp
    · simp
    · split <;> simp
    · simp

@[simp] theorem fixed_dropQuote (c : CompNo) (s : State) : (dropQuote c s).fixed = s.fixed := by
  unfold dropQuote
  repeat' split
  all_goals simp

@[simp] theorem fixed_noticeCollected (c : CompNo) (p : Option Parcel) (s : State) :
    (noticeCollected c p s).fixed = s.fixed := by
  unfold noticeCollected; split <;> simp

@[simp] theorem fixed_noticeRetrieved (c : CompNo) (n : Nat) (p : Option Parcel) (s : State) :
    (noticeRetrieved c n p s).fixed = s.fixed := by
  unfold noticeRetrieved; split <;> simp

@[simp] theorem fixed_closeHandling (c : CompNo) (o : Bool) (s : State) : (closeHandling c o s).fixed = s.fixed := by
  unfold closeHandling
  dsimp only
  split
  · simp
  · split
    all_goals simp

@[simp] theorem fixed_confirmedClose (c : CompNo) (o : Bool) (s : State) :
    (confirmedClose c o s).fixed = s.fixed := by
  unfold confirmedClose; split <;> simp

@[simp] theorem fixed_occupancyConfirmed (c : CompNo) (o : Bool) (s : State) :
    (occupancyConfirmed c o s).fixed = s.fixed := by
  unfold occupancyConfirmed; split <;> simp

@[simp] theorem fixed_forceDoor (c : CompNo) (s : State) : (forceDoor c s).fixed = s.fixed := by
  unfold forceDoor; dsimp only; rw [fixed_postAlarm]; split <;> simp

@[simp] theorem fixed_startWatch (c : CompNo) (s : State) : (startWatch c s).fixed = s.fixed := rfl

@[simp] theorem fixed_resumeOpen (c : CompNo) (x : CompState) (s : State) : (resumeOpen c x s).fixed = s.fixed := rfl

@[simp] theorem fixed_doorOpenUnstruck (c : CompNo) (s : State) : (doorOpenUnstruck c s).fixed = s.fixed := by
  unfold doorOpenUnstruck; dsimp only
  repeat' split
  all_goals simp

@[simp] theorem fixed_enterDoorPhase (c : CompNo) (s : State) : (enterDoorPhase c s).fixed = s.fixed := by
  unfold enterDoorPhase; dsimp only; split <;> simp

@[simp] theorem fixed_strikeSucceeds (g : SegNo) (a : ActiveStrike) (s : State) :
    (strikeSucceeds g a s).fixed = s.fixed := by
  unfold strikeSucceeds; dsimp only
  split <;> simp

@[simp] theorem fixed_cancelTransaction (c : CompNo) (s : State) : (cancelTransaction c s).fixed = s.fixed := by
  simp [cancelTransaction]

@[simp] theorem fixed_requeue (g : SegNo) (a : ActiveStrike) (s : State) : (requeue g a s).fixed = s.fixed := by
  unfold requeue; dsimp only
  split <;> simp [apply_ite State.fixed]

@[simp] theorem fixed_attemptFails (g : SegNo) (a : ActiveStrike) (s : State) :
    (attemptFails g a s).fixed = s.fixed := by
  unfold attemptFails; dsimp only
  split <;> simp

@[simp] theorem fixed_energiseEnds (g : SegNo) (a : ActiveStrike) (s : State) :
    (energiseEnds g a s).fixed = s.fixed := by
  unfold energiseEnds; split <;> simp

@[simp] theorem fixed_strikeDone (g : SegNo) (a : ActiveStrike) (s : State) : (strikeDone g a s).fixed = s.fixed := by
  unfold strikeDone; split <;> simp

@[simp] theorem fixed_doorOpened (c : CompNo) (s : State) : (doorOpened c s).fixed = s.fixed := by
  unfold doorOpened
  repeat' split
  all_goals simp

/-! ### Polls -/

@[simp] theorem fixed_sendPoll (g : SegNo) (i : SlotNo) (b : BoardNo) (s : State) :
    (sendPoll g i b s).fixed = s.fixed := rfl

@[simp] theorem fixed_startSweep (g : SegNo) (s : State) : (startSweep g s).fixed = s.fixed := by
  unfold startSweep; dsimp only; split <;> simp

@[simp] theorem fixed_endSweep (g : SegNo) (s : State) : (endSweep g s).fixed = s.fixed := by
  unfold endSweep; dsimp only; split <;> simp

@[simp] theorem fixed_advanceSweep (g : SegNo) (i : SlotNo) (s : State) : (advanceSweep g i s).fixed = s.fixed := by
  unfold advanceSweep; split <;> simp

@[simp] theorem fixed_setRate (g : SegNo) (s : State) : (setRate g s).fixed = s.fixed := by
  unfold setRate; dsimp only
  split
  · simp
  · split <;> simp
  · rfl

@[simp] theorem fixed_setRates (s : State) : (setRates s).fixed = s.fixed :=
  fixed_forEach _ (fun g s => fixed_setRate g s) s

@[simp] theorem fixed_lineClosed (b : BoardNo) (l : LineNo) (x : Reading) (s : State) :
    (lineClosed b l x s).fixed = s.fixed := by
  unfold lineClosed; dsimp only; split <;> simp

@[simp] theorem fixed_closeOccupancy (b : BoardNo) (l : LineNo) (s : State) :
    (closeOccupancy b l s).fixed = s.fixed := by
  unfold closeOccupancy
  repeat' split
  all_goals simp

@[simp] theorem fixed_lineOpened (b : BoardNo) (l : LineNo) (s : State) : (lineOpened b l s).fixed = s.fixed := by
  unfold lineOpened; dsimp only; split <;> simp

@[simp] theorem fixed_confirmDoor (b : BoardNo) (l : LineNo) (s : State) : (confirmDoor b l s).fixed = s.fixed := by
  unfold confirmDoor; dsimp only
  repeat' split
  all_goals simp

@[simp] theorem fixed_confirmOccupancy (b : BoardNo) (l : LineNo) (s : State) :
    (confirmOccupancy b l s).fixed = s.fixed := by
  unfold confirmOccupancy; dsimp only
  repeat' split
  all_goals simp

@[simp] theorem fixed_confirmOccupancies (v : Vector Line 12) (b : BoardNo) (l : LineNo) (s : State) :
    (confirmOccupancies v b l s).fixed = s.fixed := by
  unfold confirmOccupancies; split <;> simp

@[simp] theorem fixed_confirmFresh (b : BoardNo) (l : LineNo) (s : State) : (confirmFresh b l s).fixed = s.fixed := by
  unfold confirmFresh; dsimp only; split <;> simp

@[simp] theorem fixed_takeReadings (b : BoardNo) (r : Vector Reading 12) (s : State) :
    (takeReadings b r s).fixed = s.fixed := rfl

@[simp] theorem fixed_declareLost (b : BoardNo) (s : State) : (declareLost b s).fixed = s.fixed := by
  unfold declareLost; dsimp only
  rw [fixed_foldl _ (fun s a => fixed_energiseEnds _ a s)]
  simp

@[simp] theorem fixed_serveBoard (b : BoardNo) (s : State) : (serveBoard b s).fixed = s.fixed := rfl

@[simp] theorem fixed_confirmLines (b : BoardNo) (s : State) : (confirmLines b s).fixed = s.fixed := by
  have h := fixed_forEach _ (fixed_confirmFresh b) { s with declaring := some b }
  unfold confirmLines; dsimp only
  generalize forEach (fun l => confirmFresh b l) { s with declaring := some b } = t at h ⊢
  exact congrArg (fun x : Fixed => { x with declaring := s.declaring }) h

@[simp] theorem fixed_declareOnline (b : BoardNo) (s : State) : (declareOnline b s).fixed = s.fixed := by
  simp [declareOnline]

@[simp] theorem fixed_supervise (b : BoardNo) (good : Bool) (s : State) : (supervise b good s).fixed = s.fixed := by
  unfold supervise; dsimp only
  repeat' split
  all_goals simp

@[simp] theorem fixed_strikeTaken (b : BoardNo) (x y : Option LineNo) (s : State) :
    (strikeTaken b x y s).fixed = s.fixed := by
  unfold strikeTaken
  repeat' split
  all_goals simp

@[simp] theorem fixed_reportStrike (b : BoardNo) (l : LineNo) (f : Bool) (s : State) :
    (reportStrike b l f s).fixed = s.fixed := by
  unfold reportStrike; dsimp only
  repeat' split
  all_goals simp

@[simp] theorem fixed_takeReport (b : BoardNo) (r : Option (LineNo × Bool × Bool)) (s : State) :
    (takeReport b r s).fixed = s.fixed := by
  unfold takeReport; dsimp only
  repeat' split
  all_goals simp

@[simp] theorem fixed_takeReply (b : BoardNo) (x : Option LineNo) (r : BoardReply) (s : State) :
    (takeReply b x r s).fixed = s.fixed := by
  unfold takeReply; dsimp only
  rw [fixed_takeReport, fixed_forEach _ (fun l s => fixed_confirmOccupancies _ b l s),
    fixed_forEach _ (fun l s => fixed_confirmDoor b l s), fixed_strikeTaken, fixed_supervise]
  split <;> simp

/-- The outcome of a poll changes nothing of the fixed part. -/
@[simp] theorem fixed_takeOutcome (b : BoardNo) (x : Option LineNo) (h : Option (List Byte)) (s : State) :
    (takeOutcome b x h s).fixed = s.fixed := by
  unfold takeOutcome; split <;> simp

end Sys2Proof.Machine
end

