-- ==== Sys2Proof/Laws/Settle.lean ====
section
/-! SUPPORT. What the end of an event does: it brings the rate modes, the attention line and the check
word in step, and does nothing to a state in which they are. -/

namespace Sys2Proof.Machine

/-- The conditions of QUIET mode read nothing that a change of another segment, of a rate mode or of a
sweep's phase writes. -/
theorem quietHolds_congr {s t : State} {g : SegNo} (concourse : t.ret.concourse = s.ret.concourse)
    (idle : t.kioskIdle = s.kioskIdle) (queue : (t.seg g).queue = (s.seg g).queue)
    (active : (t.seg g).active = (s.seg g).active) : quietHolds t g = quietHolds s g := by
  simp only [quietHolds, concourse, idle, queue, active]

@[simp] theorem startSweep_ret (g : SegNo) (s : State) : (startSweep g s).ret = s.ret := by
  unfold startSweep; dsimp only; split <;> rfl

@[simp] theorem startSweep_kioskIdle (g : SegNo) (s : State) : (startSweep g s).kioskIdle = s.kioskIdle :=
  kioskIdle_of_fixed (fixed_startSweep g s)

@[simp] theorem startSweep_alarms (g : SegNo) (s : State) : (startSweep g s).alarms = s.alarms := by
  unfold startSweep; dsimp only; split <;> rfl

theorem startSweep_seg_other {g h : SegNo} (s : State) (ne : h ≠ g) : (startSweep g s).seg h = s.seg h := by
  unfold startSweep; dsimp only
  split <;> simp [sendPoll, State.seg_setSeg, ne]

@[simp] theorem startSweep_queue (g h : SegNo) (s : State) : ((startSweep g s).seg h).queue = (s.seg h).queue := by
  by_cases ne : h = g
  · subst ne; unfold startSweep; dsimp only; split <;> simp [sendPoll]
  · rw [startSweep_seg_other s ne]

@[simp] theorem startSweep_active (g h : SegNo) (s : State) : ((startSweep g s).seg h).active = (s.seg h).active := by
  by_cases ne : h = g
  · subst ne; unfold startSweep; dsimp only; split <;> simp [sendPoll]
  · rw [startSweep_seg_other s ne]

@[simp] theorem startSweep_rate (g h : SegNo) (s : State) : ((startSweep g s).seg h).rate = (s.seg h).rate := by
  by_cases ne : h = g
  · subst ne; unfold startSweep; dsimp only; split <;> simp [sendPoll]
  · rw [startSweep_seg_other s ne]

/-- Bringing a segment's rate mode in step changes only its mode, and its sweep where a return to FULL
starts one (R178). -/
theorem setRate_frame (g : SegNo) (s : State) :
    (setRate g s).ret = s.ret ∧ (setRate g s).alarms = s.alarms ∧ (setRate g s).kioskIdle = s.kioskIdle
      ∧ (∀ h, ((setRate g s).seg h).queue = (s.seg h).queue ∧ ((setRate g s).seg h).active = (s.seg h).active)
      ∧ ∀ h, h ≠ g → (setRate g s).seg h = s.seg h := by
  unfold setRate; dsimp only
  split
  · refine ⟨rfl, rfl, rfl, fun h => ?_, fun h ne => by simp [State.seg_setSeg, ne]⟩
    by_cases ne : h = g <;> simp [State.seg_setSeg, ne]
  · split
    · refine ⟨by simp, by simp, by simp, fun h => ?_,
        fun h ne => by rw [startSweep_seg_other _ ne]; simp [State.seg_setSeg, ne]⟩
      by_cases ne : h = g <;> simp [State.seg_setSeg, ne]
    · refine ⟨rfl, rfl, rfl, fun h => ?_, fun h ne => by simp [State.seg_setSeg, ne]⟩
      by_cases ne : h = g <;> simp [State.seg_setSeg, ne]
  · exact ⟨rfl, rfl, rfl, fun _ => ⟨rfl, rfl⟩, fun _ _ => rfl⟩

@[simp] theorem setRate_quietHolds (g h : SegNo) (s : State) : quietHolds (setRate g s) h = quietHolds s h :=
  have f := setRate_frame g s
  quietHolds_congr (by rw [f.1]) f.2.2.1 (f.2.2.2.1 h).1 (f.2.2.2.1 h).2

/-- A segment's rate mode follows its conditions once it has been brought in step. -/
theorem setRate_rate (g : SegNo) (s : State) :
    ((setRate g s).seg g).rate = if quietHolds s g then .quiet else .full := by
  unfold setRate; dsimp only
  cases hr : (s.seg g).rate <;> cases hq : quietHolds s g <;> simp [hr]
  split <;> simp

/-- The rate modes of a list of segments, brought in step one after the other. -/
theorem setRates_list (gs : List SegNo) (s : State) :
    let t := gs.foldl (fun s g => setRate g s) s
    t.ret = s.ret ∧ t.alarms = s.alarms ∧ t.kioskIdle = s.kioskIdle ∧ (∀ h, quietHolds t h = quietHolds s h)
      ∧ (∀ h, (t.seg h).queue = (s.seg h).queue ∧ (t.seg h).active = (s.seg h).active)
      ∧ ∀ h, (h ∈ gs ∨ (s.seg h).rate = if quietHolds s h then .quiet else .full) →
          (t.seg h).rate = if quietHolds s h then .quiet else .full := by
  induction gs generalizing s with
  | nil => exact ⟨rfl, rfl, rfl, fun _ => rfl, fun _ => ⟨rfl, rfl⟩, fun h hh => by simpa using hh⟩
  | cons g gs ih =>
    have f := setRate_frame g s
    obtain ⟨i1, i2, i3, i4, i5, i6⟩ := ih (setRate g s)
    refine ⟨i1.trans f.1, i2.trans f.2.1, i3.trans f.2.2.1, fun h => (i4 h).trans (by simp),
      fun h => ⟨(i5 h).1.trans (f.2.2.2.1 h).1, (i5 h).2.trans (f.2.2.2.1 h).2⟩, fun h hh => ?_⟩
    have := i6 h
    rw [setRate_quietHolds] at this
    apply this
    by_cases ne : h = g
    · subst ne; exact .inr (setRate_rate h s)
    · rw [f.2.2.2.2 h ne]
      simpa [ne] using hh

/-- What bringing all rate modes in step leaves alone: everything but the segments' modes and sweeps. -/
theorem setRates_frame (s : State) :
    (setRates s).ret = s.ret ∧ (setRates s).alarms = s.alarms ∧ (setRates s).kioskIdle = s.kioskIdle
      ∧ (∀ h, quietHolds (setRates s) h = quietHolds s h)
      ∧ ∀ h, ((setRates s).seg h).queue = (s.seg h).queue ∧ ((setRates s).seg h).active = (s.seg h).active :=
  have f := setRates_list (List.finRange 4) s
  ⟨f.1, f.2.1, f.2.2.1, f.2.2.2.1, f.2.2.2.2.1⟩

/-- After they have been brought in step, the rate modes follow their conditions (R178). -/
theorem ratesFollow_setRates (s : State) : RatesFollow (setRates s) := by
  intro g
  have f := setRates_list (List.finRange 4) s
  rw [show quietHolds (setRates s) g = quietHolds s g from f.2.2.2.1 g]
  exact f.2.2.2.2.2 g (.inl (List.mem_finRange g))

theorem setRate_of_follows {g : SegNo} {s : State} (h : (s.seg g).rate = if quietHolds s g then .quiet else .full) :
    setRate g s = s := by
  unfold setRate; dsimp only
  cases hq : quietHolds s g <;> simp [hq] at h <;> simp [h]

/-- Where the rate modes follow their conditions, nothing is to be brought in step. -/
theorem setRates_of_follow {s : State} (h : RatesFollow s) : setRates s = s := by
  have : ∀ gs : List SegNo, gs.foldl (fun s g => setRate g s) s = s := by
    intro gs
    induction gs with
    | nil => rfl
    | cons g gs ih => rw [List.foldl_cons, setRate_of_follows (h g), ih]
  exact this _

theorem attentionLevel_iff (s : State) :
    attentionLevel s = true ↔ ∃ a ∈ s.alarms, look s.ret.enables (alarmCode a.kind) = true := by
  simp [attentionLevel, enabled]

/-- The end of an event leaves everything in step (R29, R178, R205). -/
theorem settled_settle (s : State) : Settled (settle s) := by
  intro _
  refine ⟨rfl, ?_, ?_⟩
  · exact attentionLevel_iff (setRates s)
  · exact ratesFollow_setRates s

/-- What the end of an event leaves alone. -/
theorem settle_frame (s : State) :
    (settle s).ret = s.ret ∧ (settle s).alarms = s.alarms ∧ (settle s).kioskIdle = s.kioskIdle
      ∧ (settle s).quotes = (setRates s).quotes ∧ (settle s).kiosks = (setRates s).kiosks
      ∧ ∀ h, ((settle s).seg h).queue = (s.seg h).queue ∧ ((settle s).seg h).active = (s.seg h).active :=
  have f := setRates_frame s
  ⟨f.1, f.2.1, f.2.2.1, rfl, rfl, f.2.2.2.2⟩

/-- Where the rate modes follow and the attention line is right, the end of an event only brings the
check word in step. -/
theorem settle_of_steady {s : State} (rates : RatesFollow s) (line : s.attention = attentionLevel s) :
    settle s = resealed s := by
  simp only [settle, setRates_of_follow rates, resealed, ← line]

end Sys2Proof.Machine
end

