-- ==== Sys2Proof/Laws/Requests.lean ====
section
/-! SUPPORT. The frame of an event and of a request: what is taken, what is answered, and when nothing
happens. -/

namespace Sys2Proof.Machine

theorem event_unpowered {s : State} (h : s.run = .unpowered) (effect : State → Option State) :
    event s effect = .next s := if_pos h

theorem event_some {s t : State} {effect : State → Option State} (power : s.run ≠ .unpowered)
    (h : effect s = some t) : event s effect = .next (settle t) := by
  simp [event, power, h]

theorem event_none {s : State} {effect : State → Option State} (h : effect s = none) :
    event s effect = .next s := by
  simp [event, h]

/-- All that an event can do: end in step after its effect, or change nothing. -/
theorem event_cases {s t : State} {effect : State → Option State} (h : event s effect = .next t) :
    (s.run ≠ .unpowered ∧ ∃ u, effect s = some u ∧ t = settle u) ∨ t = s := by
  unfold event at h
  split at h
  · cases h; exact .inr rfl
  next power =>
    split at h
    next u hu => cases h; exact .inl ⟨power, u, hu, rfl⟩
    next => cases h; exact .inr rfl

/-- The reply of an answer joins the tail of the transmit queue. -/
theorem sendReply_eq (kind : Nat) (r : Request) (a : Answer) :
    sendReply (BitVec.ofNat 8 kind) r a =
      { a.state with transmit := a.state.transmit ++ replyTo a.state kind r a.status a.body } := by
  unfold sendReply replyTo
  split <;> simp

theorem takeFrame_ready {kind : Nat} {r : Request} {s : State} (h : Ready kind r s) :
    takeFrame { kind := BitVec.ofNat 8 kind, request := r } s = some { s with receive := s.receive.tail } := by
  obtain ⟨run, room, front⟩ := h
  unfold takeFrame
  split
  next o rest q =>
    simp only [q, List.head?_cons, Option.some.injEq] at front
    simp [run, room, front, q]
  next q => simp [q] at front

/-- A frame is taken only from a running part, with room for its reply, as the oldest (R210). -/
theorem takeFrame_some {f : Frame} {s t : State} (h : takeFrame f s = some t) :
    s.run = .running ∧ s.transmit.length < 4 ∧ s.receive.head? = some f ∧ t = { s with receive := s.receive.tail } := by
  unfold takeFrame at h
  split at h
  next o rest q =>
    split at h
    next c => cases h; exact ⟨c.1, c.2.1, by simp [q, c.2.2], by simp [q]⟩
    next => cases h
  next => cases h

/-- A request that is ready to be taken is answered, and the event ends in step. -/
theorem request_ready {kind : Nat} {r : Request} {s : State} (h : Ready kind r s) (own : State → Answer) :
    request (BitVec.ofNat 8 kind) r s own =
      .next (settle (sendReply (BitVec.ofNat 8 kind) r (own (touchIdle r { s with receive := s.receive.tail })))) := by
  unfold request
  refine event_some (by simp [h.1]) ?_
  rw [takeFrame_ready h]; rfl

/-- All that a request command can do: be answered, or, where it is not ready, change nothing. -/
theorem request_cases {kind : Nat} {r : Request} {s t : State} {own : State → Answer}
    (h : request (BitVec.ofNat 8 kind) r s own = .next t) :
    (Ready kind r s ∧
      t = settle (sendReply (BitVec.ofNat 8 kind) r (own (touchIdle r { s with receive := s.receive.tail })))) ∨ t = s := by
  rcases event_cases h with ⟨-, u, hu, rfl⟩ | rfl
  · cases ht : takeFrame { kind := BitVec.ofNat 8 kind, request := r } s with
    | none => simp [ht] at hu
    | some v =>
      obtain ⟨run, room, front, rfl⟩ := takeFrame_some ht
      simp only [ht, Option.map_some, Option.some.injEq] at hu
      exact .inl ⟨⟨run, room, front⟩, by rw [← hu]⟩
  · exact .inr rfl

theorem touchIdle_eq (r : Request) (s : State) : touchIdle r s = { s with kioskIdle := idleAfter s r } := by
  unfold touchIdle idleAfter; cases r.source <;> rfl

theorem touchIdle_kiosk {r : Request} {k : KioskNo} (h : r.source = .kiosk k) (s : State) :
    touchIdle r s = { s with kioskIdle := some (s.elapsed + 120) } := by simp [touchIdle, h]

theorem touchIdle_backend {r : Request} (h : r.source = .backend) (s : State) : touchIdle r s = s := by
  simp [touchIdle, h]

theorem touchIdle_station {r : Request} (h : r.source = .station) (s : State) : touchIdle r s = s := by
  simp [touchIdle, h]

theorem touchIdle_service {r : Request} (h : r.source = .service) (s : State) : touchIdle r s = s := by
  simp [touchIdle, h]

theorem admitted_open {s : State} (h : ServiceOpen s) (own : State → Answer) :
    admitted s own = own (admittedState s) := by
  rcases h with h | h <;> simp [admitted, admittedState, extendUnlock, h]

/-- A well-formed maintenance request that the SKC admits reaches its owner (R211, R216). -/
theorem maintenance_open {α : Type} {r : Request} {parsed : Option α} {x : α} {s : State}
    (source : r.source = .service) (body : parsed = some x) (skc : ServiceOpen s) (own : α → State → Answer) :
    maintenance r parsed s own = own x (admittedState s) := by
  simp [maintenance, source, withBody, body, admitted_open skc]

/-! ### Requests that leave the strikes and the alarms alone -/

/-- What holds in step in a settled state that runs (R29, R178, R205). -/
theorem Settled.running {s : State} (h : Settled s) (run : s.run = .running) :
    s.checkWord = Config.retentionCheck s.ret ∧ s.attention = attentionLevel s ∧ RatesFollow s := by
  obtain ⟨check, line, rates⟩ := h (by simp [run])
  exact ⟨check, Bool.eq_iff_iff.mpr (line.trans (attentionLevel_iff s).symm), rates⟩

theorem resealed_eq {s : State} (h : s.checkWord = Config.retentionCheck s.ret) : resealed s = s := by
  simp [resealed, ← h]

/-- Where an event leaves the enables, the alarms, the segments and the conditions of the rate modes alone,
its end only renews the check word. -/
theorem settle_untouched {s t : State} (h : Settled s) (run : s.run = .running)
    (enables : t.ret.enables = s.ret.enables) (concourse : t.ret.concourse = s.ret.concourse)
    (alarms : t.alarms = s.alarms) (line : t.attention = s.attention) (segments : t.segments = s.segments)
    (idle : t.kioskIdle = s.kioskIdle) : settle t = resealed t := by
  obtain ⟨-, attention, rates⟩ := h.running run
  refine settle_of_steady (fun g => ?_) ?_
  · have e : t.seg g = s.seg g := by simp [State.seg, segments]
    rw [e, quietHolds_congr concourse idle (by rw [e]) (by rw [e]), rates g]
  · rw [line, attention]; simp [attentionLevel, enabled, alarms, enables]

/-- A ready request that is not a kiosk's, whose owner leaves those alone: the owner's state with the reply
queued and the check word renewed. -/
theorem request_untouched {kind : Nat} {r : Request} {s : State} (ready : Ready kind r s)
    (source : ∀ k, r.source ≠ .kiosk k) (h : Settled s) (own : State → Answer) {a : Answer}
    (answer : own { s with receive := s.receive.tail } = a) (enables : a.state.ret.enables = s.ret.enables)
    (concourse : a.state.ret.concourse = s.ret.concourse) (alarms : a.state.alarms = s.alarms)
    (line : a.state.attention = s.attention) (segments : a.state.segments = s.segments)
    (idle : a.state.kioskIdle = s.kioskIdle) :
    request (BitVec.ofNat 8 kind) r s own =
      .next (resealed { a.state with
        transmit := a.state.transmit ++ replyTo a.state kind r a.status a.body }) := by
  have untouched (t : State) : touchIdle r t = t := by
    unfold touchIdle
    split
    next k e => exact absurd e (source k)
    next => rfl
  rw [request_ready ready, untouched, answer, sendReply_eq]
  exact congrArg _ (settle_untouched h ready.1 enables concourse alarms line segments idle)

theorem admittedState_receive (s : State) (queue : List Frame) :
    admittedState { s with receive := queue } = { admittedState s with receive := queue } := by
  unfold admittedState; split <;> rfl

end Sys2Proof.Machine
end

