-- ==== Sys2Proof/Laws/Strikes.lean ====
section
/-! SUPPORT. What queueing and issuing strikes change: strike issued marks, the segments and the boards'
hand-off lists. -/

namespace Sys2Proof.Machine

/-- Between two states only strike issued marks, segments and boards differ. -/
structure OnlyStrikes (s t : State) : Prop where
  ret   : t.ret = { s.ret with compartments := t.ret.compartments }
  rest  : t = { s with ret := t.ret, segments := t.segments, boards := t.boards }
  comps : ∀ c, KeepsComp s t c

theorem sameButMark_refl (x : Option Transient) : sameButMark x x = true := by
  cases x <;> simp [sameButMark]

theorem sameButMark_trans {x y z : Option Transient} (h : sameButMark y x = true) (k : sameButMark z y = true) :
    sameButMark z x = true := by
  cases x <;> cases y <;> cases z <;> simp_all [sameButMark]

theorem OnlyStrikes.refl (s : State) : OnlyStrikes s s :=
  ⟨rfl, rfl, fun _ => ⟨rfl, rfl, rfl, sameButMark_refl _, rfl⟩⟩

theorem OnlyStrikes.trans {s t u : State} (h : OnlyStrikes s t) (k : OnlyStrikes t u) : OnlyStrikes s u where
  ret := by rw [k.ret, h.ret]
  rest := by rw [k.rest, h.rest]
  comps c := by
    obtain ⟨a, b, d, e, f⟩ := h.comps c
    obtain ⟨a', b', d', e', f'⟩ := k.comps c
    exact ⟨a'.trans a, b'.trans b, d'.trans d, sameButMark_trans e e', f'.trans f⟩

theorem onlyStrikes_setSeg (g : SegNo) (x : Segment) (s : State) : OnlyStrikes s (s.setSeg g x) :=
  ⟨rfl, rfl, fun _ => ⟨rfl, rfl, rfl, sameButMark_refl _, rfl⟩⟩

theorem onlyStrikes_setBoard (b : BoardNo) (x : Board) (s : State) : OnlyStrikes s (s.setBoard b x) :=
  ⟨rfl, rfl, fun _ => ⟨rfl, rfl, rfl, sameButMark_refl _, rfl⟩⟩

theorem onlyStrikes_setMark (c : CompNo) (mark : Bool) (s : State) : OnlyStrikes s (setMark c mark s) where
  ret := rfl
  rest := rfl
  comps d := by
    unfold KeepsComp setMark
    by_cases h : d = c
    · subst h
      simp only [State.comp_setComp_same, State.quoteOf_setComp, true_and, and_true]
      cases (s.comp d).transient <;> simp [sameButMark]
    · simp [State.comp_setComp, h, sameButMark_refl]

theorem onlyStrikes_issueEntry (g : SegNo) (e : StrikeEntry) (m : MapEntry) (s : State) :
    OnlyStrikes s (issueEntry g e m s) := by
  unfold issueEntry; dsimp only
  exact ((onlyStrikes_setSeg g _ s).trans (onlyStrikes_setMark e.compartment true _)).trans
    (onlyStrikes_setBoard m.board _ _)

theorem onlyStrikes_issueUpTo (g : SegNo) (n : Nat) (s : State) : OnlyStrikes s (issueUpTo g n s) := by
  induction n generalizing s with
  | zero => exact .refl s
  | succ n ih =>
    unfold issueUpTo
    split
    · exact (onlyStrikes_issueEntry ..).trans (ih _)
    · exact .refl s

/-- Issue changes only marks, segments and hand-off lists (R160, R161). -/
theorem onlyStrikes_applyIssue (g : SegNo) (s : State) : OnlyStrikes s (applyIssue g s) :=
  onlyStrikes_issueUpTo ..

/-- Queueing a strike changes only marks, segments and hand-off lists (R156). -/
theorem onlyStrikes_queueStrike (c : CompNo) (p : Purpose) (s : State) : OnlyStrikes s (queueStrike c p s) := by
  unfold queueStrike
  split
  · exact (onlyStrikes_setSeg ..).trans (onlyStrikes_applyIssue ..)
  · exact .refl s

theorem issueUpTo_seg_other {g h : SegNo} (ne : h ≠ g) (n : Nat) (s : State) : (issueUpTo g n s).seg h = s.seg h := by
  induction n generalizing s with
  | zero => rfl
  | succ n ih =>
    unfold issueUpTo
    split
    · rw [ih]; simp [issueEntry, setMark, State.seg_setSeg, ne]
    · rfl

/-- Issue on a segment touches no other segment. -/
theorem applyIssue_seg_other {g h : SegNo} (ne : h ≠ g) (s : State) : (applyIssue g s).seg h = s.seg h :=
  issueUpTo_seg_other ne _ s

theorem issueUpTo_queue_length (g h : SegNo) (n : Nat) (s : State) :
    ((issueUpTo g n s).seg h).queue.length ≤ (s.seg h).queue.length := by
  induction n generalizing s with
  | zero => exact le_refl _
  | succ n ih =>
    unfold issueUpTo
    split
    next e m _ =>
      refine (ih _).trans ?_
      by_cases ne : h = g
      · subst ne; simpa [issueEntry, setMark] using List.length_filter_le _ _
      · simp [issueEntry, setMark, State.seg_setSeg, ne]
    next => exact le_refl _

/-- Issue makes no queue longer. -/
theorem applyIssue_queue_length (g h : SegNo) (s : State) :
    ((applyIssue g s).seg h).queue.length ≤ (s.seg h).queue.length := issueUpTo_queue_length ..

end Sys2Proof.Machine
end

