-- ==== Sys2Proof/Laws/Issue.lean ====
section
/-! SUPPORT. What the issue of strikes does to a segment. -/

namespace Sys2Proof.Machine

theorem striking_iff {s : State} {c : CompNo} :
    striking s c = true ↔
      ∃ g, (∃ e ∈ (s.seg g).queue, e.compartment = c) ∨ ∃ a ∈ (s.seg g).active, a.compartment = c := by
  simp [striking]

/-- The entry that issue takes stands in the queue, on a board that the SSU holds ONLINE, below the budget (R160). -/
theorem nextIssue_some {s : State} {g : SegNo} {e : StrikeEntry} {m : MapEntry} (h : nextIssue s g = some (e, m)) :
    e ∈ (s.seg g).queue ∧ energised s g < budgetInForce s g ∧ s.ret.concourse ≠ .lockdown
      ∧ (s.comp e.compartment).map = some m ∧ onlineToIssue s m.board = true := by
  unfold nextIssue at h
  split at h
  next hc =>
    obtain ⟨f, hf, h⟩ := List.exists_of_findSome?_eq_some h
    cases hm : (s.comp f.compartment).map with
    | none => simp [hm] at h
    | some n =>
      simp only [hm] at h
      split at h
      next on =>
        obtain ⟨rfl, rfl⟩ := h
        exact ⟨hf, hc.2, hc.1, hm, on⟩
      next => cases h
  next => cases h

@[simp] theorem issueEntry_queue (g : SegNo) (e : StrikeEntry) (m : MapEntry) (s : State) :
    ((issueEntry g e m s).seg g).queue = (s.seg g).queue.filter (·.compartment ≠ e.compartment) := by
  simp [issueEntry, setMark]

@[simp] theorem issueEntry_active (g : SegNo) (e : StrikeEntry) (m : MapEntry) (s : State) :
    ((issueEntry g e m s).seg g).active = (s.seg g).active ++
      [{ compartment := e.compartment, purpose := e.purpose, attempt := e.attempt, board := m.board, line := m.line,
         doorSeen := false, phase := .issued (s.elapsed + 5) }] := by
  simp [issueEntry, setMark]

theorem issueEntry_seg_other {g h : SegNo} (ne : h ≠ g) (e : StrikeEntry) (m : MapEntry) (s : State) :
    (issueEntry g e m s).seg h = s.seg h := by
  simp [issueEntry, setMark, State.seg_setSeg, ne]

@[simp] theorem issueEntry_elapsed (g : SegNo) (e : StrikeEntry) (m : MapEntry) (s : State) :
    (issueEntry g e m s).elapsed = s.elapsed := rfl

@[simp] theorem issueEntry_budget (g h : SegNo) (e : StrikeEntry) (m : MapEntry) (s : State) :
    budgetInForce (issueEntry g e m s) h = budgetInForce s h := rfl

theorem issueEntry_energised (g : SegNo) (e : StrikeEntry) (m : MapEntry) (s : State) :
    energised (issueEntry g e m s) g = energised s g + 1 := by
  simp [energised, ActiveStrike.isIssued]

theorem issueEntry_striking {g : SegNo} {e : StrikeEntry} {s : State} {c : CompNo} (m : MapEntry)
    (h : striking s c = true) : striking (issueEntry g e m s) c = true := by
  rw [striking_iff] at h ⊢
  obtain ⟨f, h⟩ := h
  refine ⟨f, ?_⟩
  by_cases eq : f = g
  · subst eq
    rw [issueEntry_queue, issueEntry_active]
    by_cases ce : e.compartment = c
    · exact .inr ⟨_, List.mem_append_right _ (List.mem_singleton_self _), ce⟩
    · obtain ⟨d, hd, rfl⟩ | ⟨a, ha, rfl⟩ := h
      · exact .inl ⟨d, by simp [hd, Ne.symm ce], rfl⟩
      · exact .inr ⟨a, List.mem_append_left _ ha, rfl⟩
  · rwa [issueEntry_seg_other eq]

theorem Issued.step {g : SegNo} {e : StrikeEntry} {m : MapEntry} {s t : State} (h : nextIssue s g = some (e, m))
    (k : Issued g (issueEntry g e m s) t) : Issued g s t := by
  obtain ⟨none, keep, count, sub, issued, act, all⟩ := k
  obtain ⟨mem, below, -⟩ := nextIssue_some h
  rw [issueEntry_queue] at sub all
  rw [issueEntry_energised, issueEntry_budget] at count
  refine ⟨none, fun c hc => keep c (issueEntry_striking m hc), ?_, sub.trans List.filter_sublist, ?_⟩
  · omega
  · refine ⟨_ :: issued, by rw [act, issueEntry_active, List.append_assoc, List.singleton_append], ?_⟩
    intro a ha
    rcases List.mem_cons.1 ha with rfl | ha
    · exact ⟨rfl, rfl, e, mem, rfl, rfl, rfl⟩
    · obtain ⟨h1, h2, f, hf, h3⟩ := all a ha
      exact ⟨h1, h2, f, (List.mem_filter.1 hf).1, h3⟩

theorem issued_issueUpTo (g : SegNo) (n : Nat) (s : State) (h : (s.seg g).queue.length ≤ n) :
    Issued g s (issueUpTo g n s) := by
  have here (none : nextIssue s g = none) : Issued g s s :=
    ⟨none, fun _ hc => hc, Nat.le_max_left .., .refl _, [], (List.append_nil _).symm, by simp⟩
  induction n generalizing s with
  | zero =>
    have empty : (s.seg g).queue = [] := List.length_eq_zero_iff.1 (by omega)
    exact here (by unfold nextIssue; simp [empty])
  | succ n ih =>
    unfold issueUpTo
    split
    next e m next =>
      refine (ih _ ?_ fun none => ?_).step next
      · have := (nextIssue_some next).1
        rw [issueEntry_queue]
        have : ((s.seg g).queue.filter (·.compartment ≠ e.compartment)).length < (s.seg g).queue.length := by
          rw [List.length_filter_lt_length_iff_exists]
          exact ⟨e, this, by simp⟩
        omega
      · exact ⟨none, fun _ hc => hc, Nat.le_max_left .., .refl _, [], (List.append_nil _).symm, by simp⟩
    next none => exact here none

/-- Issue takes strikes from the queue until it can take no more (R160, R161). -/
theorem issued_applyIssue (g : SegNo) (s : State) : Issued g s (applyIssue g s) :=
  issued_issueUpTo g _ s (Nat.le_refl _)

end Sys2Proof.Machine
end

