-- ==== Sys2Proof/Laws/Ops.lean ====
section
/-! SUPPORT. What the operations over the outbox, the alarms, the directory and the returns list leave
alone, table by table. -/

namespace Sys2Proof.Machine

theorem takeSlot_eq (s : State) :
    takeSlot s = { s with ret := { s.ret with reservations := s.ret.reservations + 1 }, alarms := (takeSlot s).alarms } := by
  unfold takeSlot postAlarm; dsimp only; split
  · split <;> rfl
  · rfl

theorem postAlarm_eq (k : AlarmKind) (n : Nat) (s : State) : postAlarm k n s = { s with alarms := (postAlarm k n s).alarms } := by
  unfold postAlarm; split <;> rfl

/-! ### takeSlot -/

@[simp] theorem comp_takeSlot (s : State) (i : CompNo) : (takeSlot s).comp i = s.comp i := by rw [takeSlot_eq]; rfl
@[simp] theorem quoteOf_takeSlot (s : State) (i : CompNo) : (takeSlot s).quoteOf i = s.quoteOf i := by rw [takeSlot_eq]; rfl
@[simp] theorem kiosk_takeSlot (s : State) (i : KioskNo) : (takeSlot s).kiosk i = s.kiosk i := by rw [takeSlot_eq]; rfl
@[simp] theorem seg_takeSlot (s : State) (i : SegNo) : (takeSlot s).seg i = s.seg i := by rw [takeSlot_eq]; rfl
@[simp] theorem board_takeSlot (s : State) (i : BoardNo) : (takeSlot s).board i = s.board i := by rw [takeSlot_eq]; rfl
@[simp] theorem boards_takeSlot (s : State) : (takeSlot s).boards = s.boards := by rw [takeSlot_eq]
@[simp] theorem segments_takeSlot (s : State) : (takeSlot s).segments = s.segments := by rw [takeSlot_eq]
@[simp] theorem kiosks_takeSlot (s : State) : (takeSlot s).kiosks = s.kiosks := by rw [takeSlot_eq]
@[simp] theorem quotes_takeSlot (s : State) : (takeSlot s).quotes = s.quotes := by rw [takeSlot_eq]
@[simp] theorem ajar_takeSlot (s : State) : (takeSlot s).ajar = s.ajar := by rw [takeSlot_eq]
@[simp] theorem clock_takeSlot (s : State) : (takeSlot s).clock = s.clock := by rw [takeSlot_eq]
@[simp] theorem elapsed_takeSlot (s : State) : (takeSlot s).elapsed = s.elapsed := by rw [takeSlot_eq]
@[simp] theorem ret_tariff_takeSlot (s : State) : (takeSlot s).ret.tariff = s.ret.tariff := by rw [takeSlot_eq]

/-! ### releaseSlot -/

@[simp] theorem comp_releaseSlot (s : State) (i : CompNo) : (releaseSlot s).comp i = s.comp i := rfl
@[simp] theorem quoteOf_releaseSlot (s : State) (i : CompNo) : (releaseSlot s).quoteOf i = s.quoteOf i := rfl
@[simp] theorem kiosk_releaseSlot (s : State) (i : KioskNo) : (releaseSlot s).kiosk i = s.kiosk i := rfl
@[simp] theorem seg_releaseSlot (s : State) (i : SegNo) : (releaseSlot s).seg i = s.seg i := rfl
@[simp] theorem board_releaseSlot (s : State) (i : BoardNo) : (releaseSlot s).board i = s.board i := rfl
@[simp] theorem boards_releaseSlot (s : State) : (releaseSlot s).boards = s.boards := rfl
@[simp] theorem segments_releaseSlot (s : State) : (releaseSlot s).segments = s.segments := rfl
@[simp] theorem kiosks_releaseSlot (s : State) : (releaseSlot s).kiosks = s.kiosks := rfl
@[simp] theorem quotes_releaseSlot (s : State) : (releaseSlot s).quotes = s.quotes := rfl
@[simp] theorem ajar_releaseSlot (s : State) : (releaseSlot s).ajar = s.ajar := rfl
@[simp] theorem clock_releaseSlot (s : State) : (releaseSlot s).clock = s.clock := rfl
@[simp] theorem elapsed_releaseSlot (s : State) : (releaseSlot s).elapsed = s.elapsed := rfl
@[simp] theorem ret_tariff_releaseSlot (s : State) : (releaseSlot s).ret.tariff = s.ret.tariff := rfl

/-! ### fillSlot -/

@[simp] theorem comp_fillSlot (n : Notice) (s : State) (i : CompNo) : (fillSlot n s).comp i = s.comp i := rfl
@[simp] theorem quoteOf_fillSlot (n : Notice) (s : State) (i : CompNo) : (fillSlot n s).quoteOf i = s.quoteOf i := rfl
@[simp] theorem kiosk_fillSlot (n : Notice) (s : State) (i : KioskNo) : (fillSlot n s).kiosk i = s.kiosk i := rfl
@[simp] theorem seg_fillSlot (n : Notice) (s : State) (i : SegNo) : (fillSlot n s).seg i = s.seg i := rfl
@[simp] theorem board_fillSlot (n : Notice) (s : State) (i : BoardNo) : (fillSlot n s).board i = s.board i := rfl
@[simp] theorem boards_fillSlot (n : Notice) (s : State) : (fillSlot n s).boards = s.boards := rfl
@[simp] theorem segments_fillSlot (n : Notice) (s : State) : (fillSlot n s).segments = s.segments := rfl
@[simp] theorem kiosks_fillSlot (n : Notice) (s : State) : (fillSlot n s).kiosks = s.kiosks := rfl
@[simp] theorem quotes_fillSlot (n : Notice) (s : State) : (fillSlot n s).quotes = s.quotes := rfl
@[simp] theorem ajar_fillSlot (n : Notice) (s : State) : (fillSlot n s).ajar = s.ajar := rfl
@[simp] theorem clock_fillSlot (n : Notice) (s : State) : (fillSlot n s).clock = s.clock := rfl
@[simp] theorem elapsed_fillSlot (n : Notice) (s : State) : (fillSlot n s).elapsed = s.elapsed := rfl
@[simp] theorem ret_tariff_fillSlot (n : Notice) (s : State) : (fillSlot n s).ret.tariff = s.ret.tariff := rfl

/-! ### changeEntry -/

@[simp] theorem comp_changeEntry (c : CompNo) (f : DirEntry → Option DirEntry) (s : State) (i : CompNo) : (changeEntry c f s).comp i = s.comp i := rfl
@[simp] theorem quoteOf_changeEntry (c : CompNo) (f : DirEntry → Option DirEntry) (s : State) (i : CompNo) : (changeEntry c f s).quoteOf i = s.quoteOf i := rfl
@[simp] theorem kiosk_changeEntry (c : CompNo) (f : DirEntry → Option DirEntry) (s : State) (i : KioskNo) : (changeEntry c f s).kiosk i = s.kiosk i := rfl
@[simp] theorem seg_changeEntry (c : CompNo) (f : DirEntry → Option DirEntry) (s : State) (i : SegNo) : (changeEntry c f s).seg i = s.seg i := rfl
@[simp] theorem board_changeEntry (c : CompNo) (f : DirEntry → Option DirEntry) (s : State) (i : BoardNo) : (changeEntry c f s).board i = s.board i := rfl
@[simp] theorem boards_changeEntry (c : CompNo) (f : DirEntry → Option DirEntry) (s : State) : (changeEntry c f s).boards = s.boards := rfl
@[simp] theorem segments_changeEntry (c : CompNo) (f : DirEntry → Option DirEntry) (s : State) : (changeEntry c f s).segments = s.segments := rfl
@[simp] theorem kiosks_changeEntry (c : CompNo) (f : DirEntry → Option DirEntry) (s : State) : (changeEntry c f s).kiosks = s.kiosks := rfl
@[simp] theorem quotes_changeEntry (c : CompNo) (f : DirEntry → Option DirEntry) (s : State) : (changeEntry c f s).quotes = s.quotes := rfl
@[simp] theorem ajar_changeEntry (c : CompNo) (f : DirEntry → Option DirEntry) (s : State) : (changeEntry c f s).ajar = s.ajar := rfl
@[simp] theorem clock_changeEntry (c : CompNo) (f : DirEntry → Option DirEntry) (s : State) : (changeEntry c f s).clock = s.clock := rfl
@[simp] theorem elapsed_changeEntry (c : CompNo) (f : DirEntry → Option DirEntry) (s : State) : (changeEntry c f s).elapsed = s.elapsed := rfl
@[simp] theorem ret_tariff_changeEntry (c : CompNo) (f : DirEntry → Option DirEntry) (s : State) : (changeEntry c f s).ret.tariff = s.ret.tariff := rfl

/-! ### setEntryStatus -/

@[simp] theorem comp_setEntryStatus (c : CompNo) (x : CodeStatus) (s : State) (i : CompNo) : (setEntryStatus c x s).comp i = s.comp i := rfl
@[simp] theorem quoteOf_setEntryStatus (c : CompNo) (x : CodeStatus) (s : State) (i : CompNo) : (setEntryStatus c x s).quoteOf i = s.quoteOf i := rfl
@[simp] theorem kiosk_setEntryStatus (c : CompNo) (x : CodeStatus) (s : State) (i : KioskNo) : (setEntryStatus c x s).kiosk i = s.kiosk i := rfl
@[simp] theorem seg_setEntryStatus (c : CompNo) (x : CodeStatus) (s : State) (i : SegNo) : (setEntryStatus c x s).seg i = s.seg i := rfl
@[simp] theorem board_setEntryStatus (c : CompNo) (x : CodeStatus) (s : State) (i : BoardNo) : (setEntryStatus c x s).board i = s.board i := rfl
@[simp] theorem boards_setEntryStatus (c : CompNo) (x : CodeStatus) (s : State) : (setEntryStatus c x s).boards = s.boards := rfl
@[simp] theorem segments_setEntryStatus (c : CompNo) (x : CodeStatus) (s : State) : (setEntryStatus c x s).segments = s.segments := rfl
@[simp] theorem kiosks_setEntryStatus (c : CompNo) (x : CodeStatus) (s : State) : (setEntryStatus c x s).kiosks = s.kiosks := rfl
@[simp] theorem quotes_setEntryStatus (c : CompNo) (x : CodeStatus) (s : State) : (setEntryStatus c x s).quotes = s.quotes := rfl
@[simp] theorem ajar_setEntryStatus (c : CompNo) (x : CodeStatus) (s : State) : (setEntryStatus c x s).ajar = s.ajar := rfl
@[simp] theorem clock_setEntryStatus (c : CompNo) (x : CodeStatus) (s : State) : (setEntryStatus c x s).clock = s.clock := rfl
@[simp] theorem elapsed_setEntryStatus (c : CompNo) (x : CodeStatus) (s : State) : (setEntryStatus c x s).elapsed = s.elapsed := rfl
@[simp] theorem ret_tariff_setEntryStatus (c : CompNo) (x : CodeStatus) (s : State) : (setEntryStatus c x s).ret.tariff = s.ret.tariff := rfl

/-! ### removeEntry -/

@[simp] theorem comp_removeEntry (c : CompNo) (s : State) (i : CompNo) : (removeEntry c s).comp i = s.comp i := rfl
@[simp] theorem quoteOf_removeEntry (c : CompNo) (s : State) (i : CompNo) : (removeEntry c s).quoteOf i = s.quoteOf i := rfl
@[simp] theorem kiosk_removeEntry (c : CompNo) (s : State) (i : KioskNo) : (removeEntry c s).kiosk i = s.kiosk i := rfl
@[simp] theorem seg_removeEntry (c : CompNo) (s : State) (i : SegNo) : (removeEntry c s).seg i = s.seg i := rfl
@[simp] theorem board_removeEntry (c : CompNo) (s : State) (i : BoardNo) : (removeEntry c s).board i = s.board i := rfl
@[simp] theorem boards_removeEntry (c : CompNo) (s : State) : (removeEntry c s).boards = s.boards := rfl
@[simp] theorem segments_removeEntry (c : CompNo) (s : State) : (removeEntry c s).segments = s.segments := rfl
@[simp] theorem kiosks_removeEntry (c : CompNo) (s : State) : (removeEntry c s).kiosks = s.kiosks := rfl
@[simp] theorem quotes_removeEntry (c : CompNo) (s : State) : (removeEntry c s).quotes = s.quotes := rfl
@[simp] theorem ajar_removeEntry (c : CompNo) (s : State) : (removeEntry c s).ajar = s.ajar := rfl
@[simp] theorem clock_removeEntry (c : CompNo) (s : State) : (removeEntry c s).clock = s.clock := rfl
@[simp] theorem elapsed_removeEntry (c : CompNo) (s : State) : (removeEntry c s).elapsed = s.elapsed := rfl
@[simp] theorem ret_tariff_removeEntry (c : CompNo) (s : State) : (removeEntry c s).ret.tariff = s.ret.tariff := rfl

/-! ### changeReturn -/

@[simp] theorem comp_changeReturn (n : Nat) (f : ReturnEntry → Option ReturnEntry) (s : State) (i : CompNo) : (changeReturn n f s).comp i = s.comp i := rfl
@[simp] theorem quoteOf_changeReturn (n : Nat) (f : ReturnEntry → Option ReturnEntry) (s : State) (i : CompNo) : (changeReturn n f s).quoteOf i = s.quoteOf i := rfl
@[simp] theorem kiosk_changeReturn (n : Nat) (f : ReturnEntry → Option ReturnEntry) (s : State) (i : KioskNo) : (changeReturn n f s).kiosk i = s.kiosk i := rfl
@[simp] theorem seg_changeReturn (n : Nat) (f : ReturnEntry → Option ReturnEntry) (s : State) (i : SegNo) : (changeReturn n f s).seg i = s.seg i := rfl
@[simp] theorem board_changeReturn (n : Nat) (f : ReturnEntry → Option ReturnEntry) (s : State) (i : BoardNo) : (changeReturn n f s).board i = s.board i := rfl
@[simp] theorem boards_changeReturn (n : Nat) (f : ReturnEntry → Option ReturnEntry) (s : State) : (changeReturn n f s).boards = s.boards := rfl
@[simp] theorem segments_changeReturn (n : Nat) (f : ReturnEntry → Option ReturnEntry) (s : State) : (changeReturn n f s).segments = s.segments := rfl
@[simp] theorem kiosks_changeReturn (n : Nat) (f : ReturnEntry → Option ReturnEntry) (s : State) : (changeReturn n f s).kiosks = s.kiosks := rfl
@[simp] theorem quotes_changeReturn (n : Nat) (f : ReturnEntry → Option ReturnEntry) (s : State) : (changeReturn n f s).quotes = s.quotes := rfl
@[simp] theorem ajar_changeReturn (n : Nat) (f : ReturnEntry → Option ReturnEntry) (s : State) : (changeReturn n f s).ajar = s.ajar := rfl
@[simp] theorem clock_changeReturn (n : Nat) (f : ReturnEntry → Option ReturnEntry) (s : State) : (changeReturn n f s).clock = s.clock := rfl
@[simp] theorem elapsed_changeReturn (n : Nat) (f : ReturnEntry → Option ReturnEntry) (s : State) : (changeReturn n f s).elapsed = s.elapsed := rfl
@[simp] theorem ret_tariff_changeReturn (n : Nat) (f : ReturnEntry → Option ReturnEntry) (s : State) : (changeReturn n f s).ret.tariff = s.ret.tariff := rfl

/-! ### freeReturn -/

@[simp] theorem comp_freeReturn (n p : Nat) (s : State) (i : CompNo) : (freeReturn n p s).comp i = s.comp i := rfl
@[simp] theorem quoteOf_freeReturn (n p : Nat) (s : State) (i : CompNo) : (freeReturn n p s).quoteOf i = s.quoteOf i := rfl
@[simp] theorem kiosk_freeReturn (n p : Nat) (s : State) (i : KioskNo) : (freeReturn n p s).kiosk i = s.kiosk i := rfl
@[simp] theorem seg_freeReturn (n p : Nat) (s : State) (i : SegNo) : (freeReturn n p s).seg i = s.seg i := rfl
@[simp] theorem board_freeReturn (n p : Nat) (s : State) (i : BoardNo) : (freeReturn n p s).board i = s.board i := rfl
@[simp] theorem boards_freeReturn (n p : Nat) (s : State) : (freeReturn n p s).boards = s.boards := rfl
@[simp] theorem segments_freeReturn (n p : Nat) (s : State) : (freeReturn n p s).segments = s.segments := rfl
@[simp] theorem kiosks_freeReturn (n p : Nat) (s : State) : (freeReturn n p s).kiosks = s.kiosks := rfl
@[simp] theorem quotes_freeReturn (n p : Nat) (s : State) : (freeReturn n p s).quotes = s.quotes := rfl
@[simp] theorem ajar_freeReturn (n p : Nat) (s : State) : (freeReturn n p s).ajar = s.ajar := rfl
@[simp] theorem clock_freeReturn (n p : Nat) (s : State) : (freeReturn n p s).clock = s.clock := rfl
@[simp] theorem elapsed_freeReturn (n p : Nat) (s : State) : (freeReturn n p s).elapsed = s.elapsed := rfl
@[simp] theorem ret_tariff_freeReturn (n p : Nat) (s : State) : (freeReturn n p s).ret.tariff = s.ret.tariff := rfl

/-! ### postAlarm -/

@[simp] theorem comp_postAlarm (k : AlarmKind) (n : Nat) (s : State) (i : CompNo) : (postAlarm k n s).comp i = s.comp i := by rw [postAlarm_eq]; rfl
@[simp] theorem quoteOf_postAlarm (k : AlarmKind) (n : Nat) (s : State) (i : CompNo) : (postAlarm k n s).quoteOf i = s.quoteOf i := by rw [postAlarm_eq]; rfl
@[simp] theorem kiosk_postAlarm (k : AlarmKind) (n : Nat) (s : State) (i : KioskNo) : (postAlarm k n s).kiosk i = s.kiosk i := by rw [postAlarm_eq]; rfl
@[simp] theorem seg_postAlarm (k : AlarmKind) (n : Nat) (s : State) (i : SegNo) : (postAlarm k n s).seg i = s.seg i := by rw [postAlarm_eq]; rfl
@[simp] theorem board_postAlarm (k : AlarmKind) (n : Nat) (s : State) (i : BoardNo) : (postAlarm k n s).board i = s.board i := by rw [postAlarm_eq]; rfl
@[simp] theorem boards_postAlarm (k : AlarmKind) (n : Nat) (s : State) : (postAlarm k n s).boards = s.boards := by rw [postAlarm_eq]
@[simp] theorem segments_postAlarm (k : AlarmKind) (n : Nat) (s : State) : (postAlarm k n s).segments = s.segments := by rw [postAlarm_eq]
@[simp] theorem kiosks_postAlarm (k : AlarmKind) (n : Nat) (s : State) : (postAlarm k n s).kiosks = s.kiosks := by rw [postAlarm_eq]
@[simp] theorem quotes_postAlarm (k : AlarmKind) (n : Nat) (s : State) : (postAlarm k n s).quotes = s.quotes := by rw [postAlarm_eq]
@[simp] theorem ajar_postAlarm (k : AlarmKind) (n : Nat) (s : State) : (postAlarm k n s).ajar = s.ajar := by rw [postAlarm_eq]
@[simp] theorem clock_postAlarm (k : AlarmKind) (n : Nat) (s : State) : (postAlarm k n s).clock = s.clock := by rw [postAlarm_eq]
@[simp] theorem elapsed_postAlarm (k : AlarmKind) (n : Nat) (s : State) : (postAlarm k n s).elapsed = s.elapsed := by rw [postAlarm_eq]
@[simp] theorem ret_tariff_postAlarm (k : AlarmKind) (n : Nat) (s : State) : (postAlarm k n s).ret.tariff = s.ret.tariff := by rw [postAlarm_eq]

/-! ### setSession and setDoorResult -/

@[simp] theorem comp_setSession (k : KioskNo) (x : Option Session) (s : State) (i : CompNo) : (setSession k x s).comp i = s.comp i := rfl
@[simp] theorem quoteOf_setSession (k : KioskNo) (x : Option Session) (s : State) (i : CompNo) : (setSession k x s).quoteOf i = s.quoteOf i := rfl
@[simp] theorem seg_setSession (k : KioskNo) (x : Option Session) (s : State) (i : SegNo) : (setSession k x s).seg i = s.seg i := rfl
@[simp] theorem board_setSession (k : KioskNo) (x : Option Session) (s : State) (i : BoardNo) : (setSession k x s).board i = s.board i := rfl
@[simp] theorem boards_setSession (k : KioskNo) (x : Option Session) (s : State) : (setSession k x s).boards = s.boards := rfl
@[simp] theorem segments_setSession (k : KioskNo) (x : Option Session) (s : State) : (setSession k x s).segments = s.segments := rfl
@[simp] theorem quotes_setSession (k : KioskNo) (x : Option Session) (s : State) : (setSession k x s).quotes = s.quotes := rfl
@[simp] theorem ajar_setSession (k : KioskNo) (x : Option Session) (s : State) : (setSession k x s).ajar = s.ajar := rfl
@[simp] theorem clock_setSession (k : KioskNo) (x : Option Session) (s : State) : (setSession k x s).clock = s.clock := rfl
@[simp] theorem elapsed_setSession (k : KioskNo) (x : Option Session) (s : State) : (setSession k x s).elapsed = s.elapsed := rfl
@[simp] theorem ret_setSession (k : KioskNo) (x : Option Session) (s : State) : (setSession k x s).ret = s.ret := rfl

@[simp] theorem comp_setDoorResult (k : KioskNo) (x : Option DoorResult) (s : State) (i : CompNo) : (setDoorResult k x s).comp i = s.comp i := rfl
@[simp] theorem quoteOf_setDoorResult (k : KioskNo) (x : Option DoorResult) (s : State) (i : CompNo) : (setDoorResult k x s).quoteOf i = s.quoteOf i := rfl
@[simp] theorem seg_setDoorResult (k : KioskNo) (x : Option DoorResult) (s : State) (i : SegNo) : (setDoorResult k x s).seg i = s.seg i := rfl
@[simp] theorem board_setDoorResult (k : KioskNo) (x : Option DoorResult) (s : State) (i : BoardNo) : (setDoorResult k x s).board i = s.board i := rfl
@[simp] theorem boards_setDoorResult (k : KioskNo) (x : Option DoorResult) (s : State) : (setDoorResult k x s).boards = s.boards := rfl
@[simp] theorem segments_setDoorResult (k : KioskNo) (x : Option DoorResult) (s : State) : (setDoorResult k x s).segments = s.segments := rfl
@[simp] theorem quotes_setDoorResult (k : KioskNo) (x : Option DoorResult) (s : State) : (setDoorResult k x s).quotes = s.quotes := rfl
@[simp] theorem ajar_setDoorResult (k : KioskNo) (x : Option DoorResult) (s : State) : (setDoorResult k x s).ajar = s.ajar := rfl
@[simp] theorem clock_setDoorResult (k : KioskNo) (x : Option DoorResult) (s : State) : (setDoorResult k x s).clock = s.clock := rfl
@[simp] theorem elapsed_setDoorResult (k : KioskNo) (x : Option DoorResult) (s : State) : (setDoorResult k x s).elapsed = s.elapsed := rfl
@[simp] theorem ret_setDoorResult (k : KioskNo) (x : Option DoorResult) (s : State) : (setDoorResult k x s).ret = s.ret := rfl

@[simp] theorem kiosk_setSession_same (k : KioskNo) (x : Option Session) (s : State) :
    (setSession k x s).kiosk k = { s.kiosk k with session := x } := by simp [setSession]

theorem kiosk_setSession_other {j k : KioskNo} (h : j ≠ k) (x : Option Session) (s : State) :
    (setSession k x s).kiosk j = s.kiosk j := by simp [setSession, State.kiosk_setKiosk, h]

@[simp] theorem kiosk_setDoorResult_same (k : KioskNo) (x : Option DoorResult) (s : State) :
    (setDoorResult k x s).kiosk k = { s.kiosk k with doorResult := x } := by simp [setDoorResult]

theorem kiosk_setDoorResult_other {j k : KioskNo} (h : j ≠ k) (x : Option DoorResult) (s : State) :
    (setDoorResult k x s).kiosk j = s.kiosk j := by simp [setDoorResult, State.kiosk_setKiosk, h]

end Sys2Proof.Machine
end

