-- ==== Sys2Proof/Laws/Pickups.lean ====
section
/-! SUPPORT. What the issue of a courier sweep's pickup entries changes. -/

namespace Sys2Proof.Machine

/-- The confirmed door states, the readings and the link state of every board are unchanged: at most hand-off
lists and supervision have moved. -/
structure KeepsLines (s t : State) : Prop where
  lines : ∀ b, (t.board b).lines = (s.board b).lines
  link  : ∀ b, (t.board b).link = (s.board b).link

theorem KeepsLines.refl (s : State) : KeepsLines s s := ⟨fun _ => rfl, fun _ => rfl⟩

theorem KeepsLines.trans {s t u : State} (h : KeepsLines s t) (k : KeepsLines t u) : KeepsLines s u :=
  ⟨fun b => (k.lines b).trans (h.lines b), fun b => (k.link b).trans (h.link b)⟩

theorem KeepsLines.of_boards {s t : State} (h : t.boards = s.boards) : KeepsLines s t :=
  ⟨fun b => by rw [State.board, h]; rfl, fun b => by rw [State.board, h]; rfl⟩

theorem KeepsLines.after {s t u : State} (k : KeepsLines t u) (h : t.boards = s.boards) : KeepsLines s u :=
  (KeepsLines.of_boards h).trans k

theorem keepsLines_setBoard {b : BoardNo} {x : Board} {s : State} (lines : x.lines = (s.board b).lines)
    (link : x.link = (s.board b).link) : KeepsLines s (s.setBoard b x) := by
  constructor <;> intro c <;> rw [State.board_setBoard] <;> split
  next h => subst h; exact lines
  next => rfl
  next h => subst h; exact link
  next => rfl

theorem KeepsComp.refl (s : State) (c : CompNo) : KeepsComp s s c := ⟨rfl, rfl, rfl, sameButMark_refl _, rfl⟩

theorem KeepsComp.trans {s t u : State} {c : CompNo} (h : KeepsComp s t c) (k : KeepsComp t u c) : KeepsComp s u c := by
  obtain ⟨a, b, d, e, f⟩ := h
  obtain ⟨a', b', d', e', f'⟩ := k
  exact ⟨a'.trans a, b'.trans b, d'.trans d, sameButMark_trans e e', f'.trans f⟩

theorem keepsLines_issueEntry (g : SegNo) (e : StrikeEntry) (m : MapEntry) (s : State) :
    KeepsLines s (issueEntry g e m s) := by
  unfold issueEntry; dsimp only
  exact KeepsLines.after (keepsLines_setBoard rfl rfl) rfl

theorem onlineToIssue_issueEntry (g : SegNo) (e : StrikeEntry) (m : MapEntry) (s : State) (b : BoardNo) :
    onlineToIssue (issueEntry g e m s) b = onlineToIssue s b := by
  unfold onlineToIssue
  rw [(keepsLines_issueEntry g e m s).link]; rfl

theorem keepsLines_issueUpTo (g : SegNo) (n : Nat) (s : State) : KeepsLines s (issueUpTo g n s) := by
  induction n generalizing s with
  | zero => exact .refl s
  | succ n ih =>
    unfold issueUpTo
    split
    · exact (keepsLines_issueEntry ..).trans (ih _)
    · exact .refl s

theorem keepsLines_applyIssue (g : SegNo) (s : State) : KeepsLines s (applyIssue g s) := keepsLines_issueUpTo ..

theorem keepsLines_queueStrike (c : CompNo) (p : Purpose) (s : State) : KeepsLines s (queueStrike c p s) := by
  unfold queueStrike
  split
  · exact (keepsLines_applyIssue ..).after rfl
  · exact .refl s

/-- The sweeps and the rate mode of every segment are unchanged, but for the strike that a poll carries. -/
structure KeepsSweeps (s t : State) : Prop where
  counter (g : SegNo) : (t.seg g).sweepCounter = (s.seg g).sweepCounter
  start   (g : SegNo) : (t.seg g).sweepStart = (s.seg g).sweepStart
  out     (g : SegNo) : (t.seg g).linkOut = (s.seg g).linkOut
  rate    (g : SegNo) : (t.seg g).rate = (s.seg g).rate
  waiting (g : SegNo) : (t.seg g).phase = .waiting ↔ (s.seg g).phase = .waiting

theorem KeepsSweeps.of_seg {s t : State} (h : ∀ g, (t.seg g).sweepCounter = (s.seg g).sweepCounter
    ∧ (t.seg g).sweepStart = (s.seg g).sweepStart ∧ (t.seg g).linkOut = (s.seg g).linkOut
    ∧ (t.seg g).rate = (s.seg g).rate ∧ ((t.seg g).phase = .waiting ↔ (s.seg g).phase = .waiting)) : KeepsSweeps s t :=
  ⟨fun g => (h g).1, fun g => (h g).2.1, fun g => (h g).2.2.1, fun g => (h g).2.2.2.1, fun g => (h g).2.2.2.2⟩

theorem KeepsSweeps.of_segments {s t : State} (h : t.segments = s.segments) : KeepsSweeps s t :=
  .of_seg fun g => by rw [State.seg, h]; exact ⟨rfl, rfl, rfl, rfl, .rfl⟩

theorem KeepsSweeps.trans {s t u : State} (h : KeepsSweeps s t) (k : KeepsSweeps t u) : KeepsSweeps s u where
  counter g := (k.counter g).trans (h.counter g)
  start g := (k.start g).trans (h.start g)
  out g := (k.out g).trans (h.out g)
  rate g := (k.rate g).trans (h.rate g)
  waiting g := (k.waiting g).trans (h.waiting g)

theorem KeepsSweeps.after {s t u : State} (k : KeepsSweeps t u) (h : t.segments = s.segments) : KeepsSweeps s u :=
  (KeepsSweeps.of_segments h).trans k

theorem keepsSweeps_setSeg {g : SegNo} {x : Segment} {s : State} (counter : x.sweepCounter = (s.seg g).sweepCounter)
    (start : x.sweepStart = (s.seg g).sweepStart) (out : x.linkOut = (s.seg g).linkOut) (rate : x.rate = (s.seg g).rate)
    (phase : x.phase = .waiting ↔ (s.seg g).phase = .waiting) : KeepsSweeps s (s.setSeg g x) := .of_seg fun h => by
  rw [State.seg_setSeg]
  split
  next e => subst e; exact ⟨counter, start, out, rate, phase⟩
  next => exact ⟨rfl, rfl, rfl, rfl, .rfl⟩

theorem NoneIssuedOn.refl (b : BoardNo) (s : State) : NoneIssuedOn b s s := fun _ a ha hb => ⟨a, ha, rfl, hb⟩

theorem NoneIssuedOn.trans {b : BoardNo} {s t u : State} (h : NoneIssuedOn b s t) (k : NoneIssuedOn b t u) :
    NoneIssuedOn b s u := fun g a ha hb =>
  have ⟨d, hd, e, f⟩ := k g a ha hb
  have ⟨d', hd', e', f'⟩ := h g d hd f
  ⟨d', hd', e'.trans e, f'⟩

/-- What the operations of the other blocks leave to the SPC: its sweeps, and a declaration that is under way,
with no strike issued on its board (R183; log 49). -/
structure KeepsSpc (s t : State) : Prop where
  sweeps    : KeepsSweeps s t
  declaring : t.declaring = s.declaring
  none      : ∀ b, s.declaring = some b → NoneIssuedOn b s t

theorem KeepsSpc.trans {s t u : State} (h : KeepsSpc s t) (k : KeepsSpc t u) : KeepsSpc s u :=
  ⟨h.sweeps.trans k.sweeps, k.declaring.trans h.declaring,
    fun b hb => (h.none b hb).trans (k.none b (h.declaring.trans hb))⟩

theorem KeepsSpc.of_active {s t : State} (sweeps : KeepsSweeps s t) (declaring : t.declaring = s.declaring)
    (active : ∀ g, ∀ a ∈ (t.seg g).active, ∃ d ∈ (s.seg g).active, d.compartment = a.compartment ∧ d.board = a.board) :
    KeepsSpc s t :=
  ⟨sweeps, declaring, fun _ _ g a ha hb => have ⟨d, hd, e, f⟩ := active g a ha; ⟨d, hd, e, f.trans hb⟩⟩

theorem KeepsSpc.of_segments {s t : State} (declaring : t.declaring = s.declaring) (segments : t.segments = s.segments) :
    KeepsSpc s t :=
  .of_active (.of_segments segments) declaring fun g a ha => ⟨a, by rw [State.seg, ← segments]; exact ha, rfl, rfl⟩

theorem spc_issueEntry {g : SegNo} {e : StrikeEntry} {m : MapEntry} {s : State}
    (online : onlineToIssue s m.board = true) : KeepsSpc s (issueEntry g e m s) := by
  refine ⟨?_, rfl, fun b hb h a ha on => ?_⟩
  · refine .of_seg fun h => ?_
    by_cases eq : h = g
    · subst eq; simp [issueEntry, setMark]
    · rw [issueEntry_seg_other eq]; exact ⟨rfl, rfl, rfl, rfl, .rfl⟩
  by_cases eq : h = g
  · subst eq
    rw [issueEntry_active] at ha
    rcases List.mem_append.1 ha with ha | ha
    · exact ⟨a, ha, rfl, on⟩
    · rw [List.mem_singleton.1 ha] at on
      have := (Bool.and_eq_true_iff.1 online).2
      simp only [hb, on.symm, ne_eq, decide_eq_true_eq, not_true] at this
  · rw [issueEntry_seg_other eq] at ha
    exact ⟨a, ha, rfl, on⟩

theorem spc_issueUpTo (g : SegNo) (n : Nat) (s : State) : KeepsSpc s (issueUpTo g n s) := by
  induction n generalizing s with
  | zero => exact .of_segments rfl rfl
  | succ n ih =>
    unfold issueUpTo
    split
    next h => exact (spc_issueEntry (nextIssue_some h).2.2.2.2).trans (ih _)
    next => exact .of_segments rfl rfl

theorem spc_applyIssue (g : SegNo) (s : State) : KeepsSpc s (applyIssue g s) := spc_issueUpTo ..

theorem spc_setSeg {g : SegNo} {x : Segment} {s : State} (sweeps : KeepsSweeps s (s.setSeg g x))
    (active : ∀ a ∈ x.active, ∃ d ∈ (s.seg g).active, d.compartment = a.compartment ∧ d.board = a.board) :
    KeepsSpc s (s.setSeg g x) := by
  refine .of_active sweeps rfl fun h a ha => ?_
  rw [State.seg_setSeg] at ha
  split at ha
  next e => subst e; exact active a ha
  next => exact ⟨a, ha, rfl, rfl⟩

/-- A segment's queue has been replaced. -/
theorem spc_setQueue (g : SegNo) (queue : List StrikeEntry) (s : State) : KeepsSpc s (s.setSeg g { s.seg g with queue }) :=
  spc_setSeg (keepsSweeps_setSeg rfl rfl rfl rfl .rfl) fun a ha => ⟨a, ha, rfl, rfl⟩

theorem spc_queueStrike (c : CompNo) (p : Purpose) (s : State) : KeepsSpc s (queueStrike c p s) := by
  unfold queueStrike
  split
  next g _ =>
    refine KeepsSpc.trans ?_ (spc_applyIssue g _)
    exact spc_setQueue ..
  next => exact .of_segments rfl rfl

/-- What issue would take follows from the segment, the link states and the records but for their marks (R160). -/
theorem nextIssue_congr {g : SegNo} {s t : State} (seg : t.seg g = s.seg g) (only : OnlyStrikes s t)
    (lines : KeepsLines s t) : nextIssue t g = nextIssue s g := by
  have concourse : t.ret.concourse = s.ret.concourse := by rw [only.ret]
  have budgets : t.ret.budgets = s.ret.budgets := by rw [only.ret]
  have map (c : CompNo) : (t.comp c).map = (s.comp c).map := (only.comps c).1
  have declaring : t.declaring = s.declaring := by rw [only.rest]
  unfold nextIssue energised budgetInForce onlineToIssue
  rw [seg, concourse, budgets, declaring]
  simp only [map, lines.link]

/-- The sweep of a kiosk's session lists a compartment. -/
def Listed (k : KioskNo) (s : State) (d : CompNo) : Prop :=
  ∃ x w, (s.kiosk k).session = some x ∧ x.sweep = some w ∧ ∃ e ∈ w.entries, e.compartment = d

/-- No strike of a compartment has been queued or issued between two states but those of its own entries. -/
def NoNewStrike (d : CompNo) (s t : State) : Prop :=
  ∀ h, (∀ e ∈ (s.seg h).queue, e.compartment ≠ d) →
    (∀ e ∈ (t.seg h).queue, e.compartment ≠ d)
      ∧ ((∀ a ∈ (s.seg h).active, a.compartment ≠ d) → ∀ a ∈ (t.seg h).active, a.compartment ≠ d)

theorem NoNewStrike.of_segments {d : CompNo} {s t : State} (h : t.segments = s.segments) : NoNewStrike d s t := by
  intro g
  rw [State.seg, State.seg, h]
  exact fun q => ⟨q, fun a => a⟩

theorem NoNewStrike.trans {d : CompNo} {s t u : State} (h : NoNewStrike d s t) (k : NoNewStrike d t u) :
    NoNewStrike d s u := fun g q =>
  ⟨(k g (h g q).1).1, fun a => (k g (h g q).1).2 ((h g q).2 a)⟩

theorem noNewStrike_issueEntry {g : SegNo} {e : StrikeEntry} {s : State} (d : CompNo) (m : MapEntry)
    (mem : e ∈ (s.seg g).queue) : NoNewStrike d s (issueEntry g e m s) := by
  intro h q
  by_cases eq : h = g
  · subst eq
    rw [issueEntry_queue, issueEntry_active]
    refine ⟨fun f hf => q f (List.mem_filter.1 hf).1, fun a b hb => ?_⟩
    rcases List.mem_append.1 hb with hb | hb
    · exact a b hb
    · rw [List.mem_singleton.1 hb]; exact q e mem
  · rw [issueEntry_seg_other eq]
    exact ⟨q, fun a => a⟩

theorem noNewStrike_issueUpTo (d : CompNo) (g : SegNo) (n : Nat) (s : State) : NoNewStrike d s (issueUpTo g n s) := by
  induction n generalizing s with
  | zero => exact .of_segments rfl
  | succ n ih =>
    unfold issueUpTo
    split
    next h => exact (noNewStrike_issueEntry d _ (nextIssue_some h).1).trans (ih _)
    next => exact .of_segments rfl

theorem noNewStrike_applyIssue (d : CompNo) (g : SegNo) (s : State) : NoNewStrike d s (applyIssue g s) :=
  noNewStrike_issueUpTo d g _ s

theorem noNewStrike_queueStrike {c d : CompNo} (ne : d ≠ c) (p : Purpose) (s : State) :
    NoNewStrike d s (queueStrike c p s) := by
  unfold queueStrike
  split
  next g _ =>
    refine NoNewStrike.trans (fun h q => ?_) (noNewStrike_applyIssue d g _)
    by_cases eq : h = g
    · subst eq
      rw [State.seg_setSeg_same]
      refine ⟨fun e he => ?_, fun a => a⟩
      rcases List.mem_append.1 he with he | he
      · exact q e he
      · rw [List.mem_singleton.1 he]; exact Ne.symm ne
    · rw [State.seg_setSeg, if_neg eq]
      exact ⟨q, fun a => a⟩
  next => exact .of_segments rfl

theorem striking_issueUpTo {c : CompNo} (g : SegNo) (n : Nat) {s : State} (h : striking s c = true) :
    striking (issueUpTo g n s) c = true := by
  induction n generalizing s with
  | zero => exact h
  | succ n ih =>
    unfold issueUpTo
    split
    · exact ih (issueEntry_striking _ h)
    · exact h

theorem striking_congr {s t : State} (h : t.segments = s.segments) (c : CompNo) : striking t c = striking s c := by
  simp only [striking, State.seg, h]

theorem striking_queueStrike {c : CompNo} (d : CompNo) (p : Purpose) {s : State} (h : striking s c = true) :
    striking (queueStrike d p s) c = true := by
  unfold queueStrike
  split
  next g _ =>
    refine striking_issueUpTo g _ ?_
    rw [striking_iff] at h ⊢
    obtain ⟨f, h⟩ := h
    refine ⟨f, ?_⟩
    by_cases eq : f = g
    · subst eq
      rw [State.seg_setSeg_same]
      exact h.imp (fun ⟨e, he, hc⟩ => ⟨e, List.mem_append_left _ he, hc⟩) id
    · rwa [State.seg_setSeg, if_neg eq]
  next => exact h

/-- What the issue of pickup entries for a kiosk's sweep changes (R146): compartments that the sweep lists,
reservations, the sweep, strikes, and the alarms posted by a full outbox. -/
structure Picked (k : KioskNo) (s t : State) : Prop where
  ret     : t.ret = { s.ret with compartments := t.ret.compartments, reservations := t.ret.reservations }
  rest    : t = { s with ret := t.ret, quotes := t.quotes, kiosks := t.kiosks, segments := t.segments
                         boards := t.boards, alarms := t.alarms }
  grows   : s.ret.reservations ≤ t.ret.reservations
  records : ∀ d, (t.comp d).map = (s.comp d).map ∧ (t.comp d).parcel = (s.comp d).parcel
  comps   : ∀ d, ¬ Listed k s d → KeepsComp s t d
  quiet   : ∀ d, ¬ Listed k s d → NoNewStrike d s t
  keeps   : ∀ d, striking s d = true → striking t d = true
  others  : KeepsOtherKiosks k s t
  kiosk   : t.kiosk k = { s.kiosk k with session := (t.kiosk k).session }
  empty   : (s.kiosk k).session = none → t.kiosk k = s.kiosk k
  session : ∀ x, (s.kiosk k).session = some x → ∃ sweep, (t.kiosk k).session = some { x with sweep }
              ∧ (x.sweep = none → sweep = none)
              ∧ ∀ w v, x.sweep = some w → sweep = some v →
                  v.retrieved = w.retrieved ∧ w.skipped ≤ v.skipped
                    ∧ ∀ e ∈ v.entries, ∃ f ∈ w.entries, f.compartment = e.compartment
  lines   : KeepsLines s t
  spc     : KeepsSpc s t
  alarms  : ∀ a ∈ s.alarms, a ∈ t.alarms

theorem Picked.refl (k : KioskNo) (s : State) : Picked k s s where
  ret := rfl
  rest := rfl
  grows := Nat.le_refl _
  records _ := ⟨rfl, rfl⟩
  comps d _ := .refl s d
  quiet _ _ := .of_segments rfl
  keeps _ h := h
  others _ _ := rfl
  kiosk := rfl
  empty _ := rfl
  session x h := ⟨x.sweep, h, id, fun w v hw hv => by
    cases hw.symm.trans hv
    exact ⟨rfl, Nat.le_refl _, fun e he => ⟨e, he, rfl⟩⟩⟩
  lines := .refl s
  spc := .of_segments rfl rfl
  alarms _ h := h

theorem Picked.unlisted {k : KioskNo} {s t : State} {d : CompNo} (h : Picked k s t) (hd : ¬ Listed k s d) :
    ¬ Listed k t d := by
  rintro ⟨y, v, hy, hv, e, he, rfl⟩
  cases hs : (s.kiosk k).session with
  | none => rw [h.empty hs, hs] at hy; cases hy
  | some x =>
    obtain ⟨sweep, hx, none, some⟩ := h.session x hs
    cases hx.symm.trans hy
    cases hw : x.sweep with
    | none => rw [none hw] at hv; cases hv
    | some w =>
      obtain ⟨f, hf, eq⟩ := (some w v hw hv).2.2 e he
      exact hd ⟨x, w, hs, hw, f, hf, eq⟩

theorem Picked.trans {k : KioskNo} {s t u : State} (h : Picked k s t) (i : Picked k t u) : Picked k s u where
  ret := by rw [i.ret, h.ret]
  rest := by rw [i.rest, h.rest]
  grows := h.grows.trans i.grows
  records d := ⟨(i.records d).1.trans (h.records d).1, (i.records d).2.trans (h.records d).2⟩
  comps d hd := (h.comps d hd).trans (i.comps d (h.unlisted hd))
  quiet d hd := (h.quiet d hd).trans (i.quiet d (h.unlisted hd))
  keeps d hd := i.keeps d (h.keeps d hd)
  others j hj := (i.others j hj).trans (h.others j hj)
  kiosk := by rw [i.kiosk, h.kiosk]
  empty hs := by rw [i.empty (by rw [h.empty hs]; exact hs), h.empty hs]
  session x hs := by
    obtain ⟨sweep, hx, none, some⟩ := h.session x hs
    obtain ⟨sweep', hx', none', some'⟩ := i.session _ hx
    refine ⟨sweep', hx', fun hw => none' (none hw), fun w v hw hv => ?_⟩
    cases hm : sweep with
    | none => rw [none' hm] at hv; cases hv
    | some m =>
      obtain ⟨a, b, c⟩ := some w m hw hm
      obtain ⟨a', b', c'⟩ := some' m v hm hv
      refine ⟨a'.trans a, b.trans b', fun e he => ?_⟩
      obtain ⟨f, hf, eq⟩ := c' e he
      obtain ⟨n, hn, eq'⟩ := c f hf
      exact ⟨n, hn, eq'.trans eq⟩
  lines := h.lines.trans i.lines
  spc := h.spc.trans i.spc
  alarms a ha := i.alarms a (h.alarms a ha)

theorem postAlarm_keeps (k : AlarmKind) (n : Nat) (s : State) : ∀ a ∈ s.alarms, a ∈ (postAlarm k n s).alarms := by
  intro a ha
  unfold postAlarm
  split
  · exact ha
  · exact List.mem_append_left _ ha

theorem takeSlot_keeps (s : State) : ∀ a ∈ s.alarms, a ∈ (takeSlot s).alarms := by
  intro a ha
  unfold takeSlot; dsimp only
  split
  · exact postAlarm_keeps _ _ _ a ha
  · exact ha

theorem OnlyStrikes.picked {k : KioskNo} {s t : State} (h : OnlyStrikes s t) (l : KeepsLines s t) (u : KeepsSpc s t)
    (quiet : ∀ d, ¬ Listed k s d → NoNewStrike d s t) (keeps : ∀ d, striking s d = true → striking t d = true) :
    Picked k s t := by
  have kiosks : t.kiosks = s.kiosks := by rw [h.rest]
  have kiosk (j : KioskNo) : t.kiosk j = s.kiosk j := by rw [State.kiosk, kiosks]; rfl
  refine ⟨?_, ?_, ?_, fun d => ⟨(h.comps d).1, (h.comps d).2.2.1⟩, fun d _ => h.comps d, quiet, keeps,
    fun j _ => kiosk j, ?_,
    fun _ => kiosk k, ?_, l, u, fun a ha => by rw [h.rest]; exact ha⟩
  · rw [h.ret]
  · rw [h.rest]
  · rw [h.ret]
  · rw [kiosk]
  · rw [kiosk]; exact (Picked.refl k s).session

/-- One application of the issue rule (R146). -/
theorem picked_issuePickup {k : KioskNo} {s t : State} (h : issuePickup k s = some t) : Picked k s t := by
  unfold issuePickup at h
  cases hx : sessionOf s k with
  | none => simp [hx] at h
  | some x =>
    cases hw : x.sweep with
    | none => simp [hx, hw] at h
    | some w =>
      cases he : w.firstUnissued with
      | none => simp [hx, hw, he] at h
      | some e =>
        simp only [hx, hw, he, Option.bind_eq_bind, Option.bind_some] at h
        have hx' : (s.kiosk k).session = some x := hx
        have mem : e ∈ w.entries := List.mem_of_find?_eq_some he
        split at h
        next => cases h
        next =>
          split at h
          next =>
            cases h
            unfold grantRetrieval; dsimp only
            refine Picked.trans ?_ ((onlyStrikes_queueStrike ..).picked (keepsLines_queueStrike ..) (spc_queueStrike ..)
              (fun d hd => noNewStrike_queueStrike (fun h => hd ?_) _ _) fun d hd => striking_queueStrike _ _ hd)
            rotate_left
            · refine ⟨_, _, by simp; rfl, rfl, { e with inFlight := true }, ?_, h.symm⟩
              exact List.mem_map.2 ⟨e, mem, by simp⟩
            refine ⟨?_, ?_, ?_, fun d => ?_, fun d hd => ?_, fun _ _ => .of_segments (by simp),
              fun d hd => by rw [striking_congr (s := s) (by simp)]; exact hd,
              fun j hj => ?_, ?_, fun hs => ?_, fun y hy => ?_, .of_boards (by simp), 
              .of_segments (by rw [takeSlot_eq]; rfl) (by simp), takeSlot_keeps s⟩
            · rw [takeSlot_eq]; rfl
            · rw [takeSlot_eq]; rfl
            · rw [takeSlot_eq]; exact Nat.le_succ _
            · by_cases h : d = e.compartment
              · subst h; simp
              · simp [State.comp_setComp, h]
            · have ne : d ≠ e.compartment := fun h => hd ⟨x, w, hx, hw, e, mem, h.symm⟩
              simp [KeepsComp, State.comp_setComp, State.quoteOf_setQuote, ne, sameButMark_refl]
            · simp [kiosk_setSession_other hj]
            · simp
            · rw [hs] at hx'; cases hx'
            · cases hx'.symm.trans hy
              refine ⟨_, by simp; rfl, by simp [hw], fun w' v hw' hv => ?_⟩
              cases hw.symm.trans hw'; cases hv
              refine ⟨rfl, Nat.le_refl _, fun f hf => ?_⟩
              obtain ⟨n, hn, rfl⟩ := List.mem_map.1 hf
              exact ⟨n, hn, by split <;> rfl⟩
          next =>
            cases h
            refine ⟨rfl, rfl, Nat.le_refl _, fun _ => ⟨rfl, rfl⟩, fun d _ => .refl s d,
              fun _ _ => .of_segments rfl, fun _ hd => hd, fun j hj => kiosk_setSession_other hj .., by simp, fun hs => ?_, fun y hy => ?_, .of_boards rfl,
              .of_segments rfl rfl, fun _ ha => ha⟩
            · rw [hs] at hx'; cases hx'
            · cases hx'.symm.trans hy
              refine ⟨_, by simp; rfl, by simp [hw], fun w' v hw' hv => ?_⟩
              cases hw.symm.trans hw'
              unfold CourierSweep.orEnded at hv
              split at hv
              · cases hv
              · cases hv
                exact ⟨rfl, Nat.le_succ _, fun f hf => ⟨f, (List.mem_filter.1 hf).1, rfl⟩⟩

theorem picked_issuePickups (k : KioskNo) (n : Nat) (s : State) : Picked k s (issuePickups k n s) := by
  induction n generalizing s with
  | zero => exact .refl k s
  | succ n ih =>
    unfold issuePickups
    split
    next h => exact (picked_issuePickup h).trans (ih _)
    next => exact .refl k s

/-- The issue rule of a courier sweep (R146). -/
theorem picked_applyPickup (k : KioskNo) (s : State) : Picked k s (applyPickup k s) := picked_issuePickups ..

end Sys2Proof.Machine
end

