-- ==== Sys2Proof/Laws/Adoption.lean ====
section
/-! SUPPORT. What the adoption of EVACUATE cancels and removes (R195, R170, R82). -/

namespace Sys2Proof.Machine

/-- A set of compartments names a returns entry: one of them has a drop of it. -/
def Frees (P : CompNo → Bool) (s : State) (r : Nat) : Prop :=
  ∃ c x n p, P c = true ∧ (s.comp c).transient = some x ∧ x.particulars = .drop n r p

/-- A door result of a cancelled transaction stands at a kiosk (R129). -/
def CancelNoted (t : State) (k : KioskNo) : Prop := ∃ r, (t.kiosk k).doorResult = some r ∧ r.outcome = .cancelled

/-- A transaction whose end a kiosk's last door result tells (R129). -/
def Noted (s : State) (c : CompNo) (x : Transient) : Prop :=
  (s.comp c).transient = some x ∧ (x.particulars = .collect ∨ ∃ n r p, x.particulars = .drop n r p) ∧ (s.comp c).state ≠ .reconcile ∧ x.resolved = false

/-- The transactions of a set of compartments have been cancelled while no session is open (R14). -/
structure Cancelled (P : CompNo → Bool) (s t : State) : Prop where
  comps     : ∀ c, t.comp c = if P c then cancelledComp (s.comp c) else s.comp c
  quotes    : ∀ c, t.quoteOf c = s.quoteOf c
    ∨ t.quoteOf c = none ∧ (P c = true ∨ ∃ q, s.quoteOf c = some q ∧ q.purpose = .collection)
  directory : t.ret.directory = s.ret.directory.map fun ways => ways.filterMap (cancelledEntry P s)
  freed     : ∀ e ∈ t.ret.returns, Frees P s e.reference → e.inUse = false
  kept      : ∀ e ∈ t.ret.returns, e ∈ s.ret.returns ∨ e.inUse = false
  same      : (∀ r, ¬ Frees P s r) → t.ret.returns = s.ret.returns
  told      : ∀ c x, P c = true → Noted s c x → CancelNoted t x.kiosk
  doors     : ∀ k, t.kiosk k = s.kiosk k ∨ t.kiosk k = { s.kiosk k with doorResult := (t.kiosk k).doorResult } ∧ CancelNoted t k
  rest      : t = { s with
    ret := { s.ret with
      compartments := t.ret.compartments, directory := t.ret.directory, returns := t.ret.returns
      reservations := t.ret.reservations }
    quotes := t.quotes, kiosks := t.kiosks, segments := t.segments }

theorem cancelledComp_idem (x : Compartment) : cancelledComp (cancelledComp x) = cancelledComp x := by
  unfold cancelledComp
  cases h : x.transient <;> simp [h]

theorem cancelledComp_gone (x : Compartment) : (cancelledComp x).transient = none := by
  unfold cancelledComp
  cases h : x.transient <;> simp [h]

theorem cancelledEntry_comp {P : CompNo → Bool} {s : State} {e f : DirEntry} (h : cancelledEntry P s e = some f) :
    f.compartment = e.compartment := by
  unfold cancelledEntry at h
  split at h
  · cases h
  · cases h; rfl
  · cases h; rfl

theorem Cancelled.refl (s : State) : Cancelled (fun _ => false) s s where
  comps c := rfl
  quotes c := .inl rfl
  directory := by
    have : (fun ways : List DirEntry => ways.filterMap (cancelledEntry (fun _ => false) s)) = id := by
      funext ways
      exact (List.filterMap_congr fun e _ => rfl).trans List.filterMap_some
    rw [this]; simp
  freed e _ h := by obtain ⟨c, x, n, p, h, -⟩ := h; cases h
  kept e h := .inl h
  same _ := rfl
  told c x h := by cases h
  doors k := .inl rfl
  rest := rfl

theorem Cancelled.trans {P Q : CompNo → Bool} {s v t : State} (h : Cancelled P s v) (k : Cancelled Q v t) :
    Cancelled (fun c => P c || Q c) s t := by
  have gone (c : CompNo) (hp : P c = true) : (v.comp c).transient = none := by
    rw [h.comps, if_pos hp]; exact cancelledComp_gone _
  have off (c : CompNo) (hp : ¬ P c = true) : v.comp c = s.comp c := by rw [h.comps, if_neg hp]
  have frees (r : Nat) (f : Frees (fun c => P c || Q c) s r) : Frees P s r ∨ Frees Q v r := by
    obtain ⟨c, x, n, p, hc, hx, hp⟩ := f
    by_cases w : P c = true
    · exact .inl ⟨c, x, n, p, w, hx, hp⟩
    · exact .inr ⟨c, x, n, p, by simpa [w] using hc, by rw [off c w]; exact hx, hp⟩
  have back (r : Nat) (f : Frees Q v r) : Frees (fun c => P c || Q c) s r := by
    obtain ⟨c, x, n, p, hc, hx, hp⟩ := f
    have w : ¬ P c = true := fun w => by rw [gone c w] at hx; cases hx
    exact ⟨c, x, n, p, by simp [hc], by rw [← off c w]; exact hx, hp⟩
  have stays {j : KioskNo} (n : CancelNoted v j) : CancelNoted t j := by
    rcases k.doors j with e | ⟨-, e⟩
    · unfold CancelNoted; rw [e]; exact n
    · exact e
  refine ⟨fun c => ?_, fun c => ?_, ?_, fun e he f => ?_, fun e he => ?_, fun none => ?_, fun c x hc n => ?_, fun j => ?_, ?_⟩
  · rw [k.comps, h.comps]
    cases P c <;> cases Q c <;> simp [cancelledComp_idem]
  · rcases k.quotes c with e | ⟨e, q⟩
    · rw [e]
      exact (h.quotes c).imp id fun ⟨f, p⟩ => ⟨f, p.imp (fun p => by simp [p]) id⟩
    · refine .inr ⟨e, ?_⟩
      rcases q with q | ⟨q, hq, col⟩
      · exact .inl (by simp [q])
      · rcases h.quotes c with f | ⟨f, -⟩
        · exact .inr ⟨q, by rw [← f]; exact hq, col⟩
        · rw [f] at hq; cases hq
  · rw [k.directory, h.directory, Vector.map_map]
    congr 1
    funext ways
    show List.filterMap _ (List.filterMap _ ways) = _
    rw [List.filterMap_filterMap]
    refine List.filterMap_congr fun e _ => ?_
    by_cases w : P e.compartment = true
    · have second (f : DirEntry) (hf : f.compartment = e.compartment) : cancelledEntry Q v f = some f := by
        unfold cancelledEntry
        rw [hf, gone _ w]
        cases Q e.compartment <;> rfl
      have first : cancelledEntry (fun c => P c || Q c) s e = cancelledEntry P s e := by
        have both : (fun c => P c || Q c) e.compartment = true := by simp [w]
        unfold cancelledEntry
        rw [both, w]
      rw [first]
      cases hf : cancelledEntry P s e with
      | none => rfl
      | some f => exact second f (cancelledEntry_comp hf)
    · have w : P e.compartment = false := by simpa using w
      have first : cancelledEntry P s e = some e := by unfold cancelledEntry; rw [w]
      rw [first]
      show cancelledEntry Q v e = _
      have both : (fun c => P c || Q c) e.compartment = Q e.compartment := by simp [w]
      unfold cancelledEntry
      rw [off _ (by simp [w]), both]
  · rcases frees _ f with p | q
    · rcases k.kept e he with m | m
      · exact h.freed e m p
      · exact m
    · exact k.freed e he q
  · rcases k.kept e he with m | m
    · exact h.kept e m
    · exact .inr m
  · rw [k.same fun r f => none r (back r f)]
    exact h.same fun r ⟨c, x, n, p, hc, y⟩ => none r ⟨c, x, n, p, by simp [hc], y⟩
  · by_cases w : P c = true
    · exact stays (h.told c x w n)
    · exact k.told c x (by simpa [w] using hc) (by unfold Noted; rw [off c w]; exact n)
  · rcases k.doors j with e | ⟨e, n⟩
    · rcases h.doors j with f | ⟨f, n⟩
      · exact .inl (e.trans f)
      · exact .inr ⟨by rw [e]; exact f, stays n⟩
    · refine .inr ⟨?_, n⟩
      rw [e]
      rcases h.doors j with f | ⟨f, -⟩ <;> rw [f]
  · rw [k.rest, h.rest]

/-- With no session open, an outcome or a retrieval's end reaches none. -/
theorem reportOutcome_closed {c : CompNo} {k : KioskNo} {n m : Nat} {o : DeclOutcome} {s : State}
    (closed : (s.kiosk k).session = none) : reportOutcome c k n m o s = s := by
  unfold reportOutcome sessionOf
  rw [closed]

theorem reportRetrieval_closed {c : CompNo} {k : KioskNo} {n : Nat} {b : Bool} {s : State}
    (closed : (s.kiosk k).session = none) : reportRetrieval c k n b s = s := by
  unfold reportRetrieval sessionOf
  rw [closed]

/-- What a cancellation does to the owners of the transaction while no session is open (R14). -/
def cancelRest (c : CompNo) (st : CompState) (x : Transient) (s : State) : State :=
  match x.particulars with
  | .deposit _ _ _ _ _ => removeEntry c s
  | .drop _ reference paid => noteDoor st c x .cancelled (freeReturn reference paid s)
  | .collect => noteDoor st c x .cancelled (setEntryStatus c .live s)
  | .retrieve _ _ => s

theorem endTransaction_closed {c : CompNo} {x : Transient} {s : State} (hx : (s.comp c).transient = some x)
    (closed : ∀ k, (s.kiosk k).session = none) :
    endTransaction .cancelled c s = cancelRest c (s.comp c).state x
      (releaseSlot ((s.setComp c (cancelledComp (s.comp c))).setQuote c none)) := by
  have comp : cancelledComp (s.comp c) = { s.comp c with
      state := Ending.state .cancelled x (s.comp c).parcel, transient := none } := by
    unfold cancelledComp Ending.state revertedState
    rw [hx]; dsimp only; cases x.particulars <;> rfl
  rw [comp]
  unfold endTransaction cancelRest; dsimp only
  rw [hx]; dsimp only
  cases x.particulars with
  | deposit =>
    exact reportOutcome_closed (closed x.kiosk)
  | drop => rfl
  | collect => rfl
  | retrieve =>
    exact reportRetrieval_closed (closed x.kiosk)

theorem cancelledEntry_other {c : CompNo} {s : State} {e : DirEntry} (h : e.compartment ≠ c) :
    cancelledEntry (fun d => decide (d = c)) s e = some e := by
  unfold cancelledEntry
  rw [show (fun d => decide (d = c)) e.compartment = false by simp [h]]

theorem noteDoor_cancelled (st : CompState) (c : CompNo) (x : Transient) (s : State) :
    noteDoor st c x .cancelled s = { s with kiosks := (noteDoor st c x .cancelled s).kiosks }
      ∧ (∀ j, (noteDoor st c x .cancelled s).kiosk j = s.kiosk j
          ∨ (noteDoor st c x .cancelled s).kiosk j
                = { s.kiosk j with doorResult := ((noteDoor st c x .cancelled s).kiosk j).doorResult }
              ∧ CancelNoted (noteDoor st c x .cancelled s) j)
      ∧ (st ≠ .reconcile → x.resolved = false → CancelNoted (noteDoor st c x .cancelled s) x.kiosk) := by
  unfold noteDoor
  by_cases h : st = .reconcile ∨ x.resolved = true
  · rw [if_pos h]
    refine ⟨rfl, fun j => .inl rfl, fun a b => ?_⟩
    rcases h with h | h
    · exact absurd h a
    · rw [b] at h; cases h
  · rw [if_neg h]
    have noted : CancelNoted (setDoorResult x.kiosk
        (some { compartment := c, purpose := x.particulars.purpose, outcome := .cancelled }) s) x.kiosk :=
      ⟨{ compartment := c, purpose := x.particulars.purpose, outcome := .cancelled }, by simp [setDoorResult], rfl⟩
    refine ⟨rfl, fun j => ?_, fun _ _ => noted⟩
    by_cases hj : j = x.kiosk
    · subst hj
      exact .inr ⟨by simp [setDoorResult], noted⟩
    · exact .inl (kiosk_setDoorResult_other hj _ _)

/-- A state whose directory, returns and kiosks have followed the cancellation of one compartment. -/
theorem Cancelled.one {c : CompNo} {s t : State}
    (comps : ∀ d, t.comp d = if d = c then cancelledComp (s.comp d) else s.comp d)
    (quotes : ∀ d, t.quoteOf d = s.quoteOf d ∨ d = c ∧ t.quoteOf d = none)
    (directory : t.ret.directory = s.ret.directory.map fun ways =>
      ways.filterMap (cancelledEntry (fun d => decide (d = c)) s))
    (returns : t.ret.returns = s.ret.returns ∧ (∀ x n r p, (s.comp c).transient = some x → x.particulars ≠ .drop n r p)
      ∨ ∃ x n r p, (s.comp c).transient = some x ∧ x.particulars = .drop n r p ∧ t.ret.returns = freedReturns r p s)
    (told : ∀ x, Noted s c x → CancelNoted t x.kiosk)
    (doors : ∀ k, t.kiosk k = s.kiosk k ∨ t.kiosk k = { s.kiosk k with doorResult := (t.kiosk k).doorResult } ∧ CancelNoted t k)
    (rest : t = { s with
      ret := { s.ret with
        compartments := t.ret.compartments, directory := t.ret.directory, returns := t.ret.returns
        reservations := t.ret.reservations }
      quotes := t.quotes, kiosks := t.kiosks, segments := t.segments }) :
    Cancelled (fun d => decide (d = c)) s t where
  comps d := by rw [comps]; simp
  quotes d := (quotes d).imp id fun ⟨e, n⟩ => ⟨n, .inl (by simp [e])⟩
  directory := directory
  freed e he f := by
    obtain ⟨d, x, n, p, hd, hx, hp⟩ := f
    have hd : d = c := by simpa using hd
    subst hd
    rcases returns with ⟨-, not⟩ | ⟨y, n', r, p', hy, hr, eq⟩
    · exact absurd hp (not x _ _ _ hx)
    · rw [hy] at hx; cases hx
      rw [hr] at hp
      have ref : r = e.reference := (Particulars.drop.inj hp).2.1
      rw [eq] at he
      obtain ⟨f, -, hf⟩ := List.mem_map.1 he
      by_cases h : f.reference = r
      · rw [if_pos h] at hf; rw [← hf]
      · rw [if_neg h] at hf; rw [hf] at h; exact absurd ref.symm h
  kept e he := by
    rcases returns with ⟨eq, -⟩ | ⟨y, n', r, p', hy, hr, eq⟩
    · exact .inl (eq ▸ he)
    · rw [eq] at he
      obtain ⟨f, hf, rfl⟩ := List.mem_map.1 he
      split
      · exact .inr rfl
      · exact .inl hf
  same none := by
    rcases returns with ⟨eq, -⟩ | ⟨y, n', r, p', hy, hr, eq⟩
    · exact eq
    · exact absurd ⟨c, y, n', p', by simp, hy, hr⟩ (none r)
  told d x hd h := by
    have hd : d = c := by simpa using hd
    subst hd
    exact told x h
  doors := doors
  rest := rest

theorem cancelledEntry_own {c : CompNo} {s : State} {x : Transient} {e : DirEntry} (h : e.compartment = c)
    (hx : (s.comp c).transient = some x) :
    cancelledEntry (fun d => decide (d = c)) s e =
      match x.particulars with
      | .deposit _ _ _ _ _ => none
      | .collect => some { e with status := .live }
      | .drop _ _ _ => some e
      | .retrieve _ _ => some e := by
  unfold cancelledEntry
  rw [h, hx, show (fun d => decide (d = c)) c = true by simp]
  cases hp : x.particulars <;> simp [hp]

theorem cancelledEntries (c : CompNo) (s : State) (f : DirEntry → Option DirEntry)
    (hf : ∀ e, e.compartment = c → cancelledEntry (fun d => decide (d = c)) s e = f e) :
    (s.ret.directory.map fun ways => ways.filterMap fun e => if e.compartment = c then f e else some e)
      = s.ret.directory.map fun ways => ways.filterMap (cancelledEntry (fun d => decide (d = c)) s) := by
  congr 1
  funext ways
  refine List.filterMap_congr fun e _ => ?_
  by_cases w : e.compartment = c
  · rw [if_pos w, hf e w]
  · rw [if_neg w, cancelledEntry_other w]

theorem cancelledEntries_same (c : CompNo) (s : State)
    (hf : ∀ e, e.compartment = c → cancelledEntry (fun d => decide (d = c)) s e = some e) :
    s.ret.directory = s.ret.directory.map fun ways => ways.filterMap (cancelledEntry (fun d => decide (d = c)) s) := by
  have : (fun ways : List DirEntry => ways.filterMap (cancelledEntry (fun d => decide (d = c)) s)) = id := by
    funext ways
    refine (List.filterMap_congr fun e _ => ?_).trans List.filterMap_some
    by_cases h : e.compartment = c
    · exact hf e h
    · exact cancelledEntry_other h
  rw [this]; simp

/-- The state with the record, the quote and the slot of a cancelled transaction gone. -/
def closing (c : CompNo) (s : State) : State :=
  releaseSlot ((s.setComp c (cancelledComp (s.comp c))).setQuote c none)

theorem comp_closing (c d : CompNo) (s : State) :
    (closing c s).comp d = if d = c then cancelledComp (s.comp d) else s.comp d := by
  unfold closing
  by_cases h : d = c
  · subst h; simp
  · simp [h, State.comp_setComp]

theorem quoteOf_closing (c d : CompNo) (s : State) :
    (closing c s).quoteOf d = s.quoteOf d ∨ d = c ∧ (closing c s).quoteOf d = none := by
  unfold closing
  by_cases h : d = c
  · subst h; simp
  · simp [h, State.quoteOf_setQuote]

theorem freeReturn_returns (reference paid : Nat) (s : State) :
    (freeReturn reference paid s).ret.returns = freedReturns reference paid s := by
  unfold freeReturn changeReturn freedReturns
  show List.filterMap _ _ = _
  rw [← List.filterMap_eq_map]
  refine List.filterMap_congr fun e _ => ?_
  by_cases h : e.reference = reference <;> simp [h]

/-- The cancellation of one compartment while no session is open (R14). -/
theorem cancelled_end (c : CompNo) (s : State) (closed : ∀ k, (s.kiosk k).session = none) :
    Cancelled (fun d => decide (d = c)) s (endTransaction .cancelled c s)
      ∧ (endTransaction .cancelled c s).segments = s.segments := by
  cases hx : (s.comp c).transient with
  | none =>
    have same : endTransaction .cancelled c s = s := by
      unfold endTransaction; dsimp only; rw [hx]
    rw [same]
    refine ⟨.one (fun d => ?_) (fun d => .inl rfl) (cancelledEntries_same c s fun e h => ?_)
      (.inl ⟨rfl, fun x n r p h => ?_⟩) (fun x h => ?_) (fun k => .inl rfl) rfl, rfl⟩
    · split
      · next h => subst h; unfold cancelledComp; rw [hx]
      · rfl
    · unfold cancelledEntry; rw [h, hx]; simp
    · rw [hx] at h; cases h
    · rw [Noted, hx] at h; cases h.1
  | some x =>
    rw [endTransaction_closed hx closed]
    show Cancelled _ s (cancelRest c _ x (closing c s)) ∧ (cancelRest c _ x (closing c s)).segments = _
    unfold cancelRest
    cases hp : x.particulars with
    | deposit =>
      refine ⟨.one (comp_closing c · s) (quoteOf_closing c · s)
        (cancelledEntries c s _ fun e h => ?_) (.inl ⟨rfl, fun y n r p h => ?_⟩) (fun y h => ?_) (fun k => .inl rfl) rfl, rfl⟩
      · rw [cancelledEntry_own h hx, hp]
      · rw [hx] at h; cases h; rw [hp]; exact fun h => by cases h
      · obtain ⟨h, w, -⟩ := h
        rw [hx] at h; cases h
        rw [hp] at w
        rcases w with w | ⟨n, r, p, w⟩ <;> cases w
    | drop n reference paid =>
      dsimp only
      obtain ⟨frame, doors, told⟩ := noteDoor_cancelled (s.comp c).state c x (freeReturn reference paid (closing c s))
      refine ⟨.one (fun d => ?_) (fun d => ?_) ?_ (.inr ⟨x, n, reference, paid, hx, hp, ?_⟩) (fun y h => ?_) doors ?_, ?_⟩
      · rw [frame]; exact comp_closing c d s
      · rw [frame]; exact quoteOf_closing c d s
      · rw [frame]; exact cancelledEntries_same c s fun e h => by rw [cancelledEntry_own h hx, hp]
      · rw [frame]; exact freeReturn_returns reference paid (closing c s)
      · obtain ⟨h, -, a, b⟩ := h
        rw [hx] at h; cases h
        exact told a b
      · rw [frame]; rfl
      · rw [frame]; rfl
    | collect =>
      dsimp only
      obtain ⟨frame, doors, told⟩ := noteDoor_cancelled (s.comp c).state c x (setEntryStatus c .live (closing c s))
      refine ⟨.one (fun d => ?_) (fun d => ?_) ?_ (.inl ⟨?_, fun y n r p h => ?_⟩) (fun y h => ?_) doors ?_, ?_⟩
      · rw [frame]; exact comp_closing c d s
      · rw [frame]; exact quoteOf_closing c d s
      · rw [frame]; exact cancelledEntries c s _ fun e h => by rw [cancelledEntry_own h hx, hp]
      · rw [frame]; rfl
      · rw [hx] at h; cases h; rw [hp]; exact fun h => by cases h
      · obtain ⟨h, -, a, b⟩ := h
        rw [hx] at h; cases h
        exact told a b
      · rw [frame]; rfl
      · rw [frame]; rfl
    | retrieve =>
      refine ⟨.one (comp_closing c · s) (quoteOf_closing c · s)
        (cancelledEntries_same c s fun e h => ?_) (.inl ⟨rfl, fun y n r p h => ?_⟩) (fun y h => ?_) (fun k => .inl rfl) rfl, rfl⟩
      · rw [cancelledEntry_own h hx, hp]
      · rw [hx] at h; cases h; rw [hp]; exact fun h => by cases h
      · obtain ⟨h, w, -⟩ := h
        rw [hx] at h; cases h
        rw [hp] at w
        rcases w with w | ⟨n, r, p, w⟩ <;> cases w

theorem Cancelled.session {P : CompNo → Bool} {s t : State} (h : Cancelled P s t) (k : KioskNo) :
    (t.kiosk k).session = (s.kiosk k).session := by
  rcases h.doors k with e | ⟨e, -⟩ <;> rw [e]

theorem Cancelled.before {P : CompNo → Bool} {s t : State} {segments : Vector Segment 4}
    (k : Cancelled P { s with segments } t) : Cancelled P s t :=
  ⟨k.comps, k.quotes, k.directory, k.freed, k.kept, k.same, k.told, k.doors, k.rest⟩

theorem Cancelled.as {P Q : CompNo → Bool} {s t : State} (k : Cancelled P s t) (h : ∀ c, P c = Q c) : Cancelled Q s t := by
  rw [← funext h]; exact k

/-- The cancellation of every entry of a segment's queue while no session is open (R170). -/
theorem cancelled_queue (g : SegNo) (n : Nat) (s : State) (closed : ∀ k, (s.kiosk k).session = none)
    (enough : (s.seg g).queue.length ≤ n) :
    Cancelled (fun c => (s.seg g).queue.any (fun e => decide (e.compartment = c))) s (cancelQueue g n s)
      ∧ (∀ h, (cancelQueue g n s).seg h = if h = g then { s.seg g with queue := [] } else s.seg h) := by
  induction n generalizing s with
  | zero =>
    have : (s.seg g).queue = [] := List.length_eq_zero_iff.1 (by omega)
    refine ⟨(Cancelled.refl s).as fun c => by rw [this]; rfl, fun h => ?_⟩
    split
    · next e => subst e; rw [← this]; rfl
    · rfl
  | succ n ih =>
    cases hq : (s.seg g).queue with
    | nil =>
      have same : cancelQueue g (n + 1) s = s := by unfold cancelQueue; rw [hq]
      rw [same]
      refine ⟨(Cancelled.refl s).as fun c => by rfl, fun h => ?_⟩
      split
      · next e => subst e; rw [← hq]
      · rfl
    | cons e rest =>
      have next : cancelQueue g (n + 1) s =
          cancelQueue g n (cancelTransaction e.compartment (dropQueued g e.compartment s)) := by
        conv_lhs => unfold cancelQueue
        rw [hq]
      rw [next]
      obtain ⟨one, segments⟩ := cancelled_end e.compartment (dropQueued g e.compartment s) closed
      have one : Cancelled (fun d => decide (d = e.compartment)) s
          (cancelTransaction e.compartment (dropQueued g e.compartment s)) := one.before
      have seg (h : SegNo) : (cancelTransaction e.compartment (dropQueued g e.compartment s)).seg h
          = if h = g then { s.seg g with queue := (s.seg g).queue.filter (·.compartment ≠ e.compartment) } else s.seg h := by
        have : (cancelTransaction e.compartment (dropQueued g e.compartment s)).seg h
            = (dropQueued g e.compartment s).seg h := congrArg (fun v => look v h) segments
        rw [this, dropQueued, State.seg_setSeg]
      generalize cancelTransaction e.compartment (dropQueued g e.compartment s) = v at one seg ⊢
      have own := seg g
      rw [if_pos rfl, hq] at own
      obtain ⟨all, after⟩ := ih v (fun k => (one.session k).trans (closed k)) (by
        rw [own]
        rw [hq, List.length_cons] at enough
        rw [List.filter_cons_of_neg (by simp)]
        exact (List.length_filter_le ..).trans (by omega))
      refine ⟨(one.trans all).as fun c => ?_, fun h => ?_⟩
      · rw [own, Bool.eq_iff_iff]
        by_cases w : c = e.compartment
        · simp [w]
        · have : ¬ e.compartment = c := fun h => w h.symm
          rw [List.filter_cons_of_neg (by simp)]
          simp only [w, this, decide_false, Bool.false_or, List.any_cons, List.any_filter, List.any_eq_true,
            decide_eq_true_eq, Bool.and_eq_true, ne_eq]
          constructor
          · rintro ⟨f, hf, -, h⟩
            exact ⟨f, hf, h⟩
          · rintro ⟨f, hf, h⟩
            exact ⟨f, hf, by rw [h]; exact w, h⟩
      · rw [after]
        split
        · rw [own]
        · next ne => rw [seg, if_neg ne]

theorem cancelled_queues (L : List SegNo) (distinct : L.Nodup) (s : State) (closed : ∀ k, (s.kiosk k).session = none) :
    let t := L.foldl (fun s g => cancelQueue g (s.seg g).queue.length s) s
    Cancelled (fun c => L.any fun g => (s.seg g).queue.any fun e => decide (e.compartment = c)) s t
      ∧ ∀ h, t.seg h = if h ∈ L then { s.seg h with queue := [] } else s.seg h := by
  induction L generalizing s with
  | nil => exact ⟨.refl s, fun h => by simp⟩
  | cons g L ih =>
    obtain ⟨notin, distinct⟩ := List.nodup_cons.1 distinct
    obtain ⟨one, segs⟩ := cancelled_queue g _ s closed (Nat.le_refl _)
    rw [List.foldl_cons]
    generalize cancelQueue g (s.seg g).queue.length s = v at one segs ⊢
    obtain ⟨all, after⟩ := ih distinct v fun k => (one.session k).trans (closed k)
    have off (h : SegNo) (hh : h ∈ L) : v.seg h = s.seg h := by
      rw [segs, if_neg fun e => notin (by rw [← e]; exact hh)]
    refine ⟨(one.trans all).as fun c => ?_, fun h => ?_⟩
    · rw [List.any_cons]
      congr 1
      rw [Bool.eq_iff_iff]
      simp only [List.any_eq_true]
      constructor
      · rintro ⟨h, hh, e, he, x⟩; exact ⟨h, hh, e, by rw [← off h hh]; exact he, x⟩
      · rintro ⟨h, hh, e, he, x⟩; exact ⟨h, hh, e, by rw [off h hh]; exact he, x⟩
    · rw [after]
      by_cases hh : h ∈ L
      · rw [if_pos hh, if_pos (List.mem_cons_of_mem _ hh), off h hh]
      · rw [if_neg hh, segs]
        by_cases e : h = g
        · subst e; simp
        · simp [e, hh]

/-- Whether a compartment has a POSTAGE quote. -/
def postage (s : State) (c : CompNo) : Bool :=
  match (s.quoteOf c).map (fun q : Quote => q.purpose) with
  | some (.postage _) => true
  | some .collection | none => false

theorem Cancelled.none {P : CompNo → Bool} {s t : State} (h : Cancelled P s t) {c : CompNo} (q : s.quoteOf c = none) :
    t.quoteOf c = none := by
  rcases h.quotes c with e | ⟨e, -⟩
  · rw [e, q]
  · exact e

theorem postage_some {s : State} {c : CompNo} : postage s c = true ↔ ∃ q n, s.quoteOf c = some q ∧ q.purpose = .postage n := by
  unfold postage
  cases s.quoteOf c with
  | none => simp
  | some q => cases hp : q.purpose <;> simp [hp]

/-- The removal of one quote unpaid while no session is open (R82, R14). -/
theorem dropQuote_spec (c : CompNo) (s : State) (closed : ∀ k, (s.kiosk k).session = none) :
    Cancelled (fun d => decide (d = c) && postage s c) s (dropQuote c s)
      ∧ (dropQuote c s).segments = s.segments ∧ (dropQuote c s).quoteOf c = none := by
  have still := (Cancelled.refl s).as (Q := fun d => decide (d = c) && false) fun d => by simp
  cases hq : s.quoteOf c with
  | none =>
    have same : dropQuote c s = s := by unfold dropQuote; rw [hq]
    have no : postage s c = false := by unfold postage; rw [hq]; rfl
    rw [same, no]
    exact ⟨still, rfl, hq⟩
  | some q =>
    cases hp : q.purpose with
    | collection =>
      have eq : dropQuote c s = s.setQuote c none := by unfold dropQuote; rw [hq]; dsimp only; rw [hp]
      have no : postage s c = false := by unfold postage; rw [hq]; simp [hp]
      rw [eq, no]
      refine ⟨⟨still.comps, fun d => ?_, still.directory, still.freed, still.kept, still.same, ?_, still.doors, rfl⟩, rfl, by simp⟩
      · rw [State.quoteOf_setQuote]
        by_cases e : d = c
        · subst e; exact .inr ⟨by simp, .inr ⟨q, hq, hp⟩⟩
        · rw [if_neg e]; exact .inl rfl
      · intro d x h; simp at h
    | postage n =>
      have eq : dropQuote c s = endTransaction .cancelled c (s.setQuote c none) := by
        unfold dropQuote; rw [hq]; dsimp only; rw [hp]
      have yes : postage s c = true := postage_some.2 ⟨q, n, hq, hp⟩
      rw [eq, yes]
      obtain ⟨k, segments⟩ := cancelled_end c (s.setQuote c none) closed
      have k := k.as (Q := fun d => decide (d = c) && true) fun d => by simp
      have gone := k.none (c := c) (by simp)
      refine ⟨⟨k.comps, fun d => ?_, k.directory, k.freed, k.kept, k.same, k.told, k.doors, k.rest⟩, segments, gone⟩
      by_cases e : d = c
      · subst e; exact .inr ⟨gone, .inl (by simp)⟩
      · have := k.quotes d
        rwa [State.quoteOf_setQuote, if_neg e] at this

theorem postage_cancelled {P : CompNo → Bool} {s t : State} (h : Cancelled P s t) {c : CompNo} (p : P c = false) :
    postage t c = postage s c := by
  rcases h.quotes c with e | ⟨e, q⟩
  · unfold postage; rw [e]
  · rw [Bool.eq_iff_iff, postage_some, postage_some, e]
    refine ⟨fun ⟨q, n, x, _⟩ => (by cases x), fun ⟨q', n, x, y⟩ => ?_⟩
    rcases q with q | ⟨q, hq, col⟩
    · rw [p] at q; cases q
    · rw [x] at hq; cases hq; rw [y] at col; cases col

theorem cancelled_quotes (L : List CompNo) (distinct : L.Nodup) (s : State) (closed : ∀ k, (s.kiosk k).session = none) :
    let t := L.foldl (fun s c => dropQuote c s) s
    Cancelled (fun c => decide (c ∈ L) && postage s c) s t ∧ t.segments = s.segments
      ∧ ∀ c ∈ L, t.quoteOf c = none := by
  induction L generalizing s with
  | nil => exact ⟨(Cancelled.refl s).as fun c => by simp, rfl, fun c h => absurd h List.not_mem_nil⟩
  | cons d L ih =>
    obtain ⟨notin, distinct⟩ := List.nodup_cons.1 distinct
    obtain ⟨one, segs, gone⟩ := dropQuote_spec d s closed
    rw [List.foldl_cons]
    generalize dropQuote d s = v at one segs gone ⊢
    obtain ⟨all, after, none⟩ := ih distinct v fun k => (one.session k).trans (closed k)
    refine ⟨(one.trans all).as fun c => ?_, after.trans segs, fun c hc => ?_⟩
    · rw [Bool.eq_iff_iff]
      by_cases e : c = d
      · subst e; simp [notin]
      · have same := postage_cancelled one (c := c) (by simp [e])
        simp [e, same]
    · rcases List.mem_cons.1 hc with rfl | h
      · exact all.none gone
      · exact none c h

theorem queuedOf_isSome (s : State) (c : CompNo) :
    (queuedOf s c).isSome = (List.finRange 4).any fun g => (s.seg g).queue.any fun e => decide (e.compartment = c) := by
  unfold queuedOf
  rw [Bool.eq_iff_iff, List.findSome?_isSome_iff]
  simp only [List.any_eq_true, Option.isSome_map, List.find?_isSome]

/-- The adoption of EVACUATE (R195, R100, R170, R82). -/
theorem cancelled_evacuate (s : State) :
    let u := { s with kiosks := s.kiosks.map fun x => { x with session := none } }
    Cancelled (evacuated s) u (evacuate s)
      ∧ (∀ g, (evacuate s).seg g = { s.seg g with queue := [] }) ∧ ∀ c, (evacuate s).quoteOf c = none := by
  dsimp only
  generalize hu : ({ s with kiosks := s.kiosks.map fun x => { x with session := none } } : State) = u
  have closed (k : KioskNo) : (u.kiosk k).session = none := by
    rw [← hu]; simp [State.kiosk, look]
  have queues := cancelled_queues (List.finRange 4) (List.nodup_finRange 4) u closed
  dsimp only at queues
  have eq : evacuate s = forEach dropQuote (forEach (fun g s => cancelQueue g (s.seg g).queue.length s) u) := by
    unfold evacuate; rw [hu]
  rw [eq]
  obtain ⟨first, segs⟩ := queues
  generalize hv : (List.finRange 4).foldl (fun s g => cancelQueue g (s.seg g).queue.length s) u = v at first segs
  have hv : forEach (fun g s => cancelQueue g (s.seg g).queue.length s) u = v := hv
  rw [hv]
  obtain ⟨second, same, none⟩ := cancelled_quotes (List.finRange 768) (List.nodup_finRange 768) v
    fun k => (first.session k).trans (closed k)
  refine ⟨(first.trans second).as fun c => ?_, fun g => ?_, fun c => none c (List.mem_finRange c)⟩
  · unfold evacuated
    rw [queuedOf_isSome]
    have segments : u.segments = s.segments := by rw [← hu]
    have seg (g : SegNo) : u.seg g = s.seg g := congrArg (fun v => look v g) segments
    have quote : postage u c = postage s c := by rw [← hu]; rfl
    simp only [seg] at first ⊢
    show _ = (_ || postage s c)
    by_cases q : ((List.finRange 4).any fun g => (s.seg g).queue.any fun e => decide (e.compartment = c)) = true
    · rw [q, Bool.true_or, Bool.true_or]
    · have q : ((List.finRange 4).any fun g => (s.seg g).queue.any fun e => decide (e.compartment = c)) = false := by simpa using q
      rw [postage_cancelled first q, quote]
      simp
  · have : (forEach dropQuote v).seg g = v.seg g := congrArg (fun x => look x g) same
    rw [this, segs, if_pos (List.mem_finRange g)]
    have segments : u.segments = s.segments := by rw [← hu]
    have : u.seg g = s.seg g := congrArg (fun v => look v g) segments
    rw [this]

/-! ### Issue on every segment -/

theorem seg_issueUpTo_other {g h : SegNo} (ne : h ≠ g) (n : Nat) (s : State) : (issueUpTo g n s).seg h = s.seg h := by
  induction n generalizing s with
  | zero => rfl
  | succ n ih =>
    unfold issueUpTo
    split
    · exact (ih _).trans (issueEntry_seg_other ne _ _ _)
    · rfl

theorem Issued.between {g : SegNo} {s v w t : State} (h : Issued g v w) (before : v.seg g = s.seg g)
    (after : t.seg g = w.seg g) (first : OnlyStrikes s v) (last : OnlyStrikes w t) (lines : KeepsLines w t)
    (kept : ∀ c, striking s c = true → striking v c = true) (kept' : ∀ c, striking w c = true → striking t c = true) :
    Issued g s t := by
  obtain ⟨none, keep, count, sub, issued, act, all⟩ := h
  have budget : budgetInForce v g = budgetInForce s g := by
    unfold budgetInForce; rw [first.ret]
  have elapsed : v.elapsed = s.elapsed := by rw [first.rest]
  have now : energised v g = energised s g := by unfold energised; rw [before]
  have then' : energised t g = energised w g := by unfold energised; rw [after]
  rw [before] at sub act all
  rw [elapsed] at all
  refine ⟨(nextIssue_congr after last lines).trans none, fun c hc => kept' c (keep c (kept c hc)), ?_, ?_, issued, ?_, all⟩
  · rw [then', ← now, ← budget]; exact count
  · rw [after]; exact sub
  · rw [after]; exact act

theorem issued_list (L : List SegNo) (distinct : L.Nodup) (s : State) :
    let t := L.foldl (fun s g => applyIssue g s) s
    OnlyStrikes s t ∧ KeepsLines s t ∧ (∀ c, striking s c = true → striking t c = true)
      ∧ (∀ g ∈ L, Issued g s t) ∧ ∀ g, g ∉ L → t.seg g = s.seg g := by
  induction L generalizing s with
  | nil => exact ⟨.refl s, .refl s, fun _ h => h, fun g h => absurd h List.not_mem_nil, fun _ _ => rfl⟩
  | cons g L ih =>
    obtain ⟨notin, distinct⟩ := List.nodup_cons.1 distinct
    rw [List.foldl_cons]
    obtain ⟨only, lines, kept, all, other⟩ := ih distinct (applyIssue g s)
    have here := onlyStrikes_applyIssue g s
    have kept' (c : CompNo) (h : striking s c = true) : striking (applyIssue g s) c = true := striking_issueUpTo g _ h
    refine ⟨here.trans only, (keepsLines_applyIssue g s).trans lines, fun c hc => kept c (kept' c hc), fun h hh => ?_, fun h hh => ?_⟩
    · rcases List.mem_cons.1 hh with rfl | m
      · exact (issued_applyIssue h s).between rfl (other h notin) (.refl s) only lines (fun _ hc => hc) kept
      · have ne : h ≠ g := fun e => notin (by rw [← e]; exact m)
        exact (all h m).between (seg_issueUpTo_other ne _ s) rfl here (.refl _) (.refl _) kept' fun _ hc => hc
    · rw [List.mem_cons, not_or] at hh
      exact (other h hh.2).trans (seg_issueUpTo_other hh.1 _ s)

/-- Issue applied to every segment (R160). -/
theorem issued_all (s : State) :
    OnlyStrikes s (forEach applyIssue s) ∧ ∀ g, Issued g s (forEach applyIssue s) := by
  obtain ⟨only, -, -, all, -⟩ := issued_list (List.finRange 4) (List.nodup_finRange 4) s
  exact ⟨only, fun g => all g (List.mem_finRange g)⟩

end Sys2Proof.Machine
end

