-- ==== Sys2Proof/Laws/Allocation.lean ====
section
/-! SUPPORT. What the search of one class for an allocatable compartment can answer (R9). -/

namespace Sys2Proof.Machine

theorem nextComp_val (c : CompNo) : (nextComp c).val = (c.val + 1) % 768 := by
  unfold nextComp
  split <;> simp <;> omega

/-- The search visits the number itself first, and the next one as many steps on. -/
theorem searchFrom_spec (s : State) (k : SizeClass) : ∀ (n : Nat) (c : CompNo),
    (∀ d, searchFrom s k n c = some d → Offers s k d ∧ ∃ i < n, d.val = (c.val + i) % 768
        ∧ ∀ j < i, ∀ e : CompNo, e.val = (c.val + j) % 768 → ¬ Offers s k e)
      ∧ (searchFrom s k n c = none → ∀ i < n, ∀ e : CompNo, e.val = (c.val + i) % 768 → ¬ Offers s k e)
  | 0, c => ⟨fun _ h => (by cases h), fun _ _ h => absurd h (Nat.not_lt_zero _)⟩
  | n + 1, c => by
    obtain ⟨found, lost⟩ := searchFrom_spec s k n (nextComp c)
    have step (j : Nat) : ((nextComp c).val + j) % 768 = (c.val + (j + 1)) % 768 := by rw [nextComp_val]; omega
    have here {e : CompNo} (he : e.val = (c.val + 0) % 768) : e = c := Fin.ext (by omega)
    unfold searchFrom
    by_cases h : Offers s k c
    · rw [if_pos (by simp [h.1, h.2])]
      refine ⟨fun d hd => ?_, nofun⟩
      cases hd
      exact ⟨h, 0, Nat.succ_pos n, by omega, fun j hj => absurd hj (Nat.not_lt_zero _)⟩
    · rw [if_neg (fun e => h (by simp only [Bool.and_eq_true, decide_eq_true_eq] at e; exact ⟨e.2, e.1⟩))]
      refine ⟨fun d hd => ?_, fun hn i hi e he => ?_⟩
      · obtain ⟨offers, i, hi, hv, before⟩ := found d hd
        refine ⟨offers, i + 1, by omega, by rw [hv, step], fun j hj e he => ?_⟩
        cases j with
        | zero => rw [here he]; exact h
        | succ j => exact before j (by omega) e (by rw [he, step])
      · cases i with
        | zero => rw [here he]; exact h
        | succ i => exact lost hn i (by omega) e (by rw [he, step])

/-- The search of a class takes the first compartment that it offers from one past its cursor, and answers
none only where it offers none (R9). -/
theorem searchClass_spec (s : State) (k : SizeClass) :
    (∀ c, searchClass s k = some c → Offers s k c
        ∧ ∀ d, Offers s k d → visitedBefore (look s.ret.cursors k.index) c ≤ visitedBefore (look s.ret.cursors k.index) d)
      ∧ (searchClass s k = none → ∀ d, ¬ Offers s k d) := by
  obtain ⟨found, lost⟩ := searchFrom_spec s k 768 (nextComp (look s.ret.cursors k.index))
  rw [nextComp_val] at found lost
  have short (d : CompNo) : visitedBefore (look s.ret.cursors k.index) d < 768 := Nat.mod_lt _ (by decide)
  have placed (d : CompNo) :
      d.val = (((look s.ret.cursors k.index).val + 1) % 768 + visitedBefore (look s.ret.cursors k.index) d) % 768 := by
    unfold visitedBefore; omega
  refine ⟨fun c hc => ?_, fun hn d => lost hn _ (short d) d (placed d)⟩
  obtain ⟨offers, i, hi, hv, before⟩ := found c hc
  refine ⟨offers, fun d hd => ?_⟩
  have : visitedBefore (look s.ret.cursors k.index) c = i := by
    unfold visitedBefore; omega
  rw [this]
  exact Nat.le_of_not_lt fun lt => before _ lt d (placed d) hd

/-- An allocation changes the cursors alone (R9). -/
theorem allocate_frame {s u : State} {cls : SizeClass} {upsize deposit : Bool} {c : CompNo}
    (h : allocate s cls upsize deposit = some (u, c)) : u = { s with ret := { s.ret with cursors := u.ret.cursors } } := by
  obtain ⟨k, -, hk⟩ := List.exists_of_findSome?_eq_some h
  obtain ⟨d, -, e⟩ := Option.map_eq_some_iff.1 hk
  obtain ⟨rfl, -⟩ := Prod.mk.injEq .. ▸ e
  rfl

theorem searchFrom_congr {s t : State} (comps : ∀ c, t.comp c = s.comp c) (boards : t.boards = s.boards)
    (segments : t.segments = s.segments) (k : SizeClass) : ∀ n c, searchFrom t k n c = searchFrom s k n c
  | 0, _ => rfl
  | n + 1, c => by
    have strikes : striking t c = striking s c := by unfold striking; simp only [State.seg, segments]
    have same : allocatable t c = allocatable s c := by
      unfold allocatable
      rw [comps c, strikes]
      simp only [State.board, boards]; rfl
    unfold searchFrom
    rw [same, comps c, searchFrom_congr comps boards segments k n (nextComp c)]

/-- An allocation reads the compartments, the cursors, the tariff, the boards and the strikes alone (R8, R9). -/
theorem allocate_congr {s t : State} (compartments : t.ret.compartments = s.ret.compartments)
    (cursors : t.ret.cursors = s.ret.cursors) (tariff : t.ret.tariff = s.ret.tariff) (boards : t.boards = s.boards)
    (segments : t.segments = s.segments) (cls : SizeClass) (upsize deposit : Bool) :
    (allocate t cls upsize deposit).map (fun x => (x.1.ret.cursors, x.2))
      = (allocate s cls upsize deposit).map fun x => (x.1.ret.cursors, x.2) := by
  have comps (c : CompNo) : t.comp c = s.comp c := by unfold State.comp; rw [compartments]
  unfold allocate searchedClasses searchClass
  simp only [tariff, cursors, searchFrom_congr comps boards segments]
  generalize (cls :: _) = classes
  induction classes with
  | nil => rfl
  | cons k classes ih =>
    simp only [List.findSome?_cons]
    cases searchFrom s k 768 (nextComp (look s.ret.cursors k.index)) with
    | none => exact ih
    | some c => rfl

/-- Whether a compartment's strike queue has room depends on its map entry and the queues alone (R157). -/
theorem compHasRoom_congr {s t : State} (c : CompNo) (compartments : t.ret.compartments = s.ret.compartments)
    (segments : t.segments = s.segments) : compHasRoom t c = compHasRoom s c := by
  unfold compHasRoom segOf boardOf State.comp queueHasRoom State.seg
  rw [compartments, segments]

end Sys2Proof.Machine
end

