-- ==== Sys2Proof/Laws/Scans.lean ====
section
/-! SUPPORT. What the expiry scan does to the compartments it visits (R24). -/

namespace Sys2Proof.Machine

/-- The compartments that the scan abandons: every one due, in ascending number, while an outbox slot is
free (R24, R212). -/
def scanTaken (s : State) (now : Nat) : List CompNo :=
  ((List.finRange 768).filter (scanFinds s now)).take (32 - (s.ret.outbox.length + s.ret.reservations))

/-- The state after the scan has taken the compartments of a list in its order. -/
structure Scanned (now : Nat) (visited taken : List CompNo) (s t : State) : Prop where
  within : ∀ c ∈ taken, c ∈ visited
  due    : ∀ c ∈ taken, (abandonDue (s.comp c) now).isSome = true
  comps  : ∀ c, t.comp c = if c ∈ taken then abandonedComp (s.comp c) now else s.comp c
  quotes : ∀ c, t.quoteOf c =
    if c ∈ visited ∧ (s.comp c).state = .held ∧ (s.quoteOf c).any (quotePassed s) = true then none else s.quoteOf c
  rest   : t = { s with
    ret := { s.ret with
      compartments := t.ret.compartments
      directory := s.ret.directory.map fun ways => ways.filter fun e => decide (e.compartment ∉ taken)
      outbox := s.ret.outbox ++ List.zipWith (fun n x => { sequence := n, notice := x })
        (List.iterate nextSequence s.ret.noticeSequence taken.length) (taken.filterMap (abandonedNotice s now))
      noticeSequence := nextSequence^[taken.length] s.ret.noticeSequence }
    quotes := t.quotes
    alarms := if taken ≠ [] ∧ s.ret.outbox.length + s.ret.reservations + taken.length = 32 then
        (postAlarm .backlog 0 s).alarms else s.alarms }

theorem map_filter_true (d : Vector (List DirEntry) 256) (p : DirEntry → Bool) (h : ∀ e, p e = true) :
    d.map (fun ways => ways.filter p) = d := by
  have : (fun ways : List DirEntry => ways.filter p) = id := by
    funext ways; exact List.filter_eq_self.2 fun e _ => h e
  rw [this]; simp

/-- A state in which only quotes have changed. -/
theorem Scanned.of_quotes {now : Nat} {visited : List CompNo} {s : State} {q : Vector (Option Quote) 768}
    (h : ∀ c, look q c =
      if c ∈ visited ∧ (s.comp c).state = .held ∧ (s.quoteOf c).any (quotePassed s) = true then none else s.quoteOf c) :
    Scanned now visited [] s { s with quotes := q } where
  within c hc := absurd hc List.not_mem_nil
  due c hc := absurd hc List.not_mem_nil
  comps c := by simp [State.comp]
  quotes c := h c
  rest := by
    rw [map_filter_true _ _ fun e => by simp]
    simp

theorem abandonDue_held {x : Compartment} {now : Nat} (h : (abandonDue x now).isSome = true) : x.state = .held := by
  unfold abandonDue at h
  split at h
  · assumption
  · cases h

/-- The first stage of a visit: an expired COLLECTION quote is taken (R24, R72). -/
def expireHeld (c : CompNo) (s : State) : State :=
  match (s.comp c).state, s.quoteOf c with
  | .held, some q => if quotePassed s q then dropQuote c s else s
  | _, _ => s

theorem scanComp_eq (now : Nat) (c : CompNo) (s : State) :
    scanComp now c s =
      match abandonDue ((expireHeld c s).comp c) now, (expireHeld c s).quoteOf c with
      | some (d, deposited), none =>
        match reserveSlot (expireHeld c s) with
        | some u => abandonParcel c d deposited now u
        | none => expireHeld c s
      | _, _ => expireHeld c s := rfl

theorem expireHeld_spec {c : CompNo} {s : State}
    (h : ∀ q, s.quoteOf c = some q → (s.comp c).state = .held → q.purpose = .collection) :
    ∃ q, expireHeld c s = { s with quotes := q }
      ∧ ∀ d, look q d =
          if d ∈ [c] ∧ (s.comp d).state = .held ∧ (s.quoteOf d).any (quotePassed s) = true then none else s.quoteOf d := by
  by_cases take : (s.comp c).state = .held ∧ (s.quoteOf c).any (quotePassed s) = true
  · obtain ⟨held, passed⟩ := take
    cases hq : s.quoteOf c with
    | none => rw [hq] at passed; cases passed
    | some q =>
      have col := h q hq held
      rw [hq] at passed
      have passed : quotePassed s q = true := passed
      refine ⟨put s.quotes c none, ?_, fun d => ?_⟩
      · unfold expireHeld
        rw [held, hq]; dsimp only
        rw [if_pos passed]
        unfold dropQuote
        rw [hq]; dsimp only
        rw [col]; rfl
      · rw [look_put]
        by_cases hd : d = c
        · subst hd; simp [held, hq, passed]
        · simp [hd]; rfl
  · refine ⟨s.quotes, ?_, fun d => ?_⟩
    · unfold expireHeld
      split
      · next held hq =>
        rw [if_neg fun p => take ⟨held, by rw [hq]; exact p⟩]
      · rfl
    · rw [if_neg]; · rfl
      rintro ⟨m, r⟩
      rw [List.mem_singleton.1 m] at r
      exact take r

theorem takeSlot_alarms (s : State) :
    (takeSlot s).alarms = if s.ret.outbox.length + s.ret.reservations + 1 = 32 then (postAlarm .backlog 0 s).alarms else s.alarms := by
  unfold takeSlot postAlarm; dsimp only
  split
  · split
    · rfl
    · rfl
  · rfl

theorem postAlarm_alarms_congr {k : AlarmKind} {n : Nat} {s t : State} (alarms : t.alarms = s.alarms)
    (clock : t.clock = s.clock) : (postAlarm k n t).alarms = (postAlarm k n s).alarms := by
  unfold postAlarm
  rw [alarms, clock]
  split <;> simp_all

theorem abandonParcel_eq (c : CompNo) (d : Delivery) (deposited now : Nat) (s : State) :
    abandonParcel c d deposited now s = { s with ret := { s.ret with
      compartments := put s.ret.compartments c { s.comp c with
        state := .abandoned, parcel := some (.delivery { d with code := none, abandonedTime := some now }) }
      directory := s.ret.directory.map fun ways => ways.filterMap fun e => if e.compartment = c then none else some e
      outbox := s.ret.outbox ++
        [{ sequence := s.ret.noticeSequence, notice := .abandoned c d.courier d.reference deposited now }]
      reservations := s.ret.reservations - 1
      noticeSequence := nextSequence s.ret.noticeSequence } } := rfl

/-- The visit of one compartment, whose quote is not a POSTAGE quote (R24, R72). -/
theorem scanned_one {now : Nat} {c : CompNo} {s : State}
    (h : ∀ q, s.quoteOf c = some q → (s.comp c).state = .held → q.purpose = .collection) :
    Scanned now [c] (if scanFinds s now c = true ∧ outboxHasRoom s = true then [c] else []) s (scanComp now c s) := by
  obtain ⟨q, hq, first⟩ := expireHeld_spec h
  rw [scanComp_eq, hq]
  have comp : State.comp { s with quotes := q } c = s.comp c := rfl
  have quote : State.quoteOf { s with quotes := q } c = look q c := rfl
  rw [comp, quote]
  cases due : abandonDue (s.comp c) now with
  | none =>
    rw [if_neg (by simp [scanFinds, due])]
    exact .of_quotes first
  | some p =>
    obtain ⟨d, deposited⟩ := p
    have held := abandonDue_held (x := s.comp c) (now := now) (by rw [due]; rfl)
    have found : scanFinds s now c = true ↔ look q c = none := by
      rw [first c]
      simp only [scanFinds, due, Option.isSome_some, Bool.true_and, List.mem_singleton, true_and, held]
      cases s.quoteOf c with
      | none => simp
      | some y => simp
    cases hl : look q c with
    | some y =>
      rw [if_neg fun h => by rw [found.1 h.1] at hl; cases hl]
      exact .of_quotes first
    | none =>
      dsimp only
      unfold reserveSlot
      have room : outboxHasRoom { s with quotes := q } = outboxHasRoom s := rfl
      rw [room]
      cases hr : outboxHasRoom s with
      | false =>
        rw [if_neg (by simp)]
        simp only [if_neg Bool.false_ne_true]
        exact .of_quotes first
      | true =>
        rw [if_pos ⟨found.2 hl, rfl⟩]
        simp only [if_true]
        rw [abandonParcel_eq, takeSlot_eq]
        refine ⟨fun c hc => hc, ?_, fun i => ?_, first, ?_⟩
        · intro i hi
          rw [List.mem_singleton.1 hi, due]; rfl
        · show look (put s.ret.compartments c _) i = _
          rw [look_put]
          simp only [List.mem_singleton]
          by_cases hi : i = c
          · subst hi
            rw [if_pos rfl, if_pos rfl]
            simp only [abandonedComp, due]
            rfl
          · rw [if_neg hi, if_neg hi]; rfl
        · have dir : (fun ways : List DirEntry => ways.filterMap fun e => if e.compartment = c then none else some e)
              = fun ways => ways.filter fun e => decide (e.compartment ∉ [c]) := by
            funext ways
            induction ways with
            | nil => rfl
            | cons e es ih => by_cases he : e.compartment = c <;> simp_all
          have alarms : (takeSlot { s with quotes := q }).alarms =
              if [c] ≠ [] ∧ s.ret.outbox.length + s.ret.reservations + [c].length = 32 then
                (postAlarm .backlog 0 s).alarms else s.alarms := by
            rw [takeSlot_alarms, postAlarm_alarms_congr (t := { s with quotes := q }) (s := s) rfl rfl]
            simp
          dsimp only
          rw [alarms, dir]
          simp [abandonedNotice, due, nextSequence, List.iterate]

theorem Scanned.total {now : Nat} {V T : List CompNo} {s v : State} (h : Scanned now V T s v) :
    v.ret.outbox.length = s.ret.outbox.length + T.length ∧ v.ret.reservations = s.ret.reservations
      ∧ v.clock = s.clock := by
  have len : (T.filterMap (abandonedNotice s now)).length = T.length := by
    rw [List.length_filterMap_eq_countP, List.countP_eq_length]
    intro c hc
    have := h.due c hc
    unfold abandonedNotice
    simpa using this
  have outbox : v.ret.outbox = _ := congrArg (fun x => x.ret.outbox) h.rest
  refine ⟨?_, by rw [h.rest], by rw [h.rest]⟩
  rw [outbox, List.length_append, List.length_zipWith, List.length_iterate, len, Nat.min_self]

theorem Scanned.append {now : Nat} {V W T U : List CompNo} {s v t : State} (h : Scanned now V T s v)
    (k : Scanned now W U v t) (apart : ∀ c ∈ V, c ∉ W)
    (room : U ≠ [] → s.ret.outbox.length + s.ret.reservations + T.length < 32) : Scanned now (V ++ W) (T ++ U) s t := by
  have off (c : CompNo) (hc : c ∈ U) : v.comp c = s.comp c := by
    rw [h.comps, if_neg fun ht => apart c (h.within c ht) (k.within c hc)]
  have frame := h.rest
  have outbox : v.ret.outbox = _ := congrArg (fun x => x.ret.outbox) frame
  have number : v.ret.noticeSequence = _ := congrArg (fun x => x.ret.noticeSequence) frame
  have directory : v.ret.directory = _ := congrArg (fun x => x.ret.directory) frame
  have slots : v.ret.reservations = s.ret.reservations := by rw [frame]
  have clock : v.clock = s.clock := by rw [frame]
  have alarms : v.alarms = _ := congrArg (fun x => x.alarms) frame
  dsimp only at outbox number directory alarms
  have passed (q : Quote) : quotePassed v q = quotePassed s q := by unfold quotePassed; rw [clock]
  have notices : U.filterMap (abandonedNotice v now) = U.filterMap (abandonedNotice s now) :=
    List.filterMap_congr fun c hc => by unfold abandonedNotice; rw [off c hc]
  have len : (T.filterMap (abandonedNotice s now)).length = T.length := by
    rw [List.length_filterMap_eq_countP, List.countP_eq_length]
    intro c hc
    have := h.due c hc
    unfold abandonedNotice
    simpa using this
  refine ⟨fun c hc => ?_, fun c hc => ?_, fun c => ?_, fun c => ?_, ?_⟩
  · rcases List.mem_append.1 hc with h' | h'
    · exact List.mem_append_left _ (h.within c h')
    · exact List.mem_append_right _ (k.within c h')
  · rcases List.mem_append.1 hc with h' | h'
    · exact h.due c h'
    · rw [← off c h']; exact k.due c h'
  · rw [k.comps, h.comps]
    simp only [List.mem_append]
    by_cases ht : c ∈ T
    · have : c ∉ U := fun hu => apart c (h.within c ht) (k.within c hu)
      simp [ht, this]
    · simp [ht]
  · have any : (s.quoteOf c).any (quotePassed v) = (s.quoteOf c).any (quotePassed s) := by
      congr 1; funext q; exact passed q
    rw [k.quotes]
    by_cases hv : c ∈ V
    · have hw := apart c hv
      rw [if_neg fun x => hw x.1, h.quotes]
      simp [hv, hw]
    · have own : v.comp c = s.comp c := by rw [h.comps, if_neg fun ht => hv (h.within c ht)]
      have quote : v.quoteOf c = s.quoteOf c := by rw [h.quotes, if_neg fun x => hv x.1]
      rw [own, quote, any]
      simp [hv]
  · have frame' := k.rest
    rw [number, notices, directory, slots] at frame'
    have total := h.total.1
    rw [total] at frame'
    have sum : (T ++ U).length = T.length + U.length := List.length_append
    have last : (if U ≠ [] ∧ s.ret.outbox.length + T.length + s.ret.reservations + U.length = 32 then
          (postAlarm .backlog 0 v).alarms else v.alarms)
        = if T ++ U ≠ [] ∧ s.ret.outbox.length + s.ret.reservations + (T ++ U).length = 32 then
          (postAlarm .backlog 0 s).alarms else s.alarms := by
      by_cases hu : U = []
      · subst hu
        rw [if_neg fun h => h.1 rfl, List.append_nil, alarms]
      · have free := room hu
        have same : v.alarms = s.alarms := by rw [alarms, if_neg fun h => by omega]
        rw [postAlarm_alarms_congr same clock, same, sum]
        have : T ++ U ≠ [] := fun h => hu (List.append_eq_nil_iff.1 h).2
        by_cases full : s.ret.outbox.length + T.length + s.ret.reservations + U.length = 32
        · rw [if_pos ⟨hu, full⟩, if_pos ⟨this, by omega⟩]
        · rw [if_neg fun h => full h.2, if_neg fun h => full (by omega)]
    rw [last, outbox] at frame'
    rw [frame', frame]
    simp only [State.mk.injEq, Retained.mk.injEq, and_true, true_and]
    refine ⟨?_, ?_, ?_⟩
    · rw [Vector.map_map]
      congr 1
      funext ways
      simp [List.filter_filter, Bool.and_comm]
    · rw [List.append_assoc, ← List.zipWith_append (by rw [List.length_iterate, len]), sum, List.iterate_add,
        List.filterMap_append]
    · rw [sum, Nat.add_comm, Function.iterate_add_apply]

/-- The scan of a list of compartments (R24). -/
theorem scanned_list {now : Nat} (L : List CompNo) (distinct : L.Nodup) (s : State)
    (h : ∀ c ∈ L, ∀ q, s.quoteOf c = some q → (s.comp c).state = .held → q.purpose = .collection) :
    Scanned now L ((L.filter (scanFinds s now)).take (32 - (s.ret.outbox.length + s.ret.reservations))) s
      (L.foldl (fun s c => scanComp now c s) s) := by
  induction L generalizing s with
  | nil =>
    rw [List.filter_nil, List.take_nil]
    exact .of_quotes (q := s.quotes) fun c => by rw [if_neg fun h => List.not_mem_nil h.1]; rfl
  | cons c L ih =>
    obtain ⟨notin, distinct⟩ := List.nodup_cons.1 distinct
    have one := scanned_one (now := now) (h c List.mem_cons_self)
    have off (d : CompNo) (hd : d ∈ L) : (scanComp now c s).comp d = s.comp d ∧ (scanComp now c s).quoteOf d = s.quoteOf d := by
      have ne : d ≠ c := fun e => notin (e ▸ hd)
      refine ⟨?_, ?_⟩
      · rw [one.comps, if_neg fun m => ne (List.mem_singleton.1 (one.within d m))]
      · rw [one.quotes, if_neg fun m => ne (List.mem_singleton.1 m.1)]
    have rest := ih distinct (scanComp now c s) fun d hd q hq held => by
      rw [(off d hd).1] at held; rw [(off d hd).2] at hq
      exact h d (List.mem_cons_of_mem _ hd) q hq held
    have finds : L.filter (scanFinds (scanComp now c s) now) = L.filter (scanFinds s now) :=
      List.filter_congr fun d hd => by
        unfold scanFinds quotePassed
        rw [(off d hd).1, (off d hd).2, one.total.2.2]
    rw [one.total.1, one.total.2.1, finds] at rest
    have apart : ∀ d ∈ [c], d ∉ L := fun d hd => by rw [List.mem_singleton.1 hd]; exact notin
    rw [List.foldl_cons, List.filter_cons]
    by_cases found : scanFinds s now c = true
    · by_cases room : outboxHasRoom s = true
      · rw [if_pos ⟨found, room⟩] at one rest
        rw [if_pos found]
        have room : s.ret.outbox.length + s.ret.reservations < 32 := by simpa [outboxHasRoom] using room
        have := one.append rest apart fun some => by
          have : 32 - (s.ret.outbox.length + [c].length + s.ret.reservations) ≠ 0 := fun z => some (by rw [z]; rfl)
          omega
        obtain ⟨n, hn⟩ : ∃ n, 32 - (s.ret.outbox.length + s.ret.reservations) = n + 1 := ⟨_, (Nat.sub_add_cancel (by omega)).symm⟩
        rw [hn, List.take_succ_cons]
        rw [show 32 - (s.ret.outbox.length + [c].length + s.ret.reservations) = n by
          simp only [List.length_singleton]; omega] at this
        exact this
      · rw [if_neg fun h => room h.2] at one rest
        rw [if_pos found]
        have none : 32 - (s.ret.outbox.length + s.ret.reservations) = 0 := by
          simp only [outboxHasRoom, decide_eq_true_eq] at room; omega
        rw [List.length_nil, Nat.add_zero, none, List.take_zero] at rest
        rw [none, List.take_zero]
        exact one.append rest apart fun h => absurd rfl h
    · rw [if_neg fun h => found h.1] at one rest
      rw [if_neg found]
      rw [List.length_nil, Nat.add_zero] at rest
      exact one.append rest apart fun some => by
        have : 32 - (s.ret.outbox.length + s.ret.reservations) ≠ 0 := fun z => some (by rw [z]; rfl)
        simp only [List.length_nil]; omega

/-- The expiry scan (R24): what it finds due it abandons, in ascending number, while a slot is free. -/
theorem scanned_scan {now : Nat} {s : State}
    (h : ∀ c q, s.quoteOf c = some q → (s.comp c).state = .held → q.purpose = .collection) :
    Scanned now (List.finRange 768) (scanTaken s now) s (forEach (scanComp now) s) :=
  scanned_list _ (List.nodup_finRange 768) s fun c _ => h c

/-- The end of an event that leaves the conditions of the rate modes only renews the attention line and the
check word. -/
theorem settle_counted {s u : State} (n : Nat) (rates : RatesFollow s) (segs : u.segments = s.segments)
    (conc : u.ret.concourse = s.ret.concourse) (kid : u.kioskIdle = s.kioskIdle) :
    settle { u with boundariesDue := n } =
      resealed { u with boundariesDue := n, attention := attentionLevel { u with boundariesDue := n } } := by
  have rates : RatesFollow { u with boundariesDue := n } := by
    intro g
    have r := rates g
    have hs : u.seg g = s.seg g := congrArg (fun y => look y g) segs
    show (u.seg g).rate = if quietHolds u g then _ else _
    rw [hs, quietHolds_congr conc kid (by rw [hs]) (by rw [hs])]; exact r
  simp only [settle, setRates_of_follow rates, resealed]

/-- What the scan and the removal of lapsed returns entries leave of the state (R24, R136). -/
theorem scanned_lapse {now : Nat} {V taken : List CompNo} {s v : State} (sc : Scanned now V taken s v) :
    lapseReturns now v = { s with
      ret := { s.ret with
        compartments := v.ret.compartments
        directory := s.ret.directory.map fun ways => ways.filter fun e => decide (e.compartment ∉ taken)
        outbox := s.ret.outbox ++ List.zipWith (fun n x => { sequence := n, notice := x })
          (List.iterate nextSequence s.ret.noticeSequence taken.length) (taken.filterMap (abandonedNotice s now))
        noticeSequence := nextSequence^[taken.length] s.ret.noticeSequence
        returns := s.ret.returns.filter fun e => e.inUse || now ≤ e.expiry }
      quotes := v.quotes
      alarms := if taken ≠ [] ∧ s.ret.outbox.length + s.ret.reservations + taken.length = 32 then
          (postAlarm .backlog 0 s).alarms else s.alarms } := by
  have rest := sc.rest
  generalize (if taken ≠ [] ∧ s.ret.outbox.length + s.ret.reservations + taken.length = 32 then
          (postAlarm .backlog 0 s).alarms else s.alarms) = al at rest ⊢
  generalize s.ret.outbox ++ _ = ob at rest ⊢
  unfold lapseReturns
  generalize hc : v.ret.compartments = cs at rest ⊢
  generalize hq : v.quotes = q at rest ⊢
  clear sc
  subst rest
  rfl

theorem scanned_lapse_frame {now : Nat} {V taken : List CompNo} {s v : State} (sc : Scanned now V taken s v) :
    (lapseReturns now v).segments = s.segments ∧ (lapseReturns now v).ret.concourse = s.ret.concourse
      ∧ (lapseReturns now v).kioskIdle = s.kioskIdle := by
  have rest := sc.rest
  show v.segments = _ ∧ v.ret.concourse = _ ∧ v.kioskIdle = _
  generalize (if taken ≠ [] ∧ s.ret.outbox.length + s.ret.reservations + taken.length = 32 then
          (postAlarm .backlog 0 s).alarms else s.alarms) = al at rest
  generalize s.ret.outbox ++ _ = ob at rest
  generalize hc : v.ret.compartments = cs at rest ⊢
  generalize hq : v.quotes = q at rest ⊢
  clear sc
  subst rest
  exact ⟨rfl, rfl, rfl⟩

/-- A minute boundary scans every compartment and leaves the conditions of the rate modes (R199). -/
theorem scanned_takeBoundary {now : Nat} {s : State}
    (h : ∀ c q, s.quoteOf c = some q → (s.comp c).state = .held → q.purpose = .collection) :
    Scanned now (List.finRange 768) (scanTaken s now) s (forEach (scanComp now) s)
      ∧ (takeBoundary now s).segments = s.segments ∧ (takeBoundary now s).ret.concourse = s.ret.concourse
      ∧ (takeBoundary now s).kioskIdle = s.kioskIdle := by
  have sc := scanned_scan (now := now) h
  exact ⟨sc, scanned_lapse_frame sc⟩

/-- A scan followed by the removal of lapsed entries, with the event's end (R199). -/
theorem scanned_counted {now n : Nat} {V taken : List CompNo} {s v t : State} {line : Bool} (sc : Scanned now V taken s v)
    (ht : t = resealed { lapseReturns now v with boundariesDue := n, attention := line }) :
    (∀ c, t.comp c = if c ∈ taken then abandonedComp (s.comp c) now else s.comp c) ∧
    (∀ c, t.quoteOf c =
      if c ∈ V ∧ (s.comp c).state = .held ∧ (s.quoteOf c).any (quotePassed s) = true then none else s.quoteOf c) ∧
    t = resealed { s with
      ret := { s.ret with
        compartments := t.ret.compartments
        directory := s.ret.directory.map fun ways => ways.filter fun e => decide (e.compartment ∉ taken)
        outbox := s.ret.outbox ++ List.zipWith (fun n x => { sequence := n, notice := x })
          (List.iterate nextSequence s.ret.noticeSequence taken.length) (taken.filterMap (abandonedNotice s now))
        noticeSequence := nextSequence^[taken.length] s.ret.noticeSequence
        returns := s.ret.returns.filter fun e => e.inUse || now ≤ e.expiry }
      quotes := t.quotes
      alarms := if taken ≠ [] ∧ s.ret.outbox.length + s.ret.reservations + taken.length = 32 then
          (postAlarm .backlog 0 s).alarms else s.alarms
      attention := t.attention
      boundariesDue := n } := by
  have hc : t.ret.compartments = v.ret.compartments := by rw [ht]; rfl
  have hq : t.quotes = v.quotes := by rw [ht]; rfl
  have hl : t.attention = line := by rw [ht]; rfl
  refine ⟨fun c => ?_, fun c => ?_, ?_⟩
  · rw [State.comp, hc]; exact sc.comps c
  · rw [State.quoteOf, hq]; exact sc.quotes c
  · rw [hc, hq, hl, ht]
    exact congrArg (fun u : State => resealed { u with boundariesDue := n, attention := line }) (scanned_lapse sc)

end Sys2Proof.Machine
end

