-- ==== Sys2Proof/Laws/Answers.lean ====
section
/-! SUPPORT. What the end of an event changes at most, and the state that an answered request leaves. -/

namespace Sys2Proof.Machine

theorem setRate_segments (g : SegNo) (s : State) : setRate g s = { s with segments := (setRate g s).segments } := by
  unfold setRate startSweep sendPoll; dsimp only
  repeat' split
  all_goals rfl

/-- Bringing the rate modes in step changes the segments alone (R178). -/
theorem setRates_segments (s : State) : setRates s = { s with segments := (setRates s).segments } := by
  have (gs : List SegNo) (s : State) :
      gs.foldl (fun s g => setRate g s) s = { s with segments := (gs.foldl (fun s g => setRate g s) s).segments } := by
    induction gs generalizing s with
    | nil => rfl
    | cons g gs ih => rw [List.foldl_cons, ih, setRate_segments g s]
  exact this _ s

/-- The end of an event changes the segments, the attention line and the check word alone. -/
theorem settle_eq (s : State) :
    settle s = { s with
      segments := (settle s).segments, attention := attentionLevel s, checkWord := Config.retentionCheck s.ret } := by
  have h : settle s = { setRates s with
      attention := attentionLevel (setRates s), checkWord := Config.retentionCheck (setRates s).ret } := rfl
  rw [h, setRates_segments s]; rfl

@[simp] theorem startSweep_counter (g h : SegNo) (s : State) :
    ((startSweep g s).seg h).sweepCounter = (s.seg h).sweepCounter := by
  by_cases ne : h = g
  · subst ne; unfold startSweep; dsimp only; split <;> simp [sendPoll]
  · rw [startSweep_seg_other s ne]

theorem setRate_counter (g h : SegNo) (s : State) : ((setRate g s).seg h).sweepCounter = (s.seg h).sweepCounter := by
  by_cases ne : h = g
  · subst ne; unfold setRate; dsimp only; split
    · simp
    · split <;> simp
    · rfl
  · rw [(setRate_frame g s).2.2.2.2 h ne]

/-- The end of an event leaves the strikes and the sweep counters alone (R178). -/
theorem keepsStrikes_settle (s : State) : KeepsStrikes s (settle s) := fun h => by
  have counters (gs : List SegNo) (s : State) :
      ((gs.foldl (fun s g => setRate g s) s).seg h).sweepCounter = (s.seg h).sweepCounter := by
    induction gs generalizing s with
    | nil => rfl
    | cons g gs ih => rw [List.foldl_cons, ih, setRate_counter]
  have f := (settle_frame s).2.2.2.2.2 h
  exact ⟨f.1, f.2, counters _ s⟩

/-- The state in which the owner of a request answers it: its frame is taken, and a kiosk's request has moved
the kiosk idle deadline (R210, R178). -/
def taken (r : Request) (s : State) : State := { s with receive := s.receive.tail, kioskIdle := idleAfter s r }

/-- A ready request ends with the owner's state, its reply queued; beyond that only segments, the attention line
and the check word differ. -/
theorem request_answered {kind : Nat} {r : Request} {s : State} (ready : Ready kind r s) (own : State → Answer)
    {a : Answer} (answer : own (taken r s) = a) :
    Completes (request (BitVec.ofNat 8 kind) r s own) fun t =>
      (∀ h, (t.seg h).queue = (a.state.seg h).queue ∧ (t.seg h).active = (a.state.seg h).active
          ∧ (t.seg h).sweepCounter = (a.state.seg h).sweepCounter)
        ∧ t = { a.state with
            transmit := a.state.transmit ++ replyTo a.state kind r a.status a.body
            segments := t.segments, attention := attentionLevel a.state
            checkWord := Config.retentionCheck a.state.ret } := by
  have start : touchIdle r { s with receive := s.receive.tail } = taken r s := touchIdle_eq r _
  refine ⟨_, request_ready ready own, ?_⟩
  rw [start, answer, sendReply_eq]
  exact ⟨keepsStrikes_settle _, settle_eq _⟩

/-- A ready request whose owner changes at most the kiosks' records: it is answered, with no other effect. -/
theorem request_replied {kind : Nat} {r : Request} {s : State} (ready : Ready kind r s) (h : Settled s)
    (own : State → Answer) {kiosks : Vector Kiosk 4} {status : Status} {body : List Byte}
    (answer : own (taken r s) = { state := { taken r s with kiosks }, status, body }) :
    Completes (request (BitVec.ofNat 8 kind) r s own) (Replied kind r status body kiosks s) := by
  obtain ⟨t, run, strikes, same⟩ := request_answered ready own answer
  obtain ⟨check, line, -⟩ := h.running ready.1
  refine ⟨t, run, strikes, same.trans ?_⟩
  have e : attentionLevel { taken r s with kiosks } = s.attention := line.symm
  have f : Config.retentionCheck ({ taken r s with kiosks } : State).ret = s.checkWord := check.symm
  dsimp only at e f ⊢
  rw [e, f]; rfl

/-- A ready request whose owner refuses it after it has taken a slot that it has released again, with whatever else it
has changed of the retained state and the kiosks (R212). -/
theorem request_refused {kind : Nat} {r : Request} {s u : State} {status : Status} {kiosks : Vector Kiosk 4}
    (ready : Ready kind r s) (own : State → Answer) (answer : own (taken r s) = refuse u status)
    (frame : u = { taken r s with kiosks, ret := u.ret, alarms := (takeSlot s).alarms }) :
    Completes (request (BitVec.ofNat 8 kind) r s own) fun t =>
      KeepsStrikes s t
        ∧ t = { answered kind r status [] s with
            kiosks, ret := u.ret, checkWord := Config.retentionCheck u.ret
            segments := t.segments, alarms := (takeSlot s).alarms, attention := t.attention } := by
  obtain ⟨t, run, strikes, same⟩ := request_answered ready own answer
  have e : (refuse u status).state = u := rfl
  rw [e] at strikes same
  have line : t.attention = attentionLevel u := by rw [same]
  generalize u.ret = ret at frame same ⊢
  refine ⟨t, run, fun h => ?_, same.trans ?_⟩
  · rw [frame] at strikes; exact strikes h
  · rw [line]
    generalize attentionLevel u = level
    rw [frame]; rfl

theorem countFailure_below {k : KioskNo} {s : State} (few : (s.kiosk k).failures < 5) (free : (s.kiosk k).lockout = none) :
    countFailure k s = { s with
      kiosks := put s.kiosks k { s.kiosk k with
        failures := (s.kiosk k).failures + 1
        lockout := if (s.kiosk k).failures = 4 then some (s.elapsed + 60) else none }
      alarms := if (s.kiosk k).failures = 4 then (postAlarm .lockout k.val s).alarms else s.alarms } := by
  unfold countFailure; dsimp only
  by_cases h : (s.kiosk k).failures = 4
  · rw [if_neg (by omega), if_pos h, if_pos h, if_pos h, h, postAlarm_eq,
      postAlarm_alarms_congr (t := s.setKiosk k _) (s := s) rfl rfl]
    rfl
  · rw [if_pos (by omega), if_neg h, if_neg h, ← free]; rfl

/-- A ready request that its owner refuses with a failure of the kiosk (R41, R42). -/
theorem request_failed {kind : Nat} {r : Request} {s : State} {k : KioskNo} {status : Status} (ready : Ready kind r s)
    (own : State → Answer) (few : (s.kiosk k).failures < 5) (free : (s.kiosk k).lockout = none)
    (answer : own (taken r s) = refuse (countFailure k (taken r s)) status) :
    Completes (request (BitVec.ofNat 8 kind) r s own) (FailureCounted kind r status k s) := by
  have count := countFailure_below (k := k) (s := taken r s) few free
  rw [postAlarm_alarms_congr (t := taken r s) (s := s) rfl rfl] at count
  rw [count] at answer
  obtain ⟨t, run, strikes, same⟩ := request_answered ready own answer
  have alarms : t.alarms = if (s.kiosk k).failures = 4 then (postAlarm .lockout k.val s).alarms else s.alarms := by
    rw [same]; rfl
  refine ⟨t, run, same.trans (by rw [same]; rfl), strikes, fun h => ?_, fun h => ?_⟩
  · rw [alarms, if_pos h]
    unfold postAlarm
    split
    next there => simpa using there
    next => exact ⟨_, List.mem_append_right _ (List.mem_singleton_self _), rfl, rfl⟩
  · rw [alarms, if_neg (by omega)]

/-! ### Courier requests -/

theorem touchSession_taken (r : Request) (k : KioskNo) (s : State) :
    touchSession k (taken r s) = { taken r s with kiosks := touchedKiosks k s } := by
  unfold touchSession touchedKiosks
  have : sessionOf (taken r s) k = (s.kiosk k).session := rfl
  rw [this]
  cases (s.kiosk k).session <;> rfl

/-- A courier request from a kiosk with a well-formed body reaches its owner after the session's activity has been
noted (R99, R211). -/
theorem courierRequest_taken {α : Type} {r : Request} {k : KioskNo} {s : State} {parsed : Option α} {x : α}
    (source : r.source = .kiosk k) (body : parsed = some x) (own : KioskNo → α → State → Answer) :
    courierRequest r parsed (taken r s) own = own k x { taken r s with kiosks := touchedKiosks k s } := by
  unfold courierRequest fromKiosk
  rw [source]; dsimp only
  rw [touchSession_taken, body]; rfl

/-- What the note of a session's activity leaves of its kiosk (R99). -/
theorem touchedKiosks_own (k : KioskNo) (s : State) :
    look (touchedKiosks k s) k = { s.kiosk k with
      session := (s.kiosk k).session.map fun x => { x with deadline := s.elapsed + 120 } } := by
  unfold touchedKiosks
  cases h : (s.kiosk k).session with
  | none => show s.kiosk k = _; cases e : s.kiosk k; rw [e] at h; cases h; rfl
  | some x => exact look_put_same ..

end Sys2Proof.Machine
end

