-- ==== Sys2Proof/Laws/Endings.lean ====
section
/-! SUPPORT. What the end of a transaction does: the reports to the session, the door result, and the
compartment's own record. -/

namespace Sys2Proof.Machine

/-! ### Reports -/

/-- A declaration's outcome touches only the slot of its kiosk (R108). -/
theorem reportOutcome_frame (c : CompNo) (k : KioskNo) (serial n : Nat) (o : DeclOutcome) (s : State) :
    reportOutcome c k serial n o s = { s with kiosks := (reportOutcome c k serial n o s).kiosks }
      ∧ KeepsOtherKiosks k s (reportOutcome c k serial n o s) := by
  unfold reportOutcome
  split
  · split
    · split
      · exact ⟨rfl, fun j hj => kiosk_setSession_other hj ..⟩
      · exact ⟨rfl, fun _ _ => rfl⟩
    · exact ⟨rfl, fun _ _ => rfl⟩
  · exact ⟨rfl, fun _ _ => rfl⟩

theorem outcomeReported (c : CompNo) (k : KioskNo) (serial n : Nat) (o : DeclOutcome) (s : State) :
    OutcomeReported c k serial n o s (reportOutcome c k serial n o s) := by
  unfold reportOutcome sessionOf
  refine ⟨fun h => by simp [h], fun y d hy hs hd => ?_⟩
  simp only [hy, hd, hs, if_true, kiosk_setSession_same]
  refine ⟨_, rfl, rfl, rfl, fun e he => ?_, rfl⟩
  have := (List.mem_filter.1 he).2
  simp only [Bool.not_eq_true', Bool.and_eq_false_imp, decide_eq_true_eq, decide_eq_false_iff_not] at this
  exact fun h => this h.1 h.2

theorem orEnded_some {w v : CourierSweep} : w.orEnded = some v ↔ w.entries ≠ [] ∧ w = v := by
  unfold CourierSweep.orEnded; split <;> simp_all

/-- What the end of a retrieval leaves alone (R146, R148). -/
structure Reported (c : CompNo) (k : KioskNo) (s t : State) : Prop where
  ret     : t.ret = { s.ret with compartments := t.ret.compartments, reservations := t.ret.reservations }
  rest    : t = { s with ret := t.ret, quotes := t.quotes, kiosks := t.kiosks, segments := t.segments
                         boards := t.boards, alarms := t.alarms }
  grows   : s.ret.reservations ≤ t.ret.reservations
  records : ∀ d, (t.comp d).map = (s.comp d).map ∧ (t.comp d).parcel = (s.comp d).parcel
  own     : KeepsComp s t c
  others  : KeepsOtherKiosks k s t
  lines   : KeepsLines s t
  spc     : KeepsSpc s t
  quiet   : NoNewStrike c s t
  keeps   : ∀ d, striking s d = true → striking t d = true
  alarms  : ∀ a ∈ s.alarms, a ∈ t.alarms

theorem reported (c : CompNo) (k : KioskNo) (serial : Nat) (retrieved : Bool) (s : State) :
    Reported c k s (reportRetrieval c k serial retrieved s)
      ∧ RetrievalReported c k serial retrieved s (reportRetrieval c k serial retrieved s) := by
  have same : Reported c k s s :=
    ⟨rfl, rfl, Nat.le_refl _, fun _ => ⟨rfl, rfl⟩, .refl s c, fun _ _ => rfl, .refl s, .of_segments rfl rfl, .of_segments rfl, fun _ hd => hd, fun _ ha => ha⟩
  unfold reportRetrieval sessionOf
  cases hx : (s.kiosk k).session with
  | none => exact ⟨same, fun _ => rfl, fun y w hy => by rw [hx] at hy; cases hy⟩
  | some x =>
    cases hw : x.sweep with
    | none =>
      dsimp only; rw [hw]
      refine ⟨same, fun h => absurd (hx.symm.trans h) (by simp), fun y w hy _ hv => ?_⟩
      cases hx.symm.trans hy; rw [hw] at hv; cases hv
    | some w =>
      simp only [hw]
      split
      next cond =>
        generalize hv : CourierSweep.orEnded _ = v
        generalize hz : (some { x with deadline := s.elapsed + 120, sweep := v } : Option Session) = z
        have p := picked_applyPickup k (setSession k z s)
        have gone : ∀ u, v = some u → ∀ e ∈ u.entries, e.compartment ≠ c := by
          intro u hu e he
          rw [hu] at hv
          obtain ⟨-, rfl⟩ := orEnded_some.1 hv
          simpa using (List.mem_filter.1 he).2
        constructor
        · have unlisted : ¬ Listed k (setSession k z s) c := by
            rintro ⟨y, u, hy, hu, e, he, rfl⟩
            simp only [kiosk_setSession_same, ← hz] at hy
            cases hy
            exact gone u hu e he rfl
          refine ⟨p.ret, p.rest, p.grows, p.records, p.comps c unlisted, ?_, p.lines.after rfl,
            (KeepsSpc.of_segments (s := s) (t := setSession k z s) rfl rfl).trans p.spc, p.quiet c unlisted,
            p.keeps, p.alarms⟩
          exact fun j hj => (p.others j hj).trans (kiosk_setSession_other hj ..)
        · refine ⟨fun h => absurd (hx.symm.trans h) (by simp), fun y u hy hs hu _ => ?_⟩
          cases hx.symm.trans hy; cases hw.symm.trans hu
          obtain ⟨sweep, ht, hn, hk⟩ := p.session { x with deadline := s.elapsed + 120, sweep := v } (by simp [← hz])
          refine ⟨_, ht, rfl, rfl, fun he => hn ?_, fun u' hu' => ?_⟩
          · rw [← hv]; unfold CourierSweep.orEnded; rw [if_pos he]
          · cases hvv : v with
            | none => rw [hn hvv] at hu'; cases hu'
            | some m =>
              obtain ⟨a, b, e⟩ := hk m u' hvv hu'
              rw [hvv] at hv
              obtain ⟨-, rfl⟩ := orEnded_some.1 hv
              refine ⟨fun f hf => ?_, a, b⟩
              obtain ⟨n, hn', eq⟩ := e f hf
              rw [← eq]; exact gone _ hvv n hn'
      next cond =>
        refine ⟨same, fun h => absurd (hx.symm.trans h) (by simp), fun y u hy hs hu he => ?_⟩
        cases hx.symm.trans hy; cases hw.symm.trans hu
        refine absurd ⟨hs, ?_⟩ cond
        simpa [List.any_eq_true] using he

theorem noteDoor_frame (st : CompState) (c : CompNo) (x : Transient) (o : DoorOutcome) (s : State) :
    noteDoor st c x o s = { s with kiosks := (noteDoor st c x o s).kiosks }
      ∧ KeepsOtherKiosks x.kiosk s (noteDoor st c x o s)
      ∧ (noteDoor st c x o s).kiosk x.kiosk =
          if st = .reconcile ∨ x.resolved = true then s.kiosk x.kiosk
          else { s.kiosk x.kiosk with
            doorResult := some { compartment := c, purpose := x.particulars.purpose, outcome := o } } := by
  unfold noteDoor
  split
  · exact ⟨rfl, fun _ _ => rfl, rfl⟩
  · exact ⟨rfl, fun j hj => kiosk_setDoorResult_other hj .., by simp⟩

/-! ### The end of a transaction -/

theorem Ending.state_eq (e : Ending) (x : Transient) (p : Option Parcel) :
    e.state x p = endedState e x.particulars p := by
  unfold Ending.state endedState revertedState
  cases e <;> cases x.particulars <;> rfl

theorem returns_freeReturn (n p : Nat) (s : State) : (freeReturn n p s).ret.returns = freedReturns n p s := by
  unfold freeReturn changeReturn freedReturns; dsimp only
  induction s.ret.returns with
  | nil => rfl
  | cons e l ih =>
    rw [List.map_cons, ← ih, List.filterMap_cons]
    split
    next h => split at h <;> cases h
    next h => split at h <;> cases h <;> simp [*]

theorem keepsComp_of_eq {s t : State} {c : CompNo} (h : t.comp c = s.comp c) (q : t.quoteOf c = s.quoteOf c) :
    KeepsComp s t c := ⟨by rw [h], by rw [h], by rw [h], by rw [h]; exact sameButMark_refl _, q⟩

theorem comp_of_ret {s t : State} (h : t.ret = s.ret) (c : CompNo) : t.comp c = s.comp c := by
  rw [State.comp, h]; rfl

theorem quoteOf_of_quotes {s t : State} (h : t.quotes = s.quotes) (c : CompNo) : t.quoteOf c = s.quoteOf c := by
  rw [State.quoteOf, h]; rfl

/-- Where one compartment's record has been replaced, and no other quote, every other compartment is as it
was. -/
theorem replaced {c : CompNo} {y : Compartment} {s t : State}
    (comps : t.ret.compartments = put s.ret.compartments c y) (quotes : ∀ d, d ≠ c → t.quoteOf d = s.quoteOf d) :
    t.comp c = y ∧ KeepsOtherComps c s t := by
  refine ⟨by rw [State.comp, comps, look_put_same], fun d hd => keepsComp_of_eq ?_ (quotes d hd)⟩
  rw [State.comp, comps, look_put_other _ _ hd]; rfl

/-- The end of a transaction without its door phase (R14, R15, R20). -/
theorem reverted_endTransaction (e : Ending) (c : CompNo) (x : Transient) (s : State)
    (h : (s.comp c).transient = some x) : Reverted e c x s (endTransaction e c s) := by
  unfold endTransaction
  simp only [h]
  generalize hy : ({ s.comp c with state := e.state x (s.comp c).parcel, transient := none } : Compartment) = y
  have state : y.state = endedState e x.particulars (s.comp c).parcel := by rw [← hy]; exact e.state_eq x _
  have transient : y.transient = none := by rw [← hy]
  have parcel : y.parcel = (s.comp c).parcel := by rw [← hy]
  have map : y.map = (s.comp c).map := by rw [← hy]
  have quote (d : CompNo) (hd : d ≠ c) : ((s.setComp c y).setQuote c none).quoteOf d = s.quoteOf d := by
    rw [State.quoteOf_setQuote, if_neg hd]; rfl
  have own : ((s.setComp c y).setQuote c none).quoteOf c = none := State.quoteOf_setQuote_same ..
  cases hp : x.particulars with
  | deposit serial number courier reference prepaid =>
    dsimp only
    have f := reportOutcome_frame c x.kiosk serial number (if e = .jammed then .jammed else .cancelled)
      (removeEntry c (releaseSlot ((s.setComp c y).setQuote c none)))
    have o := outcomeReported c x.kiosk serial number (if e = .jammed then .jammed else .cancelled)
      (removeEntry c (releaseSlot ((s.setComp c y).setQuote c none)))
    generalize reportOutcome _ _ _ _ _ _ = t at f o ⊢
    obtain ⟨f, k⟩ := f
    have ret := congrArg State.ret f
    have quotes := quoteOf_of_quotes (congrArg State.quotes f)
    obtain ⟨hc, ho⟩ := replaced (c := c) (y := y) (s := s) (t := t) (by rw [ret]; rfl)
      fun d hd => (quotes d).trans (quote d hd)
    unfold Reverted
    rw [hc]
    refine ⟨by rw [state], transient, parcel, map, (quotes c).trans own, ⟨by rw [ret]; rfl, by rw [ret]; rfl⟩, k, ?_⟩
    simp only [hp]
    exact ⟨by rw [ret]; rfl, by rw [ret]; rfl, ⟨by rw [ret]; rfl, ho⟩, o⟩
  | drop courier reference paid =>
    dsimp only
    have f := noteDoor_frame (s.comp c).state c x e.doorOutcome
      (freeReturn reference paid (releaseSlot ((s.setComp c y).setQuote c none)))
    generalize noteDoor _ _ _ _ _ = t at f ⊢
    obtain ⟨f, k, o⟩ := f
    have ret := congrArg State.ret f
    have quotes := quoteOf_of_quotes (congrArg State.quotes f)
    obtain ⟨hc, ho⟩ := replaced (c := c) (y := y) (s := s) (t := t) (by rw [ret]; rfl)
      fun d hd => (quotes d).trans (quote d hd)
    unfold Reverted
    rw [hc]
    refine ⟨by rw [state], transient, parcel, map, (quotes c).trans own, ⟨by rw [ret]; rfl, by rw [ret]; rfl⟩, k, ?_⟩
    simp only [hp]
    refine ⟨by rw [ret]; rfl, by rw [ret]; exact returns_freeReturn .., ⟨by rw [ret]; rfl, ho⟩, ?_⟩
    unfold DoorNoted
    rw [o, hp]
    cases e <;> rfl
  | collect =>
    dsimp only
    have f := noteDoor_frame (s.comp c).state c x e.doorOutcome
      (if e = .cancelled then setEntryStatus c .live (releaseSlot ((s.setComp c y).setQuote c none))
        else releaseSlot ((s.setComp c y).setQuote c none))
    generalize noteDoor _ _ _ _ _ = t at f ⊢
    obtain ⟨f, k, o⟩ := f
    have ret := congrArg State.ret f
    have quotes := quoteOf_of_quotes (congrArg State.quotes f)
    obtain ⟨hc, ho⟩ := replaced (c := c) (y := y) (s := s) (t := t) (by rw [ret]; dsimp only; split <;> rfl)
      fun d hd => (quotes d).trans (by split <;> exact quote d hd)
    unfold Reverted
    rw [hc]
    refine ⟨by rw [state], transient, parcel, map, (quotes c).trans (by split <;> exact own),
      ⟨by rw [ret]; dsimp only; split <;> rfl, by rw [ret]; dsimp only; split <;> rfl⟩, ?_, ?_⟩
    · intro j hj
      rw [k j hj]; split <;> rfl
    · simp only [hp]
      refine ⟨?_, by rw [ret]; dsimp only; split <;> rfl, ⟨by rw [ret]; dsimp only; split <;> rfl, ho⟩, ?_⟩
      · rw [ret]; cases e <;> rfl
      · unfold DoorNoted
        rw [o, hp]
        cases e <;> rfl
  | retrieve serial courier =>
    dsimp only
    have f := reported c x.kiosk serial false (releaseSlot ((s.setComp c y).setQuote c none))
    generalize reportRetrieval _ _ _ _ _ = t at f ⊢
    obtain ⟨f, o⟩ := f
    have ret := f.ret
    obtain ⟨m, st, p, tr, q⟩ := f.own
    have hc : (releaseSlot ((s.setComp c y).setQuote c none)).comp c = y := State.comp_setComp_same ..
    rw [hc] at m st p tr
    unfold Reverted
    refine ⟨by rw [st, state], ?_, by rw [p, parcel], by rw [m, map], q.trans own,
      ⟨by rw [ret]; rfl, by rw [ret]; rfl⟩, f.others, ?_⟩
    · rw [transient] at tr
      cases ht : (t.comp c).transient with
      | none => rfl
      | some z => rw [ht] at tr; cases tr
    · simp only [hp]
      refine ⟨by rw [ret]; rfl, by rw [ret]; rfl, ⟨f.grows, fun d hd => ?_⟩, o⟩
      have r := f.records d
      have : (releaseSlot ((s.setComp c y).setQuote c none)).comp d = s.comp d := by
        show (s.setComp c y).comp d = _
        rw [State.comp_setComp, if_neg hd]
      rwa [this] at r

/-! ### Close handling -/

theorem returns_removed (n : Nat) (s : State) :
    (changeReturn n (fun _ => none) s).ret.returns = s.ret.returns.filter (·.reference ≠ n) := by
  unfold changeReturn; dsimp only
  induction s.ret.returns with
  | nil => rfl
  | cons e l ih =>
    rw [List.filterMap_cons, List.filter_cons, ← ih]
    by_cases h : e.reference = n <;> simp [h]

theorem put_setAjar (c : CompNo) (s : State) : look (s.setAjar c none).ajar c = none := look_put_same ..

/-- Close handling (R16, R17, R18). -/
theorem closed_closeHandling (c : CompNo) (x : Transient) (occupied : Bool) (s : State)
    (h : (s.comp c).transient = some x) : Closed c x occupied s (closeHandling c occupied s) := by
  unfold closeHandling
  simp only [h]
  cases hp : x.particulars with
  | deposit serial number courier reference prepaid =>
    cases occupied with
    | true =>
      dsimp only
      generalize hn : Notice.deposited c courier reference _ _ prepaid = n
      generalize hy : ({ s.comp c with state := .held, transient := none, parcel := _ } : Compartment) = y
      have f := reportOutcome_frame c x.kiosk serial number .committed
        (fillSlot n (setEntryStatus c .live ((s.setAjar c none).setComp c y)))
      have o := outcomeReported c x.kiosk serial number .committed
        (fillSlot n (setEntryStatus c .live ((s.setAjar c none).setComp c y)))
      generalize reportOutcome _ _ _ _ _ _ = t at f o ⊢
      obtain ⟨f, k⟩ := f
      have ret := congrArg State.ret f
      obtain ⟨hc, ho⟩ := replaced (c := c) (y := y) (s := s) (t := t) (by rw [ret]; rfl)
        fun d _ => quoteOf_of_quotes (congrArg State.quotes f) d
      unfold Closed
      rw [hc]
      refine ⟨by rw [← hy], by rw [← hy], (congrArg (fun u => look u.ajar c) f).trans (put_setAjar c s), k, ?_⟩
      simp only [hp]
      refine ⟨?_, by rw [ret]; rfl, ⟨by rw [ret]; rfl, ho⟩, o⟩
      unfold DepositClosed
      rw [if_pos rfl]
      refine ⟨by rw [hc, ← hy], by rw [ret]; rfl, fun row code hrow hcode => ?_⟩
      have record : committedDelivery (s.setAjar c none) c courier reference prepaid =
          { reference, courier, depositTime := s.clock, snapshot := row, prepaid, paid := 0, code := some code,
            abandonedTime := none } := by
        show committedDelivery s c courier reference prepaid = _
        simp [committedDelivery, hrow, hcode]
      refine ⟨by rw [hc, ← hy, record], ?_⟩
      rw [record] at hn
      subst hn
      exact ⟨by rw [ret]; rfl, by rw [ret]; rfl⟩
    | false =>
      dsimp only
      generalize hy : ({ s.comp c with state := .vacant, transient := none } : Compartment) = y
      have f := reportOutcome_frame c x.kiosk serial number .abortedEmpty
        (releaseSlot (removeEntry c ((s.setAjar c none).setComp c y)))
      have o := outcomeReported c x.kiosk serial number .abortedEmpty
        (releaseSlot (removeEntry c ((s.setAjar c none).setComp c y)))
      generalize reportOutcome _ _ _ _ _ _ = t at f o ⊢
      obtain ⟨f, k⟩ := f
      have ret := congrArg State.ret f
      obtain ⟨hc, ho⟩ := replaced (c := c) (y := y) (s := s) (t := t) (by rw [ret]; rfl)
        fun d _ => quoteOf_of_quotes (congrArg State.quotes f) d
      unfold Closed
      rw [hc]
      refine ⟨by rw [← hy], by rw [← hy], (congrArg (fun u => look u.ajar c) f).trans (put_setAjar c s), k, ?_⟩
      simp only [hp]
      refine ⟨?_, by rw [ret]; rfl, ⟨by rw [ret]; rfl, ho⟩, o⟩
      unfold DepositClosed
      rw [if_neg Bool.false_ne_true]
      exact ⟨by rw [hc, ← hy], by rw [hc, ← hy], by rw [ret]; rfl, by rw [ret]; rfl, by rw [ret]; rfl⟩
  | drop courier reference paid =>
    cases occupied with
    | true =>
      dsimp only
      generalize hy : ({ s.comp c with state := .held, transient := none, parcel := _ } : Compartment) = y
      have f := noteDoor_frame (s.comp c).state c x .completed (fillSlot
        (.dropped c reference courier paid ((s.setAjar c none).setComp c y).clock)
        (changeReturn reference (fun _ => none) ((s.setAjar c none).setComp c y)))
      generalize noteDoor _ _ _ _ _ = t at f ⊢
      obtain ⟨f, k, o⟩ := f
      have ret := congrArg State.ret f
      obtain ⟨hc, ho⟩ := replaced (c := c) (y := y) (s := s) (t := t) (by rw [ret]; rfl)
        fun d _ => quoteOf_of_quotes (congrArg State.quotes f) d
      unfold Closed
      rw [hc]
      refine ⟨by rw [← hy], by rw [← hy], (congrArg (fun u => look u.ajar c) f).trans (put_setAjar c s), k, ?_⟩
      simp only [hp, if_true]
      refine ⟨by rw [ret]; rfl, ⟨by rw [ret]; rfl, ho⟩, ⟨by rw [← hy], by rw [← hy]; rfl, ?_, ?_⟩, ?_⟩
      · rw [ret]; exact returns_removed ..
      · exact ⟨by rw [ret]; rfl, by rw [ret]; rfl⟩
      · unfold DoorNoted; rw [o, hp]; rfl
    | false =>
      dsimp only
      generalize hy : ({ s.comp c with state := .vacant, transient := none } : Compartment) = y
      have f := noteDoor_frame (s.comp c).state c x .incomplete
        (releaseSlot (freeReturn reference paid ((s.setAjar c none).setComp c y)))
      generalize noteDoor _ _ _ _ _ = t at f ⊢
      obtain ⟨f, k, o⟩ := f
      have ret := congrArg State.ret f
      obtain ⟨hc, ho⟩ := replaced (c := c) (y := y) (s := s) (t := t) (by rw [ret]; rfl)
        fun d _ => quoteOf_of_quotes (congrArg State.quotes f) d
      unfold Closed
      rw [hc]
      refine ⟨by rw [← hy], by rw [← hy], (congrArg (fun u => look u.ajar c) f).trans (put_setAjar c s), k, ?_⟩
      simp only [hp, Bool.false_eq_true, if_false]
      refine ⟨by rw [ret]; rfl, ⟨by rw [ret]; rfl, ho⟩,
        ⟨by rw [← hy], by rw [← hy], ?_, by rw [ret]; rfl, by rw [ret]; rfl⟩, ?_⟩
      · rw [ret]; exact returns_freeReturn ..
      · unfold DoorNoted; rw [o, hp]; rfl
  | collect =>
    cases occupied with
    | true =>
      dsimp only
      generalize hy : ({ s.comp c with state := .held, transient := none } : Compartment) = y
      have f := noteDoor_frame (s.comp c).state c x .incomplete
        (releaseSlot (setEntryStatus c .live ((s.setAjar c none).setComp c y)))
      generalize noteDoor _ _ _ _ _ = t at f ⊢
      obtain ⟨f, k, o⟩ := f
      have ret := congrArg State.ret f
      obtain ⟨hc, ho⟩ := replaced (c := c) (y := y) (s := s) (t := t) (by rw [ret]; rfl)
        fun d _ => quoteOf_of_quotes (congrArg State.quotes f) d
      unfold Closed
      rw [hc]
      refine ⟨by rw [← hy], by rw [← hy], (congrArg (fun u => look u.ajar c) f).trans (put_setAjar c s), k, ?_⟩
      simp only [hp, if_true]
      refine ⟨by rw [ret]; rfl, ⟨by rw [ret]; rfl, ho⟩, ⟨by rw [← hy], by rw [← hy], by rw [ret]; rfl,
        by rw [ret]; rfl, by rw [ret]; rfl⟩, ?_⟩
      unfold DoorNoted; rw [o, hp]; rfl
    | false =>
      dsimp only
      generalize hy : ({ s.comp c with state := .vacant, transient := none, parcel := none } : Compartment) = y
      generalize hr : (noticeCollected c (s.comp c).parcel ((s.setAjar c none).setComp c y)) = r
      have f := noteDoor_frame (s.comp c).state c x .completed (removeEntry c r)
      generalize noteDoor _ _ _ _ _ = t at f ⊢
      obtain ⟨f, k, o⟩ := f
      have ret := congrArg State.ret f
      have rk : r.kiosks = s.kiosks := by subst hr; unfold noticeCollected; split <;> rfl
      have rq : r.quotes = s.quotes := by subst hr; unfold noticeCollected; split <;> rfl
      have ra : r.ajar = (s.setAjar c none).ajar := by subst hr; unfold noticeCollected; split <;> rfl
      have rc : r.ret.compartments = put s.ret.compartments c y := by subst hr; unfold noticeCollected; split <;> rfl
      have rd : r.ret.directory = s.ret.directory := by subst hr; unfold noticeCollected; split <;> rfl
      have rr : r.ret.returns = s.ret.returns := by subst hr; unfold noticeCollected; split <;> rfl
      have rs : r.ret.reservations = s.ret.reservations - 1 := by subst hr; unfold noticeCollected; split <;> rfl
      have rkk (j : KioskNo) : r.kiosk j = s.kiosk j := by rw [State.kiosk, rk]; rfl
      obtain ⟨hc, ho⟩ := replaced (c := c) (y := y) (s := s) (t := t) (by rw [ret]; exact rc)
        fun d _ => quoteOf_of_quotes ((congrArg State.quotes f).trans rq) d
      unfold Closed
      rw [hc]
      refine ⟨by rw [← hy], by rw [← hy], ?_, fun j hj => (k j hj).trans (rkk j), ?_⟩
      · have := congrArg State.ajar f
        rw [show t.ajar = r.ajar from this, ra]; exact put_setAjar c s
      simp only [hp, Bool.false_eq_true, if_false]
      refine ⟨by rw [ret]; exact rr, ⟨by rw [ret]; exact rs, ho⟩, ⟨by rw [← hy], by rw [← hy], ?_, ?_⟩, ?_⟩
      · rw [ret]; simp only [removeEntry, changeEntry]; rw [rd]
      · intro d hd
        rw [hd] at hr
        subst hr
        exact ⟨by rw [ret]; rfl, by rw [ret]; rfl⟩
      · unfold DoorNoted; rw [o, hp, show (removeEntry c r).kiosk x.kiosk = s.kiosk x.kiosk from rkk _]
  | retrieve serial courier => 
    cases occupied with
    | true =>
      dsimp only
      generalize hy : ({ s.comp c with state := restedState _, transient := none } : Compartment) = y
      have f := reported c x.kiosk serial false (releaseSlot ((s.setAjar c none).setComp c y))
      generalize reportRetrieval _ _ _ _ _ = t at f ⊢
      obtain ⟨f, o⟩ := f
      have ret := f.ret
      obtain ⟨m, st, p, tr, q⟩ := f.own
      have hc : (releaseSlot ((s.setAjar c none).setComp c y)).comp c = y := State.comp_setComp_same ..
      rw [hc] at m st p tr
      unfold Closed
      refine ⟨?_, by rw [m, ← hy], (congrArg (fun u => look u.ajar c) f.rest).trans (put_setAjar c s), f.others, ?_⟩
      · rw [← hy] at tr
        cases ht : (t.comp c).transient with
        | none => rfl
        | some z => rw [ht] at tr; cases tr
      simp only [hp, if_true]
      refine ⟨by rw [ret]; rfl, by rw [ret]; rfl, ⟨f.grows, fun d hd => ?_⟩,
        ⟨by rw [st, ← hy], by rw [p, ← hy], by rw [ret]; rfl, by rw [ret]; rfl⟩, o⟩
      have r := f.records d
      have : (releaseSlot ((s.setAjar c none).setComp c y)).comp d = s.comp d := by
        show ((s.setAjar c none).setComp c y).comp d = _
        rw [State.comp_setComp, if_neg hd]; rfl
      rwa [this] at r
    | false =>
      dsimp only
      generalize hy : ({ s.comp c with state := .vacant, transient := none, parcel := none } : Compartment) = y
      generalize hr : (noticeRetrieved c courier (s.comp c).parcel ((s.setAjar c none).setComp c y)) = r
      have rk (j : KioskNo) : r.kiosk j = s.kiosk j := by subst hr; unfold noticeRetrieved; split <;> rfl
      have re : r.elapsed = s.elapsed := by subst hr; unfold noticeRetrieved; split <;> rfl
      have ra : r.ajar = (s.setAjar c none).ajar := by subst hr; unfold noticeRetrieved; split <;> rfl
      have rc : r.ret.compartments = put s.ret.compartments c y := by subst hr; unfold noticeRetrieved; split <;> rfl
      have rd : r.ret.directory = s.ret.directory := by subst hr; unfold noticeRetrieved; split <;> rfl
      have rr : r.ret.returns = s.ret.returns := by subst hr; unfold noticeRetrieved; split <;> rfl
      have rs : r.ret.reservations = s.ret.reservations - 1 := by subst hr; unfold noticeRetrieved; split <;> rfl
      have f := reported c x.kiosk serial true r
      generalize reportRetrieval _ _ _ _ _ = t at f ⊢
      obtain ⟨f, o⟩ := f
      have ret := f.ret
      obtain ⟨m, st, p, tr, q⟩ := f.own
      have hc : r.comp c = y := by rw [State.comp, rc, look_put_same]
      rw [hc] at m st p tr
      unfold Closed
      refine ⟨?_, by rw [m, ← hy], ?_, fun j hj => (f.others j hj).trans (rk j), ?_⟩
      · rw [← hy] at tr
        cases ht : (t.comp c).transient with
        | none => rfl
        | some z => rw [ht] at tr; cases tr
      · rw [show t.ajar = r.ajar by rw [f.rest], ra]; exact put_setAjar c s
      simp only [hp, Bool.false_eq_true, if_false]
      refine ⟨by rw [ret]; exact rd, by rw [ret]; exact rr, ⟨?_, fun d hd => ?_⟩,
        ⟨by rw [st, ← hy], by rw [p, ← hy], fun d hd => ?_, fun d hd => ?_⟩, ?_⟩
      · rw [← rs]; exact f.grows
      · have := f.records d
        rwa [State.comp, State.comp, rc, look_put_other _ _ hd] at this
      · rw [hd] at hr; subst hr; exact ⟨by rw [ret]; rfl, by rw [ret]; rfl⟩
      · rw [hd] at hr; subst hr; exact ⟨by rw [ret]; rfl, by rw [ret]; rfl⟩
      · unfold RetrievalReported at o ⊢
        rwa [rk, re] at o

/-! ### What endings leave alone -/

/-- What the end of a transaction leaves alone beside its compartment's kiosk and records: the lines of every
board, the strikes, of which it adds none for the compartment, and the alarms that are pending. -/
structure Aside (c : CompNo) (s t : State) : Prop where
  lines  : KeepsLines s t
  spc : KeepsSpc s t
  quiet  : NoNewStrike c s t
  keeps  : ∀ d, striking s d = true → striking t d = true
  alarms : ∀ a ∈ s.alarms, a ∈ t.alarms

theorem Aside.trans {c : CompNo} {s t u : State} (h : Aside c s t) (k : Aside c t u) : Aside c s u where
  lines := h.lines.trans k.lines
  spc := h.spc.trans k.spc
  quiet := h.quiet.trans k.quiet
  keeps d hd := k.keeps d (h.keeps d hd)
  alarms a ha := k.alarms a (h.alarms a ha)

theorem Aside.of_eq {c : CompNo} {s t : State} (boards : t.boards = s.boards) (segments : t.segments = s.segments)
    (alarms : t.alarms = s.alarms) (declaring : t.declaring = s.declaring) : Aside c s t :=
  ⟨.of_boards boards, .of_segments declaring segments, .of_segments segments, fun d hd => by rwa [striking_congr segments], fun a ha => by rwa [alarms]⟩

theorem Aside.after {c : CompNo} {s t u : State} (k : Aside c t u) (boards : t.boards = s.boards)
    (segments : t.segments = s.segments) (alarms : t.alarms = s.alarms) (declaring : t.declaring = s.declaring) :
    Aside c s u := (Aside.of_eq boards segments alarms declaring).trans k

theorem aside_reportOutcome (d c : CompNo) (k : KioskNo) (serial n : Nat) (o : DeclOutcome) (s : State) :
    Aside d s (reportOutcome c k serial n o s) := by
  have f := (reportOutcome_frame c k serial n o s).1
  exact .of_eq (by rw [f]) (by rw [f]) (by rw [f]) (by rw [f])

theorem aside_noteDoor (d : CompNo) (st : CompState) (c : CompNo) (x : Transient) (o : DoorOutcome) (s : State) :
    Aside d s (noteDoor st c x o s) := by
  have f := (noteDoor_frame st c x o s).1
  exact .of_eq (by rw [f]) (by rw [f]) (by rw [f]) (by rw [f])

theorem aside_reportRetrieval (c : CompNo) (k : KioskNo) (serial : Nat) (b : Bool) (s : State) :
    Aside c s (reportRetrieval c k serial b s) :=
  have f := (reported c k serial b s).1
  ⟨f.lines, f.spc, f.quiet, f.keeps, f.alarms⟩

theorem aside_endTransaction (e : Ending) (c : CompNo) (s : State) : Aside c s (endTransaction e c s) := by
  unfold endTransaction; dsimp only
  split
  · exact .of_eq rfl rfl rfl rfl
  · split
    · exact (aside_reportOutcome ..).after rfl rfl rfl rfl
    · exact (aside_noteDoor ..).after rfl rfl rfl rfl
    · exact (aside_noteDoor ..).after (by split <;> rfl) (by split <;> rfl) (by split <;> rfl) (by split <;> rfl)
    · exact (aside_reportRetrieval ..).after rfl rfl rfl rfl

theorem aside_closeHandling (c : CompNo) (occupied : Bool) (s : State) : Aside c s (closeHandling c occupied s) := by
  unfold closeHandling; dsimp only
  split
  · exact .of_eq rfl rfl rfl rfl
  · split
    · exact (aside_reportOutcome ..).after rfl rfl rfl rfl
    · exact (aside_reportOutcome ..).after rfl rfl rfl rfl
    · exact (aside_noteDoor ..).after rfl rfl rfl rfl
    · exact (aside_noteDoor ..).after rfl rfl rfl rfl
    · refine (aside_noteDoor ..).after ?_ ?_ ?_ ?_ <;>
        (unfold noticeCollected; dsimp only [removeEntry, changeEntry]; split <;> rfl)
    · exact (aside_noteDoor ..).after rfl rfl rfl rfl
    · refine (aside_reportRetrieval ..).after ?_ ?_ ?_ ?_ <;> (unfold noticeRetrieved; split <;> rfl)
    · exact (aside_reportRetrieval ..).after rfl rfl rfl rfl

end Sys2Proof.Machine
end

