-- ==== Sys2Proof/Laws/Attempts.lean ====
section
/-! SUPPORT. How active strikes end: success, the failure of an attempt, and what issue and the end of the
event leave of both. -/

namespace Sys2Proof.Machine

/-! ### Steps that leave the records but strike issued marks -/

/-- Between two states no record, kiosk or alarm differs but for strike issued marks. -/
structure OnlyMarks (s t : State) : Prop where
  ret     : t.ret = { s.ret with compartments := t.ret.compartments }
  comps   : ∀ c, KeepsComp s t c
  kiosks  : t.kiosks = s.kiosks
  alarms  : t.alarms = s.alarms
  ajar    : t.ajar = s.ajar
  clock   : t.clock = s.clock
  elapsed : t.elapsed = s.elapsed

theorem OnlyMarks.refl (s : State) : OnlyMarks s s := ⟨rfl, .refl s, rfl, rfl, rfl, rfl, rfl⟩

theorem OnlyMarks.trans {s t u : State} (h : OnlyMarks s t) (k : OnlyMarks t u) : OnlyMarks s u where
  ret := by rw [k.ret, h.ret]
  comps c := (h.comps c).trans (k.comps c)
  kiosks := k.kiosks.trans h.kiosks
  alarms := k.alarms.trans h.alarms
  ajar := k.ajar.trans h.ajar
  clock := k.clock.trans h.clock
  elapsed := k.elapsed.trans h.elapsed

theorem OnlyStrikes.marks {s t : State} (h : OnlyStrikes s t) : OnlyMarks s t :=
  ⟨h.ret, h.comps, by rw [h.rest], by rw [h.rest], by rw [h.rest], by rw [h.rest], by rw [h.rest]⟩

theorem startSweep_rest (g : SegNo) (s : State) : startSweep g s = { s with segments := (startSweep g s).segments } := by
  unfold startSweep; dsimp only; split <;> rfl

theorem setRate_rest (g : SegNo) (s : State) : setRate g s = { s with segments := (setRate g s).segments } := by
  unfold setRate; dsimp only
  split
  · rfl
  · split
    · rw [startSweep_rest]; rfl
    · rfl
  · rfl

/-- Bringing the rate modes in step changes only the segments (R178). -/
theorem setRates_rest (s : State) : setRates s = { s with segments := (setRates s).segments } := by
  have : ∀ (gs : List SegNo) (s : State), gs.foldl (fun s g => setRate g s) s =
      { s with segments := (gs.foldl (fun s g => setRate g s) s).segments } := by
    intro gs
    induction gs with
    | nil => exact fun s => rfl
    | cons g gs ih =>
      intro s
      rw [List.foldl_cons, ih, setRate_rest]
  exact this _ s

theorem onlyMarks_of_eq {s t : State} (ret : t.ret = s.ret) (quotes : t.quotes = s.quotes) (kiosks : t.kiosks = s.kiosks)
    (alarms : t.alarms = s.alarms) (ajar : t.ajar = s.ajar) (clock : t.clock = s.clock) (elapsed : t.elapsed = s.elapsed) :
    OnlyMarks s t :=
  ⟨by rw [ret], fun c => keepsComp_of_eq (comp_of_ret ret c) (quoteOf_of_quotes quotes c), kiosks, alarms, ajar, clock,
    elapsed⟩

theorem onlyMarks_setRates (s : State) : OnlyMarks s (setRates s) := by
  have f := setRates_rest s
  exact onlyMarks_of_eq (by rw [f]) (by rw [f]) (by rw [f]) (by rw [f]) (by rw [f]) (by rw [f]) (by rw [f])

/-- The end of an event changes only the rate modes with their sweeps, the attention line and the check word. -/
theorem settle_rest (s : State) :
    settle s = { s with
      segments := (settle s).segments, attention := (settle s).attention, checkWord := (settle s).checkWord } := by
  have any (u : State) (line : Bool) (word : Nat) (h : u = { s with segments := u.segments }) :
      ({ u with attention := line, checkWord := word } : State)
        = { s with segments := u.segments, attention := line, checkWord := word } := by rw [h]
  exact any _ _ _ (setRates_rest s)

/-- The end of an event leaves what issue would take. -/
theorem nextIssue_settle (g : SegNo) (s : State) : nextIssue (settle s) g = nextIssue s g := by
  have seg := (settle_frame s).2.2.2.2.2 g
  have ret : (settle s).ret = s.ret := (settle_frame s).1
  have boards : (settle s).boards = s.boards := by rw [settle_rest]
  have declaring : (settle s).declaring = s.declaring := by rw [settle_rest]
  unfold nextIssue energised budgetInForce onlineToIssue State.comp State.board
  rw [seg.1, seg.2, ret, boards, declaring]

/-- An event whose operations leave the fixed part of the state leaves the tables that only loads change. -/
theorem keepsTables_settle {s t : State} (h : t.fixed = s.fixed) : KeepsTables s (settle t) := by
  have r := (settle_frame t).1
  constructor <;> rw [r]
  · exact ret_tariff_of_fixed h
  · exact ret_hold_of_fixed h
  · exact ret_couriers_of_fixed h
  · exact ret_budgets_of_fixed h
  · exact ret_slots_of_fixed h
  · exact ret_withdrawn_of_fixed h
  · exact ret_concourse_of_fixed h
  · exact ret_enables_of_fixed h
  · exact ret_keys_of_fixed h
  · exact ret_lastSettlement_of_fixed h

/-- Such an event leaves the station, the clocks, the SKC and the model's own fields. -/
theorem keepsStation_settle {s t : State} (h : t.fixed = s.fixed) : KeepsStation s (settle t) := by
  have r := settle_rest t
  constructor <;> rw [r]
  · exact (clock_of_fixed h : t.clock = s.clock)
  · exact (history_of_fixed h : t.history = s.history)
  · exact (bankId_of_fixed h : t.bankId = s.bankId)
  · exact (trunkOut_of_fixed h : t.trunkOut = s.trunkOut)
  · exact (skc_of_fixed h : t.skc = s.skc)
  · exact (unlockDeadline_of_fixed h : t.unlockDeadline = s.unlockDeadline)
  · exact (run_of_fixed h : t.run = s.run)
  · exact (declaring_of_fixed h : t.declaring = s.declaring)
  · exact (elapsed_of_fixed h : t.elapsed = s.elapsed)
  · exact (boundariesDue_of_fixed h : t.boundariesDue = s.boundariesDue)
  · exact (freeCounter_of_fixed h : t.freeCounter = s.freeCounter)
  · exact (pending_of_fixed h : t.pending = s.pending)

/-- The end of an event touches no record. -/
theorem onlyMarks_settle (s : State) : OnlyMarks s (settle s) :=
  (onlyMarks_setRates s).trans (onlyMarks_of_eq rfl rfl rfl rfl rfl rfl rfl)

section fields
variable {s t : State} (h : OnlyMarks s t)
include h

theorem OnlyMarks.kiosk (k : KioskNo) : t.kiosk k = s.kiosk k := by rw [State.kiosk, h.kiosks]; rfl
theorem OnlyMarks.directory : t.ret.directory = s.ret.directory := by rw [h.ret]
theorem OnlyMarks.returns : t.ret.returns = s.ret.returns := by rw [h.ret]
theorem OnlyMarks.tariff : t.ret.tariff = s.ret.tariff := by rw [h.ret]
theorem OnlyMarks.outbox : t.ret.outbox = s.ret.outbox := by rw [h.ret]
theorem OnlyMarks.noticeSequence : t.ret.noticeSequence = s.ret.noticeSequence := by rw [h.ret]
theorem OnlyMarks.reservations : t.ret.reservations = s.ret.reservations := by rw [h.ret]

end fields

theorem KeepsOtherComps.trans {c : CompNo} {s t u : State} (h : KeepsOtherComps c s t) (k : KeepsOtherComps c t u) :
    KeepsOtherComps c s u := fun d hd => (h d hd).trans (k d hd)

theorem OnlyMarks.others {s t : State} (h : OnlyMarks s t) (c : CompNo) : KeepsOtherComps c s t := fun d _ => h.comps d

theorem freedReturns_congr {s u : State} (h : u.ret.returns = s.ret.returns) (n p : Nat) :
    freedReturns n p u = freedReturns n p s := by unfold freedReturns; rw [h]

theorem removeEntry_congr {s u : State} (h : u.ret.directory = s.ret.directory) (c : CompNo) :
    (removeEntry c u).ret.directory = (removeEntry c s).ret.directory := by
  simp only [removeEntry, changeEntry, h]

theorem setEntryStatus_congr {s u : State} (h : u.ret.directory = s.ret.directory) (c : CompNo) (x : CodeStatus) :
    (setEntryStatus c x u).ret.directory = (setEntryStatus c x s).ret.directory := by
  simp only [setEntryStatus, changeEntry, h]

theorem noMark {a b : Option Transient} (h : sameButMark a b = true) (hb : b = none) : a = none := by
  subst hb; cases a with
  | none => rfl
  | some x => cases h

section around
variable {s s' t t' : State} (a : OnlyMarks s s') (b : OnlyMarks t t')
include a b

theorem KeepsOutbox.around (h : KeepsOutbox s' t) : KeepsOutbox s t' :=
  ⟨by rw [b.outbox, h.1, a.outbox], by rw [b.noticeSequence, h.2, a.noticeSequence]⟩

theorem NoticeMade.around {n : Notice} (h : NoticeMade n s' t) : NoticeMade n s t' :=
  ⟨by rw [b.outbox, h.1, a.outbox, a.noticeSequence], by rw [b.noticeSequence, h.2, a.noticeSequence]⟩

theorem KeepsOtherKiosks.around {k : KioskNo} (h : KeepsOtherKiosks k s' t) : KeepsOtherKiosks k s t' :=
  fun j hj => by rw [b.kiosk, h j hj, a.kiosk]

theorem SlotReleased.around {c : CompNo} (h : SlotReleased c s' t) : SlotReleased c s t' :=
  ⟨by rw [b.reservations, h.1, a.reservations], (a.others c).trans (h.2.trans (b.others c))⟩

theorem SweepSlotReleased.around {c : CompNo} (h : SweepSlotReleased c s' t) : SweepSlotReleased c s t' :=
  ⟨by rw [b.reservations, ← a.reservations]; exact h.1, fun d hd =>
    ⟨(b.comps d).1.trans ((h.2 d hd).1.trans (a.comps d).1),
      (b.comps d).2.2.1.trans ((h.2 d hd).2.trans (a.comps d).2.2.1)⟩⟩

theorem OutcomeReported.around {c : CompNo} {k : KioskNo} {n m : Nat} {o : DeclOutcome}
    (h : OutcomeReported c k n m o s' t) : OutcomeReported c k n m o s t' := by
  unfold OutcomeReported at h ⊢
  rwa [b.kiosk, ← a.kiosk, ← a.elapsed]

theorem RetrievalReported.around {c : CompNo} {k : KioskNo} {n : Nat} {r : Bool}
    (h : RetrievalReported c k n r s' t) : RetrievalReported c k n r s t' := by
  unfold RetrievalReported at h ⊢
  rwa [b.kiosk, ← a.kiosk, ← a.elapsed]

theorem DoorNoted.around {c : CompNo} {x y : Transient} {o : DoorOutcome} (p : x.particulars = y.particulars)
    (k : x.kiosk = y.kiosk) (r : x.resolved = y.resolved) (h : DoorNoted c x o s' t) : DoorNoted c y o s t' := by
  unfold DoorNoted at h ⊢
  rwa [b.kiosk, ← a.kiosk, ← (a.comps c).2.1, ← p, ← k, ← r]

/-- Steps that leave the records before and after the end of a transaction do not matter. -/
theorem Reverted.around {e : Ending} {c : CompNo} {x y : Transient} (p : x.particulars = y.particulars)
    (k : x.kiosk = y.kiosk) (r : x.resolved = y.resolved) (h : Reverted e c x s' t) : Reverted e c y s t' := by
  obtain ⟨h1, h2, h3, h4, h5, h6, h7, h8⟩ := h
  obtain ⟨am, as, ap, at', aq⟩ := a.comps c
  obtain ⟨bm, bs, bp, bt, bq⟩ := b.comps c
  refine ⟨by rw [bs, h1, p, ap], noMark bt h2, by rw [bp, h3, ap], by rw [bm, h4, am], by rw [bq, h5], h6.around a b,
    by rw [← k]; exact h7.around a b, ?_⟩
  rw [← p]
  revert h8
  split
  · exact fun ⟨h1, h2, h3, h4⟩ => ⟨by rw [b.directory, h1, removeEntry_congr a.directory],
      by rw [b.returns, h2, a.returns], h3.around a b, by rw [← k]; exact h4.around a b⟩
  · exact fun ⟨h1, h2, h3, h4⟩ => ⟨by rw [b.directory, h1, a.directory],
      by rw [b.returns, h2, freedReturns_congr a.returns], h3.around a b, h4.around a b p k r⟩
  · exact fun ⟨h1, h2, h3, h4⟩ => ⟨by rw [b.directory, h1, setEntryStatus_congr a.directory, a.directory],
      by rw [b.returns, h2, a.returns], h3.around a b, h4.around a b p k r⟩
  · exact fun ⟨h1, h2, h3, h4⟩ => ⟨by rw [b.directory, h1, a.directory],
      by rw [b.returns, h2, a.returns], h3.around a b, by rw [← k]; exact h4.around a b⟩

theorem DepositClosed.around {c : CompNo} {courier reference prepaid : Nat} {occupied : Bool}
    (h : DepositClosed c courier reference prepaid occupied s' t) : DepositClosed c courier reference prepaid occupied s t' := by
  obtain ⟨am, as, ap, -, -⟩ := a.comps c
  obtain ⟨bm, bs, bp, -, -⟩ := b.comps c
  have cls : classAt s' c = classAt s c := by unfold classAt; rw [am]
  have code : codeNaming s' c = codeNaming s c := by unfold codeNaming; rw [a.directory]
  unfold DepositClosed at h ⊢
  cases occupied with
  | true =>
    rw [if_pos rfl] at h ⊢
    refine ⟨by rw [bs, h.1], by rw [b.directory, h.2.1, setEntryStatus_congr a.directory], fun row n hr hn => ?_⟩
    have := h.2.2 row n (by rw [cls, a.tariff]; exact hr) (by rw [code]; exact hn)
    rw [a.clock] at this
    exact ⟨by rw [bp, this.1], this.2.around a b⟩
  | false =>
    rw [if_neg Bool.false_ne_true] at h ⊢
    exact ⟨by rw [bs, h.1], by rw [bp, h.2.1, ap], by rw [b.directory, h.2.2.1, removeEntry_congr a.directory],
      h.2.2.2.around a b⟩

/-- Steps that leave the records before and after close handling do not matter. -/
theorem Closed.around {c : CompNo} {x y : Transient} {occupied : Bool} (p : x.particulars = y.particulars)
    (k : x.kiosk = y.kiosk) (r : x.resolved = y.resolved) (h : Closed c x occupied s' t) : Closed c y occupied s t' := by
  obtain ⟨h1, h2, h3, h4, h5⟩ := h
  obtain ⟨am, as, ap, at', aq⟩ := a.comps c
  obtain ⟨bm, bs, bp, bt, bq⟩ := b.comps c
  refine ⟨noMark bt h1, by rw [bm, h2, am], by rw [b.ajar, h3], by rw [← k]; exact h4.around a b, ?_⟩
  rw [← p]
  revert h5
  split
  · exact fun ⟨h1, h2, h3, h4⟩ => ⟨h1.around a b, by rw [b.returns, h2, a.returns], h3.around a b,
      by rw [← k]; exact h4.around a b⟩
  · refine fun ⟨h1, h2, h3, h4⟩ => ⟨by rw [b.directory, h1, a.directory], h2.around a b, ?_, h4.around a b p k r⟩
    cases occupied with
    | true =>
      rw [if_pos rfl] at h3 ⊢
      obtain ⟨h1, h2, h3, h4⟩ := h3
      exact ⟨by rw [bs, h1], by rw [bp, h2, a.clock], by rw [b.returns, h3, a.returns],
        by rw [a.clock] at h4; exact h4.around a b⟩
    | false =>
      rw [if_neg Bool.false_ne_true] at h3 ⊢
      obtain ⟨h1, h2, h3, h4⟩ := h3
      exact ⟨by rw [bs, h1], by rw [bp, h2, ap], by rw [b.returns, h3, freedReturns_congr a.returns], h4.around a b⟩
  · refine fun ⟨h1, h2, h3, h4⟩ => ⟨by rw [b.returns, h1, a.returns], h2.around a b, ?_, h4.around a b p k r⟩
    cases occupied with
    | true =>
      rw [if_pos rfl] at h3 ⊢
      obtain ⟨h1, h2, h3, h4⟩ := h3
      exact ⟨by rw [bs, h1], by rw [bp, h2, ap], by rw [b.directory, h3, setEntryStatus_congr a.directory], h4.around a b⟩
    | false =>
      rw [if_neg Bool.false_ne_true] at h3 ⊢
      obtain ⟨h1, h2, h3, h4⟩ := h3
      refine ⟨by rw [bs, h1], by rw [bp, h2], by rw [b.directory, h3, removeEntry_congr a.directory], fun d hd => ?_⟩
      have := h4 d (by rw [ap, hd])
      rw [a.clock] at this
      exact this.around a b
  · refine fun ⟨h1, h2, h3, h4, h5⟩ => ⟨by rw [b.directory, h1, a.directory], by rw [b.returns, h2, a.returns],
      h3.around a b, ?_, by rw [← k]; exact h5.around a b⟩
    cases occupied with
    | true =>
      rw [if_pos rfl] at h4 ⊢
      obtain ⟨h1, h2, h3⟩ := h4
      exact ⟨by rw [bs, h1, ap], by rw [bp, h2, ap], h3.around a b⟩
    | false =>
      rw [if_neg Bool.false_ne_true] at h4 ⊢
      obtain ⟨h1, h2, h3, h4⟩ := h4
      refine ⟨by rw [bs, h1], by rw [bp, h2], fun d hd => ?_, fun d hd => ?_⟩
      · have := h3 d (by rw [ap, hd]); rw [a.clock] at this; exact this.around a b
      · have := h4 d (by rw [ap, hd]); rw [a.clock] at this; exact this.around a b

end around

/-! ### The end of an active strike -/

theorem onlyStrikes_disownPoll (g : SegNo) (b : BoardNo) (l : LineNo) (s : State) : OnlyStrikes s (disownPoll g b l s) := by
  unfold disownPoll
  split
  · split
    · exact onlyStrikes_setSeg ..
    · exact .refl s
  · exact .refl s

theorem onlyStrikes_endStrike (g : SegNo) (a : ActiveStrike) (s : State) : OnlyStrikes s (endStrike g a s) := by
  unfold endStrike; dsimp only
  exact ((onlyStrikes_setSeg g _ s).trans (onlyStrikes_setBoard a.board _ _)).trans (onlyStrikes_disownPoll ..)

theorem disownPoll_boards (g : SegNo) (b : BoardNo) (l : LineNo) (s : State) : (disownPoll g b l s).boards = s.boards := by
  unfold disownPoll
  split
  · split <;> rfl
  · rfl

theorem disownPoll_seg (g h : SegNo) (b : BoardNo) (l : LineNo) (s : State) :
    ((disownPoll g b l s).seg h).queue = (s.seg h).queue ∧ ((disownPoll g b l s).seg h).active = (s.seg h).active := by
  unfold disownPoll
  split
  · split
    · by_cases eq : h = g
      · subst eq; simp
      · simp [State.seg_setSeg, eq]
    · exact ⟨rfl, rfl⟩
  · exact ⟨rfl, rfl⟩

theorem keepsLines_endStrike (g : SegNo) (a : ActiveStrike) (s : State) : KeepsLines s (endStrike g a s) := by
  unfold endStrike; dsimp only
  refine .trans ?_ (.of_boards (disownPoll_boards ..))
  constructor <;> intro c <;> rw [State.board_setBoard] <;> split
  next h => subst h; rfl
  next => rfl
  next h => subst h; rfl
  next => rfl

/-- The end of an active strike takes it out of its segment's active strikes, and nothing else moves there. -/
theorem endStrike_seg (g h : SegNo) (a : ActiveStrike) (s : State) :
    ((endStrike g a s).seg h).queue = (s.seg h).queue
      ∧ ((endStrike g a s).seg h).active =
          if h = g then (s.seg g).active.filter (·.compartment ≠ a.compartment) else (s.seg h).active := by
  unfold endStrike; dsimp only
  have := disownPoll_seg g h a.board a.line
  refine ⟨(this _).1.trans ?_, (this _).2.trans ?_⟩
  · by_cases eq : h = g
    · subst eq; simp
    · simp [State.seg_setSeg, eq]
  · by_cases eq : h = g
    · subst eq; simp
    · simp [State.seg_setSeg, eq]

/-! ### Success -/

theorem reportOpening_frame (c : CompNo) (x : Transient) (s : State) :
    reportOpening c x s = { s with kiosks := (reportOpening c x s).kiosks }
      ∧ KeepsOtherKiosks x.kiosk s (reportOpening c x s) := by
  have same : s = { s with kiosks := s.kiosks } ∧ KeepsOtherKiosks x.kiosk s s := ⟨rfl, fun _ _ => rfl⟩
  unfold reportOpening
  split
  · split
    · exact ⟨rfl, fun j hj => kiosk_setSession_other hj ..⟩
    · exact same
  · split
    · split
      · exact ⟨rfl, fun j hj => kiosk_setSession_other hj ..⟩
      · exact same
    · exact same
  · exact same

/-- The report of an opening turns a declaration to LOADING in its session's pipeline, and otherwise moves at
most the session's deadline (R106, R148). -/
theorem reportOpening_session (c : CompNo) (x : Transient) (s : State) :
    ((s.kiosk x.kiosk).session = none → (reportOpening c x s).kiosk x.kiosk = s.kiosk x.kiosk)
      ∧ (∀ y, (s.kiosk x.kiosk).session = some y → ∃ deadline,
          ((reportOpening c x s).kiosk x.kiosk).session = some { y with
            deadline
            pipeline := match x.particulars with
              | .deposit _ _ _ _ _ => y.pipeline.map fun d => if d.compartment = c then { d with state := .loading } else d
              | _ => y.pipeline })
      ∧ ((∀ serial n courier reference prepaid, x.particulars ≠ .deposit serial n courier reference prepaid) →
          (∀ serial courier, x.particulars ≠ .retrieve serial courier) → reportOpening c x s = s) := by
  unfold reportOpening sessionOf
  refine ⟨fun h => by simp [h], fun y hy => ?_, fun hd hr => ?_⟩
  · rw [hy]
    cases hp : x.particulars with
    | deposit serial n courier reference prepaid =>
      dsimp only
      split
      · exact ⟨_, by rw [kiosk_setSession_same]⟩
      next none =>
        refine ⟨y.deadline, ?_⟩
        rw [hy]
        have : y.pipeline.map (fun d => if d.compartment = c then { d with state := .loading } else d) = y.pipeline := by
          refine (List.map_congr_left fun d hd => ?_).trans (List.map_id _)
          simp only [List.any_eq_true, decide_eq_true_eq, not_exists, not_and] at none
          simp [none d hd]
        rw [this]
    | drop courier reference paid => exact ⟨y.deadline, hy⟩
    | collect => exact ⟨y.deadline, hy⟩
    | retrieve serial courier =>
      dsimp only
      split
      · split
        · exact ⟨_, by rw [kiosk_setSession_same]⟩
        · exact ⟨y.deadline, hy⟩
      · exact ⟨y.deadline, hy⟩
  · cases hp : x.particulars with
    | deposit serial n courier reference prepaid => exact absurd hp (hd _ _ _ _ _)
    | retrieve serial courier => exact absurd hp (hr _ _)
    | drop courier reference paid => cases (s.kiosk x.kiosk).session <;> rfl
    | collect => cases (s.kiosk x.kiosk).session <;> rfl

theorem OutcomeReported.of_opening {c : CompNo} {x : Transient} {n m : Nat} {o : DeclOutcome} {s t : State}
    (h : OutcomeReported c x.kiosk n m o (reportOpening c x s) t) : OutcomeReported c x.kiosk n m o s t := by
  obtain ⟨none, some, -⟩ := reportOpening_session c x s
  have el : (reportOpening c x s).elapsed = s.elapsed := by rw [(reportOpening_frame c x s).1]
  refine ⟨fun hn => by rw [h.1 (by rw [none hn]; exact hn), none hn], fun y d hy hs hd => ?_⟩
  obtain ⟨dl, hy'⟩ := some y hy
  cases hp : x.particulars with
  | deposit serial k courier reference prepaid =>
    rw [hp] at hy'
    have := h.2 _ { d with state := .loading } hy' hs
      (by
        have hc := List.find?_some hd
        simp only [Bool.and_eq_true, decide_eq_true_eq] at hc
        dsimp only
        rw [List.find?_map]
        have : ((fun e : Declaration => decide (e.compartment = c) && decide (e.number = m)) ∘
            fun e : Declaration => if e.compartment = c then { e with state := .loading } else e) =
            fun e : Declaration => decide (e.compartment = c) && decide (e.number = m) := by
          funext e; simp only [Function.comp]; split <;> rfl
        rw [this, hd]
        simp [hc.1])
    rwa [el] at this
  | drop courier reference paid =>
    rw [hp] at hy'
    have := h.2 _ d hy' hs hd
    rwa [el] at this
  | collect =>
    rw [hp] at hy'
    have := h.2 _ d hy' hs hd
    rwa [el] at this
  | retrieve serial courier =>
    rw [hp] at hy'
    have := h.2 _ d hy' hs hd
    rwa [el] at this

theorem RetrievalReported.of_opening {c : CompNo} {x : Transient} {n : Nat} {r : Bool} {s t : State}
    (h : RetrievalReported c x.kiosk n r (reportOpening c x s) t) : RetrievalReported c x.kiosk n r s t := by
  obtain ⟨none, some, -⟩ := reportOpening_session c x s
  have el : (reportOpening c x s).elapsed = s.elapsed := by rw [(reportOpening_frame c x s).1]
  refine ⟨fun hn => by rw [h.1 (by rw [none hn]; exact hn), none hn], fun y w hy hs hw he => ?_⟩
  obtain ⟨dl, hy'⟩ := some y hy
  have := h.2 _ w hy' hs hw he
  rwa [el] at this

/-- A compartment that has entered its door phase, its session told, is closed as if from before (R164). -/
theorem Closed.of_opening {c : CompNo} {x : Transient} {st : CompState} {occupied : Bool} {s t : State}
    (now : (s.comp c).state ≠ .reconcile) (next : st ≠ .reconcile)
    (h : Closed c x occupied (reportOpening c x (s.setComp c { s.comp c with state := st })) t) :
    Closed c x occupied s t := by
  generalize hs' : s.setComp c { s.comp c with state := st } = s' at h
  have f := reportOpening_frame c x s'
  have o := (reportOpening_session c x s').2.2
  have oc {n m : Nat} {o : DeclOutcome} (h : OutcomeReported c x.kiosk n m o (reportOpening c x s') t) :
      OutcomeReported c x.kiosk n m o s t := by
    have := h.of_opening
    rw [← hs'] at this
    exact this
  have rr {n : Nat} {r : Bool} (h : RetrievalReported c x.kiosk n r (reportOpening c x s') t) :
      RetrievalReported c x.kiosk n r s t := by
    have := h.of_opening
    rw [← hs'] at this
    exact this
  generalize hu : reportOpening c x s' = u at *
  obtain ⟨f, k⟩ := f
  have ret : u.ret = s'.ret := by rw [f]
  have clock : u.clock = s.clock := by rw [f, ← hs']; rfl
  have own : u.comp c = { s.comp c with state := st } := by rw [comp_of_ret ret, ← hs']; simp
  have other (d : CompNo) (hd : d ≠ c) : u.comp d = s.comp d := by
    rw [comp_of_ret ret, ← hs', State.comp_setComp, if_neg hd]
  have quote (d : CompNo) : u.quoteOf d = s.quoteOf d := by
    rw [State.quoteOf, show u.quotes = s.quotes by rw [f, ← hs']; rfl]; rfl
  have dir : u.ret.directory = s.ret.directory := by rw [ret, ← hs']; rfl
  have rets : u.ret.returns = s.ret.returns := by rw [ret, ← hs']; rfl
  have tariff : u.ret.tariff = s.ret.tariff := by rw [ret, ← hs']; rfl
  have ob : KeepsOutbox s u := by constructor <;> rw [ret, ← hs'] <;> rfl
  have res : u.ret.reservations = s.ret.reservations := by rw [ret, ← hs']; rfl
  have kiosks : KeepsOtherKiosks x.kiosk s u := fun j hj => by rw [k j hj, ← hs']; rfl
  have keep {n : Notice} (h : NoticeMade n u t) : NoticeMade n s t := by
    unfold NoticeMade at h ⊢; rwa [ob.1, ob.2] at h
  have stay (h : KeepsOutbox u t) : KeepsOutbox s t := ⟨h.1.trans ob.1, h.2.trans ob.2⟩
  have slot (h : SlotReleased c u t) : SlotReleased c s t :=
    ⟨by rw [h.1, res], KeepsOtherComps.trans (fun d hd => keepsComp_of_eq (other d hd) (quote d)) h.2⟩
  have noted {o : DoorOutcome} (same : u = s') (h : DoorNoted c x o u t) : DoorNoted c x o s t := by
    unfold DoorNoted at h ⊢
    rw [own] at h
    simp only [now, next, false_or] at h ⊢
    rwa [same, ← hs'] at h
  obtain ⟨h1, h2, h3, h4, h5⟩ := h
  refine ⟨h1, by rw [h2, own], h3, fun j hj => (h4 j hj).trans (kiosks j hj), ?_⟩
  cases hp : x.particulars with
  | deposit serial n courier reference prepaid =>
    simp only [hp] at h5 ⊢
    obtain ⟨h5, h6, h7, h8⟩ := h5
    refine ⟨?_, h6.trans rets, slot h7, oc h8⟩
    have cls : classAt u c = classAt s c := by unfold classAt; rw [own]
    have code : codeNaming u c = codeNaming s c := by unfold codeNaming; rw [dir]
    unfold DepositClosed at h5 ⊢
    rw [cls, code, tariff, clock, setEntryStatus_congr dir, removeEntry_congr dir, own] at h5
    cases occupied with
    | true => exact ⟨h5.1, h5.2.1, fun row m hr hm => ⟨(h5.2.2 row m hr hm).1, keep (h5.2.2 row m hr hm).2⟩⟩
    | false => exact ⟨h5.1, h5.2.1, h5.2.2.1, stay h5.2.2.2⟩
  | drop courier reference paid =>
    have same : u = s' := o (fun _ _ _ _ _ h => by rw [hp] at h; cases h) (fun _ _ h => by rw [hp] at h; cases h)
    simp only [hp] at h5 ⊢
    obtain ⟨h5, h6, h7, h8⟩ := h5
    refine ⟨h5.trans dir, slot h6, ?_, noted same h8⟩
    rw [clock, rets, freedReturns_congr rets, own] at h7
    cases occupied with
    | true => exact ⟨h7.1, h7.2.1, h7.2.2.1, keep h7.2.2.2⟩
    | false => exact ⟨h7.1, h7.2.1, h7.2.2.1, stay h7.2.2.2⟩
  | collect =>
    have same : u = s' := o (fun _ _ _ _ _ h => by rw [hp] at h; cases h) (fun _ _ h => by rw [hp] at h; cases h)
    simp only [hp] at h5 ⊢
    obtain ⟨h5, h6, h7, h8⟩ := h5
    refine ⟨h5.trans rets, slot h6, ?_, noted same h8⟩
    rw [clock, setEntryStatus_congr dir, removeEntry_congr dir, own] at h7
    cases occupied with
    | true => exact ⟨h7.1, h7.2.1, h7.2.2.1, stay h7.2.2.2⟩
    | false => exact ⟨h7.1, h7.2.1, h7.2.2.1, fun d hd => keep (h7.2.2.2 d hd)⟩
  | retrieve serial courier =>
    simp only [hp] at h5 ⊢
    obtain ⟨h5, h6, h7, h8, h9⟩ := h5
    refine ⟨h5.trans dir, h6.trans rets, ⟨by rw [← res]; exact h7.1, fun d hd => ?_⟩, ?_, rr h9⟩
    · rw [← other d hd]; exact h7.2 d hd
    rw [clock, own] at h8
    cases occupied with
    | true => exact ⟨h8.1, h8.2.1, stay h8.2.2⟩
    | false => exact ⟨h8.1, h8.2.1, fun d hd => keep (h8.2.2.1 d hd), fun d hd => keep (h8.2.2.2 d hd)⟩

section around
variable {s s' t t' : State} (a : OnlyMarks s s') (b : OnlyMarks t t')
include a b

theorem OnlyComps.around (h : OnlyComps s' t) : OnlyComps s t' := by
  unfold OnlyComps at h ⊢
  rw [b.ret, h, a.ret]

theorem Opened.around {k : ActiveStrike} {x : Transient} (h : Opened k x s' t) : Opened k x s t' := by
  obtain ⟨h1, h2, h3, h4, h5, h6, h7, h8, h9, h10, h11⟩ := h
  obtain ⟨am, as, ap, -, aq⟩ := a.comps k.compartment
  obtain ⟨bm, bs, bp, bt, bq⟩ := b.comps k.compartment
  refine ⟨by rw [bs, h1, as], by rw [bp, h2, ap], by rw [bm, h3, am], sameButMark_trans h4 bt, by rw [bq, h5, aq],
    by rw [b.ajar, h6, a.elapsed], (a.others _).trans (h7.trans (b.others _)), h8.around a b, by rw [b.alarms, h9, a.alarms],
    h10.around a b, ?_⟩
  rwa [b.kiosk, ← a.kiosk]

end around

/-- A success with the door not known closed (R164). -/
theorem opened_watch {a : ActiveStrike} {x : Transient} {s : State}
    (h : (s.comp a.compartment).transient = some x) : Opened a x s (startWatch a.compartment (reportOpening a.compartment x (s.setComp a.compartment
      { s.comp a.compartment with
        state := if (s.comp a.compartment).state = .reserved then .loading else .unloading }))) := by
  generalize hc : a.compartment = c at *
  generalize hs' : s.setComp c { s.comp c with state := if (s.comp c).state = .reserved then .loading else .unloading } = s'
  have f := reportOpening_frame c x s'
  have o := (reportOpening_session c x s').2.1
  generalize hu : reportOpening c x s' = u at *
  obtain ⟨f, k⟩ := f
  have own : (startWatch c u).comp c = { s.comp c with state := if (s.comp c).state = .reserved then .loading else .unloading } := by
    show u.comp c = _
    rw [f, ← hs']; exact State.comp_setComp_same ..
  unfold Opened
  simp only [hc, own]
  refine ⟨trivial, trivial, trivial, by rw [h]; exact sameButMark_refl _, ?_, ?_, ?_, ?_, ?_, ?_, ?_⟩
  · show u.quoteOf c = _; rw [f, ← hs']; rfl
  · show look (put u.ajar c _) c = _
    rw [look_put_same]
    have : u.elapsed = s.elapsed := by rw [f, ← hs']; rfl
    rw [this]
  · intro d hd
    refine keepsComp_of_eq ?_ ?_
    · show u.comp d = _; rw [f, ← hs']; exact (State.comp_setComp ..).trans (if_neg hd)
    · show u.quoteOf d = _; rw [f, ← hs']; rfl
  · unfold OnlyComps; show u.ret = { s.ret with compartments := u.ret.compartments }; rw [f, ← hs']; rfl
  · show u.alarms = _; rw [f, ← hs']; rfl
  · intro j hj; show u.kiosk j = _; rw [k j hj, ← hs']; rfl
  · intro y serial number courier reference prepaid hy hp
    obtain ⟨d, hd⟩ := o y (by rw [← hs']; exact hy)
    rw [hp] at hd
    exact ⟨_, hd, rfl⟩

theorem queuedOf_none {s : State} {c : CompNo} (h : queuedOf s c = none) (g : SegNo) :
    ∀ e ∈ (s.seg g).queue, e.compartment ≠ c := by
  unfold queuedOf at h
  rw [List.findSome?_eq_none_iff] at h
  have := h g (List.mem_finRange g)
  rw [Option.map_eq_none_iff, List.find?_eq_none] at this
  exact fun e he hc => this e he (by simp [hc])

/-- Where a strike has been ended and none added for its compartment, it is gone. -/
theorem strikeGone {g : SegNo} {a : ActiveStrike} {s t : State} (h : NoNewStrike a.compartment (endStrike g a s) t) :
    StrikeGone g a.compartment s t := by
  intro q
  obtain ⟨queue, active⟩ := endStrike_seg g g a s
  refine (h g ?_).2 ?_
  · rw [queue]; exact queuedOf_none q g
  · rw [active, if_pos rfl]; exact fun b hb => by simpa using (List.mem_filter.1 hb).2

theorem comp_endStrike (g : SegNo) (a : ActiveStrike) (s : State) (c : CompNo) : (endStrike g a s).comp c = s.comp c := by
  unfold endStrike disownPoll; dsimp only
  split
  · split <;> rfl
  · rfl

theorem line_of_lines {s t : State} (h : KeepsLines s t) (b : BoardNo) (l : LineNo) : t.line b l = s.line b l := by
  rw [State.line, h.lines]; rfl

theorem aside_reportOpening (d c : CompNo) (x : Transient) (s : State) : Aside d s (reportOpening c x s) := by
  have f := (reportOpening_frame c x s).1
  exact .of_eq (by rw [f]) (by rw [f]) (by rw [f]) (by rw [f])

theorem comp_reportOpening (c d : CompNo) (x : Transient) (s : State) : (reportOpening c x s).comp d = s.comp d := by
  rw [(reportOpening_frame c x s).1]; rfl

theorem enterDoorPhase_eq {c : CompNo} {x : Transient} {s : State} (h : (s.comp c).transient = some x)
    (busy : (s.comp c).state = .reserved ∨ (s.comp c).state = .releasing) :
    enterDoorPhase c s = reportOpening c x (s.setComp c
      { s.comp c with state := if (s.comp c).state = .reserved then .loading else .unloading }) := by
  have st : (s.comp c).state.opened = if (s.comp c).state = .reserved then .loading else .unloading := by
    rcases busy with h | h <;> rw [h] <;> rfl
  unfold enterDoorPhase; dsimp only
  rw [← st]
  split
  next y some => rw [some] at h; cases h; rw [some]
  next none => rw [none] at h; cases h

theorem aside_enterDoorPhase (d c : CompNo) (s : State) : Aside d s (enterDoorPhase c s) := by
  unfold enterDoorPhase; dsimp only
  split
  · exact (aside_reportOpening ..).after rfl rfl rfl rfl
  · exact .of_eq rfl rfl rfl rfl

/-- A success queues and issues no strike of its compartment. -/
theorem quiet_strikeSucceeds (g : SegNo) (a : ActiveStrike) (s : State) :
    NoNewStrike a.compartment (endStrike g a s) (strikeSucceeds g a s) := by
  have side := aside_enterDoorPhase a.compartment a.compartment (endStrike g a s)
  unfold strikeSucceeds; dsimp only
  split
  · exact side.quiet.trans (aside_closeHandling ..).quiet
  · exact side.quiet.trans (.of_segments rfl)

/-- The success of a strike (R164). -/
theorem succeeded_strikeSucceeds {g : SegNo} {a : ActiveStrike} {x : Transient} {s : State}
    (h : (s.comp a.compartment).transient = some x)
    (busy : (s.comp a.compartment).state = .reserved ∨ (s.comp a.compartment).state = .releasing) :
    Succeeded g a x s (strikeSucceeds g a s) := by
  have before := (onlyStrikes_endStrike g a s).marks
  have hx : ((endStrike g a s).comp a.compartment).transient = some x := by rw [comp_endStrike]; exact h
  have busy' : ((endStrike g a s).comp a.compartment).state = .reserved
      ∨ ((endStrike g a s).comp a.compartment).state = .releasing := by rw [comp_endStrike]; exact busy
  have side := aside_enterDoorPhase a.compartment a.compartment (endStrike g a s)
  have eq := enterDoorPhase_eq hx busy'
  have line : (enterDoorPhase a.compartment (endStrike g a s)).line a.board a.line = s.line a.board a.line := by
    rw [line_of_lines side.lines]; exact line_of_lines (keepsLines_endStrike g a s) ..
  refine ⟨strikeGone (quiet_strikeSucceeds g a s), ?_⟩
  unfold strikeSucceeds; dsimp only
  rw [line]
  refine ⟨fun seen closed occupied hocc => ?_, fun hopen => ?_⟩
  · rw [seen, closed, hocc]
    dsimp only
    have shut := closed_closeHandling a.compartment x occupied (enterDoorPhase a.compartment (endStrike g a s)) (by
      rw [eq, comp_reportOpening, State.comp_setComp_same]
      exact hx)
    generalize closeHandling a.compartment occupied (enterDoorPhase a.compartment (endStrike g a s)) = t at shut ⊢
    rw [eq] at shut
    refine Closed.around before (.refl _) rfl rfl rfl (Closed.of_opening ?_ ?_ shut)
    · rcases busy' with h | h <;> rw [h] <;> decide
    · split <;> decide
  · refine Opened.around before (.refl _) ?_
    split
    next h1 h2 h3 => rw [h1, h2] at hopen; simp at hopen
    next => rw [eq]; exact opened_watch hx

/-! ### Failure -/

theorem aside_postAlarm (c : CompNo) (k : AlarmKind) (n : Nat) (s : State) : Aside c s (postAlarm k n s) := by
  have f := postAlarm_eq k n s
  exact ⟨.of_boards (by rw [f]), .of_segments (by rw [f]) (by rw [f]), .of_segments (by rw [f]), fun d hd => by rwa [striking_congr (s := s) (by rw [f])],
    postAlarm_keeps k n s⟩

theorem aside_applyIssue (c : CompNo) (g : SegNo) (s : State) : Aside c s (applyIssue g s) :=
  ⟨keepsLines_applyIssue g s, spc_applyIssue g s, noNewStrike_applyIssue c g s, fun _ hd => striking_issueUpTo g _ hd,
    fun a ha => by rw [(onlyStrikes_applyIssue g s).rest]; exact ha⟩

theorem pending_postAlarm (k : AlarmKind) (n : Nat) (s : State) : Pending (postAlarm k n s) k n := by
  unfold postAlarm Pending
  split
  next h => simpa using h
  next => exact ⟨_, List.mem_append_right _ (List.mem_singleton_self _), rfl, rfl⟩

theorem Reverted.postAlarm {e : Ending} {c : CompNo} {x : Transient} {s t : State} (h : Reverted e c x s t)
    (k : AlarmKind) (n : Nat) : Reverted e c x s (postAlarm k n t) := by
  rw [postAlarm_eq]; exact h

/-- The failure of a second attempt (R167, R15). -/
theorem jammed_attemptFails {g : SegNo} {a : ActiveStrike} {x : Transient} {s : State}
    (h : (s.comp a.compartment).transient = some x) (second : a.attempt = .second) :
    Jammed a x s (attemptFails g a s) ∧ StrikeGone g a.compartment s (attemptFails g a s) := by
  have rev := reverted_endTransaction .jammed a.compartment x (endStrike g a s) (by rw [comp_endStrike]; exact h)
  have side := aside_endTransaction .jammed a.compartment (endStrike g a s)
  unfold attemptFails; dsimp only
  rw [second]; dsimp only
  refine ⟨⟨Reverted.around (onlyStrikes_endStrike g a s).marks (onlyStrikes_applyIssue ..).marks rfl rfl rfl
    (rev.postAlarm _ _), ?_⟩, strikeGone ?_⟩
  · unfold Pending
    rw [(onlyStrikes_applyIssue ..).rest]
    exact pending_postAlarm ..
  · exact side.quiet.trans ((aside_postAlarm ..).quiet.trans (aside_applyIssue ..).quiet)

/-- Where the SSU does not hold a compartment's board ONLINE, issue leaves its entry at the head of the queue. -/
theorem offline_issueUpTo {g : SegNo} {c : CompNo} {e : StrikeEntry} (n : Nat) {s : State} (he : e.compartment = c)
    (offline : ∀ m, (s.comp c).map = some m → onlineToIssue s m.board ≠ true) {rest : List StrikeEntry}
    (queue : (s.seg g).queue = e :: rest) (active : ∀ b ∈ (s.seg g).active, b.compartment ≠ c) :
    (∃ rest, ((issueUpTo g n s).seg g).queue = e :: rest)
      ∧ (∀ b ∈ ((issueUpTo g n s).seg g).active, b.compartment ≠ c)
      ∧ ((issueUpTo g n s).comp c).transient = (s.comp c).transient := by
  induction n generalizing s rest with
  | zero => exact ⟨⟨rest, queue⟩, active, rfl⟩
  | succ n ih =>
    unfold issueUpTo
    split
    next f m next =>
      obtain ⟨-, -, -, hm, on⟩ := nextIssue_some next
      have ne : f.compartment ≠ c := fun h => offline m (by rw [← h]; exact hm) on
      have own : (issueEntry g f m s).comp c = s.comp c := by
        simp [issueEntry, setMark, State.comp_setComp, Ne.symm ne]
      have := ih (s := issueEntry g f m s) (rest := rest.filter (·.compartment ≠ f.compartment))
        (fun k hk => by rw [onlineToIssue_issueEntry]; exact offline k (by rwa [own] at hk))
        (by rw [issueEntry_queue, queue, List.filter_cons]; simp [he, Ne.symm ne])
        (fun b hb => by
          rw [issueEntry_active] at hb
          rcases List.mem_append.1 hb with hb | hb
          · exact active b hb
          · rw [List.mem_singleton.1 hb]; exact ne)
      rwa [own] at this
    next => exact ⟨⟨rest, queue⟩, active, rfl⟩

/-- Issue does not touch a compartment that no entry of the queue names. -/
theorem unqueued_issueUpTo {g : SegNo} {c : CompNo} (n : Nat) {s : State} (queue : ∀ e ∈ (s.seg g).queue, e.compartment ≠ c) :
    (∀ e ∈ ((issueUpTo g n s).seg g).queue, e.compartment ≠ c)
      ∧ (∀ b, b ∈ (s.seg g).active → b ∈ ((issueUpTo g n s).seg g).active)
      ∧ (∀ b, b.compartment = c → b ∈ ((issueUpTo g n s).seg g).active → b ∈ (s.seg g).active)
      ∧ ((issueUpTo g n s).comp c).transient = (s.comp c).transient := by
  induction n generalizing s with
  | zero => exact ⟨queue, fun _ h => h, fun _ _ h => h, rfl⟩
  | succ n ih =>
    unfold issueUpTo
    split
    next f m next =>
      have ne : f.compartment ≠ c := queue f (nextIssue_some next).1
      have own : (issueEntry g f m s).comp c = s.comp c := by
        simp [issueEntry, setMark, State.comp_setComp, Ne.symm ne]
      obtain ⟨h1, h2, h3, h4⟩ := ih (s := issueEntry g f m s)
        (fun e he => by rw [issueEntry_queue] at he; exact queue e (List.mem_filter.1 he).1)
      rw [own] at h4
      refine ⟨h1, fun b hb => h2 b (by rw [issueEntry_active]; exact List.mem_append_left _ hb), fun b hc hb => ?_, h4⟩
      have := h3 b hc hb
      rw [issueEntry_active] at this
      rcases List.mem_append.1 this with h | h
      · exact h
      · rw [List.mem_singleton.1 h] at hc; exact absurd hc ne
    next => exact ⟨queue, fun _ h => h, fun _ _ h => h, rfl⟩

theorem active_issueUpTo (g : SegNo) (n : Nat) (s : State) :
    ∀ b ∈ (s.seg g).active, b ∈ ((issueUpTo g n s).seg g).active := by
  induction n generalizing s with
  | zero => exact fun _ h => h
  | succ n ih =>
    unfold issueUpTo
    split
    · exact fun b hb => ih _ b (by rw [issueEntry_active]; exact List.mem_append_left _ hb)
    · exact fun _ h => h

/-- A strike at the head of its queue is issued first, or not at all. -/
theorem head_applyIssue {g : SegNo} {c : CompNo} {e : StrikeEntry} {rest : List StrikeEntry} {s : State}
    (he : e.compartment = c) (queue : (s.seg g).queue = e :: rest)
    (active : ∀ b ∈ (s.seg g).active, b.compartment ≠ c) :
    ((∃ rest, ((applyIssue g s).seg g).queue = e :: rest)
        ∧ (∀ b ∈ ((applyIssue g s).seg g).active, b.compartment ≠ c)
        ∧ ((applyIssue g s).comp c).transient = (s.comp c).transient)
      ∨ ((∃ m, (s.comp c).map = some m
          ∧ { compartment := c, purpose := e.purpose, attempt := e.attempt, board := m.board, line := m.line,
              doorSeen := false, phase := .issued (s.elapsed + 5) } ∈ ((applyIssue g s).seg g).active)
        ∧ (∀ b ∈ ((applyIssue g s).seg g).active, b.compartment = c → b.attempt = e.attempt)
        ∧ (∀ f ∈ ((applyIssue g s).seg g).queue, f.compartment ≠ c)
        ∧ ((applyIssue g s).comp c).transient =
            (s.comp c).transient.map (fun x => { x with strikeIssued := true })) := by
  unfold applyIssue
  rw [queue, List.length_cons]
  cases next : nextIssue s g with
  | none =>
    unfold issueUpTo
    rw [next]
    exact .inl ⟨⟨rest, queue⟩, active, rfl⟩
  | some fm =>
    obtain ⟨f, m⟩ := fm
    obtain ⟨mem, below, free, hm, on⟩ := nextIssue_some next
    by_cases same : f.compartment = c
    · have : f = e := by
        unfold nextIssue at next
        rw [if_pos ⟨free, below⟩, queue, List.findSome?_cons, he, ← same, hm] at next
        simp only [on, if_true] at next
        exact (Prod.ext_iff.1 (Option.some.inj next)).1.symm
      subst this
      unfold issueUpTo
      rw [next]; dsimp only
      obtain ⟨h1, h2, h3, h4⟩ := unqueued_issueUpTo (g := g) (c := c) rest.length (s := issueEntry g f m s)
        (fun d hd => by
          rw [issueEntry_queue] at hd
          have := (List.mem_filter.1 hd).2
          rw [same] at this
          simpa using this)
      refine .inr ⟨⟨m, by rw [← same]; exact hm, h2 _ ?_⟩, fun b hb hc => ?_, h1, ?_⟩
      · rw [issueEntry_active, same]
        exact List.mem_append_right _ (List.mem_singleton_self _)
      · have := h3 b hc hb
        rw [issueEntry_active] at this
        rcases List.mem_append.1 this with h | h
        · exact absurd hc (active b h)
        · rw [List.mem_singleton.1 h]
      · rw [h4]; simp [issueEntry, setMark, same]
    · refine .inl (offline_issueUpTo _ he (fun k hk online => ?_) queue active)
      unfold nextIssue at next
      rw [if_pos ⟨free, below⟩, queue, List.findSome?_cons, he, hk] at next
      simp only [online, if_true] at next
      have : e = f := (Prod.ext_iff.1 (Option.some.inj next)).1
      exact same (by rw [← this]; exact he)

/-- A failed first attempt at the head of its queue, the tail displaced or not (R166). -/
def headed (g : SegNo) (a : ActiveStrike) (kept : List StrikeEntry) (s : State) : State :=
  setMark a.compartment false ((endStrike g a s).setSeg g { (endStrike g a s).seg g with queue :=
    { compartment := a.compartment, purpose := a.purpose, attempt := .second, enqueued := s.elapsed } :: kept })

theorem onlyStrikes_headed (g : SegNo) (a : ActiveStrike) (kept : List StrikeEntry) (s : State) :
    OnlyStrikes s (headed g a kept s) :=
  ((onlyStrikes_endStrike g a s).trans (onlyStrikes_setSeg ..)).trans (onlyStrikes_setMark ..)

theorem headed_queue (g : SegNo) (a : ActiveStrike) (kept : List StrikeEntry) (s : State) :
    ((headed g a kept s).seg g).queue =
      { compartment := a.compartment, purpose := a.purpose, attempt := .second, enqueued := s.elapsed } :: kept := by
  simp [headed, setMark]

theorem headed_active (g : SegNo) (a : ActiveStrike) (kept : List StrikeEntry) (s : State) :
    ((headed g a kept s).seg g).active = (s.seg g).active.filter (·.compartment ≠ a.compartment) := by
  have active := (endStrike_seg g g a s).2
  rw [if_pos rfl] at active
  rw [← active]; simp [headed, setMark]

theorem headed_transient (g : SegNo) (a : ActiveStrike) (kept : List StrikeEntry) (s : State) :
    ((headed g a kept s).comp a.compartment).transient =
      (s.comp a.compartment).transient.map (fun x => { x with strikeIssued := false }) := by
  simp [headed, setMark, comp_endStrike]

theorem requeue_eq (g : SegNo) (a : ActiveStrike) (s : State) :
    requeue g a (endStrike g a s) =
      let q := (s.seg g).queue
      let u := if 16 ≤ q.length then
          match q.getLast? with
          | some d => cancelTransaction d.compartment (headed g a q.dropLast s)
          | none => headed g a q.dropLast s
        else headed g a q s
      if s.ret.concourse = .evacuate then cancelTransaction a.compartment (dropQueued g a.compartment u) else u := by
  have queue := (endStrike_seg g g a s).1
  have before := onlyStrikes_endStrike g a s
  have elapsed : (endStrike g a s).elapsed = s.elapsed := by rw [before.rest]
  have concourse (c : CompNo) (kept : List StrikeEntry) :
      (cancelTransaction c (headed g a kept s)).ret.concourse = s.ret.concourse := by
    rw [ret_concourse_of_fixed (fixed_cancelTransaction ..), (onlyStrikes_headed g a kept s).ret]
  have plain (kept : List StrikeEntry) : (headed g a kept s).ret.concourse = s.ret.concourse := by
    rw [(onlyStrikes_headed g a kept s).ret]
  unfold requeue; dsimp only
  rw [queue, elapsed]
  by_cases full : 16 ≤ (s.seg g).queue.length
  · rw [if_pos full, if_pos full, if_pos full]
    cases (s.seg g).queue.getLast? with
    | some d =>
      show (if (cancelTransaction d.compartment (headed g a _ s)).ret.concourse = _ then _ else _) = _
      rw [concourse]; rfl
    | none =>
      show (if (headed g a _ s).ret.concourse = _ then _ else _) = _
      rw [plain]; rfl
  · rw [if_neg full, if_neg full, if_neg full]
    show (if (headed g a _ s).ret.concourse = _ then _ else _) = _
    rw [plain]; rfl

/-- The failure of a first attempt outside EVACUATE, with room in the queue (R166, R12). -/
theorem requeued_attemptFails {g : SegNo} {a : ActiveStrike} {s : State} (first : a.attempt = .first)
    (stays : s.ret.concourse ≠ .evacuate) (room : (s.seg g).queue.length < 16) :
    Requeued g a s (attemptFails g a s) := by
  unfold attemptFails; dsimp only
  rw [first]; dsimp only
  rw [requeue_eq]; dsimp only
  rw [if_neg stays, if_neg (by omega)]
  have between := onlyStrikes_headed g a (s.seg g).queue s
  have um := (between.comps a.compartment).1
  have ue : (headed g a (s.seg g).queue s).elapsed = s.elapsed := by rw [between.rest]
  have all := (between.trans (onlyStrikes_applyIssue g _)).marks
  have key := head_applyIssue (g := g) rfl (headed_queue g a (s.seg g).queue s) (fun b hb => by
    rw [headed_active] at hb; simpa using (List.mem_filter.1 hb).2)
  refine ⟨all.comps, all.ret, all.kiosks, all.alarms, fun b hb ne => active_issueUpTo g _ _ b ?_, ?_⟩
  · rw [headed_active]; exact List.mem_filter.2 ⟨hb, by simpa using ne⟩
  · dsimp only at key
    rw [um, ue, headed_transient] at key
    refine key.imp id fun ⟨h1, h2, h3, h4⟩ => ⟨h1, h2, h3, ?_⟩
    rw [h4]; cases (s.comp a.compartment).transient <;> rfl

theorem transient_marked {s t : State} {c : CompNo} {x : Transient} (h : KeepsComp s t c)
    (hx : (s.comp c).transient = some x) :
    ∃ y, (t.comp c).transient = some y ∧ y.particulars = x.particulars ∧ y.kiosk = x.kiosk ∧ y.resolved = x.resolved := by
  have m := h.2.2.2.1
  rw [hx] at m
  cases ht : (t.comp c).transient with
  | none => rw [ht] at m; cases m
  | some y =>
    rw [ht] at m
    simp only [sameButMark, decide_eq_true_eq, Transient.mk.injEq] at m
    exact ⟨y, rfl, m.1, m.2.1, m.2.2.2.2⟩

theorem striking_headed (g : SegNo) (a : ActiveStrike) (kept : List StrikeEntry) (s : State) :
    striking (headed g a kept s) a.compartment = true :=
  striking_iff.2 ⟨g, .inl ⟨_, by rw [headed_queue]; exact List.mem_cons_self, rfl⟩⟩

theorem endTransaction_direct {e : Ending} {c : CompNo} {x : Transient} {s : State}
    (h : (s.comp c).transient = some x) (direct : ∀ n m, x.particulars ≠ .retrieve n m) :
    (endTransaction e c s).segments = s.segments ∧ (endTransaction e c s).boards = s.boards
      ∧ (endTransaction e c s).elapsed = s.elapsed
      ∧ ∀ d, d ≠ c → (endTransaction e c s).comp d = s.comp d := by
  unfold endTransaction; dsimp only
  rw [h]; dsimp only
  cases hp : x.particulars with
  | deposit serial number =>
    dsimp only
    rw [(reportOutcome_frame ..).1]
    refine ⟨rfl, rfl, rfl, fun d hd => ?_⟩
    show State.comp (s.setComp c _) d = _
    rw [State.comp_setComp, if_neg hd]
  | drop n reference paid =>
    dsimp only
    rw [(noteDoor_frame ..).1]
    refine ⟨rfl, rfl, rfl, fun d hd => ?_⟩
    show State.comp (s.setComp c _) d = _
    rw [State.comp_setComp, if_neg hd]
  | collect =>
    dsimp only
    rw [(noteDoor_frame ..).1]
    refine ⟨?_, ?_, ?_, fun d hd => ?_⟩
    · split <;> rfl
    · split <;> rfl
    · split <;> rfl
    · have : State.comp (s.setComp c { s.comp c with state := e.state x (s.comp c).parcel, transient := none }) d = s.comp d := by
        rw [State.comp_setComp, if_neg hd]
      rw [← this]
      split <;> rfl
  | retrieve n m => exact absurd hp (direct n m)

/-- The failure of a first attempt into a full queue displaces and cancels its tail entry (R166). -/
theorem displaced_attemptFails {g : SegNo} {a : ActiveStrike} {s : State} {d : StrikeEntry} {x : Transient}
    (first : a.attempt = .first) (stays : s.ret.concourse ≠ .evacuate) (full : 16 ≤ (s.seg g).queue.length)
    (last : (s.seg g).queue.getLast? = some d) (h : (s.comp d.compartment).transient = some x) :
    Reverted .cancelled d.compartment x s (attemptFails g a s) ∧ striking (attemptFails g a s) a.compartment = true
      ∧ ((∀ n m, x.particulars ≠ .retrieve n m) → d.compartment ≠ a.compartment →
          SecondAttempt g a s (attemptFails g a s)) := by
  unfold attemptFails; dsimp only
  rw [first]; dsimp only
  rw [requeue_eq]; dsimp only
  rw [if_neg stays, if_pos full, last]; dsimp only
  have between := onlyStrikes_headed g a (s.seg g).queue.dropLast s
  obtain ⟨y, hy, p, k, r⟩ := transient_marked (between.comps d.compartment) h
  have rev := reverted_endTransaction .cancelled d.compartment y _ hy
  have side := aside_endTransaction .cancelled d.compartment (headed g a (s.seg g).queue.dropLast s)
  refine ⟨Reverted.around between.marks (onlyStrikes_applyIssue ..).marks p k r rev,
    striking_issueUpTo g _ (side.keeps _ (striking_headed ..)), fun direct other => ?_⟩
  obtain ⟨segments, boards, elapsed, comps⟩ :=
    endTransaction_direct (e := .cancelled) hy (fun n m => by rw [p]; exact direct n m)
  have ue : (headed g a (s.seg g).queue.dropLast s).elapsed = s.elapsed := by rw [between.rest]
  have um := (between.comps a.compartment).1
  have seg (h : SegNo) : (cancelTransaction d.compartment (headed g a (s.seg g).queue.dropLast s)).seg h
      = (headed g a (s.seg g).queue.dropLast s).seg h := congrArg (fun v => look v h) segments
  have key := head_applyIssue (g := g)
    (s := cancelTransaction d.compartment (headed g a (s.seg g).queue.dropLast s)) rfl
    (by rw [seg]; exact headed_queue g a _ s)
    (fun b hb => by rw [seg, headed_active] at hb; simpa using (List.mem_filter.1 hb).2)
  dsimp only at key
  have own : (cancelTransaction d.compartment (headed g a (s.seg g).queue.dropLast s)).comp a.compartment
      = (headed g a (s.seg g).queue.dropLast s).comp a.compartment := comps _ (Ne.symm other)
  have time : (cancelTransaction d.compartment (headed g a (s.seg g).queue.dropLast s)).elapsed = s.elapsed :=
    elapsed.trans ue
  rw [own, time, um, headed_transient] at key
  refine key.imp id fun ⟨h1, h2, h3, h4⟩ => ⟨h1, h2, h3, ?_⟩
  rw [h4]; cases (s.comp a.compartment).transient <;> rfl

/-- The failure of a first attempt in EVACUATE cancels its own transaction (R166, R170). -/
theorem evacuated_attemptFails {g : SegNo} {a : ActiveStrike} {s : State} {x : Transient}
    (first : a.attempt = .first) (evacuate : s.ret.concourse = .evacuate) (room : (s.seg g).queue.length < 16)
    (h : (s.comp a.compartment).transient = some x) :
    Reverted .cancelled a.compartment x s (attemptFails g a s)
      ∧ (∀ e ∈ ((attemptFails g a s).seg g).queue, e.compartment ≠ a.compartment)
      ∧ ∀ b ∈ ((attemptFails g a s).seg g).active, b.compartment ≠ a.compartment := by
  unfold attemptFails; dsimp only
  rw [first]; dsimp only
  rw [requeue_eq]; dsimp only
  rw [if_pos evacuate, if_neg (by omega)]
  have between : OnlyStrikes s (dropQueued g a.compartment (headed g a (s.seg g).queue s)) :=
    (onlyStrikes_headed g a _ s).trans (onlyStrikes_setSeg ..)
  obtain ⟨y, hy, p, k, r⟩ := transient_marked (between.comps a.compartment) h
  have rev := reverted_endTransaction .cancelled a.compartment y _ hy
  have quiet := (aside_endTransaction .cancelled a.compartment
    (dropQueued g a.compartment (headed g a (s.seg g).queue s))).quiet.trans
    (noNewStrike_applyIssue a.compartment g _)
  have q := quiet g (fun e he => by
    simp only [dropQueued, State.seg_setSeg_same] at he
    simpa using (List.mem_filter.1 he).2)
  refine ⟨Reverted.around between.marks (onlyStrikes_applyIssue ..).marks p k r rev, q.1, q.2 fun b hb => ?_⟩
  simp only [dropQueued, State.seg_setSeg_same, headed_active] at hb
  simpa using (List.mem_filter.1 hb).2

/-- The failure of an attempt (R166, R167). -/
theorem attemptFailed (g : SegNo) (a : ActiveStrike) (s : State) : AttemptFailed g a s (attemptFails g a s) :=
  ⟨requeued_attemptFails, fun _ _ first stays full last h => displaced_attemptFails first stays full last h,
    fun _ first evacuate room h => evacuated_attemptFails first evacuate room h, fun _ second h => jammed_attemptFails h second⟩

/-! ### A LOST board -/

theorem declareLost_eq (b : BoardNo) (s : State) :
    declareLost b s = (((disconnected b s).seg (segmentOf b)).active.filter fun a => a.isIssued && a.board = b).foldl
      (fun s a => energiseEnds (segmentOf b) a s) (disconnected b s) := by
  have alarmed (u : State) (alarms : u.alarms = s.alarms) (clock : u.clock = s.clock) :
      postAlarm .boardLost b.val u = { u with alarms := (postAlarm .boardLost b.val s).alarms } := by
    have : (postAlarm .boardLost b.val u).alarms = (postAlarm .boardLost b.val s).alarms := by
      unfold postAlarm
      rw [alarms, clock]
      split
      · exact alarms
      · rfl
    rw [postAlarm_eq, this]
  unfold declareLost; dsimp only
  rw [alarmed (s.setBoard b _) rfl rfl]
  rfl

/-- The ISSUED strikes of a board that is declared LOST (R162, R182). -/
theorem lostStrikes_declareLost (b : BoardNo) (s : State) : LostStrikes b (disconnected b s) (declareLost b s) := by
  rw [declareLost_eq]
  unfold LostStrikes; dsimp only
  refine ⟨fun none => ?_, fun a one => ?_⟩
  · rw [none]
    exact ⟨⟨.refl _, rfl, rfl, rfl⟩, fun _ => ⟨rfl, rfl⟩⟩
  · have board : a.board = b := by
      have := List.mem_filter.1 (one ▸ List.mem_singleton_self a)
      simpa using (Bool.and_eq_true_iff.1 this.2).2
    rw [one, List.foldl_cons, List.foldl_nil]
    unfold energiseEnds
    refine ⟨by split <;> exact (issued_applyIssue ..).1, fun x seen hx busy => ?_, fun unseen => ?_⟩
    · rw [if_pos seen]
      obtain ⟨gone, -, op⟩ := succeeded_strikeSucceeds (g := segmentOf b) hx busy
      have dark : ((disconnected b s).line a.board a.line).doorOpen = none := by
        rw [board]
        unfold disconnected State.line
        show (look ((s.setBoard b _).board b).lines a.line).doorOpen = none
        rw [State.board_setBoard_same, look_map]
      have last := (onlyStrikes_applyIssue (segmentOf b) (strikeSucceeds (segmentOf b) a (disconnected b s))).marks
      refine ⟨(op (.inr (by rw [dark]; simp))).around (.refl _) last, fun hn d hd => ?_⟩
      exact strikeGone (NoNewStrike.trans (quiet_strikeSucceeds _ a _) (noNewStrike_applyIssue a.compartment _ _)) hn d hd
    · rw [unseen, if_neg Bool.false_ne_true]
      exact attemptFailed ..

end Sys2Proof.Machine
end

