-- ==== Sys2Proof/Laws/Expiry.lean ====
section
/-! SUPPORT. What the quotes that a forward step of the clock passes leave when they expire (R198, R72). -/

namespace Sys2Proof.Machine

/-- Whether a compartment's quote has expired at `now` (R72). -/
def expiredAt (s : State) (now : Nat) (c : CompNo) : Bool := (s.quoteOf c).any fun q => q.expiry < now

/-- The returns list once the drops of some return references have ended without committing (R135). -/
def lapsedReturns (names : Nat → Bool) (entries : List ReturnEntry) : List ReturnEntry :=
  entries.map fun e => if names e.reference then { e with inUse := false, paidMark := none } else e

theorem lapsedReturns_more {names all : Nat → Bool} {n : Nat} (h : ∀ m, all m = (names m || decide (m = n)))
    (entries : List ReturnEntry) :
    ((lapsedReturns names entries).map fun e => if e.reference = n then { e with inUse := false, paidMark := none } else e)
      = lapsedReturns all entries := by
  unfold lapsedReturns
  rw [List.map_map]
  refine List.map_congr_left fun e _ => ?_
  rw [Function.comp_apply, h]
  by_cases a : names e.reference = true <;> by_cases b : e.reference = n
  · rw [if_pos a, if_pos (by exact b), if_pos (by simp [a])]
  · rw [if_pos a, if_neg (by exact b), if_pos (by simp [a])]
  · rw [if_neg a, if_pos b, if_pos (by simp [b])]
  · rw [if_neg a, if_neg b, if_neg (by simp [a, b])]

/-- A kiosk once the drops of some of its compartments have ended by cancellation, the last of them in its last
door result (R129). -/
def lapsedKiosk (x : Kiosk) : Option CompNo → Kiosk
  | some c => { x with doorResult := some { compartment := c, purpose := .drop, outcome := .cancelled } }
  | none => x

/-- The state after the expired quotes of the compartments of a list have been removed in its order. -/
structure Expired (now : Nat) (visited : List CompNo) (s t : State) : Prop where
  comps  : ∀ c, t.comp c = if c ∈ visited ∧ (lapsing s now c).isSome = true then cancelledComp (s.comp c) else s.comp c
  quotes : ∀ c, t.quoteOf c = if c ∈ visited ∧ expiredAt s now c = true then none else s.quoteOf c
  doors  : ∀ k, t.kiosk k = lapsedKiosk (s.kiosk k) (visited.filter (lapsesAt s now k)).getLast?
  rest   : t = { s with
    ret := { s.ret with
      compartments := t.ret.compartments
      returns := lapsedReturns (fun n => visited.any fun c => lapsing s now c = some n) s.ret.returns
      reservations := s.ret.reservations - (visited.filter fun c => (lapsing s now c).isSome).length }
    quotes := t.quotes, kiosks := t.kiosks }

theorem Expired.refl (now : Nat) (s : State) : Expired now [] s s where
  comps c := by simp
  quotes c := by simp
  doors k := rfl
  rest := by simp [lapsedReturns]

theorem lapsing_some {s : State} {now n : Nat} {c : CompNo} :
    lapsing s now c = some n ↔ ∃ q, s.quoteOf c = some q ∧ q.purpose = .postage n ∧ q.expiry < now := by
  unfold lapsing
  cases h : s.quoteOf c with
  | none => simp
  | some q =>
    cases hp : q.purpose with
    | collection => simp [hp]
    | postage m => simp [hp, and_comm]

/-- A compartment whose quote is absent, or has not been passed, stays as it is. -/
theorem Expired.skip {now : Nat} {V : List CompNo} {s t : State} {c : CompNo} (h : Expired now V s t)
    (not : expiredAt s now c = false) : Expired now (V ++ [c]) s t := by
  have none : lapsing s now c = none := by
    cases e : lapsing s now c with
    | none => rfl
    | some n =>
      obtain ⟨q, hq, -, lt⟩ := lapsing_some.1 e
      simp [expiredAt, hq] at not
      omega
  have away (k : KioskNo) : lapsesAt s now k c = false := by simp [lapsesAt, none]
  refine ⟨fun d => ?_, fun d => ?_, fun k => ?_, ?_⟩
  · rw [h.comps]
    by_cases e : d = c
    · subst e; simp [none]
    · simp [e]
  · rw [h.quotes]
    by_cases e : d = c
    · subst e; simp [not]
    · simp [e]
  · rw [h.doors]; simp [List.filter_append, away]
  · refine h.rest.trans ?_
    simp [List.filter_append, none]

/-- The removal of one expired quote: a COLLECTION's alone, a POSTAGE quote's with its drop (R72, R14). -/
theorem Expired.drop {now : Nat} {V : List CompNo} {s t : State} {c : CompNo} (h : Expired now V s t) (new : c ∉ V)
    (drops : LapsingDrops s now) (yes : expiredAt s now c = true) : Expired now (V ++ [c]) s (dropQuote c t) := by
  have comp : t.comp c = s.comp c := by rw [h.comps, if_neg (by simp [new])]
  have quote : t.quoteOf c = s.quoteOf c := by rw [h.quotes, if_neg (by simp [new])]
  obtain ⟨q, hq, lt⟩ : ∃ q, s.quoteOf c = some q ∧ q.expiry < now := by
    unfold expiredAt at yes
    cases e : s.quoteOf c with
    | none => simp [e] at yes
    | some q => exact ⟨q, rfl, by simpa [e] using yes⟩
  have quotes (d : CompNo) : (t.setQuote c none).quoteOf d
      = if d ∈ V ++ [c] ∧ expiredAt s now d = true then none else s.quoteOf d := by
    rw [State.quoteOf_setQuote, h.quotes]
    by_cases e : d = c
    · subst e; simp [yes]
    · simp [e]
  cases hp : q.purpose with
  | collection =>
    have eq : dropQuote c t = t.setQuote c none := by unfold dropQuote; rw [quote, hq]; dsimp only; rw [hp]
    have none : lapsing s now c = none := by unfold lapsing; rw [hq]; dsimp only; rw [hp]
    have away (k : KioskNo) : lapsesAt s now k c = false := by simp [lapsesAt, none]
    rw [eq]
    refine ⟨fun d => ?_, quotes, fun k => ?_, ?_⟩
    · rw [State.comp_setQuote, h.comps]
      by_cases e : d = c
      · subst e; simp [none]
      · simp [e]
    · rw [State.kiosk_setQuote, h.doors]; simp [List.filter_append, away]
    · have r := h.rest
      generalize hc : t.ret.compartments = cs at r
      generalize hk : t.kiosks = ks at r
      generalize hQ : t.quotes = Q at r
      simp only [State.setQuote, hc, hk, hQ]
      rw [r]
      simp [List.filter_append, none]
  | postage n =>
    have yields : lapsing s now c = some n := lapsing_some.2 ⟨q, hq, hp, lt⟩
    obtain ⟨reserved, x, courier, hx, part⟩ := drops c n yields
    have eq : dropQuote c t = noteDoor .reserved c x .cancelled (freeReturn n 0 (closing c (t.setQuote c none))) := by
      unfold dropQuote; rw [quote, hq]; dsimp only; rw [hp]; dsimp only
      unfold endTransaction; dsimp only
      rw [State.comp_setQuote, comp, hx, reserved]; dsimp only; rw [part]
      unfold closing cancelledComp Ending.state revertedState
      rw [State.comp_setQuote, comp, hx]; dsimp only; rw [part]; rfl
    rw [eq]
    have frame : noteDoor .reserved c x .cancelled (freeReturn n 0 (closing c (t.setQuote c none))) =
        { freeReturn n 0 (closing c (t.setQuote c none)) with
          kiosks := (noteDoor .reserved c x .cancelled (freeReturn n 0 (closing c (t.setQuote c none)))).kiosks } :=
      (noteDoor_cancelled ..).1
    refine ⟨fun d => ?_, fun d => ?_, fun k => ?_, ?_⟩
    · rw [frame]
      refine (comp_closing c d _).trans ?_
      rw [State.comp_setQuote, h.comps]
      by_cases e : d = c
      · subst e; simp [new, yields]
      · simp [e]
    · rw [frame]
      show (((t.setQuote c none).setComp c _).setQuote c none).quoteOf d = _
      rw [State.quoteOf_setQuote, State.quoteOf_setComp, quotes]
      by_cases e : d = c
      · subst e; simp [yes]
      · simp [e]
    · have here : lapsesAt s now k c = (x.kiosk = k && !x.resolved) := by simp [lapsesAt, yields, hx]
      rw [List.filter_append, List.filter_singleton, here]
      unfold noteDoor
      cases res : x.resolved with
      | true =>
        rw [if_pos (.inr rfl), Bool.not_true, Bool.and_false, cond_false, List.append_nil]
        exact h.doors k
      | false =>
        rw [if_neg (by simp), setDoorResult, State.kiosk_setKiosk, Bool.not_false, Bool.and_true]
        by_cases e : k = x.kiosk
        · subst e
          have before : t.kiosk x.kiosk = lapsedKiosk (s.kiosk x.kiosk) (V.filter (lapsesAt s now x.kiosk)).getLast? :=
            h.doors x.kiosk
          have same : ({ t.kiosk x.kiosk with doorResult := none } : Kiosk) = { s.kiosk x.kiosk with doorResult := none } := by
            rw [before]; cases (V.filter (lapsesAt s now x.kiosk)).getLast? <;> rfl
          rw [if_pos rfl, decide_eq_true rfl, cond_true, List.getLast?_concat, part]
          exact congrArg (fun y : Kiosk =>
            { y with doorResult := some { compartment := c, purpose := .drop, outcome := .cancelled } }) same
        · rw [if_neg e, decide_eq_false fun h => e h.symm, cond_false, List.append_nil]
          exact h.doors k
    · rw [frame]
      have returns : (freeReturn n 0 (closing c (t.setQuote c none))).ret.returns
          = lapsedReturns (fun m => (V ++ [c]).any fun d => lapsing s now d = some m) s.ret.returns := by
        rw [freeReturn_returns]
        have : (closing c (t.setQuote c none)).ret.returns = t.ret.returns := rfl
        rw [freedReturns, this, congrArg (fun u : State => u.ret.returns) h.rest]
        exact lapsedReturns_more (names := fun m => V.any fun d => lapsing s now d = some m)
          (fun m => by simp [yields, eq_comm (a := n)]) s.ret.returns
      have slots : (freeReturn n 0 (closing c (t.setQuote c none))).ret.reservations
          = s.ret.reservations - ((V ++ [c]).filter fun d => (lapsing s now d).isSome).length := by
        show t.ret.reservations - 1 = _
        rw [congrArg (fun u : State => u.ret.reservations) h.rest, List.filter_append, List.length_append]
        simp [yields]; omega
      have r := h.rest
      generalize hK : (noteDoor .reserved c x .cancelled (freeReturn n 0 (closing c (t.setQuote c none)))).kiosks = K
      rw [← returns, ← slots]
      have shape : freeReturn n 0 (closing c (t.setQuote c none)) = { t with
          ret := { t.ret with
            compartments := (freeReturn n 0 (closing c (t.setQuote c none))).ret.compartments
            returns := (freeReturn n 0 (closing c (t.setQuote c none))).ret.returns
            reservations := (freeReturn n 0 (closing c (t.setQuote c none))).ret.reservations }
          quotes := (freeReturn n 0 (closing c (t.setQuote c none))).quotes } := rfl
      generalize freeReturn n 0 (closing c (t.setQuote c none)) = F at shape ⊢
      rw [shape]
      rw [r]

theorem Expired.one {now : Nat} {V : List CompNo} {s t : State} {c : CompNo} (h : Expired now V s t) (new : c ∉ V)
    (clock : s.clock = some now) (drops : LapsingDrops s now) : Expired now (V ++ [c]) s (expireQuote c t) := by
  have quote : t.quoteOf c = s.quoteOf c := by rw [h.quotes, if_neg (by simp [new])]
  have time : t.clock = some now := by rw [h.rest]; exact clock
  unfold expireQuote
  rw [quote]
  cases hq : s.quoteOf c with
  | none => exact h.skip (by simp [expiredAt, hq])
  | some q =>
    dsimp only
    have passed : quotePassed t q = decide (q.expiry < now) := by unfold quotePassed; rw [time]
    rw [passed]
    by_cases lt : q.expiry < now
    · rw [if_pos (by simpa using lt)]; exact h.drop new drops (by simpa [expiredAt, hq] using lt)
    · rw [if_neg (by simpa using lt)]; exact h.skip (by simpa [expiredAt, hq] using lt)

theorem expired_more {now : Nat} {s : State} (clock : s.clock = some now) (drops : LapsingDrops s now)
    (L : List CompNo) (V : List CompNo) (t : State) (distinct : (V ++ L).Nodup) (h : Expired now V s t) :
    Expired now (V ++ L) s (L.foldl (fun s c => expireQuote c s) t) := by
  induction L generalizing V t with
  | nil => simpa using h
  | cons c L ih =>
    rw [List.foldl_cons, List.append_cons]
    rw [List.append_cons] at distinct
    refine ih _ _ distinct (h.one (fun m => ?_) clock drops)
    have := (List.nodup_append.1 distinct).1
    rw [List.nodup_append] at this
    exact this.2.2 c m c (by simp) rfl

theorem expired_list {now : Nat} {s : State} (clock : s.clock = some now) (drops : LapsingDrops s now)
    (L : List CompNo) (distinct : L.Nodup) : Expired now L s (L.foldl (fun s c => expireQuote c s) s) :=
  expired_more clock drops L [] s distinct (.refl now s)

/-- A forward step lets every quote that the clock has passed expire (R198, R72). -/
theorem quotesExpired_step {now : Nat} {s : State} (drops : LapsingDrops s now) :
    QuotesExpired now s (forEach expireQuote { s with clock := some now }) := by
  have e : Expired now (List.finRange 768) { s with clock := some now } (forEach expireQuote { s with clock := some now }) :=
    expired_list (s := { s with clock := some now }) rfl drops _ (List.nodup_finRange 768)
  refine ⟨fun c => ?_, fun c => ?_, fun k => ?_, e.rest⟩
  · refine (e.comps c).trans ?_
    simp only [List.mem_finRange, true_and]; rfl
  · refine (e.quotes c).trans ?_
    simp only [List.mem_finRange, true_and]; rfl
  · refine (e.doors k).trans ?_
    have same : lapsesAt { s with clock := some now } now k = lapsesAt s now k := rfl
    rw [same]
    cases ((List.finRange 768).filter (lapsesAt s now k)).getLast? <;> rfl

end Sys2Proof.Machine
end

