-- ==== Sys2Proof/Laws/Broadcasts.lean ====
section
/-! SUPPORT. What the two stages of a Broadcast do: a step of the set clock (R198, R199), and the code (R194,
R195). -/

namespace Sys2Proof.Machine

/-! ### The clock -/

/-- What the compartments that a scan has taken, and the lapsed returns entries, leave (R24, R136). -/
theorem Scanned.boundary {now : Nat} {taken : List CompNo} {s v : State}
    (sc : Scanned now (List.finRange 768) taken s v) (all : taken = scanTaken s now) :
    BoundaryTaken now s (lapseReturns now v) := by
  have e := scanned_lapse sc
  unfold scanTaken at all
  unfold BoundaryTaken; dsimp only
  rw [← all]
  exact ⟨sc.comps, fun c => (sc.quotes c).trans (if_congr (and_iff_right (List.mem_finRange c)) rfl rfl), e⟩

/-- A minute boundary (R199, R24, R136). -/
theorem boundaryTaken_takeBoundary {now : Nat} {s : State}
    (h : ∀ c q, s.quoteOf c = some q → (s.comp c).state = .held → q.purpose = .collection) :
    BoundaryTaken now s (takeBoundary now s) :=
  (scanned_scan h).boundary rfl

/-- The quotes on HELD compartments are as before once others have expired: the drops of POSTAGE quotes were
RESERVED, and are VACANT. -/
theorem QuotesExpired.held {now : Nat} {s t : State} (q : QuotesExpired now s t) (drops : LapsingDrops s now) {c : CompNo}
    {y : Quote} (hy : t.quoteOf c = some y) (held : (t.comp c).state = .held) :
    s.quoteOf c = some y ∧ (s.comp c).state = .held := by
  have a := q.1 c
  have b := q.2.1 c
  by_cases l : (lapsing s now c).isSome = true
  · obtain ⟨n, hn⟩ := Option.isSome_iff_exists.1 l
    obtain ⟨-, x, courier, hx, hp⟩ := drops c n hn
    rw [if_pos l, cancelledComp, hx] at a
    rw [a] at held; dsimp only at held
    rw [hp] at held
    cases held
  · rw [if_neg l] at a
    rw [hy] at b
    split at b
    · cases b
    · exact ⟨b.symm, a ▸ held⟩

/-- A step of the set clock (R198, R199). -/
theorem clockStepped_stepClock {v now : Nat} {s : State} (drops : LapsingDrops s now)
    (h : ∀ c q, s.quoteOf c = some q → (s.comp c).state = .held → q.purpose = .collection) :
    ClockStepped v now s (stepClock v now s) := by
  unfold stepClock
  refine ⟨fun le => by dsimp only; rw [if_neg (by omega)], fun lt => ⟨_, quotesExpired_step drops, ?_⟩⟩
  have q := quotesExpired_step drops
  dsimp only
  rw [if_pos lt]
  generalize forEach expireQuote { s with clock := some now } = z at q ⊢
  refine ⟨fun same => by rw [if_neg (by omega)], fun later => ?_⟩
  rw [if_pos later]
  refine boundaryTaken_takeBoundary fun c y hy held => ?_
  obtain ⟨a, b⟩ := q.held drops hy held
  exact h c y a b

/-- The clock's events do not read the receive queue. -/
theorem QuotesExpired.queued {now : Nat} {s t : State} (h : QuotesExpired now s t) (queue : List Frame) :
    QuotesExpired now { s with receive := queue } { t with receive := queue } := by
  obtain ⟨comps, quotes, kiosks, rest⟩ := h
  have drops : lapsing { s with receive := queue } now = lapsing s now := rfl
  have doors (k : KioskNo) : lapsesAt { s with receive := queue } now k = lapsesAt s now k := rfl
  refine ⟨comps, quotes, fun k => ?_, ?_⟩
  · have h := kiosks k
    rw [doors]
    generalize ((List.finRange 768).filter (lapsesAt s now k)).getLast? = last at h ⊢
    cases last <;> exact h
  · rw [drops]
    generalize List.finRange 768 = all at rest ⊢
    exact congrArg (fun u : State => { u with receive := queue }) rest

theorem BoundaryTaken.queued {now : Nat} {s t : State} (h : BoundaryTaken now s t) (queue : List Frame) :
    BoundaryTaken now { s with receive := queue } { t with receive := queue } := by
  have full : (postAlarm .backlog 0 { s with receive := queue }).alarms = (postAlarm .backlog 0 s).alarms :=
    postAlarm_alarms_congr rfl rfl
  have due : scanFinds { s with receive := queue } now = scanFinds s now := rfl
  unfold BoundaryTaken at h ⊢; dsimp only at h ⊢
  rw [full, due]
  generalize ((List.finRange 768).filter (scanFinds s now)).take (32 - (s.ret.outbox.length + s.ret.reservations)) = taken at h ⊢
  exact ⟨h.1, h.2.1, congrArg (fun u : State => { u with receive := queue }) h.2.2⟩

theorem ClockStepped.queued {v now : Nat} {s t : State} (h : ClockStepped v now s t) (queue : List Frame) :
    ClockStepped v now { s with receive := queue } { t with receive := queue } := by
  refine ⟨fun le => by rw [h.1 le], fun lt => ?_⟩
  obtain ⟨u, expired, same, later⟩ := h.2 lt
  exact ⟨_, expired.queued queue, fun e => by rw [same e], fun o => (later o).queued queue⟩

/-! ### The code -/

/-- The end of the event has changed no more than the trunk, the rate modes, the attention line and the check
word. -/
structure After (s t : State) : Prop where
  ret       : t.ret = s.ret
  quotes    : t.quotes = s.quotes
  kiosks    : t.kiosks = s.kiosks
  boards    : t.boards = s.boards
  alarms    : t.alarms = s.alarms
  ajar      : t.ajar = s.ajar
  declaring : t.declaring = s.declaring
  strikes   : KeepsStrikes s t

theorem After.comp {s t : State} (h : After s t) (c : CompNo) : t.comp c = s.comp c := by unfold State.comp; rw [h.ret]

theorem After.quoteOf {s t : State} (h : After s t) (c : CompNo) : t.quoteOf c = s.quoteOf c := by
  unfold State.quoteOf; rw [h.quotes]

theorem After.kiosk {s t : State} (h : After s t) (k : KioskNo) : t.kiosk k = s.kiosk k := by
  unfold State.kiosk; rw [h.kiosks]

theorem After.nextIssue {s t : State} (h : After s t) (g : SegNo) : nextIssue t g = nextIssue s g := by
  unfold Machine.nextIssue energised budgetInForce onlineToIssue
  rw [h.ret, (h.strikes g).1, (h.strikes g).2.1]
  simp only [h.comp, State.board, h.boards, h.declaring]; rfl

theorem After.striking {s t : State} (h : After s t) (c : CompNo) : striking t c = striking s c := by
  unfold Machine.striking
  simp only [(h.strikes _).1, (h.strikes _).2.1]

theorem Issued.after {g : SegNo} {s u t : State} (i : Issued g s u) (h : After u t) : Issued g s t := by
  obtain ⟨none, keep, count, queue, issued, active, all⟩ := i
  refine ⟨(h.nextIssue g).trans none, fun c hc => (h.striking c).trans (keep c hc), ?_, ?_, issued, ?_, all⟩
  · unfold energised; rw [(h.strikes g).2.1]; exact count
  · rw [(h.strikes g).1]; exact queue
  · rw [(h.strikes g).2.1]; exact active

theorem issue_empty {s : State} (h : ∀ g, (s.seg g).queue = []) : forEach applyIssue s = s := by
  have (L : List SegNo) : L.foldl (fun s g => applyIssue g s) s = s := by
    induction L with
    | nil => rfl
    | cons g L ih =>
      have : applyIssue g s = s := by unfold applyIssue; rw [h g]; rfl
      rw [List.foldl_cons, this, ih]
  exact this _

/-- The state at an adoption, before its effects: the code in the history and the new concourse state. -/
def adopting (code : Nat) (state : Concourse) (s : State) : State :=
  { s with history := appendCode s.history code, ret := { s.ret with concourse := state } }

/-- All that a code can do: enter the history, and adopt another concourse state (R194). -/
theorem applyCode_cases (code : Nat) (s : State) :
    applyCode code s = { s with history := appendCode s.history code }
      ∨ ∃ state, state ≠ s.ret.concourse
          ∧ applyCode code s = forEach applyIssue
              (if state = .evacuate then evacuate (adopting code state s) else adopting code state s) := by
  unfold applyCode; dsimp only
  cases qualifying (appendCode s.history code) with
  | none => exact .inl rfl
  | some state =>
    dsimp only
    by_cases same : state = s.ret.concourse
    · exact .inl (if_pos same)
    · rw [if_neg same]; exact .inr ⟨state, same, rfl⟩

/-- A code that adopts nothing changes no record (R194). -/
theorem codeApplied_same {s t : State} {history : List Nat} (h : After { s with history } t) : CodeApplied s t := by
  have e : t.ret.concourse = s.ret.concourse := by rw [h.ret]
  exact ⟨fun n => absurd e n, fun n => absurd e n, fun _ => ⟨h.ret, h.quotes, h.kiosks, h.boards, h.alarms, h.strikes⟩⟩

/-- The adoption of EVACUATE (R195, R170, R82). -/
theorem codeApplied_evacuate {code : Nat} {s u t : State} (other : s.ret.concourse ≠ .evacuate)
    (can : Cancelled (evacuated s)
      { adopting code .evacuate s with kiosks := s.kiosks.map fun x => { x with session := none } } u)
    (segs : ∀ g, u.seg g = { s.seg g with queue := [] }) (h : After u t) : CodeApplied s t := by
  have adopted : t.ret.concourse = .evacuate := by rw [h.ret, can.rest]; rfl
  refine ⟨fun _ _ => ⟨fun c => ?_, ?_, fun c x n reference paid he hx hp e me re => ?_, fun c x he hx pu ns nr => ?_,
      ⟨?_, ?_⟩, ?_, ?_, ?_, fun g => ?_⟩, fun _ n => absurd adopted n, fun n => absurd (n.symm.trans adopted) other⟩
  · rw [h.comp]; exact can.comps c
  · rw [h.ret]; exact can.directory
  · rw [h.ret] at me
    exact can.freed e me ⟨c, x, n, paid, he, hx, by rw [re]; exact hp⟩
  · have told : CancelNoted u x.kiosk := can.told c x he ⟨hx, by cases hp : x.particulars <;> simp_all [Particulars.purpose], ns, nr⟩
    unfold CancelNoted at told; rwa [← h.kiosk] at told
  · rw [h.ret, can.rest]; rfl
  · rw [h.ret, can.rest]; rfl
  · rw [h.alarms, can.rest]; rfl
  · rw [h.boards, can.rest]; rfl
  · rw [h.ajar, can.rest]; rfl
  · rw [(h.strikes g).2.1, segs]

/-- The adoption of another state (R195, R160). -/
theorem codeApplied_issue {code : Nat} {state : Concourse} {s u t : State} (other : state ≠ s.ret.concourse)
    (not : state ≠ .evacuate) (only : OnlyStrikes (adopting code state s) u) (iss : ∀ g, Issued g (adopting code state s) u)
    (h : After u t) : CodeApplied s t := by
  have adopted : t.ret.concourse = state := by rw [h.ret, only.ret]; rfl
  refine ⟨fun _ e => absurd (adopted.symm.trans e) not, fun _ _ => ⟨fun c => ?_, ?_, ?_, ?_, ?_, ?_, fun g => ?_⟩,
    fun n => absurd (adopted.symm.trans n) other⟩
  · unfold KeepsComp; rw [h.comp, h.quoteOf]; exact only.comps c
  · rw [h.ret, only.ret]; rfl
  · rw [h.quotes, only.rest]; rfl
  · rw [h.kiosks, only.rest]; rfl
  · rw [h.alarms, only.rest]; rfl
  · rw [h.ajar, only.rest]; rfl
  · rw [adopted]; exact (iss g).after h

/-- What a code does, once the event has ended (R194, R195). -/
theorem codeApplied_applyCode {code : Nat} {s t : State} (h : After (applyCode code s) t) : CodeApplied s t := by
  rcases applyCode_cases code s with e | ⟨state, other, e⟩ <;> rw [e] at h
  · exact codeApplied_same h
  · by_cases ev : state = .evacuate
    · subst ev
      rw [if_pos rfl] at h
      obtain ⟨can, segs, -⟩ := cancelled_evacuate (adopting code .evacuate s)
      rw [issue_empty fun g => by rw [segs]] at h
      exact codeApplied_evacuate (fun n => other n.symm) can segs h
    · rw [if_neg ev] at h
      obtain ⟨only, iss⟩ := issued_all (adopting code state s)
      exact codeApplied_issue other ev only iss h

end Sys2Proof.Machine
end

