-- ==== Sys2Proof/Laws/Layout.lean ====
section
/-! SUPPORT. Numbers as bytes and back, and the reading of a body's fields. -/

namespace Sys2Proof.Machine

@[simp] theorem length_be (w v : Nat) : (be w v).length = w := by
  induction w with
  | zero => rfl
  | succ w ih => simp [be, ih]

theorem ofBytes_append_foldl (bs : List Byte) (acc : Nat) :
    bs.foldl (fun acc b => acc * 256 + b.toNat) acc = acc * 256 ^ bs.length + ofBytes bs := by
  induction bs generalizing acc with
  | nil => simp [ofBytes]
  | cons b bs ih =>
    rw [List.foldl_cons, ih]
    show _ = _ + ofBytes (b :: bs)
    have : ofBytes (b :: bs) = b.toNat * 256 ^ bs.length + ofBytes bs := by
      show List.foldl _ _ _ = _
      rw [List.foldl_cons, ih]; simp
    rw [this, List.length_cons, pow_succ]; ring

theorem ofBytes_cons (b : Byte) (bs : List Byte) :
    ofBytes (b :: bs) = b.toNat * 256 ^ bs.length + ofBytes bs := by
  show List.foldl _ _ _ = _
  rw [List.foldl_cons, ofBytes_append_foldl]; simp

/-- Bytes most significant first give back the number, modulo what they can hold. -/
theorem ofBytes_be (w v : Nat) : ofBytes (be w v) = v % 256 ^ w := by
  induction w with
  | zero => simp [be, ofBytes, Nat.mod_one]
  | succ w ih =>
    rw [be, ofBytes_cons, ih, length_be, BitVec.toNat_ofNat, pow_succ]
    show v / 256 ^ w % 256 * 256 ^ w + v % 256 ^ w = v % (256 ^ w * 256)
    rw [Nat.mod_mul]; ring

/-- A field written and read back leaves what follows it. -/
theorem readNat_be (w v : Nat) (bs : List Byte) : readNat w (be w v ++ bs) = some (v % 256 ^ w, bs) := by
  simp [readNat, List.take_left', List.drop_left', ofBytes_be]

@[simp] theorem readFlag_flag (b : Bool) (bs : List Byte) : readFlag (flag b ++ bs) = some (b, bs) := by
  cases b <;> rfl

/-- A body of one number is read back. -/
theorem bodyNat_be {w v : Nat} (h : v < 256 ^ w) : bodyNat w (be w v) = some v := by
  have := readNat_be w v []
  rw [List.append_nil] at this
  simp [bodyNat, this, ended, Nat.mod_eq_of_lt h]

end Sys2Proof.Machine
end

