-- ==== Sys2Proof/Laws/Polls.lean ====
section
/-! SUPPORT. What the contents of a good reply do: confirmations line by line, forced doors, and the order
in which they are taken. -/

namespace Sys2Proof.Machine

/-! ### Lines -/

theorem keepsLines_confirmedClose (c : CompNo) (o : Bool) (s : State) : KeepsLines s (confirmedClose c o s) := by
  unfold confirmedClose
  split
  · exact (aside_closeHandling ..).lines
  · exact (aside_closeHandling ..).lines
  · exact (aside_closeHandling ..).lines
  · exact .refl s

theorem keepsLines_occupancyConfirmed (c : CompNo) (o : Bool) (s : State) : KeepsLines s (occupancyConfirmed c o s) := by
  unfold occupancyConfirmed
  split
  · exact (aside_postAlarm c ..).lines.after rfl
  · exact (aside_postAlarm c ..).lines
  · exact (aside_postAlarm c ..).lines
  · exact .refl s

theorem onlyStrikes_dropQueued (g : SegNo) (c : CompNo) (s : State) : OnlyStrikes s (dropQueued g c s) :=
  onlyStrikes_setSeg ..

theorem withdrawStrike_spec (c : CompNo) (s : State) :
    OnlyStrikes s (withdrawStrike c s) ∧ (withdrawStrike c s).boards = s.boards := by
  have : ∀ (gs : List SegNo) (s : State), OnlyStrikes s (gs.foldl (fun s g => dropQueued g c s) s)
      ∧ (gs.foldl (fun s g => dropQueued g c s) s).boards = s.boards := by
    intro gs
    induction gs with
    | nil => exact fun s => ⟨.refl s, rfl⟩
    | cons g gs ih => exact fun s => ⟨(onlyStrikes_dropQueued g c s).trans (ih _).1, (ih _).2⟩
  exact this _ s

theorem keepsLines_forceDoor (c : CompNo) (s : State) : KeepsLines s (forceDoor c s) := by
  unfold forceDoor; dsimp only
  refine KeepsLines.trans ?_ (aside_postAlarm c ..).lines
  split
  · exact .of_boards rfl
  · exact (aside_endTransaction ..).lines.after (withdrawStrike_spec c s).2
  · exact (aside_endTransaction ..).lines.after (withdrawStrike_spec c s).2
  · exact (aside_endTransaction ..).lines.after (withdrawStrike_spec c s).2
  · exact .of_boards rfl

theorem keepsLines_doorOpenUnstruck (c : CompNo) (s : State) : KeepsLines s (doorOpenUnstruck c s) := by
  unfold doorOpenUnstruck; dsimp only
  repeat' split
  all_goals first | exact .refl s | exact keepsLines_forceDoor .. | exact .of_boards rfl

theorem keepsLines_strikeSucceeds (g : SegNo) (a : ActiveStrike) (s : State) : KeepsLines s (strikeSucceeds g a s) := by
  unfold strikeSucceeds; dsimp only
  refine (keepsLines_endStrike g a s).trans ((aside_enterDoorPhase a.compartment a.compartment _).lines.trans ?_)
  split
  · exact (aside_closeHandling ..).lines
  · exact .of_boards rfl

theorem keepsLines_doorOpened (c : CompNo) (s : State) : KeepsLines s (doorOpened c s) := by
  unfold doorOpened
  split
  · split
    · exact .of_boards rfl
    · exact keepsLines_strikeSucceeds ..
  · exact keepsLines_doorOpenUnstruck ..

/-- The line of a board and its link state depend on its record alone. -/
theorem line_setLine (s : State) (b : BoardNo) (l k : LineNo) (x : Line) :
    (s.setLine b l x).line b k = if k = l then x else s.line b k := by
  simp [State.line, State.setLine, look_put]

@[simp] theorem link_setLine (s : State) (b d : BoardNo) (l : LineNo) (x : Line) :
    ((s.setLine b l x).board d).link = (s.board d).link := by
  unfold State.setLine
  rw [State.board_setBoard]
  split
  next h => subst h; rfl
  next => rfl

/-- A door confirmation changes no other line, and no link state. -/
theorem confirmDoor_lines (b : BoardNo) (l : LineNo) (s : State) :
    (∀ k, k ≠ l → (confirmDoor b l s).line b k = s.line b k)
      ∧ ((confirmDoor b l s).board b).link = (s.board b).link := by
  unfold confirmDoor; dsimp only
  split
  next o n _ _ =>
    split
    next =>
      split
      next =>
        unfold lineOpened; dsimp only
        split
        next c _ =>
          have k := keepsLines_doorOpened c (s.setLine b l { s.line b l with doorOpen := some true, occupied := none })
          exact ⟨fun j hj => by rw [line_of_lines k, line_setLine, if_neg hj], by rw [k.link, link_setLine]⟩
        next => exact ⟨fun j hj => by rw [line_setLine, if_neg hj], by rw [link_setLine]⟩
      next =>
        unfold lineClosed; dsimp only
        split
        next c _ =>
          have k := keepsLines_confirmedClose c n.occupied (s.setLine b l { s.line b l with
            doorOpen := some false, occupied := some n.occupied, closeOccupied := some n.occupied })
          exact ⟨fun j hj => by rw [line_of_lines k, line_setLine, if_neg hj], by rw [k.link, link_setLine]⟩
        next => exact ⟨fun j hj => by rw [line_setLine, if_neg hj], by rw [link_setLine]⟩
    next => exact ⟨fun _ _ => rfl, rfl⟩
  next => exact ⟨fun _ _ => rfl, rfl⟩

/-- No door confirmation is derived for a line whose record gives none. -/
theorem confirmDoor_quiet {b : BoardNo} {l : LineNo} {s : State}
    (h : ∀ o n, (s.line b l).older = some o → (s.line b l).newer = some n → o.doorOpen = n.doorOpen →
      (s.line b l).doorOpen = some n.doorOpen) : confirmDoor b l s = s := by
  unfold confirmDoor; dsimp only
  split
  next o n ho hn =>
    rw [if_neg]
    rintro ⟨-, e, ne⟩
    exact ne (h o n ho hn e)
  next => rfl

theorem confirmOccupancy_quiet {b : BoardNo} {l : LineNo} {s : State}
    (h : ∀ o n, (s.line b l).older = some o → (s.line b l).newer = some n → (s.line b l).doorOpen = some false →
      o.doorOpen = false → n.doorOpen = false → o.occupied = n.occupied → (s.line b l).occupied = some n.occupied) :
    confirmOccupancy b l s = s := by
  unfold confirmOccupancy; dsimp only
  split
  next o n ho hn =>
    rw [if_neg]
    rintro ⟨-, d, od, nd, e, ne⟩
    exact ne (h o n ho hn d od nd e)
  next => rfl

/-! ### Ranges in which one number alone has an effect -/

theorem forEach_id {n : Nat} (f : Fin n → State → State) (s : State) (h : ∀ i, f i s = s) : forEach f s = s := by
  have : ∀ l : List (Fin n), l.foldl (fun s i => f i s) s = s := by
    intro l
    induction l with
    | nil => rfl
    | cons i l ih => rw [List.foldl_cons, h, ih]
  exact this _

theorem forEach_only {n : Nat} (f : Fin n → State → State) (l : Fin n) (s : State)
    (before : ∀ k, k ≠ l → f k s = s) (after : ∀ k, k ≠ l → f k (f l s) = f l s) : forEach f s = f l s := by
  have keep : ∀ (ks : List (Fin n)) (t : State), (∀ k ∈ ks, f k t = t) → ks.foldl (fun s i => f i s) t = t := by
    intro ks
    induction ks with
    | nil => exact fun _ _ => rfl
    | cons i ks ih =>
      intro t h
      rw [List.foldl_cons, h i List.mem_cons_self]
      exact ih t fun k hk => h k (List.mem_cons_of_mem _ hk)
  have all : ∀ ks : List (Fin n), ks.Nodup → l ∈ ks → ks.foldl (fun s i => f i s) s = f l s := by
    intro ks
    induction ks with
    | nil => exact fun _ h => absurd h List.not_mem_nil
    | cons i ks ih =>
      intro nd mem
      rw [List.foldl_cons]
      by_cases e : i = l
      · subst e
        exact keep ks _ fun k hk => after k fun h => (List.nodup_cons.1 nd).1 (h ▸ hk)
      · rw [before i e]
        exact ih (List.nodup_cons.1 nd).2 ((List.mem_cons.1 mem).resolve_left (Ne.symm e))
  exact all _ (List.nodup_finRange n) (List.mem_finRange l)

/-! ### Occupancy -/

theorem RecordsKept.around {s s' t t' : State} (a : OnlyMarks s s') (b : OnlyMarks t t') (h : RecordsKept s' t) :
    RecordsKept s t' :=
  ⟨fun d => (a.comps d).trans ((h.1 d).trans (b.comps d)), h.2.1.around a b, by rw [b.kiosks, h.2.2.1, a.kiosks],
    by rw [b.alarms, h.2.2.2, a.alarms]⟩

theorem OnlyMarks.ignored {s t : State} (h : OnlyMarks s t) : RecordsKept s t := ⟨h.comps, h.ret, h.kiosks, h.alarms⟩

theorem OccupancyTaken.around {c : CompNo} {o : Bool} {s s' t t' : State} (a : OnlyMarks s s') (b : OnlyMarks t t')
    (h : OccupancyTaken c o s' t) : OccupancyTaken c o s t' := by
  obtain ⟨h1, h2, h3, h4, h5, h6, h7, h8, h9⟩ := h
  obtain ⟨am, as, ap, at', aq⟩ := a.comps c
  obtain ⟨bm, bs, bp, bt, bq⟩ := b.comps c
  refine ⟨h1.around a b, (a.others c).trans (h2.trans (b.others c)), by rw [b.kiosks, h3, a.kiosks], by rw [bp, h4, ap],
    by rw [bm, h5, am], sameButMark_trans at' (sameButMark_trans h6 bt), by rw [bq, h7, aq], ?_, ?_⟩
  · rw [bs, ← as]; exact h8
  · unfold Pending at h9 ⊢
    rw [b.alarms, ← as, ← a.alarms]; exact h9

/-- An occupancy confirmation (R21, R185). -/
theorem occupancyTaken (c : CompNo) (o : Bool) (s : State) : OccupancyTaken c o s (occupancyConfirmed c o s) := by
  have missing (hs : (s.comp c).state ≠ .vacant) (cond : ((s.comp c).state = .held ∨ (s.comp c).state = .abandoned) ∧ o = false) :
      OccupancyTaken c o s (postAlarm .mismatch c.val s) := by
    have f := postAlarm_eq .mismatch c.val s
    refine ⟨by unfold OnlyComps; rw [f], fun d _ => keepsComp_of_eq (by simp) (by simp), by simp, by simp, by simp,
      by simp [sameButMark_refl], by simp, ?_, ?_⟩
    · rw [if_neg fun h => hs h.1]; simp
    · rw [if_pos (.inr cond)]; exact pending_postAlarm ..
  unfold occupancyConfirmed
  split
  next hs =>
    have f := postAlarm_eq .mismatch c.val (s.setComp c { s.comp c with state := .suspect })
    refine ⟨by unfold OnlyComps; rw [f]; rfl, fun d hd => keepsComp_of_eq (by simp [State.comp_setComp, hd]) (by simp),
      by simp, by simp, by simp, by simp [sameButMark_refl], by simp, ?_, ?_⟩
    · rw [if_pos ⟨hs, rfl⟩]; simp
    · rw [if_pos (.inl ⟨hs, rfl⟩)]; exact pending_postAlarm ..
  next hs => exact missing (by rw [hs]; decide) ⟨.inl hs, rfl⟩
  next hs => exact missing (by rw [hs]; decide) ⟨.inr hs, rfl⟩
  next h1 h2 h3 =>
    refine ⟨rfl, fun d _ => .refl s d, rfl, rfl, rfl, sameButMark_refl _, rfl, ?_, ?_⟩
    · rw [if_neg]
      exact fun ⟨a, b⟩ => h1 a b
    · rw [if_neg]
      rintro (⟨a, b⟩ | ⟨a | a, b⟩)
      · exact h1 a b
      · exact h2 a b
      · exact h3 a b

/-- Close handling leaves a compartment that its own occupancy confirms. -/
theorem Closed.occupancy {c : CompNo} {x : Transient} {o : Bool} {s t : State} (h : Closed c x o s t) :
    occupancyConfirmed c o t = t := by
  have rest (p : Option Parcel) : restedState p = .held ∨ restedState p = .abandoned := by
    unfold restedState
    split
    · split
      · exact .inr rfl
      · exact .inl rfl
    · exact .inl rfl
  have key : (o = true → (t.comp c).state = .held ∨ (t.comp c).state = .abandoned)
      ∧ (o = false → (t.comp c).state = .vacant) := by
    have h5 := h.2.2.2.2
    cases hp : x.particulars with
    | deposit =>
      simp only [hp] at h5
      have := h5.1
      unfold DepositClosed at this
      cases o with
      | true => rw [if_pos rfl] at this; exact ⟨fun _ => .inl this.1, fun h => by cases h⟩
      | false => rw [if_neg Bool.false_ne_true] at this; exact ⟨fun h => (by cases h), fun _ => this.1⟩
    | drop =>
      simp only [hp] at h5
      have := h5.2.2.1
      cases o with
      | true => exact ⟨fun _ => .inl this.1, fun h => by cases h⟩
      | false => exact ⟨fun h => (by cases h), fun _ => this.1⟩
    | collect =>
      simp only [hp] at h5
      have := h5.2.2.1
      cases o with
      | true => exact ⟨fun _ => .inl this.1, fun h => by cases h⟩
      | false => exact ⟨fun h => (by cases h), fun _ => this.1⟩
    | retrieve =>
      simp only [hp] at h5
      have := h5.2.2.2.1
      cases o with
      | true => exact ⟨fun _ => by rw [this.1]; exact rest _, fun h => by cases h⟩
      | false => exact ⟨fun h => (by cases h), fun _ => this.1⟩
  unfold occupancyConfirmed
  cases o with
  | true => rcases key.1 rfl with h | h <;> rw [h]
  | false => rw [key.2 rfl]

theorem Closed.maps {c : CompNo} {x : Transient} {o : Bool} {s t : State} (h : Closed c x o s t) (d : CompNo) :
    (t.comp d).map = (s.comp d).map := by
  by_cases e : d = c
  · rw [e]; exact h.2.1
  have h5 := h.2.2.2.2
  cases hp : x.particulars with
  | deposit => simp only [hp] at h5; exact (h5.2.2.1.2 d e).1
  | drop => simp only [hp] at h5; exact (h5.2.1.2 d e).1
  | collect => simp only [hp] at h5; exact (h5.2.1.2 d e).1
  | retrieve => simp only [hp] at h5; exact (h5.2.2.1.2 d e).1

theorem compAt_congr {s t : State} (h : ∀ d, (t.comp d).map = (s.comp d).map) (b : BoardNo) (l : LineNo) :
    compAt t b l = compAt s b l := by
  unfold compAt
  simp only [h]

/-! ### Closes -/

/-- A line's confirmed close with the occupancy confirmation that follows it (R184, R185). -/
def shut (b : BoardNo) (l : LineNo) (n : Reading) (s : State) : State := closeOccupancy b l (lineClosed b l n s)

theorem comp_setLine_marks (b : BoardNo) (l : LineNo) (x : Line) (s : State) : OnlyMarks s (s.setLine b l x) :=
  onlyMarks_of_eq rfl rfl rfl rfl rfl rfl rfl

theorem keepsLines_closeOccupancy (b : BoardNo) (l : LineNo) (s : State) : KeepsLines s (closeOccupancy b l s) := by
  unfold closeOccupancy
  split
  · split
    · exact keepsLines_occupancyConfirmed ..
    · exact .refl s
  · exact .refl s

/-- What a confirmed close does to the compartment of its line (R16, R21, R28, R185). -/
theorem shut_spec {b : BoardNo} {l : LineNo} {c : CompNo} {o n : Reading} {s : State} (hc : compAt s b l = some c)
    (ho : (s.line b l).older = some o) (hn : (s.line b l).newer = some n) : CloseTaken c o n s (shut b l n s) := by
  generalize hv : s.setLine b l { s.line b l with
    doorOpen := some false, occupied := some n.occupied, closeOccupied := some n.occupied } = v
  have marks : OnlyMarks s v := by rw [← hv]; exact comp_setLine_marks ..
  have comps (d : CompNo) : v.comp d = s.comp d := by rw [← hv]; rfl
  have line : (v.line b l).older = some o ∧ (v.line b l).newer = some n := by
    rw [← hv, line_setLine, if_pos rfl]; exact ⟨ho, hn⟩
  have at' : compAt v b l = some c :=
    (compAt_congr (s := s) (t := v) (fun d => congrArg Compartment.map (comps d)) b l).trans hc
  have closing : lineClosed b l n s = confirmedClose c n.occupied v := by
    unfold lineClosed; dsimp only; rw [hv, at']
  have after {t : State} (lines : KeepsLines v t) (maps : ∀ d, (t.comp d).map = (v.comp d).map) :
      closeOccupancy b l t = if o.occupied = n.occupied then occupancyConfirmed c n.occupied t else t := by
    unfold closeOccupancy
    rw [line_of_lines lines, line.1, line.2, compAt_congr maps, at']
  unfold shut
  rw [closing]
  refine ⟨fun x hx busy => ?_, fun h1 h2 h3 => ?_⟩
  · have eq : confirmedClose c n.occupied v = closeHandling c n.occupied v := by
      unfold confirmedClose
      rw [comps]
      rcases busy with h | h | h <;> rw [h]
    have cl := closed_closeHandling c x n.occupied v (by rw [comps]; exact hx)
    rw [eq, after (aside_closeHandling c n.occupied v).lines cl.maps]
    split
    · rw [cl.occupancy]; exact Closed.around marks (.refl _) rfl rfl rfl cl
    · exact Closed.around marks (.refl _) rfl rfl rfl cl
  · have eq : confirmedClose c n.occupied v = v := by
      unfold confirmedClose
      rw [comps]
      split
      next h => exact absurd h h1
      next h => exact absurd h h2
      next h => exact absurd h h3
      next => rfl
    rw [eq, after (.refl v) fun _ => rfl]
    split
    · exact OccupancyTaken.around marks (.refl _) (occupancyTaken c n.occupied v)
    · exact marks.ignored

/-! ### Openings -/

/-- A forced door of a compartment without a transaction (R20). -/
theorem forced_plain {c : CompNo} {s : State}
    (h : (s.comp c).state = .vacant ∨ (s.comp c).state = .held ∨ (s.comp c).state = .abandoned) :
    let t := forceDoor c s
    (t.comp c).state = .suspect ∧ (t.comp c).parcel = (s.comp c).parcel ∧ (t.comp c).map = (s.comp c).map
      ∧ KeepsOtherComps c s t ∧ t.kiosks = s.kiosks ∧ Pending t .forced c.val
      ∧ t.ret = { s.ret with
          compartments := t.ret.compartments
          directory := if (s.comp c).state = .held then (setEntryStatus c .suspended s).ret.directory else s.ret.directory }
      ∧ t.quoteOf c = if (s.comp c).state = .held then none else s.quoteOf c := by
  dsimp only
  unfold forceDoor; dsimp only
  rcases h with h | h | h <;> rw [h] <;> dsimp only
  · have f := postAlarm_eq .forced c.val (s.setComp c { s.comp c with state := .suspect })
    exact ⟨by simp, by simp, by simp, fun d hd => keepsComp_of_eq (by simp [State.comp_setComp, hd]) (by simp), by simp,
      pending_postAlarm .., by rw [f]; simp only [reduceCtorEq, if_false]; rfl, by simp⟩
  · have f := postAlarm_eq .forced c.val (setEntryStatus c .suspended
      ((s.setComp c { s.comp c with state := .suspect }).setQuote c none))
    exact ⟨by simp, by simp, by simp, fun d hd => keepsComp_of_eq (by simp [State.comp_setComp, hd])
      (by simp [State.quoteOf_setQuote, hd]), by simp,
      pending_postAlarm .., by rw [f]; simp only [if_true]; rfl, by simp⟩
  · have f := postAlarm_eq .forced c.val (s.setComp c { s.comp c with state := .suspect })
    exact ⟨by simp, by simp, by simp, fun d hd => keepsComp_of_eq (by simp [State.comp_setComp, hd]) (by simp), by simp,
      pending_postAlarm .., by rw [f]; simp only [reduceCtorEq, if_false]; rfl, by simp⟩

/-- A forced door that ends a transaction (R20, R28). -/
theorem forced_transaction {c : CompNo} {x : Transient} {s : State} (hx : (s.comp c).transient = some x)
    (h : (s.comp c).state = .reserved ∨ (s.comp c).state = .releasing ∨ (s.comp c).state = .reconcile) :
    Reverted .forced c x s (forceDoor c s) ∧ Pending (forceDoor c s) .forced c.val := by
  have w := (withdrawStrike_spec c s).1.marks
  obtain ⟨y, hy, p, k, r⟩ := transient_marked (w.comps c) hx
  have rev := (Reverted.around w (.refl _) p k r (reverted_endTransaction .forced c y _ hy)).postAlarm .forced c.val
  unfold forceDoor; dsimp only
  rcases h with h | h | h <;> rw [h] <;> exact ⟨rev, pending_postAlarm ..⟩

theorem resumedOpen {c : CompNo} {x : Transient} {s : State} (hx : (s.comp c).transient = some x) (phase : CompState) :
    ResumedOpen c x phase s (resumeOpen c phase s) := by
  have own : (resumeOpen c phase s).comp c = { s.comp c with
      state := phase, transient := some { x with prior := none, resolved := true } } := by
    unfold resumeOpen startWatch
    rw [hx]; simp
  refine ⟨by rw [own], by rw [own], by rw [own], by rw [own]; exact sameButMark_refl _, look_put_same .., ?_, rfl, rfl, rfl⟩
  exact (replaced (c := c) (s := s) (t := resumeOpen c phase s) (y := { s.comp c with
    state := phase, transient := (s.comp c).transient.map fun t => { t with prior := none, resolved := true } })
    rfl fun _ _ => rfl).2

/-- A door found open without an active strike (R13, R20, R28). -/
theorem openedUnstruck (c : CompNo) (s : State) : OpenedUnstruck c s (doorOpenUnstruck c s) := by
  unfold OpenedUnstruck; dsimp only
  refine ⟨fun h => ?_, fun y hy h => ?_, fun y p hy h hp => ?_, fun h => ?_⟩
  · have eq : doorOpenUnstruck c s = forceDoor c s := by
      unfold doorOpenUnstruck; dsimp only
      rcases h with h | h | h <;> rw [h]
    rw [eq]; exact forced_plain h
  · have eq : doorOpenUnstruck c s = if y.strikeIssued then s else forceDoor c s := by
      unfold doorOpenUnstruck; dsimp only
      rcases h with h | h <;> rw [h, hy]
    rw [eq]
    split
    · exact (OnlyMarks.refl s).ignored
    · exact forced_transaction hy (h.imp id .inl)
  · unfold doorOpenUnstruck; dsimp only
    rw [h, hy]; dsimp only
    rw [hp]
    cases p <;> cases y.strikeIssued <;> dsimp only
    all_goals first
      | exact resumedOpen hy _
      | exact forced_transaction hy (.inr (.inr h))
  · have eq : doorOpenUnstruck c s = s := by
      unfold doorOpenUnstruck; dsimp only
      rcases h with h | h | h | h | h <;> rw [h]
    rw [eq]
    exact (OnlyMarks.refl s).ignored

theorem ResumedOpen.around {c : CompNo} {x : Transient} {p : CompState} {s s' t t' : State} (a : OnlyMarks s s')
    (b : OnlyMarks t t') (h : ResumedOpen c x p s' t) : ResumedOpen c x p s t' := by
  obtain ⟨h1, h2, h3, h4, h5, h6, h7, h8, h9⟩ := h
  obtain ⟨am, as, ap, at', aq⟩ := a.comps c
  obtain ⟨bm, bs, bp, bt, bq⟩ := b.comps c
  exact ⟨by rw [bs, h1], by rw [bp, h2, ap], by rw [bm, h3, am], sameButMark_trans h4 bt, by rw [b.ajar, h5, a.elapsed],
    (a.others c).trans (h6.trans (b.others c)), h7.around a b, by rw [b.kiosks, h8, a.kiosks], by rw [b.alarms, h9, a.alarms]⟩

theorem Pending.around {k : AlarmKind} {n : Nat} {t t' : State} (b : OnlyMarks t t') (h : Pending t k n) :
    Pending t' k n := by unfold Pending; rw [b.alarms]; exact h

theorem OpenedUnstruck.around {c : CompNo} {s s' t t' : State} (a : OnlyMarks s s') (own : s'.comp c = s.comp c)
    (b : OnlyMarks t t') (h : OpenedUnstruck c s' t) : OpenedUnstruck c s t' := by
  unfold OpenedUnstruck at h ⊢
  dsimp only at h ⊢
  rw [own] at h
  obtain ⟨h1, h2, h3, h4⟩ := h
  obtain ⟨bm, bs, bp, bt, bq⟩ := b.comps c
  refine ⟨fun h => ?_, fun y hy h => ?_, fun y p hy h hp => ?_, fun h => (h4 h).around a b⟩
  · obtain ⟨i1, i2, i3, i4, i5, i6, i7, i8⟩ := h1 h
    refine ⟨by rw [bs, i1], by rw [bp, i2], by rw [bm, i3], (a.others c).trans (i4.trans (b.others c)),
      by rw [b.kiosks, i5, a.kiosks], i6.around b, ?_, by rw [bq, i8, (a.comps c).2.2.2.2]⟩
    rw [b.ret, i7, a.directory, setEntryStatus_congr a.directory, a.ret]
  · have := h2 y hy h
    split at this
    next m => rw [if_pos m]; exact this.around a b
    next m => rw [if_neg m]; exact ⟨Reverted.around a b rfl rfl rfl this.1, this.2.around b⟩
  · have := h3 y p hy h hp
    revert this
    cases p <;> cases y.strikeIssued <;> intro this
    all_goals first
      | exact this.around a b
      | exact ⟨Reverted.around a b rfl rfl rfl this.1, this.2.around b⟩

theorem activeOf_some {s : State} {c : CompNo} {g : SegNo} {a : ActiveStrike} (h : activeOf s c = some (g, a)) :
    a.compartment = c ∧ a ∈ (s.seg g).active := by
  unfold activeOf at h
  obtain ⟨f, -, h⟩ := List.exists_of_findSome?_eq_some h
  rw [Option.map_eq_some_iff] at h
  obtain ⟨b, hb, eq⟩ := h
  cases eq
  exact ⟨by simpa using List.find?_some hb, List.mem_of_find?_eq_some hb⟩

/-- What a door open confirmation does to the compartment of its line (R163, R164, R13, R20, R28). -/
theorem opened_spec {b : BoardNo} {l : LineNo} {c : CompNo} {s : State} (hc : compAt s b l = some c) :
    OpeningTaken c s (lineOpened b l s) := by
  unfold OpeningTaken
  have marks := comp_setLine_marks b l { s.line b l with doorOpen := some true, occupied := none } s
  have eq : lineOpened b l s = doorOpened c (s.setLine b l { s.line b l with doorOpen := some true, occupied := none }) := by
    unfold lineOpened; dsimp only
    rw [compAt_congr (s := s) (t := s.setLine b l _) fun _ => rfl, hc]
  rw [eq]
  unfold doorOpened
  have act : activeOf (s.setLine b l { s.line b l with doorOpen := some true, occupied := none }) c = activeOf s c := rfl
  rw [act]
  refine ⟨fun none => ?_, fun h a d ha hp => ?_, fun h a d x ha hp seen hx busy => ?_⟩
  · rw [none]
    exact OpenedUnstruck.around marks rfl (.refl _) (openedUnstruck c _)
  · rw [ha]; dsimp only
    rw [if_pos (by simp [ActiveStrike.isIssued, hp])]
    obtain ⟨hac, mem⟩ := activeOf_some ha
    refine ⟨?_, (marks.trans (onlyStrikes_setSeg ..).marks).ignored⟩
    unfold setActive
    rw [State.seg_setSeg_same]
    exact List.mem_map.2 ⟨a, mem, by rw [if_pos rfl]⟩
  · rw [ha]; dsimp only
    rw [if_neg (by simp [ActiveStrike.isIssued, hp])]
    obtain ⟨rfl, mem⟩ := activeOf_some ha
    obtain ⟨gone, -, op⟩ := succeeded_strikeSucceeds (g := h) (a := a) (x := x)
      (s := s.setLine b l { s.line b l with doorOpen := some true, occupied := none }) hx busy
    exact ⟨Opened.around marks (.refl _) (op (.inl seen)), gone⟩

theorem CloseTaken.around {c : CompNo} {o n : Reading} {s s' t t' : State} (a : OnlyMarks s s')
    (own : s'.comp c = s.comp c) (b : OnlyMarks t t') (h : CloseTaken c o n s' t) : CloseTaken c o n s t' := by
  unfold CloseTaken at h ⊢
  rw [own] at h
  refine ⟨fun x hx busy => Closed.around a b rfl rfl rfl (h.1 x hx busy), fun h1 h2 h3 => ?_⟩
  have := h.2 h1 h2 h3
  split at this
  next e => rw [if_pos e]; exact this.around a b
  next e => rw [if_neg e]; exact this.around a b

/-! ### No strike is issued on the board of a declaration -/

theorem spc_closeHandling (c : CompNo) (o : Bool) (s : State) : KeepsSpc s (closeHandling c o s) :=
  (aside_closeHandling c o s).spc

theorem spc_confirmedClose (c : CompNo) (o : Bool) (s : State) : KeepsSpc s (confirmedClose c o s) := by
  unfold confirmedClose
  split
  · exact spc_closeHandling ..
  · exact spc_closeHandling ..
  · exact spc_closeHandling ..
  · exact .of_segments rfl rfl

theorem spc_postAlarm (k : AlarmKind) (n : Nat) (s : State) : KeepsSpc s (postAlarm k n s) := by
  have f := postAlarm_eq k n s
  exact .of_segments (by rw [f]) (by rw [f])

theorem spc_occupancyConfirmed (c : CompNo) (o : Bool) (s : State) : KeepsSpc s (occupancyConfirmed c o s) := by
  unfold occupancyConfirmed
  split
  · exact KeepsSpc.trans (t := s.setComp c { s.comp c with state := .suspect }) (.of_segments rfl rfl) (spc_postAlarm ..)
  · exact spc_postAlarm ..
  · exact spc_postAlarm ..
  · exact .of_segments rfl rfl

theorem spc_withdrawStrike (c : CompNo) (s : State) : KeepsSpc s (withdrawStrike c s) := by
  have : ∀ (gs : List SegNo) (s : State), KeepsSpc s (gs.foldl (fun s g => dropQueued g c s) s) := by
    intro gs
    induction gs with
    | nil => exact fun s => .of_segments rfl rfl
    | cons g gs ih =>
      intro s
      refine KeepsSpc.trans ?_ (ih _)
      exact spc_setQueue ..
  exact this _ s

theorem spc_forceDoor (c : CompNo) (s : State) : KeepsSpc s (forceDoor c s) := by
  have ended : KeepsSpc s (endTransaction .forced c (withdrawStrike c s)) :=
    (spc_withdrawStrike c s).trans (aside_endTransaction .forced c (withdrawStrike c s)).spc
  unfold forceDoor; dsimp only
  refine KeepsSpc.trans ?_ (spc_postAlarm ..)
  split
  · exact .of_segments rfl rfl
  · exact ended
  · exact ended
  · exact ended
  · exact .of_segments rfl rfl

theorem spc_doorOpenUnstruck (c : CompNo) (s : State) : KeepsSpc s (doorOpenUnstruck c s) := by
  unfold doorOpenUnstruck; dsimp only
  repeat' split
  all_goals first | exact spc_forceDoor .. | exact .of_segments rfl rfl

theorem spc_disownPoll (g : SegNo) (b : BoardNo) (l : LineNo) (s : State) : KeepsSpc s (disownPoll g b l s) := by
  unfold disownPoll
  split
  next h =>
    split
    · exact spc_setSeg (keepsSweeps_setSeg rfl rfl rfl rfl (by rw [h]; simp)) fun a ha => ⟨a, ha, rfl, rfl⟩
    · exact .of_segments rfl rfl
  next => exact .of_segments rfl rfl

theorem spc_endStrike (g : SegNo) (a : ActiveStrike) (s : State) : KeepsSpc s (endStrike g a s) := by
  unfold endStrike; dsimp only
  refine KeepsSpc.trans ?_ (spc_disownPoll ..)
  refine KeepsSpc.trans (t := s.setSeg g { s.seg g with
    active := (s.seg g).active.filter (·.compartment ≠ a.compartment) }) ?_ (.of_segments rfl rfl)
  exact spc_setSeg (keepsSweeps_setSeg rfl rfl rfl rfl .rfl) fun d hd => ⟨d, (List.mem_filter.1 hd).1, rfl, rfl⟩

theorem spc_strikeSucceeds (g : SegNo) (a : ActiveStrike) (s : State) : KeepsSpc s (strikeSucceeds g a s) := by
  unfold strikeSucceeds; dsimp only
  refine (spc_endStrike g a s).trans ((aside_enterDoorPhase a.compartment a.compartment _).spc.trans ?_)
  split
  · exact spc_closeHandling ..
  · exact .of_segments rfl rfl

/-- An active strike's record has been replaced by one of the same compartment and board. -/
theorem spc_setActive {g : SegNo} {a : ActiveStrike} {s : State} (x : ActiveStrike) (mem : a ∈ (s.seg g).active)
    (own : x.compartment = a.compartment) (board : x.board = a.board) : KeepsSpc s (setActive g x s) := by
  unfold setActive
  refine spc_setSeg (keepsSweeps_setSeg rfl rfl rfl rfl .rfl) fun d hd => ?_
  obtain ⟨y, hy, rfl⟩ := List.mem_map.1 hd
  split
  · exact ⟨a, mem, own.symm, board.symm⟩
  · exact ⟨y, hy, rfl, rfl⟩

theorem spc_doorOpened (c : CompNo) (s : State) : KeepsSpc s (doorOpened c s) := by
  unfold doorOpened
  split
  next g a ha =>
    split
    next =>
      obtain ⟨-, mem⟩ := activeOf_some ha
      exact spc_setActive _ mem rfl rfl
    next => exact spc_strikeSucceeds ..
  next => exact spc_doorOpenUnstruck ..

theorem spc_lineOpened (b : BoardNo) (l : LineNo) (s : State) : KeepsSpc s (lineOpened b l s) := by
  have line := KeepsSpc.of_segments (s := s)
    (t := s.setLine b l { s.line b l with doorOpen := some true, occupied := none }) rfl rfl
  unfold lineOpened; dsimp only
  split
  · exact line.trans (spc_doorOpened ..)
  · exact line

theorem spc_lineClosed (b : BoardNo) (l : LineNo) (n : Reading) (s : State) : KeepsSpc s (lineClosed b l n s) := by
  have line := KeepsSpc.of_segments (s := s) (t := s.setLine b l { s.line b l with
    doorOpen := some false, occupied := some n.occupied, closeOccupied := some n.occupied }) rfl rfl
  unfold lineClosed; dsimp only
  split
  · exact line.trans (spc_confirmedClose ..)
  · exact line

theorem spc_closeOccupancy (b : BoardNo) (l : LineNo) (s : State) : KeepsSpc s (closeOccupancy b l s) := by
  unfold closeOccupancy
  split
  · split
    · exact spc_occupancyConfirmed ..
    · exact .of_segments rfl rfl
  · exact .of_segments rfl rfl

theorem spc_shut (b : BoardNo) (l : LineNo) (n : Reading) (s : State) : KeepsSpc s (shut b l n s) :=
  (spc_lineClosed b l n s).trans (spc_closeOccupancy ..)

/-! ### Lines that give no confirmation -/

/-- A line whose two readings confirm nothing that is not confirmed already. -/
def LineStill (x : Line) : Prop :=
  (∀ o n, x.older = some o → x.newer = some n → o.doorOpen = n.doorOpen → x.doorOpen = some n.doorOpen)
    ∧ ∀ o n, x.older = some o → x.newer = some n → x.doorOpen = some false → o.doorOpen = false → n.doorOpen = false →
        o.occupied = n.occupied → x.occupied = some n.occupied

theorem confirmDoor_still {b : BoardNo} {l : LineNo} {s : State} (h : LineStill (s.line b l)) : confirmDoor b l s = s :=
  confirmDoor_quiet h.1

theorem closedSince_same {before : Vector Line 12} {b : BoardNo} {l : LineNo} {s : State}
    (h : (look before l).doorOpen = (s.line b l).doorOpen) : closedSince before b l s = false := by
  unfold closedSince
  rw [h]
  by_cases e : (s.line b l).doorOpen = some false <;> simp [e]

theorem confirmOccupancies_still {before : Vector Line 12} {b : BoardNo} {l : LineNo} {s : State}
    (same : (look before l).doorOpen = (s.line b l).doorOpen) (h : LineStill (s.line b l)) :
    confirmOccupancies before b l s = s := by
  unfold confirmOccupancies
  rw [closedSince_same same, if_neg Bool.false_ne_true]
  exact confirmOccupancy_quiet h.2

theorem confirmFresh_still {b : BoardNo} {l : LineNo} {s : State} (h : LineStill (s.line b l)) : confirmFresh b l s = s := by
  unfold confirmFresh; dsimp only
  rw [confirmDoor_still h, closedSince_same rfl, if_neg Bool.false_ne_true]

theorem confirmOccupancy_lines (b : BoardNo) (l : LineNo) (s : State) :
    ∀ k, k ≠ l → (confirmOccupancy b l s).line b k = s.line b k := by
  unfold confirmOccupancy; dsimp only
  split
  next o n _ _ =>
    split
    next =>
      split
      next c _ =>
        exact fun k hk => by
          rw [line_of_lines (keepsLines_occupancyConfirmed ..), line_setLine, if_neg hk]
      next => exact fun k hk => by rw [line_setLine, if_neg hk]
    next => exact fun _ _ => rfl
  next => exact fun _ _ => rfl

theorem confirmOccupancies_lines (before : Vector Line 12) (b : BoardNo) (l : LineNo) (s : State) :
    ∀ k, k ≠ l → (confirmOccupancies before b l s).line b k = s.line b k := by
  unfold confirmOccupancies
  split
  · exact fun k _ => line_of_lines (keepsLines_closeOccupancy ..) ..
  · exact confirmOccupancy_lines b l s

/-- The door confirmations of all lines, then their occupancy confirmations (R186). -/
def confirmAll (b : BoardNo) (s : State) : State :=
  forEach (fun l => confirmOccupancies (s.board b).lines b l) (forEach (fun l => confirmDoor b l) s)

theorem confirmAll_still {b : BoardNo} {s : State} (h : ∀ k, LineStill (s.line b k)) : confirmAll b s = s := by
  unfold confirmAll
  rw [forEach_id _ s fun k => confirmDoor_still (h k)]
  exact forEach_id _ s fun k => confirmOccupancies_still rfl (h k)

theorem confirmAll_only {b : BoardNo} {l : LineNo} {s : State} (h : ∀ k, k ≠ l → LineStill (s.line b k)) :
    confirmAll b s = confirmOccupancies (s.board b).lines b l (confirmDoor b l s) := by
  unfold confirmAll
  have lines := (confirmDoor_lines b l s).1
  rw [forEach_only _ l s (fun k hk => confirmDoor_still (h k hk)) fun k hk =>
    confirmDoor_still (by rw [lines k hk]; exact h k hk)]
  have lines' := confirmOccupancies_lines (s.board b).lines b l (confirmDoor b l s)
  refine forEach_only _ l _ (fun k hk => ?_) fun k hk => ?_
  · exact confirmOccupancies_still (by rw [lines k hk]; rfl) (by rw [lines k hk]; exact h k hk)
  · exact confirmOccupancies_still (by rw [lines' k hk, lines k hk]; rfl)
      (by rw [lines' k hk, lines k hk]; exact h k hk)

theorem confirmFresh_only {b : BoardNo} {l : LineNo} {s : State} (h : ∀ k, k ≠ l → LineStill (s.line b k)) :
    forEach (fun l => confirmFresh b l) s = confirmFresh b l s := by
  have lines : ∀ k, k ≠ l → (confirmFresh b l s).line b k = s.line b k := by
    intro k hk
    unfold confirmFresh; dsimp only
    split
    · rw [line_of_lines (keepsLines_closeOccupancy ..)]; exact (confirmDoor_lines b l s).1 k hk
    · exact (confirmDoor_lines b l s).1 k hk
  exact forEach_only _ l s (fun k hk => confirmFresh_still (h k hk)) fun k hk =>
    confirmFresh_still (by rw [lines k hk]; exact h k hk)

/-! ### The three confirmations of a line -/

theorem lineClosed_line (b : BoardNo) (l : LineNo) (n : Reading) (s : State) :
    (lineClosed b l n s).line b l = { s.line b l with
      doorOpen := some false, occupied := some n.occupied, closeOccupied := some n.occupied } := by
  unfold lineClosed; dsimp only
  split
  · rw [line_of_lines (keepsLines_confirmedClose ..), line_setLine, if_pos rfl]
  · rw [line_setLine, if_pos rfl]

theorem shut_line (b : BoardNo) (l : LineNo) (n : Reading) (s : State) :
    (shut b l n s).line b l = { s.line b l with
      doorOpen := some false, occupied := some n.occupied, closeOccupied := some n.occupied } := by
  unfold shut
  rw [line_of_lines (keepsLines_closeOccupancy ..), lineClosed_line]

theorem lineOpened_line (b : BoardNo) (l : LineNo) (s : State) :
    (lineOpened b l s).line b l = { s.line b l with doorOpen := some true, occupied := none } := by
  unfold lineOpened; dsimp only
  split
  · rw [line_of_lines (keepsLines_doorOpened ..), line_setLine, if_pos rfl]
  · rw [line_setLine, if_pos rfl]

section confirmations
variable {b : BoardNo} {l : LineNo} {o n : Reading} {s : State}
variable (online : (s.board b).link = .online) (ho : (s.line b l).older = some o) (hn : (s.line b l).newer = some n)
include online ho hn

theorem confirm_close (hod : o.doorOpen = false) (hnd : n.doorOpen = false) (was : (s.line b l).doorOpen ≠ some false) :
    confirmOccupancies (s.board b).lines b l (confirmDoor b l s) = shut b l n s
      ∧ confirmFresh b l s = shut b l n s ∧ LineStill ((shut b l n s).line b l) := by
  have eq : confirmDoor b l s = lineClosed b l n s := by
    unfold confirmDoor; dsimp only
    rw [ho, hn]; dsimp only
    rw [if_pos ⟨online, by rw [hod, hnd], by rw [hnd]; exact was⟩, hnd, if_neg Bool.false_ne_true]
  have since : closedSince (s.board b).lines b l (lineClosed b l n s) = true := by
    unfold closedSince
    rw [lineClosed_line]
    simpa [State.line] using was
  refine ⟨?_, ?_, ?_⟩
  · rw [eq]; unfold confirmOccupancies; rw [if_pos since]; rfl
  · unfold confirmFresh; dsimp only; rw [eq, if_pos since]; rfl
  · rw [shut_line]
    refine ⟨fun o' n' _ hn' _ => ?_, fun o' n' _ hn' _ _ _ _ => ?_⟩
    · rw [show n' = n from Option.some.inj (hn'.symm.trans hn), hnd]
    · rw [show n' = n from Option.some.inj (hn'.symm.trans hn)]

theorem confirm_open (hod : o.doorOpen = true) (hnd : n.doorOpen = true) (was : (s.line b l).doorOpen ≠ some true) :
    confirmOccupancies (s.board b).lines b l (confirmDoor b l s) = lineOpened b l s
      ∧ confirmFresh b l s = lineOpened b l s ∧ LineStill ((lineOpened b l s).line b l) := by
  have eq : confirmDoor b l s = lineOpened b l s := by
    unfold confirmDoor; dsimp only
    rw [ho, hn]; dsimp only
    rw [if_pos ⟨online, by rw [hod, hnd], by rw [hnd]; exact was⟩, hnd, if_pos rfl]
  have since : closedSince (s.board b).lines b l (lineOpened b l s) = false := by
    unfold closedSince
    rw [lineOpened_line]
    simp
  refine ⟨?_, ?_, ?_⟩
  · rw [eq]; unfold confirmOccupancies; rw [since, if_neg Bool.false_ne_true]
    refine confirmOccupancy_quiet fun _ _ _ _ h => ?_
    rw [lineOpened_line] at h; cases h
  · unfold confirmFresh; dsimp only; rw [eq, since, if_neg Bool.false_ne_true]
  · rw [lineOpened_line]
    refine ⟨fun o' n' _ hn' _ => ?_, fun _ _ _ _ h => by cases h⟩
    rw [show n' = n from Option.some.inj (hn'.symm.trans hn), hnd]

theorem confirm_occupied {c : CompNo} (hc : compAt s b l = some c) (hod : o.doorOpen = false) (hnd : n.doorOpen = false)
    (closed : (s.line b l).doorOpen = some false) (agree : o.occupied = n.occupied)
    (was : (s.line b l).occupied ≠ some n.occupied) :
    confirmDoor b l s = s ∧ confirmFresh b l s = s
      ∧ confirmOccupancies (s.board b).lines b l s =
          occupancyConfirmed c n.occupied (s.setLine b l { s.line b l with occupied := some n.occupied }) := by
  have still : confirmDoor b l s = s := confirmDoor_quiet fun o' n' _ hn' _ => by
    rw [show n' = n from Option.some.inj (hn'.symm.trans hn), hnd, closed]
  refine ⟨still, ?_, ?_⟩
  · unfold confirmFresh; dsimp only; rw [still, closedSince_same rfl, if_neg Bool.false_ne_true]
  · unfold confirmOccupancies
    rw [closedSince_same rfl, if_neg Bool.false_ne_true]
    unfold confirmOccupancy; dsimp only
    rw [ho, hn]; dsimp only
    rw [if_pos ⟨online, closed, hod, hnd, agree, was⟩,
      compAt_congr (s := s) (t := s.setLine b l _) fun _ => rfl, hc]

end confirmations

/-! ### Sweeps -/

theorem spc_requeue (g : SegNo) (a : ActiveStrike) (s : State) : KeepsSpc s (requeue g a s) := by
  have cancelled (c : CompNo) (s : State) : KeepsSpc s (cancelTransaction c s) := (aside_endTransaction .cancelled c s).spc
  have placed (q : List StrikeEntry) : KeepsSpc s (setMark a.compartment false (s.setSeg g { s.seg g with queue := q })) :=
    (spc_setQueue g q s).trans (.of_segments rfl rfl)
  have evacuated (u : State) (k : KeepsSpc s u) : KeepsSpc s
      (if u.ret.concourse = .evacuate then cancelTransaction a.compartment (dropQueued g a.compartment u) else u) := by
    split
    · exact k.trans ((spc_setQueue ..).trans (cancelled _ _))
    · exact k
  unfold requeue; dsimp only
  refine evacuated _ ?_
  split
  · exact (placed _).trans (cancelled _ _)
  · exact placed _

theorem spc_attemptFails (g : SegNo) (a : ActiveStrike) (s : State) : KeepsSpc s (attemptFails g a s) := by
  unfold attemptFails; dsimp only
  refine ((spc_endStrike g a s).trans ?_).trans (spc_applyIssue ..)
  split
  · exact spc_requeue ..
  · exact (aside_endTransaction .jammed a.compartment _).spc.trans (spc_postAlarm ..)

theorem spc_energiseEnds (g : SegNo) (a : ActiveStrike) (s : State) : KeepsSpc s (energiseEnds g a s) := by
  unfold energiseEnds
  split
  · exact (spc_strikeSucceeds ..).trans (spc_applyIssue ..)
  · exact spc_attemptFails ..

theorem keepsSweeps_forEach {n : Nat} {f : Fin n → State → State} (h : ∀ i s, KeepsSweeps s (f i s)) (s : State) :
    KeepsSweeps s (forEach f s) := by
  have : ∀ (l : List (Fin n)) (s : State), KeepsSweeps s (l.foldl (fun s i => f i s) s) := by
    intro l
    induction l with
    | nil => exact fun _ => .of_segments rfl
    | cons i l ih => exact fun s => (h i s).trans (ih _)
  exact this _ s

theorem keepsSweeps_confirmDoor (b : BoardNo) (l : LineNo) (s : State) : KeepsSweeps s (confirmDoor b l s) := by
  unfold confirmDoor; dsimp only
  split
  next n _ _ =>
    split
    · split
      · exact (spc_lineOpened ..).sweeps
      · exact (spc_lineClosed ..).sweeps
    · exact .of_segments rfl
  next => exact .of_segments rfl

theorem keepsSweeps_confirmOccupancies (before : Vector Line 12) (b : BoardNo) (l : LineNo) (s : State) :
    KeepsSweeps s (confirmOccupancies before b l s) := by
  unfold confirmOccupancies
  split
  · exact (spc_closeOccupancy ..).sweeps
  · unfold confirmOccupancy; dsimp only
    split
    next n _ _ =>
      split
      · split
        · exact (spc_occupancyConfirmed ..).sweeps.after rfl
        · exact .of_segments rfl
      · exact .of_segments rfl
    next => exact .of_segments rfl

theorem keepsSweeps_confirmFresh (b : BoardNo) (l : LineNo) (s : State) : KeepsSweeps s (confirmFresh b l s) := by
  unfold confirmFresh; dsimp only
  split
  · exact (keepsSweeps_confirmDoor ..).trans (spc_closeOccupancy ..).sweeps
  · exact keepsSweeps_confirmDoor ..

theorem keepsSweeps_declareOnline (b : BoardNo) (s : State) : KeepsSweeps s (declareOnline b s) := by
  have lines (u : State) : KeepsSweeps u (confirmLines b u) := by
    unfold confirmLines; dsimp only
    have told := KeepsSweeps.of_segments (s := u) (t := { u with declaring := some b }) rfl
    generalize ({ u with declaring := some b } : State) = v at told ⊢
    have all := told.trans (keepsSweeps_forEach (keepsSweeps_confirmFresh b) v)
    generalize forEach (fun l => confirmFresh b l) v = w at all ⊢
    exact all.trans (.of_segments rfl)
  unfold declareOnline; dsimp only
  refine KeepsSweeps.trans ?_ (spc_applyIssue ..).sweeps
  exact (lines _).after rfl

theorem keepsSweeps_declareLost (b : BoardNo) (s : State) : KeepsSweeps s (declareLost b s) := by
  have ended : ∀ (ends : List ActiveStrike) (u : State),
      KeepsSweeps u (ends.foldl (fun s a => energiseEnds (segmentOf b) a s) u) := by
    intro ends
    induction ends with
    | nil => exact fun _ => .of_segments rfl
    | cons a ends ih => exact fun u => (spc_energiseEnds _ a u).sweeps.trans (ih _)
  rw [declareLost_eq]
  exact KeepsSweeps.trans (t := disconnected b s) (.of_segments rfl) (ended _ _)

theorem keepsSweeps_supervise (b : BoardNo) (good : Bool) (s : State) : KeepsSweeps s (supervise b good s) := by
  unfold supervise; dsimp only
  split
  · split
    · exact (keepsSweeps_declareLost ..).after rfl
    · exact .of_segments rfl
  all_goals first
    | exact .of_segments rfl
    | (split
       · split
         · exact keepsSweeps_declareOnline ..
         · exact .of_segments rfl
       · exact .of_segments rfl)

theorem spc_strikeDone (g : SegNo) (a : ActiveStrike) (s : State) (mem : a ∈ (s.seg g).active) :
    KeepsSpc s (strikeDone g a s) := by
  unfold strikeDone
  split
  · exact (spc_strikeSucceeds ..).trans (spc_applyIssue ..)
  · exact (spc_setActive { a with phase := .confirming (s.elapsed + 3) } mem rfl rfl).trans (spc_applyIssue ..)

theorem keepsSweeps_reportStrike (b : BoardNo) (l : LineNo) (fault : Bool) (s : State) :
    KeepsSweeps s (reportStrike b l fault s) := by
  unfold reportStrike; dsimp only
  split
  next a h =>
    split
    · exact (spc_energiseEnds ..).sweeps
    · exact (spc_strikeDone _ _ _ (List.mem_of_find?_eq_some h)).sweeps
  next => exact .of_segments rfl

theorem keepsSweeps_takeReport (b : BoardNo) (report : Option (LineNo × Bool × Bool)) (s : State) :
    KeepsSweeps s (takeReport b report s) := by
  unfold takeReport
  split
  · dsimp only
    split
    · split
      · exact (keepsSweeps_reportStrike ..).after rfl
      · exact .of_segments rfl
    · exact .of_segments rfl
  · exact .of_segments rfl

/-- The outcome of a poll leaves the sweeps to the SPC. -/
theorem keepsSweeps_takeOutcome (b : BoardNo) (carried : Option LineNo) (heard : Option (List Byte)) (s : State) :
    KeepsSweeps s (takeOutcome b carried heard s) := by
  have taken (taken : Option LineNo) (s : State) : KeepsSweeps s (strikeTaken b carried taken s) :=
    .of_segments (by unfold strikeTaken; split <;> (try split) <;> rfl)
  have read (readings : Vector Reading 12) :
      KeepsSweeps s (if (s.board b).link = .withdrawn then s else takeReadings b readings s) := by
    split <;> exact .of_segments rfl
  unfold takeOutcome
  split
  next r _ =>
    unfold takeReply; dsimp only
    refine KeepsSweeps.trans ?_ (keepsSweeps_takeReport ..)
    refine KeepsSweeps.trans ?_ (keepsSweeps_forEach (keepsSweeps_confirmOccupancies _ b) _)
    refine KeepsSweeps.trans ?_ (keepsSweeps_forEach (keepsSweeps_confirmDoor b) _)
    exact (read r.readings).trans ((keepsSweeps_supervise ..).trans (taken _ _))
  next => exact keepsSweeps_supervise ..

/-! ### The lines of an ONLINE declaration -/

/-- What confirming a line leaves for the lines after it: the link, the other lines, and the declaration. -/
structure LineLeft (b : BoardNo) (l : LineNo) (s t : State) : Prop where
  link      : (t.board b).link = (s.board b).link
  lines     : ∀ k, k ≠ l → t.line b k = s.line b k
  still     : LineStill (t.line b l)
  declaring : t.declaring = s.declaring

theorem link_confirmFresh (b : BoardNo) (l : LineNo) (s : State) :
    ((confirmFresh b l s).board b).link = (s.board b).link
      ∧ ∀ k, k ≠ l → (confirmFresh b l s).line b k = s.line b k := by
  obtain ⟨lines, link⟩ := confirmDoor_lines b l s
  unfold confirmFresh; dsimp only
  split
  · have k := keepsLines_closeOccupancy b l (confirmDoor b l s)
    exact ⟨by rw [k.link, link], fun j hj => by rw [line_of_lines k, lines j hj]⟩
  · exact ⟨link, lines⟩

/-- One line of an ONLINE declaration (R183). -/
theorem lineConfirmed {b : BoardNo} {l : LineNo} {s : State} (online : (s.board b).link = .online)
    (fresh : (s.line b l).doorOpen = none) (told : s.declaring = some b) :
    LineConfirmed b l s (confirmFresh b l s) ∧ LineLeft b l s (confirmFresh b l s) := by
  obtain ⟨link, lines⟩ := link_confirmFresh b l s
  have pass (h : LineStill (s.line b l)) (t : State) (ht : confirmFresh b l s = t) : t = s := by
    rw [← ht, confirmFresh_still h]
  have quiet (h : LineStill (s.line b l)) : NoneIssuedOn b s (confirmFresh b l s) ∧ LineLeft b l s (confirmFresh b l s) := by
    rw [confirmFresh_still h]
    exact ⟨.refl b s, rfl, fun _ _ => rfl, h, rfl⟩
  have fresh' {o n : Reading} (h : o.doorOpen ≠ n.doorOpen) (ho : (s.line b l).older = some o)
      (hn : (s.line b l).newer = some n) : LineStill (s.line b l) :=
    ⟨fun o' n' ho' hn' e => by
      rw [show o' = o from Option.some.inj (ho'.symm.trans ho), show n' = n from Option.some.inj (hn'.symm.trans hn)] at e
      exact absurd e h, fun _ _ _ _ d => by rw [fresh] at d; cases d⟩
  unfold LineConfirmed
  cases ho : (s.line b l).older with
  | none =>
    have still : LineStill (s.line b l) := 
      ⟨fun o n h => (by rw [ho] at h; cases h), fun o n h => (by rw [ho] at h; cases h)⟩
    exact ⟨⟨lines, (quiet still).1, pass still _ rfl⟩, (quiet still).2⟩
  | some o =>
    cases hn : (s.line b l).newer with
    | none =>
      have still : LineStill (s.line b l) := 
        ⟨fun o n _ h => (by rw [hn] at h; cases h), fun o n _ h => (by rw [hn] at h; cases h)⟩
      exact ⟨⟨lines, (quiet still).1, pass still _ rfl⟩, (quiet still).2⟩
    | some n =>
      dsimp only
      cases hod : o.doorOpen <;> cases hnd : n.doorOpen <;> dsimp only
      · obtain ⟨-, eq, still⟩ := confirm_close online ho hn hod hnd (by rw [fresh]; simp)
        have u := spc_shut b l n s
        refine ⟨⟨lines, by rw [eq]; exact u.none b told, ?_⟩, ⟨link, lines, by rw [eq]; exact still, by rw [eq]; exact u.declaring⟩⟩
        rw [eq]
        refine ⟨shut_line .., fun hc => ?_, fun c hc => shut_spec hc ho hn⟩
        have : compAt (s.setLine b l { s.line b l with
          doorOpen := some false, occupied := some n.occupied, closeOccupied := some n.occupied }) b l = none := hc
        unfold shut lineClosed; dsimp only
        rw [this]
        unfold closeOccupancy
        rw [this]
        split
        next h => cases h
        next => exact (comp_setLine_marks ..).ignored
      · have still := fresh' (by rw [hod, hnd]; decide) ho hn
        exact ⟨⟨lines, (quiet still).1, pass still _ rfl⟩, (quiet still).2⟩
      · have still := fresh' (by rw [hod, hnd]; decide) ho hn
        exact ⟨⟨lines, (quiet still).1, pass still _ rfl⟩, (quiet still).2⟩
      · obtain ⟨-, eq, still⟩ := confirm_open online ho hn hod hnd (by rw [fresh]; simp)
        have u := spc_lineOpened b l s
        refine ⟨⟨lines, by rw [eq]; exact u.none b told, ?_⟩, ⟨link, lines, by rw [eq]; exact still, by rw [eq]; exact u.declaring⟩⟩
        rw [eq]
        refine ⟨lineOpened_line .., fun hc => ?_, fun c hc => opened_spec hc⟩
        have : compAt (s.setLine b l { s.line b l with doorOpen := some true, occupied := none }) b l = none := hc
        unfold lineOpened; dsimp only
        rw [this]
        exact (comp_setLine_marks ..).ignored

/-- Step 3 of an ONLINE declaration leaves the board ONLINE and no line with a confirmation left to make. -/
theorem linesConfirmed {b : BoardNo} (ls : List LineNo) : ∀ {s : State}, ls.Nodup → (s.board b).link = .online →
    (∀ l ∈ ls, (s.line b l).doorOpen = none) → s.declaring = some b →
    let t := ls.foldl (fun s l => confirmFresh b l s) s
    LinesConfirmed b ls s t ∧ (t.board b).link = .online ∧ (∀ k, k ∉ ls → t.line b k = s.line b k)
      ∧ ∀ l ∈ ls, LineStill (t.line b l) := by
  induction ls with
  | nil => exact fun _ online _ _ => ⟨rfl, online, fun _ _ => rfl, fun _ h => absurd h List.not_mem_nil⟩
  | cons l ls ih =>
    intro s nodup online fresh told
    obtain ⟨nl, nd⟩ := List.nodup_cons.1 nodup
    obtain ⟨one, left⟩ := lineConfirmed online (fresh l List.mem_cons_self) told
    have other (k : LineNo) (hk : k ∈ ls) : k ≠ l := fun h => nl (h ▸ hk)
    obtain ⟨r1, r2, r3, r4⟩ := ih (s := confirmFresh b l s) nd (left.link.trans online)
      (fun k hk => by rw [left.lines k (other k hk)]; exact fresh k (List.mem_cons_of_mem _ hk)) (left.declaring.trans told)
    refine ⟨⟨_, one, r1⟩, r2, fun k hk => ?_, fun k hk => ?_⟩
    · obtain ⟨a, b⟩ := not_or.1 (fun h => hk (List.mem_cons.2 h))
      exact (r3 k b).trans (left.lines k a)
    · rcases List.mem_cons.1 hk with rfl | h
      · have := r3 k nl
        rw [List.foldl_cons, this]; exact left.still
      · exact r4 k h

/-! ### A good reply -/

theorem takeReadings_line (b : BoardNo) (readings : Vector Reading 12) (s : State) (k : LineNo) :
    (takeReadings b readings s).line b k =
      { s.line b k with older := (s.line b k).newer, newer := some (look readings k) } := by
  unfold takeReadings State.line; dsimp only
  rw [State.board_setBoard_same, look_ofFn]

theorem lineStill_of_quiet {s : State} {b : BoardNo} {readings : Vector Reading 12} {k : LineNo}
    (h : LineQuiet s b readings k) :
    LineStill { s.line b k with older := (s.line b k).newer, newer := some (look readings k) } := by
  refine ⟨fun o n ho hn e => ?_, fun o n ho hn d od nd e => ?_⟩
  · cases hn
    exact Classical.not_not.1 fun ne => (h o ho).1 ⟨e, ne⟩
  · cases hn
    exact Classical.not_not.1 fun ne => (h o ho).2 ⟨d, od, nd, e, ne⟩

theorem strikeTaken_spec (b : BoardNo) (carried taken : Option LineNo) (s : State) :
    KeepsLines s (strikeTaken b carried taken s)
      ∧ strikeTaken b carried taken s = { s with boards := (strikeTaken b carried taken s).boards } := by
  unfold strikeTaken
  split
  · split
    · exact ⟨keepsLines_setBoard rfl rfl, rfl⟩
    · exact ⟨.refl s, rfl⟩
  · exact ⟨.refl s, rfl⟩

/-- The state that the contents of a good reply find: the readings taken, the board ONLINE, and its UNSERVED
compartments in service VACANT where it has just become so. -/
structure Found (b : BoardNo) (readings : Vector Reading 12) (s v : State) : Prop where
  marks    : OnlyMarks (readied b s) v
  comps    : ∀ d, v.comp d = (readied b s).comp d
  segments : v.segments = s.segments
  lines    : ∀ k, v.line b k = { s.line b k with older := (s.line b k).newer, newer := some (look readings k) }
  online   : (v.board b).link = .online

theorem Found.declaring {b : BoardNo} {readings : Vector Reading 12} {s v : State} (h : Found b readings s v)
    (d : Option BoardNo) : Found b readings s { v with declaring := d } :=
  ⟨h.marks.trans (onlyMarks_of_eq rfl rfl rfl rfl rfl rfl rfl), h.comps, h.segments, h.lines, h.online⟩

/-- A good reply of a board that is ONLINE (R181, R186). -/
theorem takeReply_online {b : BoardNo} {carried : Option LineNo} {r : BoardReply} {s : State}
    (online : (s.board b).link = .online) :
    ∃ v, Found b r.readings s v ∧ takeReply b carried r s = takeReport b r.report (confirmAll b v) := by
  refine ⟨strikeTaken b carried r.taken (supervise b true (takeReadings b r.readings s)), ?_, ?_⟩
  · have link : ((takeReadings b r.readings s).board b).link = .online := by
      unfold takeReadings; dsimp only; rw [State.board_setBoard_same]; exact online
    have sup : supervise b true (takeReadings b r.readings s) = (takeReadings b r.readings s).setBoard b
        { (takeReadings b r.readings s).board b with
          window := appendOutcome ((takeReadings b r.readings s).board b).window true } := by
      unfold supervise; dsimp only
      rw [link]; simp
    obtain ⟨lines, rest⟩ := strikeTaken_spec b carried r.taken (supervise b true (takeReadings b r.readings s))
    have ready : readied b s = s := by unfold readied; rw [if_pos online]
    refine ⟨?_, ?_, ?_, fun k => ?_, ?_⟩
    · rw [ready, rest, sup]; exact onlyMarks_of_eq rfl rfl rfl rfl rfl rfl rfl
    · rw [ready, rest, sup]; exact fun _ => rfl
    · rw [rest, sup]; rfl
    · rw [line_of_lines lines, sup, ← takeReadings_line]
      simp [State.line]
    · rw [lines.link, sup]; simpa using link
  · unfold takeReply confirmAll
    rw [if_neg (by rw [online]; decide)]

/-- A good reply that makes its board ONLINE (R181, R183, R186). -/
theorem takeReply_declared {b : BoardNo} {carried : Option LineNo} {r : BoardReply} {s : State}
    (offline : (s.board b).link = .unknown ∨ (s.board b).link = .lost) (run : 32 ≤ (s.board b).goodRun + 1) :
    ∃ v, Found b r.readings s v ∧ { v with declaring := some b } = freshlyOnline b r.readings s
      ∧ takeReply b carried r s = takeReport b r.report (confirmAll b (strikeTaken b carried r.taken
          (applyIssue (segmentOf b) (confirmLines b v)))) := by
  have board : (takeReadings b r.readings s).board b = { s.board b with
      lines := Vector.ofFn fun l => { look (s.board b).lines l with
        older := (look (s.board b).lines l).newer, newer := some (look r.readings l) } } := by
    unfold takeReadings; dsimp only; rw [State.board_setBoard_same]
  have sup : supervise b true (takeReadings b r.readings s) = declareOnline b (takeReadings b r.readings s) := by
    unfold supervise; dsimp only
    rw [board]; dsimp only
    rcases offline with h | h <;> rw [h] <;> simp [run]
  have off : (s.board b).link ≠ .online := by rcases offline with h | h <;> rw [h] <;> decide
  refine ⟨serveBoard b ((takeReadings b r.readings s).setBoard b
    { (takeReadings b r.readings s).board b with link := .online, goodRun := 0, window := [] }), ⟨?_, ?_, rfl, fun k => ?_, ?_⟩,
    ?_, ?_⟩
  · unfold readied; rw [if_neg off]; exact onlyMarks_of_eq rfl rfl rfl rfl rfl rfl rfl
  · unfold readied; rw [if_neg off]; exact fun _ => rfl
  · rw [← takeReadings_line]
    show ((takeReadings b r.readings s).setBoard b _).line b k = _
    simp [State.line]
  · show (((takeReadings b r.readings s).setBoard b _).board b).link = _
    rw [State.board_setBoard_same]
  · rw [board]
    unfold freshlyOnline readied takeReadings serveBoard State.setBoard; rw [if_neg off]; dsimp only
    rw [put_put]; rfl
  · unfold takeReply confirmAll
    rw [if_neg (by rcases offline with h | h <;> rw [h] <;> decide)]; dsimp only
    rw [sup]
    rfl

/-- What may follow a confirmation at an ONLINE declaration: issue, and the strike that the reply took. -/
def Late (b : BoardNo) (x w : State) : Prop :=
  w = x ∨ ∃ d carried taken, w = strikeTaken b carried taken (applyIssue (segmentOf b) { x with declaring := d })

theorem Late.spec {b : BoardNo} {x w : State} (h : Late b x w) :
    OnlyMarks x w ∧ KeepsLines x w ∧ (∀ d, NoNewStrike d x w) ∧ ∀ g, ∀ a ∈ (x.seg g).active, a ∈ (w.seg g).active := by
  rcases h with rfl | ⟨declaring, carried, taken, rfl⟩
  · exact ⟨.refl _, .refl _, fun _ => .of_segments rfl, fun _ _ ha => ha⟩
  · have told : OnlyMarks x { x with declaring } := onlyMarks_of_eq rfl rfl rfl rfl rfl rfl rfl
    have quiet (d : CompNo) : NoNewStrike d x { x with declaring } := .of_segments rfl
    have still : KeepsLines x { x with declaring } := .of_boards rfl
    have kept (g : SegNo) (a : ActiveStrike) (ha : a ∈ (x.seg g).active) :
        a ∈ (({ x with declaring } : State).seg g).active := ha
    generalize ({ x with declaring } : State) = y at told quiet still kept ⊢
    obtain ⟨lines, rest⟩ := strikeTaken_spec b carried taken (applyIssue (segmentOf b) y)
    have segments : (strikeTaken b carried taken (applyIssue (segmentOf b) y)).segments =
        (applyIssue (segmentOf b) y).segments := by rw [rest]
    have marks : OnlyMarks (applyIssue (segmentOf b) y) (strikeTaken b carried taken (applyIssue (segmentOf b) y)) := by
      rw [rest]; exact onlyMarks_of_eq rfl rfl rfl rfl rfl rfl rfl
    refine ⟨told.trans ((onlyStrikes_applyIssue (segmentOf b) y).marks.trans marks),
      still.trans ((keepsLines_applyIssue ..).trans lines),
      fun d => (quiet d).trans ((noNewStrike_applyIssue d (segmentOf b) y).trans (.of_segments segments)), fun g a ha => ?_⟩
    rw [State.seg, segments]
    show a ∈ ((applyIssue (segmentOf b) y).seg g).active
    by_cases e : g = segmentOf b
    · subst e; exact active_issueUpTo _ _ _ a (kept _ a ha)
    · rw [applyIssue_seg_other e]; exact kept g a ha

/-- A good reply that makes its board ONLINE and has no strike report, line by line (R183, R186). -/
theorem takeReply_fresh {b : BoardNo} {carried : Option LineNo} {r : BoardReply} {s : State}
    (offline : (s.board b).link = .unknown ∨ (s.board b).link = .lost) (run : 32 ≤ (s.board b).goodRun + 1)
    (fresh : ∀ l, (s.line b l).doorOpen = none) (report : r.report = none) :
    ∃ u, LinesConfirmed b (List.finRange 12) (freshlyOnline b r.readings s) u
      ∧ OnlyMarks u (takeReply b carried r s) ∧ KeepsLines u (takeReply b carried r s)
      ∧ ((takeReply b carried r s).board b).link = .online
      ∧ Issued (segmentOf b) u (takeReply b carried r s) := by
  obtain ⟨v, found, start, eq⟩ := takeReply_declared (carried := carried) (r := r) offline run
  have declared := found.declaring (some b)
  rw [start] at declared
  have toldAll : (freshlyOnline b r.readings s).declaring = some b := rfl
  have key := linesConfirmed (b := b) (List.finRange 12) (List.nodup_finRange 12) declared.online
    (fun l _ => by rw [declared.lines]; exact fresh l) toldAll
  unfold confirmLines at eq; dsimp only at eq
  rw [start] at eq
  change takeReply b carried r s = takeReport b r.report (confirmAll b (strikeTaken b carried r.taken
    (applyIssue (segmentOf b) { (List.finRange 12).foldl (fun s l => confirmFresh b l s) (freshlyOnline b r.readings s) with
      declaring := v.declaring }))) at eq
  dsimp only at key
  generalize (List.finRange 12).foldl (fun s l => confirmFresh b l s) (freshlyOnline b r.readings s) = u at key eq
  obtain ⟨chain, online, -, still⟩ := key
  have spec : Late b u (strikeTaken b carried r.taken (applyIssue (segmentOf b) { u with declaring := v.declaring })) :=
    .inr ⟨_, _, _, rfl⟩
  obtain ⟨marks, lines, -, -⟩ := spec.spec
  rw [report, confirmAll_still fun k => by rw [line_of_lines lines]; exact still k (List.mem_finRange k)] at eq
  obtain ⟨tl, te⟩ := strikeTaken_spec b carried r.taken (applyIssue (segmentOf b) { u with declaring := v.declaring })
  have issued : Issued (segmentOf b) { u with declaring := v.declaring } (applyIssue (segmentOf b) { u with declaring := v.declaring }) :=
    issued_applyIssue ..
  refine ⟨u, chain, by rw [eq]; exact marks, by rw [eq]; exact lines, (by rw [eq]; exact (lines.link b).trans online), ?_⟩
  rw [eq]
  show Issued _ _ (strikeTaken ..)
  obtain ⟨i1, i2, i3, i4, i5⟩ := issued
  have seg (h : SegNo) : (strikeTaken b carried r.taken (applyIssue (segmentOf b) { u with declaring := v.declaring })).seg h
      = (applyIssue (segmentOf b) { u with declaring := v.declaring }).seg h := by rw [te]; rfl
  have only : OnlyStrikes (applyIssue (segmentOf b) { u with declaring := v.declaring })
      (strikeTaken b carried r.taken (applyIssue (segmentOf b) { u with declaring := v.declaring })) := by
    rw [te]; exact ⟨rfl, rfl, fun c => .refl _ c⟩
  refine ⟨(nextIssue_congr (seg _) only tl).trans i1, fun c hc => ?_, ?_, ?_, ?_⟩
  · rw [striking_congr (s := applyIssue (segmentOf b) { u with declaring := v.declaring }) (by rw [te])]; exact i2 c hc
  · unfold energised; rw [seg]; exact i3
  · rw [seg]; exact i4
  · rw [seg]; exact i5

section reply
variable {b : BoardNo} {carried : Option LineNo} {r : BoardReply} {l : LineNo} {o : Reading} {s : State}
variable (online : OnlineAfter s b) (others : ∀ k, k ≠ l → LineQuiet s b r.readings k) (none : r.report = none)
variable (ho : (s.line b l).newer = some o)
include online others none ho

/-- A good reply with one line's door confirmation alone (R184, R186). -/
theorem takeReply_door (f : State → State)
    (confirm : ∀ v, Found b r.readings s v →
      confirmOccupancies (v.board b).lines b l (confirmDoor b l v) = f v ∧ confirmFresh b l v = f v
        ∧ LineStill ((f v).line b l)) :
    ∃ v w, Found b r.readings s v ∧ takeReply b carried r s = w ∧ Late b (f v) w := by
  have still {v : State} (found : Found b r.readings s v) (k : LineNo) (hk : k ≠ l) : LineStill (v.line b k) := by
    rw [found.lines]; exact lineStill_of_quiet (others k hk)
  rcases online with on | ⟨off, run⟩
  · obtain ⟨v, found, eq⟩ := takeReply_online (carried := carried) (r := r) on
    refine ⟨v, _, found, rfl, .inl ?_⟩
    rw [eq, none, confirmAll_only (still found), (confirm v found).1]; rfl
  · obtain ⟨v, found, -, eq⟩ := takeReply_declared (carried := carried) (r := r) off run
    have declared := found.declaring (some b)
    refine ⟨{ v with declaring := some b }, _, declared, rfl, .inr ⟨v.declaring, carried, r.taken, ?_⟩⟩
    obtain ⟨c1, c2, c3⟩ := confirm _ declared
    have lined : confirmLines b v = { f { v with declaring := some b } with declaring := v.declaring } := by
      unfold confirmLines
      rw [confirmFresh_only (still declared), c2]
    rw [eq, none, lined]
    generalize ({ v with declaring := some b } : State) = u at declared c1 c2 c3 ⊢
    have late : Late b (f u) (strikeTaken b carried r.taken (applyIssue (segmentOf b) { f u with declaring := v.declaring })) :=
      .inr ⟨_, _, _, rfl⟩
    have lines : ∀ k, k ≠ l → (f u).line b k = u.line b k := by
      intro k hk
      rw [← c1, confirmOccupancies_lines _ _ _ _ k hk]; exact (confirmDoor_lines b l u).1 k hk
    rw [confirmAll_still]
    · rfl
    · intro k
      rw [line_of_lines late.spec.2.1]
      by_cases hk : k = l
      · subst hk; exact c3
      · rw [lines k hk]; exact still declared k hk

theorem takeReply_close (closed : o.doorOpen = false) (closed' : (look r.readings l).doorOpen = false)
    (was : (s.line b l).doorOpen ≠ some false) :
    ∃ v w, Found b r.readings s v ∧ takeReply b carried r s = w ∧ Late b (shut b l (look r.readings l) v) w :=
  takeReply_door online others none ho _ fun v found =>
    confirm_close found.online (by rw [found.lines]; exact ho) (by rw [found.lines]) closed closed'
      (by rw [found.lines]; exact was)

theorem takeReply_open (opened : o.doorOpen = true) (opened' : (look r.readings l).doorOpen = true)
    (was : (s.line b l).doorOpen ≠ some true) :
    ∃ v w, Found b r.readings s v ∧ takeReply b carried r s = w ∧ Late b (lineOpened b l v) w :=
  takeReply_door online others none ho _ fun v found =>
    confirm_open found.online (by rw [found.lines]; exact ho) (by rw [found.lines]) opened opened'
      (by rw [found.lines]; exact was)

/-- A good reply with one line's occupancy confirmation alone (R185, R186). -/
theorem takeReply_occupied {c : CompNo} (hc : compAt (readied b s) b l = some c) (closed : o.doorOpen = false)
    (closed' : (look r.readings l).doorOpen = false) (door : (s.line b l).doorOpen = some false)
    (agree : o.occupied = (look r.readings l).occupied) (was : (s.line b l).occupied ≠ some (look r.readings l).occupied) :
    OccupancyTaken c (look r.readings l).occupied (readied b s) (takeReply b carried r s)
      ∧ ((takeReply b carried r s).line b l).occupied = some (look r.readings l).occupied := by
  have still {v : State} (found : Found b r.readings s v) (k : LineNo) (hk : k ≠ l) : LineStill (v.line b k) := by
    rw [found.lines]; exact lineStill_of_quiet (others k hk)
  have last {v w : State} (found : Found b r.readings s v) (late : Late b v w) :
      OccupancyTaken c (look r.readings l).occupied (readied b s) (confirmAll b w)
        ∧ ((confirmAll b w).line b l).occupied = some (look r.readings l).occupied := by
    obtain ⟨marks, lines, -, -⟩ := late.spec
    have line : w.line b l = { s.line b l with older := (s.line b l).newer, newer := some (look r.readings l) } := by
      rw [line_of_lines lines, found.lines]
    have at' : compAt w b l = some c := by
      rw [compAt_congr (s := readied b s) (t := w) fun d => ((found.marks.trans marks).comps d).1]; exact hc
    obtain ⟨c1, -, c3⟩ := confirm_occupied (s := w) (o := o) (n := look r.readings l) (by rw [lines.link]; exact found.online)
      (by rw [line]; exact ho) (by rw [line]) at' closed closed' (by rw [line]; exact door) agree (by rw [line]; exact was)
    rw [confirmAll_only (l := l) (fun k hk => by rw [line_of_lines lines]; exact still found k hk), c1, c3]
    exact ⟨OccupancyTaken.around ((found.marks.trans marks).trans (comp_setLine_marks ..)) (.refl _)
      (occupancyTaken ..), by rw [line_of_lines (keepsLines_occupancyConfirmed ..), line_setLine, if_pos rfl]⟩
  rcases online with on | ⟨off, run⟩
  · obtain ⟨v, found, eq⟩ := takeReply_online (carried := carried) (r := r) on
    rw [eq, none]
    exact last found (.inl rfl)
  · obtain ⟨v, found, -, eq⟩ := takeReply_declared (carried := carried) (r := r) off run
    have at' : compAt v b l = some c := by
      rw [compAt_congr (s := readied b s) (t := v) fun d => (found.marks.comps d).1]; exact hc
    have declared := found.declaring (some b)
    have lined : confirmLines b v = v := by
      unfold confirmLines
      rw [confirmFresh_only (still declared), (confirm_occupied (o := o) declared.online (by rw [declared.lines]; exact ho)
        (by rw [declared.lines]) at' closed closed' (by rw [declared.lines]; exact door) agree
        (by rw [declared.lines]; exact was)).2.1]
    rw [eq, none, lined]
    exact last found (.inr ⟨v.declaring, _, _, rfl⟩)

end reply

end Sys2Proof.Machine
end

