-- ==== Sys2Proof/Laws/Resets.lean ====
section
/-! SUPPORT. The start of sweeps at a reset, and that a blank start gives the state right after reset. -/

namespace Sys2Proof.Machine

/-- The start of sweeps on all segments writes the segments only. -/
theorem startSweeps_frame (s : State) :
    forEach startSweep s = { s with segments := (forEach startSweep s).segments } := by
  have step (g : SegNo) (s : State) : startSweep g s = { s with segments := (startSweep g s).segments } := by
    unfold startSweep; dsimp only; split <;> rfl
  have list (gs : List SegNo) (s : State) :
      gs.foldl (fun s g => startSweep g s) s = { s with segments := (gs.foldl (fun s g => startSweep g s) s).segments } := by
    induction gs generalizing s with
    | nil => rfl
    | cons g gs ih => rw [List.foldl_cons, ih, step]
  exact list _ s

/-- A sweep of a segment whose slots are all idle polls no slot. -/
theorem nextPolled_idle {s : State} {g : SegNo} (h : ∀ i, look (look s.ret.slots g) i = none) (first : Nat) :
    nextPolled s g first = none := by
  unfold nextPolled
  rw [List.findSome?_eq_none_iff]
  intro i _
  simp [h i]

/-- Right after a blank start with the straps at 0 the part is as right after reset. -/
theorem blankPart_eq_reset : blankPart 0 State.reset = State.reset := by
  have boards : blankRetained.withdrawn.map freshBoard = Vector.replicate 64 (freshBoard false) := by
    apply vector_ext_look; intro i; simp [blankRetained]
  have idle (g : SegNo) (s : State) (hs : s.ret = blankRetained) : nextPolled s g 0 = none :=
    nextPolled_idle (by intro i; simp [hs, blankRetained]) 0
  have step (g : SegNo) : startSweep g State.reset = State.reset := by
    unfold startSweep; dsimp only
    rw [idle g _ rfl]
    simp [State.reset, State.setSeg, State.seg, look, put, freshSegment]
  have list (gs : List SegNo) : gs.foldl (fun s g => startSweep g s) State.reset = State.reset := by
    induction gs with
    | nil => rfl
    | cons g gs ih => rw [List.foldl_cons, step, ih]
  have start : blankPart 0 State.reset = forEach startSweep State.reset := by
    unfold blankPart coldStart
    rw [boards]; rfl
  rw [start]; exact list _

end Sys2Proof.Machine
end

