-- ==== Sys2Proof/Laws/Sweeps.lean ====
section
/-! SUPPORT. How the issue rule grants the entries of a courier sweep's list, in its order. -/

namespace Sys2Proof.Machine

/-- An entry of a pickup list issued. -/
def PickupEntry.issued (e : PickupEntry) : PickupEntry := { e with inFlight := true }

/-- A retrieval has been granted for a compartment (R11, R146). -/
structure Granted (k : KioskNo) (x : Session) (s t : State) (c : CompNo) : Prop where
  state     : (t.comp c).state = .releasing
  transient : ∃ mark, (t.comp c).transient =
    some { particulars := .retrieve x.serial x.courier, kiosk := k, strikeIssued := mark, prior := none }
  map       : (t.comp c).map = (s.comp c).map
  parcel    : (t.comp c).parcel = (s.comp c).parcel
  quote     : t.quoteOf c = none
  struck    : striking t c = true

theorem striking_queued {s : State} {c : CompNo} (p : Purpose) (h : (segOf s c).isSome = true) :
    striking (queueStrike c p s) c = true := by
  unfold queueStrike
  obtain ⟨g, hg⟩ := Option.isSome_iff_exists.1 h
  rw [hg]; dsimp only
  refine striking_issueUpTo g _ (striking_iff.2 ⟨g, .inl ?_⟩)
  rw [State.seg_setSeg_same]
  exact ⟨_, List.mem_append_right _ (List.mem_singleton_self _), rfl⟩

theorem segOf_of_listed {s : State} {n : Nat} {e : PickupEntry} (h : asListed s n e = true) :
    (segOf s e.compartment).isSome = true := by
  unfold asListed at h
  have : onlineComp s e.compartment = true := (Bool.and_eq_true_iff.1 h).1
  unfold onlineComp at this
  unfold segOf
  cases hb : boardOf s e.compartment with
  | none => rw [hb] at this; cases this
  | some b => rfl

theorem asListed_congr {s t : State} {n : Nat} {e : PickupEntry} (h : KeepsComp s t e.compartment)
    (lines : KeepsLines s t) : asListed t n e = asListed s n e := by
  obtain ⟨m, st, p, -, -⟩ := h
  have on : onlineComp t e.compartment = onlineComp s e.compartment := by
    unfold onlineComp boardOf
    rw [m]
    cases ((s.comp e.compartment).map.map (·.board)) with
    | none => rfl
    | some b => simp only [lines.link]
  unfold asListed
  dsimp only
  rw [on, st, p]

/-- The grant of one listed entry (R146). -/
theorem granted_one {k : KioskNo} {x : Session} {w : CourierSweep} {e : PickupEntry} {s : State}
    (entries : List PickupEntry) (listed : asListed s x.courier e = true) :
    let t := grantRetrieval k x.serial x.courier e.compartment
      (setSession k (some { x with sweep := some { w with entries } }) (takeSlot s))
    Granted k x s t e.compartment ∧ KeepsOtherComps e.compartment s t ∧ KeepsLines s t
      ∧ t.kiosk k = { s.kiosk k with session := some { x with sweep := some { w with entries } } }
      ∧ KeepsOtherKiosks k s t ∧ t.ret.reservations = s.ret.reservations + 1
      ∧ ∀ d, striking s d = true → striking t d = true := by
  dsimp only
  unfold grantRetrieval; dsimp only
  generalize hv : ((setSession k (some { x with sweep := some { w with entries } }) (takeSlot s)).setComp e.compartment
    { (setSession k (some { x with sweep := some { w with entries } }) (takeSlot s)).comp e.compartment with
      state := .releasing
      transient := some { particulars := .retrieve x.serial x.courier, kiosk := k, strikeIssued := false, prior := none } }
    ).setQuote e.compartment none = v
  have own : v.comp e.compartment = { s.comp e.compartment with
      state := .releasing
      transient := some { particulars := .retrieve x.serial x.courier, kiosk := k, strikeIssued := false, prior := none } } := by
    rw [← hv]; simp
  have quote : v.quoteOf e.compartment = none := by rw [← hv]; simp
  have other : KeepsOtherComps e.compartment s v := fun d hd => by
    rw [← hv]; exact keepsComp_of_eq (by simp [State.comp_setComp, hd]) (by simp [State.quoteOf_setQuote, hd])
  have segments : v.segments = s.segments := by rw [← hv]; simp
  have boards : v.boards = s.boards := by rw [← hv]; simp
  have kiosk : v.kiosk k = { s.kiosk k with session := some { x with sweep := some { w with entries } } } := by
    rw [← hv]; simp
  have kiosks : KeepsOtherKiosks k s v := fun j hj => by rw [← hv]; simp [kiosk_setSession_other hj]
  have slot : v.ret.reservations = s.ret.reservations + 1 := by rw [← hv, takeSlot_eq]; rfl
  have seg : (segOf v e.compartment).isSome = true := by
    have := segOf_of_listed listed
    unfold segOf boardOf at this ⊢
    rw [own]; exact this
  have q := onlyStrikes_queueStrike e.compartment .retrieve v
  have struck := striking_queued .retrieve seg
  obtain ⟨m, st, p, -, qq⟩ := q.comps e.compartment
  obtain ⟨y, hy, y1, y2, y3⟩ := transient_marked (q.comps e.compartment) (by rw [own])
  refine ⟨⟨by rw [st, own], ⟨y.strikeIssued, ?_⟩, by rw [m, own], by rw [p, own], by rw [qq, quote], struck⟩,
    other.trans (q.marks.others _), (keepsLines_queueStrike ..).after boards, by rw [q.marks.kiosk, kiosk],
    fun j hj => (q.marks.kiosk j).trans (kiosks j hj), by rw [q.marks.reservations, slot],
    fun d hd => striking_queueStrike _ _ (by rwa [striking_congr segments])⟩
  have pr : y.prior = none := by
    have := (q.comps e.compartment).2.2.2.1
    rw [own, hy] at this
    simp only [sameButMark, decide_eq_true_eq, Transient.mk.injEq] at this
    exact this.2.2.2.1
  rw [hy]
  cases y
  simp_all

theorem Granted.keep {k : KioskNo} {x : Session} {s t u : State} {c : CompNo} (h : Granted k x s t c)
    (keeps : KeepsComp t u c) (struck : striking u c = true) : Granted k x s u c := by
  obtain ⟨m, st, p, tr, q⟩ := keeps
  obtain ⟨mark, ht⟩ := h.transient
  refine ⟨by rw [st, h.state], ?_, by rw [m, h.map], by rw [p, h.parcel], by rw [q, h.quote], struck⟩
  rw [ht] at tr
  cases hu : (u.comp c).transient with
  | none => rw [hu] at tr; cases tr
  | some y =>
    rw [hu] at tr
    refine ⟨y.strikeIssued, ?_⟩
    simp only [sameButMark, decide_eq_true_eq, Transient.mk.injEq] at tr
    cases y
    simp_all

theorem session_eta {y : Kiosk} {z : Option Session} (h : y.session = z) : y = { y with session := z } := by
  subst h; rfl

theorem firstUnissued_none {w : CourierSweep} {A : List PickupEntry} (flying : ∀ a ∈ A, a.inFlight = true) :
    ({ w with entries := A } : CourierSweep).firstUnissued = none :=
  List.find?_eq_none.2 fun a ha => by simp [flying a ha]

theorem firstUnissued_some {w : CourierSweep} {A B : List PickupEntry} {b : PickupEntry}
    (flying : ∀ a ∈ A, a.inFlight = true) (resting : b.inFlight = false) :
    ({ w with entries := A ++ b :: B } : CourierSweep).firstUnissued = some b := by
  unfold CourierSweep.firstUnissued
  rw [List.find?_append, List.find?_eq_none.2 fun a ha => by simp [flying a ha]]
  simp [resting]

theorem inFlight_split {w : CourierSweep} {A B : List PickupEntry}
    (flying : ∀ a ∈ A, a.inFlight = true) (resting : ∀ b ∈ B, b.inFlight = false) :
    ({ w with entries := A ++ B } : CourierSweep).inFlight = A.length := by
  unfold CourierSweep.inFlight
  rw [List.filter_append, List.filter_eq_self.2 flying, List.filter_eq_nil_iff.2 fun b hb => by simp [resting b hb]]
  simp

theorem map_issue {A B : List PickupEntry} {b : PickupEntry}
    (distinct : ((A ++ b :: B).map (·.compartment)).Nodup) :
    (A ++ b :: B).map (fun f => if f.compartment = b.compartment then { f with inFlight := true } else f)
      = A ++ b.issued :: B := by
  rw [List.map_append, List.nodup_append, List.map_cons, List.nodup_cons] at distinct
  obtain ⟨-, ⟨nb, -⟩, da⟩ := distinct
  rw [List.map_append, List.map_cons, if_pos rfl]
  congr 1
  · refine (List.map_congr_left fun f hf => ?_).trans (List.map_id _)
    rw [if_neg fun h => da _ (List.mem_map_of_mem hf) _ List.mem_cons_self h]; rfl
  · congr 1
    refine (List.map_congr_left fun f hf => ?_).trans (List.map_id _)
    rw [if_neg fun h => nb (List.mem_map.2 ⟨f, hf, h⟩)]; rfl

theorem Granted.back {k : KioskNo} {x : Session} {s v t : State} {c : CompNo} (h : Granted k x v t c)
    (keeps : KeepsComp s v c) : Granted k x s t c :=
  ⟨h.state, h.transient, h.map.trans keeps.1, h.parcel.trans keeps.2.2.1, h.quote, h.struck⟩

theorem filter_skip {A B : List PickupEntry} {b : PickupEntry} (distinct : ((A ++ b :: B).map (·.compartment)).Nodup) :
    (A ++ b :: B).filter (·.compartment ≠ b.compartment) = A ++ B := by
  rw [List.map_append, List.nodup_append, List.map_cons, List.nodup_cons] at distinct
  obtain ⟨-, ⟨nb, -⟩, da⟩ := distinct
  rw [List.filter_append, List.filter_cons_of_neg (by simp)]
  congr 1
  · exact List.filter_eq_self.2 fun f hf => by
      simpa using fun h => da _ (List.mem_map_of_mem hf) _ List.mem_cons_self h
  · exact List.filter_eq_self.2 fun f hf => by
      simpa using fun h => nb (List.mem_map.2 ⟨f, hf, h⟩)

/-- Where the issue rule stops on a list whose first entries `A` are IN_FLIGHT and whose others are `B` (R146):
it has gone through the first `n` of `B`, has granted those that stand as listed and has skipped the others,
until four are IN_FLIGHT, the list is used up, or an entry is held up. -/
def PickupsRun (k : KioskNo) (x : Session) (w : CourierSweep) (A B : List PickupEntry) (s t : State) : Prop :=
  ∃ n taken, (n = 0 → t = s) ∧ n ≤ B.length ∧ taken = (B.take n).filter (asListed s x.courier)
    ∧ (taken = [] ∨ A.length + taken.length ≤ 4)
    ∧ t.kiosk k = { s.kiosk k with session := some { x with sweep := ({ w with
        entries := A ++ (taken.map PickupEntry.issued ++ B.drop n)
        skipped := w.skipped + (n - taken.length) } : CourierSweep).orEnded } }
    ∧ (∀ f ∈ taken, Granted k x s t f.compartment)
    ∧ (∀ d, d ∉ taken.map (·.compartment) → KeepsComp s t d)
    ∧ (4 ≤ A.length + taken.length ∨ n = B.length ∨ ∃ f, (B.drop n).head? = some f ∧ issueHeldUp t f = true)
    ∧ t.ret.reservations = s.ret.reservations + taken.length ∧ KeepsOtherKiosks k s t ∧ KeepsLines s t
    ∧ ∀ d, striking s d = true → striking t d = true

theorem PickupsRun.stop {k : KioskNo} {x : Session} {w : CourierSweep} {A B : List PickupEntry} {s : State}
    (session : (s.kiosk k).session = some { x with sweep := ({ w with entries := A ++ B } : CourierSweep).orEnded })
    (why : 4 ≤ A.length ∨ B.length = 0 ∨ ∃ f, B.head? = some f ∧ issueHeldUp s f = true) :
    PickupsRun k x w A B s s := by
  refine ⟨0, [], fun _ => rfl, Nat.zero_le _, rfl, .inl rfl, session_eta session, ?_, fun d _ => .refl _ d, ?_, rfl,
    fun _ _ => rfl, .refl _, fun _ h => h⟩
  · exact fun f hf => absurd hf List.not_mem_nil
  · exact why.imp id (Or.imp Eq.symm id)

theorem issuePickup_ended {k : KioskNo} {x : Session} {s : State} (session : (s.kiosk k).session = some x)
    (ended : x.sweep = none) (m : Nat) : issuePickups k m s = s := by
  cases m with
  | zero => rfl
  | succ m =>
    unfold issuePickups issuePickup sessionOf
    rw [session]
    simp [ended]

theorem issuePickup_eq {k : KioskNo} {x : Session} {w : CourierSweep} {s : State}
    (session : (s.kiosk k).session = some x) (sweep : x.sweep = some w) (issuing : w.draining = false) :
    issuePickup k s = w.firstUnissued.bind fun e =>
      if 4 ≤ w.inFlight ∨ issueHeldUp s e = true then none
      else if asListed s x.courier e then
        some (grantRetrieval k x.serial x.courier e.compartment (setSession k (some { x with sweep := some { w with
          entries := w.entries.map fun f => if f.compartment = e.compartment then { f with inFlight := true } else f } })
          (takeSlot s)))
      else some (setSession k (some { x with sweep := ({ w with
          entries := w.entries.filter (·.compartment ≠ e.compartment), skipped := w.skipped + 1 }).orEnded }) s) := by
  unfold issuePickup sessionOf
  rw [session]
  simp [sweep, issuing]

theorem issuePickups_run (k : KioskNo) (x : Session) (m : Nat) (w : CourierSweep) (A B : List PickupEntry) (s : State)
    (session : (s.kiosk k).session = some { x with sweep := ({ w with entries := A ++ B } : CourierSweep).orEnded })
    (issuing : w.draining = false) (flying : ∀ a ∈ A, a.inFlight = true) (resting : ∀ b ∈ B, b.inFlight = false)
    (distinct : ((A ++ B).map (·.compartment)).Nodup) (enough : B.length ≤ m) :
    PickupsRun k x w A B s (issuePickups k m s) := by
  induction m generalizing w A B s with
  | zero =>
    have : B = [] := List.length_eq_zero_iff.1 (by omega)
    exact .stop session (.inr (.inl (by rw [this]; rfl)))
  | succ m ih =>
    cases B with
    | nil =>
      have : issuePickups k (m + 1) s = s := by
        by_cases empty : A = []
        · exact issuePickup_ended session (by simp [empty, CourierSweep.orEnded]) _
        · unfold issuePickups
          rw [issuePickup_eq session (w := { w with entries := A }) (by simp [CourierSweep.orEnded, empty]) issuing]
          simp only [firstUnissued_none flying, Option.bind_none]
      rw [this]
      exact .stop session (.inr (.inl rfl))
    | cons b B =>
      have rest (a : PickupEntry) (ha : a ∈ B) := resting a (List.mem_cons_of_mem _ ha)
      have nb : ∀ f ∈ B, f.compartment ≠ b.compartment := fun f hf h => by
        rw [List.map_append, List.nodup_append, List.map_cons, List.nodup_cons] at distinct
        exact distinct.2.1.1 (List.mem_map.2 ⟨f, hf, h⟩)
      have next := issuePickup_eq session (w := { w with entries := A ++ b :: B }) (by simp [CourierSweep.orEnded]) issuing
      rw [firstUnissued_some flying (resting b List.mem_cons_self), Option.bind_some, inFlight_split flying resting] at next
      dsimp only at next
      rw [map_issue distinct, filter_skip distinct] at next
      simp only [List.length_cons] at enough
      unfold issuePickups
      rw [next]
      by_cases held : 4 ≤ A.length ∨ issueHeldUp s b = true
      · rw [if_pos held]
        exact .stop session (held.imp id fun h => .inr ⟨b, rfl, h⟩)
      rw [if_neg held]
      by_cases listed : asListed s x.courier b = true
      · rw [if_pos listed]; dsimp only
        obtain ⟨own, other, lines, kiosk, kiosks, slot, kept⟩ :=
          granted_one (k := k) (x := x) (w := w) (A ++ b.issued :: B) listed
        generalize grantRetrieval k x.serial x.courier b.compartment
          (setSession k (some { x with sweep := some { w with entries := A ++ b.issued :: B } }) (takeSlot s)) = v
          at own other lines kiosk kiosks slot kept ⊢
        obtain ⟨n, taken, n0, n1, n2, n2', n3, n4, n5, n6, n7, n8, n9, n10⟩ := ih w (A ++ [b.issued]) B v
          (by rw [kiosk]; simp [CourierSweep.orEnded]) issuing (by
            intro a ha
            rcases List.mem_append.1 ha with h | h
            · exact flying a h
            · rw [List.mem_singleton.1 h]; rfl) rest
          (by
            rw [List.append_assoc, List.map_append] at *
            exact distinct)
          (by omega)
        generalize issuePickups k m v = t at n0 n3 n4 n5 n6 n7 n8 n9 n10 ⊢
        have sub (f : PickupEntry) (hf : f ∈ taken) : f ∈ B := by
          rw [n2] at hf; exact List.mem_of_mem_take (List.mem_filter.1 hf).1
        have ownKept : KeepsComp v t b.compartment := n5 _ fun h => by
          obtain ⟨f, hf, e⟩ := List.mem_map.1 h
          exact nb f (sub f hf) e
        simp only [List.length_append, List.length_singleton] at n2' n6
        refine ⟨n + 1, b :: taken, fun h => (Nat.succ_ne_zero n h).elim, by simp only [List.length_cons]; omega, ?_, .inr ?_,
          ?_, ?_, ?_, ?_, by simp only [List.length_cons]; omega, ?_, lines.trans n9, fun d hd => n10 d (kept d hd)⟩
        · rw [List.take_succ_cons, List.filter_cons_of_pos listed, n2]
          congr 1
          exact List.filter_congr fun f hf => asListed_congr (other _ (nb f (List.mem_of_mem_take hf))) lines
        · simp only [List.length_cons]
          rcases n2' with h | h
          · rw [h]; have := not_or.1 held; simp; omega
          · omega
        · rw [n3, kiosk]
          simp [PickupEntry.issued]
        · intro f hf
          rcases List.mem_cons.1 hf with rfl | h
          · exact own.keep ownKept (n10 _ own.struck)
          · exact (n4 f h).back (other _ (nb f (sub f h)))
        · intro d hd
          simp only [List.map_cons, List.mem_cons, not_or] at hd
          exact (other d hd.1).trans (n5 d hd.2)
        · simp only [List.length_cons]
          rcases n6 with h | h | ⟨f, hf, hh⟩
          · exact .inl (by omega)
          · exact .inr (.inl (by omega))
          · exact .inr (.inr ⟨f, hf, hh⟩)
        · exact fun j hj => (n8 j hj).trans (kiosks j hj)
      · rw [if_neg listed]; dsimp only
        generalize hv : setSession k (some { x with sweep := CourierSweep.orEnded _ }) s = v
        have comps (d : CompNo) : KeepsComp s v d := by rw [← hv]; exact .refl s d
        have lines : KeepsLines s v := by rw [← hv]; exact .of_boards rfl
        have kiosk : (v.kiosk k) = { s.kiosk k with session := some { x with sweep :=
            ({ { w with skipped := w.skipped + 1 } with entries := A ++ B } : CourierSweep).orEnded } } := by rw [← hv]; simp
        obtain ⟨n, taken, n0, n1, n2, n2', n3, n4, n5, n6, n7, n8, n9, n10⟩ := ih { w with skipped := w.skipped + 1 } A B v
          (by rw [kiosk]) issuing flying rest
          (by
            rw [List.map_append] at distinct ⊢
            exact distinct.sublist (List.Sublist.append_left (List.sublist_cons_self _ _) _))
          (by omega)
        generalize issuePickups k m v = t at n0 n3 n4 n5 n6 n7 n8 n9 n10 ⊢
        have few : taken.length ≤ n := by
          rw [n2]; exact (List.length_filter_le ..).trans (by simp)
        refine ⟨n + 1, taken, fun h => (Nat.succ_ne_zero n h).elim, by simp only [List.length_cons]; omega, ?_, n2',
          ?_, fun f hf => (n4 f hf).back (comps _), fun d hd => (comps d).trans (n5 d hd), ?_, ?_, ?_, lines.trans n9, ?_⟩
        · rw [List.take_succ_cons, List.filter_cons_of_neg listed, n2]
          exact List.filter_congr fun f _ => asListed_congr (comps _) lines
        · rw [n3, kiosk, show w.skipped + (n + 1 - taken.length) = w.skipped + 1 + (n - taken.length) by omega]
          rfl
        · rcases n6 with h | h | ⟨f, hf, hh⟩
          · exact .inl h
          · exact .inr (.inl (by simp only [List.length_cons]; omega))
          · exact .inr (.inr ⟨f, hf, hh⟩)
        · rw [n7, ← hv]; rfl
        · exact fun j hj => (n8 j hj).trans (by rw [← hv]; exact kiosk_setSession_other hj ..)
        · exact fun d hd => n10 d (by rw [← hv]; exact hd)

end Sys2Proof.Machine
end

