-- ==== Sys2Proof/Tests/Slice0.lean ====
section
/-! SUPPORT. Tests. Expected values come from the worked examples and tables of spec/, or are worked out
by hand from its rules. The witnesses show states and operands that meet the hypotheses of the
statements. -/

namespace Sys2Proof.Tests

open Sys2Proof Sys2Proof.Machine

-- One theorem at a time: each kernel evaluation in parallel would take a thread and its stack.
set_option Elab.async false

/-! ### Helpers -/

/-- A request to bank 0. -/
def req (source : Source) (body : List Byte) : Request := { bank := 0, source, tag := 7, body }

/-- The state with a request as its oldest frame. -/
def asked (kind : Nat) (r : Request) (s : State) : State :=
  { s with receive := [{ kind := BitVec.ofNat 8 kind, request := r }] }

/-- What a command leaves, read by `f`. -/
def after {α : Type} (o : Result) (f : State → α) : Option α :=
  match o with
  | .next t => some (f t)
  | .fault _ | .refused _ => none

/-- The last reply queued: its status and the bytes after it. -/
def reply (t : State) : Option (Status × List Byte) := t.transmit.getLast?.map fun r => (r.status, r.body)

/-! ### A small bank

Board 1 is ONLINE in segment 0 and stands in slot 0. Compartment 5 holds a coded delivery of courier 9,
6 and 7 are VACANT, 8 holds a return of courier 9, 10 is SUSPECT. -/

/-- The class S snapshot of case 3 of section 3.5. -/
def row : TariffRow := { freePeriod := 60, period := 50, rate := 40, cap := 1000, ceiling := 900, allowance := 4320 }

def entryAt (line : LineNo) (cls : SizeClass) : MapEntry := { board := 1, line, cls, inService := true }

def delivery : Delivery :=
  { reference := 111, courier := 9, depositTime := some 1000, snapshot := row, prepaid := 0, paid := 0,
    code := some 4100, abandonedTime := none }

def returned : Returned := { reference := 222, courier := 9, depositTime := some 900, postagePaid := 0 }

def plain (line : LineNo) (cls : SizeClass) (state : CompState) (parcel : Option Parcel) : Compartment :=
  { map := some (entryAt line cls), state, transient := none, parcel }

def courier : Courier :=
  { id := 9, credential := 43981, deposit := true, returns := true, recover := true, quota := 10, active := true }

def freeEntry : ReturnEntry :=
  { reference := 77, cls := .S, courier := 9, postage := 0, expiry := 5000, inUse := false, paidMark := none }

def dueEntry : ReturnEntry := { freeEntry with reference := 78, postage := 350 }

def bankRetained : Retained :=
  { blankRetained with
    compartments := put (put (put (put (put blankRetained.compartments
      5 (plain 5 .S .held (some (.delivery delivery))))
      6 (plain 6 .S .vacant none))
      7 (plain 7 .M .vacant none))
      8 (plain 8 .S .held (some (.returned returned))))
      10 (plain 10 .S .suspect none)
    directory := put blankRetained.directory 4 [{ tag := 16, compartment := 5, status := .live }]
    tariff := Vector.replicate 4 (some row)
    couriers := [courier]
    returns := [freeEntry, dueEntry]
    slots := put blankRetained.slots 0 (put (Vector.replicate 16 none) 0 (some { board := 1, parity := .every }))
    concourse := .opened }

def onlineBoard : Board :=
  { freshBoard false with
    link := .online
    lines := Vector.replicate 12 { freshLine with
      doorOpen := some false, occupied := some true, closeOccupied := some true } }

def bank : State :=
  resealed { State.reset with
    ret := bankRetained, clock := some 1000, boards := put State.reset.boards 1 onlineBoard }

/-- The bank with an open session of courier 9 at kiosk 0. -/
def session : Session :=
  { courier := 9, serial := 0, nextDeclaration := 0, deadline := 120, pipeline := [],
    outcomes := Vector.replicate 256 none, sweep := none }

def signedOn : State := setSession 0 (some session) bank

/-- The bank with its clock two hours and one minute on, when compartment 5 owes for two periods (R58). -/
def later : State := { bank with clock := some (1000 + 121 * 60) }

def quote : Quote := { number := 0, amount := 80, kiosk := 0, expiry := 9000, purpose := .collection }

def quoted : State := later.setQuote 5 (some quote)

/-- The bank with compartment 6 RESERVED for the drop of reference 78, its postage quoted. -/
def postage : Quote := { number := 3, amount := 350, kiosk := 0, expiry := 2000, purpose := .postage 78 }

def dropping : Transient :=
  { particulars := .drop 9 78 0, kiosk := 0, strikeIssued := false, prior := none }

def awaiting : State :=
  resealed (({ bank with ret := { bank.ret with reservations := 1 } }.setComp 6
    { bank.comp 6 with state := .reserved, transient := some dropping }).setQuote 6 (some postage))

theorem settled_of {s : State} (check : s.checkWord = Config.retentionCheck s.ret)
    (line : s.attention = s.alarms.any fun a => look s.ret.enables (alarmCode a.kind))
    (rates : ∀ g, (s.seg g).rate = if quietHolds s g then .quiet else .full) : Settled s := fun _ =>
  ⟨check, by rw [line]; simp, rates⟩

theorem settled_reset : Settled State.reset := settled_of rfl (by decide +kernel) (by decide +kernel)

theorem settled_bank : Settled bank := settled_of rfl (by decide +kernel) (by decide +kernel)

theorem settled_awaiting : Settled awaiting := settled_of rfl (by decide +kernel) (by decide +kernel)

/-! ### Well-formedness refuses each ill-formed command -/

theorem test_long_body_refused : (Instr.collect (req .backend (List.replicate 241 0))).wf = false := by decide +kernel

theorem test_longest_body_admitted : (Instr.collect (req .backend (List.replicate 240 0))).wf = true := by decide +kernel

theorem test_long_frame_refused : (Instr.frameReceive (List.replicate 250 0)).wf = false := by decide +kernel

theorem test_known_kind_refused :
    (Instr.unknownKind 1 (req .backend [])).wf = false ∧ (Instr.unknownKind 36 (req .backend [])).wf = false := by decide

theorem test_unknown_kinds_admitted :
    (Instr.unknownKind 0 (req .backend [])).wf = true ∧ (Instr.unknownKind 37 (req .backend [])).wf = true := by decide

theorem test_long_reply_refused : (Instr.pollOutcome 0 (some (List.replicate 11 0))).wf = false := by decide

/-! ### The charge (sections 3.4 and 3.5) -/

def caseOne : Delivery :=
  { delivery with
    depositTime := some 1000000
    snapshot := { freePeriod := 4320, period := 60, rate := 150, cap := 1200, ceiling := 20000, allowance := 10080 } }

theorem test_charge_case_one : netCharge caseOne 1000000 1354620 = 1650 := by decide

theorem test_charge_case_two :
    netCharge { caseOne with prepaid := 500 } 1000000 1352820 = 1150
      ∧ netCharge { caseOne with prepaid := 500, paid := 1150 } 1000000 1354620 = 0 := by decide

theorem test_charge_case_three : netCharge delivery 1000 (1000 + 180000) = 900 := by decide

theorem test_charge_case_four : netCharge caseOne 1000000 999400 = 0 := by decide

theorem test_charge_table :
    [60, 61, 110, 111, 1260, 1261, 1499, 1500, 1501].map (grossCharge row) = [0, 40, 40, 80, 960, 1000, 1000, 1000, 1040]
      ∧ [1160, 1161, 1501].map (cappedCharge row) = [880, 900, 900] := by decide

theorem test_abandonment_times :
    abandonTime caseOne.snapshot 1000000 = 1864000 ∧ abandonTime row 1000 = 1000 + 262800 := by decide

/-! ### Codes and allocation (chapters 1 and 2) -/

theorem test_code_ways :
    codeSet 48213507 = 3 ∧ codeTag 48213507 = 188334 ∧ codeSet 64000018 = 18 ∧ codeTag 64000018 = 250000 := by decide

theorem test_repeated_digits : repeatedDigits 77777777 = true ∧ repeatedDigits 11111112 = false := by decide

/-- From 1 the feedback digit is that of position 0, from 2 that of position 1 (R36). -/
theorem test_generator_steps :
    generatorStep 1 = 3 ∧ generatorStep 2 = 5 ∧ generatorStep 3 = 6 ∧ generatorStep 0x80000000 = 1 := by decide

/-- The search wraps from 767 to 0 and takes the lowest VACANT compartment of the class past the cursor. -/
theorem test_allocation : (allocate bank .S false false).map (·.2) = some 6 := by decide +kernel

/-! ### Frames and readings (section 11.8, chapter 9) -/

/-- The check value of this CRC over the digits 1 to 9 is 29B1H. -/
theorem test_crc : crc16 [0x31, 0x32, 0x33, 0x34, 0x35, 0x36, 0x37, 0x38, 0x39] = 0x29B1 := by decide +kernel

theorem test_frame : parseFrame (requestBytes 1 (req (.kiosk 2) [0, 0, 16, 4]))
    = some { kind := 1, request := req (.kiosk 2) [0, 0, 16, 4] } := by decide +kernel

theorem test_frame_with_a_wrong_bit : parseFrame ((requestBytes 1 (req (.kiosk 2) [])).set 4 3) = none := by decide +kernel

theorem test_be : be 3 0x010203 = [1, 2, 3] := by decide

/-! ### Sweeps (section 9.3)

The slot table of the example, on segment 2, with board 47 WITHDRAWN. -/

def exampleSlots : Vector (Option SlotContent) 16 :=
  #v[some { board := 32, parity := .every }, some { board := 33, parity := .even }, some { board := 34, parity := .odd },
     none, some { board := 32, parity := .every }, some { board := 40, parity := .even },
     some { board := 41, parity := .odd }, none, some { board := 44, parity := .every },
     some { board := 47, parity := .every }, none, none, none, none, none, none]

def exampleSegment (counter : Nat) : State :=
  let s : State := { State.reset with
    ret := { blankRetained with slots := put blankRetained.slots 2 exampleSlots }
    boards := put State.reset.boards 47 (freshBoard true) }
  s.setSeg 2 { s.seg 2 with sweepCounter := counter }

/-- The slots that a sweep polls, in order. -/
def polledSlots (s : State) (g : SegNo) : List Nat :=
  (List.range 16).filterMap fun i => (nextPolled s g i).bind fun x => if x.1.val = i then some i else none

theorem test_even_sweep : polledSlots (exampleSegment 0) 2 = [0, 1, 4, 5, 8] := by decide +kernel

theorem test_odd_sweep : polledSlots (exampleSegment 65535) 2 = [0, 2, 4, 6, 8] := by decide +kernel

/-! ### The concourse state and the clock (sections 10.2 and 10.3) -/

def heardBroadcast (s : State) (code time : Nat) : State :=
  (after (exec (.broadcast (req .station (be 1 code ++ be 4 time))) (asked 22 (req .station (be 1 code ++ be 4 time)) s))
    fun t => { t with transmit := [] }).getD s

def restricting : State := { bank with history := [1, 1, 1, 1, 1] }

theorem test_broadcasts_change_state :
    ([3, 3, 9, 3].foldl (heardBroadcast · · 1000) restricting).ret.concourse = .opened
      ∧ ([3, 3, 9, 3, 3].foldl (heardBroadcast · · 1000) restricting).ret.concourse = .restricted
      ∧ ([3, 3, 9, 3, 3, 4, 3, 3].foldl (heardBroadcast · · 1000) restricting).ret.concourse = .restricted := by
  decide +kernel

theorem test_clock_steps :
    (heardBroadcast { bank with clock := some 7196 } 1 7198).clock = some 7196
      ∧ (heardBroadcast { bank with clock := some 7335 } 1 7280).clock = some 7280 := by decide +kernel

theorem test_clock_counts : after (exec .clockTick { State.reset with clock := some 7199 }) (fun t => (t.clock, t.boundariesDue))
    = some (some 7200, 1) := by decide +kernel

theorem test_clock_holds_its_largest_value :
    after (exec .clockTick { State.reset with clock := some 4294967295 }) (·.clock) = some (some 4294967295) := by
  decide +kernel

/-! ### Alarms (section 10.4) -/

def ringing : State :=
  { bank with
    ret := { bank.ret with enables := put bank.ret.enables (alarmCode .lockout) false }
    alarms := [{ kind := .boardLost, object := 17, posted := some 1 }, { kind := .forced, object := 207, posted := some 2 },
      { kind := .mismatch, object := 213, posted := some 3 }, { kind := .ajar, object := 212, posted := some 4 },
      { kind := .lockout, object := 1, posted := some 5 }] }

def fetched (s : State) : State :=
  (after (exec (.fetchAlarm (req .backend [])) (asked 21 (req .backend []) { s with transmit := [] })) id).getD s

theorem test_fetch_round :
    reply (fetched ringing) = some (.accepted, [0, 0, 207, 1, 0, 0, 0, 2, 0, 3])
      ∧ (reply (fetched (fetched ringing))).map (fun x => x.2.take 3) = some [2, 0, 17]
      ∧ (fetched (fetched (fetched ringing))).attention = true
      ∧ (fetched (fetched (fetched (fetched ringing)))).attention = false
      ∧ reply (fetched (fetched (fetched (fetched (fetched ringing))))) = some (.empty, []) := by decide +kernel

/-! ### The service key checker (section 11.6) -/

def keyWords : Vector (BitVec 32) 4 := #v[17, 18, 19, 20]

def locked (skc : SkcState) (deadline : Option Nat) : State :=
  resealed { bank with ret := { bank.ret with keys := some keyWords }, skc, unlockDeadline := deadline }

def presented (index word : Nat) (s : State) : State :=
  let r := req .service (be 1 index ++ be 4 word)
  (after (exec (.unlockKey r) (asked 23 r { s with transmit := [] })) id).getD s

theorem test_unlock_example :
    reply (presented 0 17 { locked .idle none with elapsed := 5 }) = some (.accepted, [1])
      ∧ (presented 1 18 (presented 0 17 { locked .idle none with elapsed := 5 })).skc = .collected2
      ∧ (presented 2 19 { locked .idle none with elapsed := 72 }).skc = .barred
      ∧ reply (presented 0 17 { locked .barred none with elapsed := 90 }) = some (.maintenanceLocked, []) := by
  decide +kernel

/-! ### One request each -/

/-- The reply to a request and what is read of the state after it. -/
def answer {α : Type} (c : Request → Instr) (kind : Nat) (r : Request) (s : State) (f : State → α) :
    Option (Option (Status × List Byte) × α) := after (exec (c r) (asked kind r s)) fun t => (reply t, f t)

/-- The hold time is clamped to 600, 0258H. -/
theorem test_set_hold : answer .setHold 29 (req .service (be 2 601)) bank (·.ret.hold)
    = some (some (.accepted, [2, 88]), 600) := by decide +kernel

theorem test_collect_in_free_period :
    answer .collect 1 (req (.kiosk 0) (be 4 4096)) bank (·.ret.reservations) = some (some (.noSuchCode, []), 0)
      ∧ answer .collect 1 (req (.kiosk 0) (be 4 4100)) bank (fun t => ((t.comp 5).state, (t.seg 0).active.length))
        = some (some (.accepted, [0, 5, 0, 0, 0, 0, 0, 0, 0, 0, 0, 0, 0]), (.releasing, 1)) := by decide +kernel

/-- 121 minutes: 61 over the free period, two periods of 50, 80. Quote 0 expires at 8260 + 180. -/
theorem test_collect_quotes : answer .collect 1 (req (.kiosk 0) (be 4 4100)) later (fun t => (t.quoteOf 5).map (·.amount))
    = some (some (.quote, [0, 5, 0, 0, 0, 0, 80, 0, 0, 32, 248]), some 80) := by decide +kernel

theorem test_pay : answer .pay 2 (req (.kiosk 0) (be 2 5 ++ be 2 0 ++ be 3 80 ++ be 4 9)) quoted
      (fun t => ((t.comp 5).state, (look t.ret.takings 0).collectionSum))
    = some (some (.accepted, [0, 0, 5, 0, 0, 0, 0, 80, 0, 0, 0, 9, 0, 0, 80]), (.releasing, 80)) := by decide +kernel

/-- A repeat of the last accepted payment, its first byte the repeat indication. -/
theorem test_pay_repeat : answer .pay 2 (req (.kiosk 0) (be 2 5 ++ be 2 0 ++ be 3 80 ++ be 4 9))
      (bank.setKiosk 0 { bank.kiosk 0 with
        lastPayment := some { compartment := 5, number := 0, amount := 80, reference := 9, paid := some 80 } })
      (fun t => ((t.comp 5).state, (look t.ret.takings 0).collectionSum))
    = some (some (.accepted, [1, 0, 5, 0, 0, 0, 0, 80, 0, 0, 0, 9, 0, 0, 80]), (.held, 0)) := by decide +kernel

theorem test_return_drop : answer .returnDrop 3 (req (.kiosk 1) (be 5 77)) bank (fun t => (t.comp 6).state)
    = some (some (.accepted, [0, 6, 0]), .reserved) := by decide +kernel

theorem test_sign_on_mismatch : answer .signOn 5 (req (.kiosk 1) (be 2 9 ++ be 4 1)) bank (fun t => (t.kiosk 1).failures)
    = some (some (.notPermitted, []), 1) := by decide +kernel

theorem test_declare : answer .declare 7 (req (.kiosk 0) (be 1 0 ++ be 1 0 ++ be 5 12 ++ be 3 0)) signedOn
      (fun t => ((t.comp 6).state, (t.seg 0).active.map (·.line)))
    = some (some (.accepted, [0, 6, 0, 0]), (.reserved, [6])) := by decide +kernel

theorem test_load_map : answer .loadMap 25 (req .service (be 2 6 ++ be 1 0)) bank (fun t => ((t.comp 6).state, (t.comp 6).map))
    = some (some (.accepted, []), (.unserved, none)) := by decide +kernel

theorem test_load_map_duplicate :
    answer .loadMap 25 (req .service (be 2 30 ++ be 1 1 ++ be 1 1 ++ be 1 5 ++ be 1 2 ++ be 1 1)) bank (fun t => (t.comp 30).state)
      = some (some (.duplicate, []), .unserved) := by decide +kernel

theorem test_load_tariff_clamps :
    answer .loadTariff 26 (req .service (be 1 3 ++ be 2 20160 ++ be 2 1 ++ be 2 65535 ++ be 3 0 ++ be 3 1000000 ++ be 2 43201)) bank
      (fun t => look t.ret.tariff 3)
    = some (some (.accepted, be 2 20160 ++ be 2 1 ++ be 2 65535 ++ be 3 1 ++ be 3 999999 ++ be 2 43200),
        some { freePeriod := 20160, period := 1, rate := 65535, cap := 1, ceiling := 999999, allowance := 43200 }) := by
  decide +kernel

theorem test_bare_body_is_checked : answer .restart 35 (req .service [0]) bank (·.run)
    = some (some (.outOfRange, []), .running) := by decide +kernel

/-- The poll of board 1 with strike line 6: address 1, flags 86H with the expected bit clear. -/
theorem test_poll_bytes : (pollBytes 1 (some 6) false).take 2 = [1, 0x86] := by decide +kernel

/-! ### Witnesses: the step, frames and authority -/

theorem exists_first {α β : Type} {o : Option (α × β)} {b : β} (h : o.map (·.2) = some b) : ∃ a, o = some (a, b) := by
  cases o with
  | none => cases h
  | some p => cases h; exact ⟨p.1, rfl⟩

theorem exists_second {α β : Type} {p : α × Option β} (h : p.2.isSome = true) : ∃ a b, p = (a, some b) := by
  obtain ⟨a, _ | b⟩ := p
  · cases h
  · exact ⟨a, b, rfl⟩

def unpowered : State := { State.reset with run := .unpowered }

theorem witness_IdleStepChangesNothing : State.reset.pending = [] := rfl

theorem witness_NothingTakenUnlessDue :
    kindOf (.collect (req (.kiosk 0) [])) = some (1, req (.kiosk 0) []) ∧ ¬ Ready 1 (req (.kiosk 0) []) State.reset
      ∧ unpowered.run = .unpowered ∧ ∀ straps, Instr.clockTick ≠ .reset .powerOn straps := by decide +kernel

theorem witness_RequestFrameIsReadBack :
    (req .backend []).wf = true ∧ (req .backend (List.replicate 240 7)).wf = true := by decide +kernel

def oneReply : Reply := { bank := 0, source := .backend, kind := 11, tag := 7, status := .empty, body := [0] }

theorem witness_TrunkQueuesMove :
    (Settled bank ∧ Settled { bank with transmit := [oneReply] })
      ∧ bank.run ≠ .unpowered
      ∧ parseFrame (requestBytes 6 (req (.kiosk 2) [])) = some { kind := 6, request := req (.kiosk 2) [] }
      ∧ parseFrame [90] = none ∧ bank.transmit = [] := ⟨⟨settled_bank, settled_bank⟩, by decide +kernel⟩

theorem witness_UnpermittedSourceRefused :
    Settled (asked 1 (req .backend []) bank)
      ∧ kindOf (.collect (req .backend [])) = some (1, req .backend [])
      ∧ Ready 1 (req .backend []) (asked 1 (req .backend []) bank) ∧ permitted 1 (req .backend []).source = false :=
  ⟨settled_bank, by decide +kernel⟩

theorem witness_UnknownKindRefused :
    Settled (asked 37 (req .service []) bank) ∧ Settled (asked 0 (req .service []) bank)
      ∧ unknownKindCode 37 = true ∧ unknownKindCode 0 = true
      ∧ Ready (37 : Byte).toNat (req .service []) (asked 37 (req .service []) bank)
      ∧ Ready (0 : Byte).toNat (req .service []) (asked 0 (req .service []) bank) :=
  ⟨settled_bank, settled_bank, by decide +kernel⟩

/-! ### Witnesses: customers -/

def collecting : Request := req (.kiosk 0) (be 4 4100)

def liveEntry : DirEntry := { tag := 16, compartment := 5, status := .live }

theorem witness_CollectGrantsFreeCollection :
    let s := asked 1 collecting bank
    Ready 1 collecting s ∧ collecting.source = .kiosk 0 ∧ bodyNat 4 collecting.body = some 4100 ∧ ConcourseServes s
      ∧ (s.kiosk 0).lockout = none ∧ s.clock = some 1000 ∧ lookupCode s 4100 = some liveEntry ∧ liveEntry.status = .live
      ∧ (s.comp 5).state = .held ∧ (s.comp 5).parcel = some (.delivery delivery) ∧ delivery.depositTime = some 1000
      ∧ (s.comp 5).transient = none ∧ s.quoteOf 5 = none ∧ netCharge delivery 1000 1000 = 0 ∧ compHasRoom s 5 = true
      ∧ outboxHasRoom s = true := by
  decide +kernel

theorem witness_CollectQuotesCharge :
    let s := asked 1 collecting later
    Settled s
      ∧ Ready 1 collecting s ∧ collecting.source = .kiosk 0 ∧ bodyNat 4 collecting.body = some 4100 ∧ ConcourseServes s
      ∧ (s.kiosk 0).lockout = none ∧ s.clock = some 8260 ∧ lookupCode s 4100 = some liveEntry ∧ liveEntry.status = .live
      ∧ (s.comp 5).state = .held ∧ (s.comp 5).parcel = some (.delivery delivery) ∧ delivery.depositTime = some 1000
      ∧ (s.comp 5).transient = none ∧ s.quoteOf 5 = none ∧ 0 < netCharge delivery 1000 8260 := ⟨settled_bank, by decide +kernel⟩

/-- Standing quotes of compartment 5: kiosk 0's own, before and after its expiry time, and kiosk 1's. -/
def standing (kiosk : KioskNo) (expiry : Nat) (s : State) : State := s.setQuote 5 (some { quote with kiosk, expiry })

def noRoom (s : State) : State :=
  s.setSeg 0 { s.seg 0 with
    queue := List.replicate 16 { compartment := 6, purpose := .deposit, attempt := .first, enqueued := 0 } }

def noSlot (s : State) : State := resealed { s with ret := { s.ret with reservations := 32 } }

/-- A Collect from kiosk 0 finds a quote of its own, an expired one of any kiosk, and a standing one of kiosk 1,
at a time when nothing is owed and at one when 80 is. -/
theorem witness_Collect_standing :
    (∀ kiosk expiry, Settled (asked 1 collecting (standing kiosk expiry bank))
        ∧ Settled (asked 1 collecting (standing kiosk expiry later)))
      ∧ (∀ p ∈ [((0 : KioskNo), 1000), (0, 999), (1, 999)], let s := asked 1 collecting (standing p.1 p.2 bank)
        Ready 1 collecting s ∧ s.quoteOf 5 = some { quote with kiosk := p.1, expiry := p.2 } ∧ (s.comp 5).transient = none
          ∧ (p.1 = 0 ∨ quotePassed s { quote with kiosk := p.1, expiry := p.2 } = true)
          ∧ compHasRoom s 5 = true ∧ outboxHasRoom s = true)
      ∧ (∀ p ∈ [((0 : KioskNo), 8260), (0, 8259), (1, 8259)], let s := asked 1 collecting (standing p.1 p.2 later)
        Ready 1 collecting s ∧ s.quoteOf 5 = some { quote with kiosk := p.1, expiry := p.2 } ∧ (s.comp 5).transient = none
          ∧ (p.1 = 0 ∨ quotePassed s { quote with kiosk := p.1, expiry := p.2 } = true))
      ∧ (let s := asked 1 collecting (standing 1 1000 bank)
        Ready 1 collecting s ∧ s.quoteOf 5 = some { quote with kiosk := 1, expiry := 1000 } ∧ (1 : KioskNo) ≠ 0
          ∧ quotePassed s { quote with kiosk := 1, expiry := 1000 } = false) :=
  ⟨fun _ _ => ⟨settled_bank, settled_bank⟩, by decide +kernel⟩

theorem settled_noRoom : Settled (noRoom bank) := settled_of rfl (by decide +kernel) (by decide +kernel)

theorem settled_noSlot : Settled (noSlot bank) := fun h => ⟨rfl, (settled_bank h).2⟩

/-- A full strike queue and a full outbox turn a Collect with nothing to pay away. -/
theorem witness_Collect_turned_away :
    (∀ kiosk expiry, Settled (asked 1 collecting (standing kiosk expiry (noRoom bank)))
        ∧ Settled (asked 1 collecting (standing kiosk expiry (noSlot bank))))
      ∧ (∀ p ∈ [((0 : KioskNo), 1000), (1, 999)],
        compHasRoom (asked 1 collecting (standing p.1 p.2 (noRoom bank))) 5 = false
          ∧ compHasRoom (asked 1 collecting (standing p.1 p.2 (noSlot bank))) 5 = true
          ∧ outboxHasRoom (asked 1 collecting (standing p.1 p.2 (noSlot bank))) = false) :=
  ⟨fun _ _ => ⟨settled_noRoom, settled_noSlot⟩, by decide +kernel⟩

def namedAs (status : CodeStatus) : State :=
  resealed { bank with ret := { bank.ret with directory := put blankRetained.directory 4 [{ liveEntry with status }] } }

theorem settled_namedAs (status : CodeStatus) : Settled (namedAs status) := fun h => ⟨rfl, (settled_bank h).2⟩

theorem witness_Collect_of_an_entry_not_live :
    (∀ status, Settled (asked 1 collecting (namedAs status)))
      ∧ ∀ status ∈ [CodeStatus.pending, .suspended], let s := asked 1 collecting (namedAs status)
        Ready 1 collecting s ∧ ConcourseServes s ∧ (s.kiosk 0).lockout = none ∧ s.clock = some 1000
          ∧ lookupCode s 4100 = some { liveEntry with status } ∧ status ≠ .live :=
  ⟨settled_namedAs, by decide +kernel⟩

def failing (n : Nat) : State := bank.setKiosk 0 { bank.kiosk 0 with failures := n }

def unknownCode : Request := req (.kiosk 0) (be 4 100000000)

theorem witness_CollectOfUnknownCodeIsFailure :
    (∀ n : Fin 5, let s := asked 1 unknownCode (failing n)
      Ready 1 unknownCode s ∧ ConcourseServes s ∧ (s.kiosk 0).lockout = none ∧ s.clock = some 1000
        ∧ lookupCode s 100000000 = none ∧ (s.kiosk 0).failures = n)
      ∧ unknownCode.source = .kiosk 0 ∧ bodyNat 4 unknownCode.body = some 100000000 := by decide +kernel

def paying : Request := req (.kiosk 0) (be 2 5 ++ be 2 0 ++ be 3 80 ++ be 4 9)

theorem witness_PayAcceptsCollection :
    let s := asked 2 paying quoted
    Ready 2 paying s ∧ paying.source = .kiosk 0
      ∧ bodyPay paying.body = some { compartment := 5, number := 0, amount := 80, reference := 9 } ∧ ConcourseServes s
      ∧ (s.kiosk 0).lockout = none ∧ s.quoteOf 5 = some quote ∧ quote.purpose = .collection ∧ quote.number = 0
      ∧ quote.kiosk = 0 ∧ quotePassed s quote = false ∧ quote.amount = 80 ∧ (s.comp 5).state = .held
      ∧ (s.comp 5).parcel = some (.delivery delivery) ∧ compHasRoom s 5 = true ∧ outboxHasRoom s = true := by
  decide +kernel

/-- A Pay of the given amount for the quote with the given number on a compartment. -/
def pays (compartment number amount : Nat) : PayFields := { compartment, number, amount, reference := 9 }

def payRequest (p : PayFields) : Request :=
  req (.kiosk 0) (be 2 p.compartment ++ be 2 p.number ++ be 3 p.amount ++ be 4 p.reference)

def lastPaid : LastPayment := { compartment := 5, number := 0, amount := 80, reference := 9, paid := some 80 }

def paidOnce : State := bank.setKiosk 0 { bank.kiosk 0 with lastPayment := some lastPaid }

/-- Without a quote, a repeat and Pays that differ from the last accepted one, the last of them for a compartment
that is none. -/
theorem witness_PayAcceptsCollection_without_quote :
    (Settled (asked 2 (payRequest (pays 5 0 80)) paidOnce) ∧ Settled (asked 2 (payRequest (pays 5 0 80)) bank))
      ∧ (∀ p ∈ [pays 5 0 80, pays 5 1 80, pays 5 0 81, pays 768 0 80], let s := asked 2 (payRequest p) paidOnce
        Ready 2 (payRequest p) s ∧ bodyPay (payRequest p).body = some p ∧ ConcourseServes s ∧ (s.kiosk 0).lockout = none
          ∧ s.quoteOf 5 = none ∧ (s.kiosk 0).lastPayment = some lastPaid)
      ∧ ((5 : CompNo).val = 5 ∧ lastPaid.repeats (pays 5 0 80) = true
        ∧ ∀ p ∈ [pays 5 1 80, pays 5 0 81, pays 768 0 80], lastPaid.repeats p = false)
      ∧ (bank.kiosk 0).lastPayment = none := ⟨⟨settled_bank, settled_bank⟩, by decide +kernel⟩

/-- Another kiosk's quote, before and after its time; the kiosk's own, passed; another amount; a full queue and a
full outbox. -/
theorem witness_PayAcceptsCollection_refused :
    (∀ kiosk expiry r, Settled (asked 2 r (standing kiosk expiry bank)) ∧ Settled (asked 2 r (standing kiosk expiry (noRoom bank)))
        ∧ Settled (asked 2 r (standing kiosk expiry (noSlot bank))))
      ∧ (∀ q ∈ [((1 : KioskNo), 1000), (1, 999), (0, 1000), (0, 999)], let s := asked 2 paying (standing q.1 q.2 bank)
        s.quoteOf 5 = some { quote with kiosk := q.1, expiry := q.2 }
          ∧ quotePassed s { quote with kiosk := q.1, expiry := q.2 } = decide (q.2 = 999))
      ∧ (bodyPay (payRequest (pays 5 0 81)).body = some (pays 5 0 81) ∧ (81 : Nat) ≠ quote.amount)
      ∧ compHasRoom (standing 0 1000 bank) 5 = true ∧ compHasRoom (standing 0 1000 (noRoom bank)) 5 = false
      ∧ outboxHasRoom (standing 0 1000 (noSlot bank)) = false ∧ compHasRoom (standing 0 1000 (noSlot bank)) 5 = true
      ∧ (bank.comp 5).state = .held :=
  ⟨fun _ _ _ => ⟨settled_bank, settled_noRoom, settled_noSlot⟩, by decide +kernel⟩

def payingPostage : Request := req (.kiosk 0) (be 2 6 ++ be 2 3 ++ be 3 350 ++ be 4 9)

theorem witness_PayAcceptsPostage :
    let s := asked 2 payingPostage awaiting
    Ready 2 payingPostage s ∧ payingPostage.source = .kiosk 0
      ∧ bodyPay payingPostage.body = some { compartment := 6, number := 3, amount := 350, reference := 9 }
      ∧ ConcourseServes s ∧ (s.kiosk 0).lockout = none ∧ s.quoteOf 6 = some postage ∧ postage.purpose = .postage 78
      ∧ postage.number = 3 ∧ postage.kiosk = 0 ∧ quotePassed s postage = false ∧ postage.amount = 350
      ∧ compHasRoom s 6 = true ∧ (s.comp 6).state = .reserved ∧ (s.comp 6).transient = some dropping := by decide +kernel

/-- The postage of compartment 6 is offered a second after its quote's time. -/
theorem witness_PayAcceptsCollection_stale_postage :
    let s := asked 2 payingPostage { awaiting with clock := some 2001 }
    Settled s ∧ Ready 2 payingPostage s ∧ s.quoteOf 6 = some postage ∧ postage.kiosk = 0 ∧ quotePassed s postage = true
      ∧ postage.purpose = .postage 78 ∧ (s.comp 6).state = .reserved ∧ (s.comp 6).transient = some dropping
      ∧ dropping = { particulars := .drop 9 78 0, kiosk := 0, strikeIssued := false, prior := none } :=
  ⟨settled_awaiting, by decide +kernel⟩

def dropRequest (reference : Nat) : Request := req (.kiosk 0) (be 5 reference)

theorem witness_ReturnDropAdmitted :
    let r := dropRequest 77
    let s := asked 3 r bank
    (Ready 3 r s ∧ r.source = .kiosk 0 ∧ bodyNat 5 r.body = some 77 ∧ ConcourseServes s ∧ (s.kiosk 0).lockout = none
      ∧ s.clock = some 1000 ∧ returnOf s 77 = some freeEntry ∧ freeEntry.inUse = false ∧ 1000 ≤ freeEntry.expiry
      ∧ freeEntry.postage = 0 ∧ outboxHasRoom s = true ∧ compHasRoom s 6 = true)
      ∧ ∃ u, allocate s freeEntry.cls true false = some (u, 6) := ⟨by decide +kernel, exists_first (by decide +kernel)⟩

/-- The bank with a full strike queue that names no compartment of it. -/
def crowded (s : State) : State :=
  s.setSeg 0 { s.seg 0 with
    queue := List.replicate 16 { compartment := 767, purpose := .deposit, attempt := .first, enqueued := 0 } }

theorem settled_crowded : Settled (crowded bank) := settled_of rfl (by decide +kernel) (by decide +kernel)

/-- A bank with no map entry, so that nothing can be allocated. -/
def unmapped : State :=
  resealed { State.reset with
    ret := { blankRetained with
      concourse := .opened, returns := [freeEntry], couriers := [courier], tariff := Vector.replicate 4 (some row) }
    clock := some 1000 }

theorem settled_unmapped : Settled unmapped := settled_of rfl (by decide +kernel) (by decide +kernel)

theorem allocate_unmapped {s : State} (h : s.ret.compartments = blankRetained.compartments) (cls : SizeClass)
    (upsize deposit : Bool) : allocate s cls upsize deposit = none := by
  refine List.findSome?_eq_none_iff.2 fun k _ => ?_
  cases found : searchClass s k with
  | none => rfl
  | some c =>
    have offers := ((searchClass_spec s k).1 c found).1.2
    have none : (s.comp c).map = none := by rw [State.comp, h]; simp [look, blankRetained]; rfl
    rw [none] at offers
    cases offers

def returnsBusy : State := resealed { bank with ret := { bank.ret with returns := [{ freeEntry with inUse := true }] } }

theorem settled_returnsBusy : Settled returnsBusy := settled_of rfl (by decide +kernel) (by decide +kernel)

/-- The refusals of a Return Drop: an unknown reference, an entry in use, a lapsed one, a full outbox at the last
second of the entry, nothing to allocate, and a full strike queue. -/
theorem witness_ReturnDropAdmitted_refused :
    let r := dropRequest 77
    (Settled (failing 0) ∧ Settled returnsBusy ∧ Settled { bank with clock := some 5001 }
      ∧ Settled { noSlot bank with clock := some 5000 } ∧ Settled unmapped ∧ Settled (crowded bank))
      ∧ (∀ n : Fin 5, let s := asked 3 (dropRequest 79) (failing n)
        Ready 3 (dropRequest 79) s ∧ returnOf s 79 = none ∧ (s.kiosk 0).failures = n ∧ (s.kiosk 0).lockout = none)
      ∧ returnOf returnsBusy 77 = some { freeEntry with inUse := true }
      ∧ (returnOf bank 77 = some freeEntry ∧ freeEntry.expiry < 5001 ∧ (5000 : Nat) ≤ freeEntry.expiry)
      ∧ outboxHasRoom (noSlot bank) = false ∧ (returnOf unmapped 77 = some freeEntry ∧ outboxHasRoom unmapped = true)
      ∧ allocate (asked 3 r unmapped) .S true false = none
      ∧ (∃ u, allocate (crowded bank) .S true false = some (u, 6)) ∧ compHasRoom (crowded bank) 6 = false :=
  ⟨⟨settled_bank, settled_returnsBusy, settled_bank, settled_noSlot, settled_unmapped, settled_crowded⟩,
    by decide +kernel, by decide +kernel, by decide +kernel, by decide +kernel, by decide +kernel,
    allocate_unmapped rfl .S true false, exists_first (by decide +kernel), by decide +kernel⟩

theorem witness_ReturnDropQuoted :
    let r := dropRequest 78
    let s := asked 3 r bank
    (Ready 3 r s ∧ r.source = .kiosk 0 ∧ bodyNat 5 r.body = some 78 ∧ ConcourseServes s ∧ (s.kiosk 0).lockout = none
      ∧ s.clock = some 1000 ∧ returnOf s 78 = some dueEntry ∧ dueEntry.inUse = false ∧ 1000 ≤ dueEntry.expiry
      ∧ 0 < dueEntry.postage ∧ dueEntry.paidMark = none ∧ outboxHasRoom s = true ∧ compHasRoom s 6 = true)
      ∧ ∃ u, allocate s dueEntry.cls true false = some (u, 6) := ⟨by decide +kernel, exists_first (by decide +kernel)⟩

theorem witness_DoorStatusReports :
    let r := req (.kiosk 0) (be 2 767)
    let s := asked 4 r bank
    Settled s ∧ Ready 4 r s ∧ r.source = .kiosk 0 ∧ bodyNat 2 r.body = some (767 : CompNo).val ∧ ConcourseServes s
      ∧ (s.kiosk 0).lockout = none := ⟨settled_bank, by decide +kernel⟩

/-! ### Witnesses: couriers -/

theorem witness_SignOnOpensSession :
    let r := req (.kiosk 1) (be 2 9 ++ be 4 43981)
    let s := asked 5 r bank
    Settled s ∧ Ready 5 r s ∧ r.source = .kiosk 1 ∧ bodySignOn r.body = some (9, 43981) ∧ ConcourseServesCouriers s
      ∧ (s.kiosk 1).lockout = none ∧ (s.kiosk 1).session = none ∧ courierOf s 9 = some courier
      ∧ courier.credential = 43981 ∧ courier.active = true ∧ hasSession s 9 = false := ⟨settled_bank, by decide +kernel⟩

def inConcourse (concourse : Concourse) (s : State) : State := resealed { s with ret := { s.ret with concourse } }

theorem settled_inConcourse {concourse : Concourse} (h : concourse ≠ .closed) : Settled (inConcourse concourse bank) := by
  cases concourse with
  | closed => exact absurd rfl h
  | opened | restricted | evacuate | lockdown => exact settled_of rfl (by decide +kernel) (by decide +kernel)

def withCourier (e : Courier) (s : State) : State := resealed { s with ret := { s.ret with couriers := [e] } }

theorem settled_withCourier (e : Courier) : Settled (withCourier e bank) := fun h => ⟨rfl, (settled_bank h).2⟩

/-- The refusals of a Sign On, from kiosk 0 and kiosk 1. -/
theorem witness_SignOnOpensSession_refused :
    let r := fun k word => req (.kiosk k) (be 2 9 ++ be 4 word)
    (Settled (inConcourse .evacuate bank) ∧ Settled (inConcourse .lockdown bank) ∧ Settled signedOn
      ∧ (∀ n, Settled (failing n)) ∧ Settled (withCourier { courier with active := false } bank)
      ∧ Settled (bank.setKiosk 0 { bank.kiosk 0 with failures := 5, lockout := some 60 }))
      ∧ (∀ s ∈ [inConcourse .evacuate bank, inConcourse .lockdown bank, signedOn, failing 4], ∀ k ∈ [(0 : KioskNo), 1],
        Ready 5 (r k 43981) (asked 5 (r k 43981) s) ∧ Ready 5 (r k 1) (asked 5 (r k 1) s))
      ∧ (bodySignOn (r 0 43981).body = some (9, 43981) ∧ bodySignOn (r 0 1).body = some (9, 1))
      ∧ ((inConcourse .evacuate bank).ret.concourse = .evacuate ∧ (inConcourse .lockdown bank).ret.concourse = .lockdown)
      ∧ ((signedOn.kiosk 0).session ≠ none ∧ (signedOn.kiosk 1).session = none ∧ hasSession signedOn 9 = true)
      ∧ (∀ n : Fin 5, ((failing n).kiosk 0).failures = n ∧ ((failing n).kiosk 0).session = none)
      ∧ courierOf bank 9 = some courier ∧ courier.credential ≠ 1 ∧ courierOf bank 8 = none
      ∧ courierOf (withCourier { courier with active := false } bank) 9 = some { courier with active := false } :=
  ⟨⟨settled_inConcourse (by decide), settled_inConcourse (by decide), settled_bank, fun _ => settled_bank,
    settled_withCourier _, settled_bank⟩, by decide +kernel⟩

theorem witness_SignOffEndsSession :
    (Settled (asked 6 (req .backend []) bank) ∧ Settled (asked 6 (req (.kiosk 0) []) signedOn)
      ∧ Settled (asked 6 (req (.kiosk 0) []) bank))
      ∧ Ready 6 (req .backend []) (asked 6 (req .backend []) bank) ∧ (∀ k, (req .backend []).source ≠ .kiosk k)
      ∧ Ready 6 (req (.kiosk 0) []) (asked 6 (req (.kiosk 0) []) signedOn) ∧ (bank.kiosk 0).session = none
      ∧ (signedOn.kiosk 0).session = some session :=
  ⟨⟨settled_bank, settled_bank, settled_bank⟩, by decide +kernel, by decide, by decide +kernel, by decide +kernel, rfl⟩

def declaring : Request := req (.kiosk 0) (be 1 0 ++ be 1 0 ++ be 5 999999999999 ++ be 3 999999)

theorem witness_DeclareReservesCompartment :
    let s := asked 7 declaring signedOn
    ((s.kiosk 0).session = some session ∧ Ready 7 declaring s ∧ declaring.source = .kiosk 0
      ∧ bodyDeclare declaring.body = some { cls := 0, upsize := false, reference := 999999999999, prepaid := 999999 }
      ∧ courierOf s 9 = some courier ∧ courier.deposit = true
      ∧ ConcourseServesCouriers s ∧ s.clock = some 1000 ∧ classOf? 0 = some .S ∧ look s.ret.tariff 0 = some row
      ∧ session.pipeline.length < 2 ∧ session.sweep = none ∧ heldCount s 9 < courier.quota ∧ outboxHasRoom s = true
      ∧ compHasRoom s 6 = true)
      ∧ (∃ u, allocate s .S false true = some (u, 6))
      ∧ ∃ g code, generateCode s.ret.directory 8 s.ret.generator = (g, some code) :=
  ⟨⟨rfl, by decide +kernel⟩, exists_first (by decide +kernel), exists_second (by decide +kernel)⟩

def fullDirectory : State :=
  resealed { bank with ret := { bank.ret with
    directory := Vector.replicate 256 (List.replicate 4 { tag := 390624, compartment := 0, status := .pending }) } }

theorem settled_fullDirectory : Settled fullDirectory := settled_of rfl (by decide +kernel) (by decide +kernel)

def declares (cls reference prepaid : Nat) : DeclareFields := { cls, upsize := false, reference, prepaid }

def declareRequest (f : DeclareFields) : Request :=
  req (.kiosk 0) (be 1 f.cls ++ flag f.upsize ++ be 5 f.reference ++ be 3 f.prepaid)

/-- The session of `signedOn` at kiosk 0 of another state. -/
def joined (s : State) : State := setSession 0 (some session) s

def untariffed : State := resealed { bank with ret := { bank.ret with tariff := Vector.replicate 4 none } }

theorem held_bank : heldCount bank 9 < courier.quota := by decide +kernel

/-- The refusals of a Declare up to its ranges. -/
theorem witness_DeclareReservesCompartment_refused :
    let r := declareRequest (declares 0 12 0)
    (∀ f ∈ [declares 0 12 0, declares 4 12 0, declares 0 1000000000000 0, declares 0 12 1000000],
        bodyDeclare (declareRequest f).body = some f
          ∧ ∀ s ∈ [bank, joined bank, joined unmapped], Ready 7 (declareRequest f) (asked 7 (declareRequest f) s))
      ∧ (bank.kiosk 0).session = none
      ∧ (Settled (joined (withCourier { courier with deposit := false } bank))
        ∧ courierOf (joined (withCourier { courier with deposit := false } bank)) 9 = some { courier with deposit := false })
      ∧ (Settled (joined (inConcourse .evacuate bank)) ∧ (joined (inConcourse .evacuate bank)).ret.concourse = .evacuate
        ∧ Settled (joined (inConcourse .lockdown bank)) ∧ (joined (inConcourse .lockdown bank)).ret.concourse = .lockdown)
      ∧ (Settled { joined bank with clock := none } ∧ (joined bank).clock = some 1000)
      ∧ (Settled (joined untariffed) ∧ look untariffed.ret.tariff 0 = none)
      ∧ classOf? 4 = none ∧ classOf? 0 = some .S ∧ r.source = .kiosk 0 :=
  ⟨by decide +kernel, rfl, ⟨settled_withCourier _, rfl⟩,
    ⟨settled_inConcourse (by decide), rfl, settled_inConcourse (by decide), rfl⟩, ⟨settled_bank, rfl⟩,
    ⟨fun h => ⟨rfl, (settled_bank h).2⟩, rfl⟩, by decide, by decide, rfl⟩

/-- The refusals of a Declare after its ranges: a sweep under way, a full pipeline, no quota, a full outbox, nothing
to allocate, a full strike queue, and a directory that takes no code. -/
theorem witness_DeclareReservesCompartment_turned_away :
    (session.sweep = none ∧ session.pipeline.length < 2
      ∧ (2 : Nat) ≤ (List.replicate 2 ({ number := 0, compartment := 6, cls := .S, reference := 1, state := .loading } : Declaration)).length)
      ∧ (Settled (joined (withCourier { courier with quota := 0 } bank))
        ∧ ∀ s, { courier with quota := 0 }.quota ≤ heldCount s 9)
      ∧ (Settled (joined (noSlot bank)) ∧ heldCount (joined (noSlot bank)) 9 < courier.quota
        ∧ outboxHasRoom (joined (noSlot bank)) = false)
      ∧ (Settled (joined unmapped) ∧ outboxHasRoom (joined unmapped) = true ∧ allocate (joined unmapped) .S false true = none)
      ∧ (Settled (joined (crowded bank)) ∧ heldCount (joined (crowded bank)) 9 < courier.quota
        ∧ (∃ u, allocate (joined (crowded bank)) .S false true = some (u, 6)) ∧ compHasRoom (joined (crowded bank)) 6 = false)
      ∧ (Settled (joined fullDirectory) ∧ heldCount (joined fullDirectory) 9 < courier.quota
        ∧ (∃ u, allocate (joined fullDirectory) .S false true = some (u, 6)) ∧ compHasRoom (joined fullDirectory) 6 = true
        ∧ (generateCode fullDirectory.ret.directory 8 fullDirectory.ret.generator).2 = none) :=
  ⟨by decide, ⟨settled_withCourier _, fun _ => Nat.zero_le _⟩, ⟨settled_noSlot, held_bank, by decide +kernel⟩,
    ⟨settled_unmapped, by decide +kernel, allocate_unmapped rfl .S false true⟩,
    ⟨settled_crowded, held_bank, exists_first (by decide +kernel), by decide +kernel⟩,
    ⟨settled_fullDirectory, held_bank, exists_first (by decide +kernel), by decide +kernel, by decide +kernel⟩⟩

theorem witness_SessionStatusReports :
    let r := req (.kiosk 0) (be 1 1 ++ be 1 255)
    let s := asked 8 r signedOn
    Settled s ∧ Ready 8 r s ∧ r.source = .kiosk 0 ∧ bodySessionStatus r.body = some (some 255)
      ∧ (s.kiosk 0).session = some session :=
  ⟨settled_bank, by decide +kernel, rfl, by decide +kernel, rfl⟩

theorem filterMap_one {α β : Type} [DecidableEq α] (a : α) (b : β) (f : α → Option β)
    (h : ∀ c, f c = if c = a then some b else none) (l : List α) (mem : a ∈ l) (nodup : l.Nodup) : l.filterMap f = [b] := by
  have rest (m : List α) (no : a ∉ m) : m.filterMap f = [] := List.filterMap_eq_nil_iff.2 fun c hc => by
    rw [h, if_neg fun e => no (by rw [← e]; exact hc)]
  induction l with
  | nil => cases mem
  | cons c l ih =>
    obtain ⟨out, nodup⟩ := List.nodup_cons.1 nodup
    rcases List.mem_cons.1 mem with rfl | m
    · rw [List.filterMap_cons, h, if_pos rfl, rest l out]
    · rw [List.filterMap_cons, h, if_neg fun e => out (by rw [e]; exact m)]
      exact ih m nodup

theorem filter_one {α : Type} [DecidableEq α] (a : α) (p : α → Bool) (h : ∀ c, p c = decide (c = a)) (l : List α)
    (mem : a ∈ l) (nodup : l.Nodup) : l.filter p = [a] := by
  rw [← List.filterMap_eq_filter]
  refine filterMap_one a a _ (fun c => ?_) l mem nodup
  by_cases e : c = a <;> simp [Option.guard, h, e]

theorem parcel_bank {c : CompNo} (h : c ∉ ([5, 6, 7, 8, 10] : List CompNo)) :
    (look bankRetained.compartments c).parcel = none := by
  simp only [List.mem_cons, List.not_mem_nil, or_false, not_or] at h
  obtain ⟨h5, h6, h7, h8, h10⟩ := h
  unfold bankRetained
  rw [look_put_other _ _ h10, look_put_other _ _ h8, look_put_other _ _ h7, look_put_other _ _ h6,
    look_put_other _ _ h5]
  simp only [blankRetained, look_replicate]
  rfl

theorem unlisted_empty {s : State} {c : CompNo} (h : (s.comp c).parcel = none) (k : KioskNo) (n : Nat) (p q : Bool) :
    listedKind s k n p q c = none := by
  simp [listedKind, asListed, h]

theorem listed_signedOn : pickupList (asked 9 (req (.kiosk 0) (be 1 1 ++ be 1 0)) signedOn) 0 9 true false
    = [{ compartment := 8, kind := .returned, inFlight := false }] := by
  unfold pickupList
  rw [filterMap_one (8 : CompNo) { compartment := 8, kind := .returned, inFlight := false } _ (fun c => ?_) _
    (List.mem_finRange _) (List.nodup_finRange _)]
  · rfl
  by_cases h : c ∈ ([5, 6, 7, 8, 10] : List CompNo)
  · simp only [List.mem_cons, List.not_mem_nil, or_false] at h
    rcases h with rfl | rfl | rfl | rfl | rfl <;> decide +kernel
  · rw [if_neg fun e => h (by rw [e]; decide), unlisted_empty (s := asked 9 _ signedOn) (parcel_bank h)]
    rfl

theorem witness_SweepStartsPickup :
    let r := req (.kiosk 0) (be 1 1 ++ be 1 0)
    let s := asked 9 r signedOn
    Ready 9 r s ∧ r.source = .kiosk 0 ∧ bodySweep r.body = some (true, false) ∧ (s.kiosk 0).session = some session
      ∧ courierOf s 9 = some courier ∧ courier.returns = true ∧ ConcourseServesCouriers s ∧ session.pipeline = []
      ∧ session.sweep = none
      ∧ pickupList s 0 9 true false = [{ compartment := 8, kind := .returned, inFlight := false }]
      ∧ (pickupList s 0 9 true false).head?.map (issueHeldUp s ·) = some false := by
  refine ⟨by decide +kernel, by decide +kernel, by decide +kernel, rfl, by decide +kernel, by decide +kernel,
    by decide +kernel, by decide +kernel, by decide +kernel, listed_signedOn, ?_⟩
  rw [listed_signedOn]
  decide +kernel

/-! ### Witnesses: sweeps and the backend -/

def withSweep (w : CourierSweep) : State := setSession 0 (some { session with sweep := some w }) bank

def pickup : CourierSweep :=
  { entries := [{ compartment := 4, kind := .delivery, inFlight := true }, { compartment := 8, kind := .returned, inFlight := false }]
    returns := true, recover := false, draining := false, retrieved := 0, skipped := 0, dropped := 0 }

def flying (c : CompNo) : PickupEntry := { compartment := c, kind := .delivery, inFlight := true }

theorem witness_SweepEndDrains :
    let r := req (.kiosk 0) []
    (∀ w, Settled (asked 10 r (withSweep w))) ∧ Settled (asked 10 r bank)
      ∧ Ready 10 r (asked 10 r bank) ∧ (∀ w, Ready 10 r (asked 10 r (withSweep w))) ∧ r.source = .kiosk 0
      ∧ (bank.kiosk 0).session = none ∧ (signedOn.kiosk 0).session = some session ∧ session.sweep = none
      ∧ (∀ w, ((withSweep w).kiosk 0).session = some { session with sweep := some w })
      ∧ pickup.draining = false ∧ { pickup with draining := true }.entries ≠ [] :=
  ⟨fun _ => settled_bank, settled_bank, by decide +kernel, fun _ => ⟨rfl, Nat.zero_lt_succ 3, rfl⟩, rfl, by decide +kernel,
    rfl, rfl, fun _ => rfl, by decide⟩

def sent : SentNotice := { sequence := 65535, notice := .dropped 6 77 9 0 none }

def withNotice : State := resealed { bank with ret := { bank.ret with outbox := [sent] } }

theorem settled_withNotice : Settled withNotice := settled_of rfl (by decide +kernel) (by decide +kernel)

theorem witness_FetchNoticeTakesOldest :
    let r := req .backend []
    Settled (asked 11 r withNotice) ∧ Settled (asked 11 r bank)
      ∧ Ready 11 r (asked 11 r withNotice) ∧ Ready 11 r (asked 11 r bank)
      ∧ withNotice.ret.outbox = [sent] ∧ bank.ret.outbox = [] := ⟨settled_withNotice, settled_bank, by decide +kernel⟩

def collectionUnderWay : State :=
  resealed (({ bank with ret := { bank.ret with reservations := 1 } }).setComp 5 { bank.comp 5 with
    state := .releasing
    transient := some { particulars := .collect, kiosk := 0, strikeIssued := false, prior := none } })

theorem settled_collectionUnderWay : Settled collectionUnderWay := settled_of rfl (by decide +kernel) (by decide +kernel)

theorem witness_RevokeWithdrawsCode :
    let r := req .backend (be 2 5)
    let v := req .backend (be 2 6)
    (Settled (asked 12 r bank) ∧ Settled (asked 12 v bank) ∧ Settled (asked 12 r collectionUnderWay))
      ∧ Ready 12 r (asked 12 r bank) ∧ Ready 12 v (asked 12 v bank) ∧ Ready 12 r (asked 12 r collectionUnderWay)
      ∧ bodyNat 2 r.body = some (5 : CompNo).val ∧ bodyNat 2 v.body = some (6 : CompNo).val
      ∧ (bank.comp 5).state = .held ∧ (bank.comp 5).parcel = some (.delivery delivery)
      ∧ collectionGranted (collectionUnderWay.comp 5) = true
      ∧ collectionGranted (bank.comp 6) = false ∧ heldDelivery (bank.comp 6) = none :=
  ⟨⟨settled_bank, settled_bank, settled_collectionUnderWay⟩, by decide +kernel⟩

theorem witness_ReissueReplacesCode :
    let r := req .backend (be 2 5)
    (Settled (asked 13 r bank) ∧ Settled (asked 13 r fullDirectory))
      ∧ (∀ s ∈ [bank, fullDirectory], Ready 13 r (asked 13 r s) ∧ (s.comp 5).state = .held
          ∧ (s.comp 5).parcel = some (.delivery delivery))
      ∧ bodyNat 2 r.body = some (5 : CompNo).val
      ∧ (∃ g code, generateCode bank.ret.directory 8 bank.ret.generator = (g, some code))
      ∧ (generateCode fullDirectory.ret.directory 8 fullDirectory.ret.generator).2 = none :=
  ⟨⟨settled_bank, settled_fullDirectory⟩, by decide +kernel, by decide +kernel, exists_second (by decide +kernel), by decide +kernel⟩

def newCourier (id quota : Nat) : Courier := { courier with id, quota }

def courierBody (e : Courier) : List Byte :=
  be 2 e.id ++ be 4 e.credential.toNat ++ flag e.deposit ++ flag e.returns ++ flag e.recover ++ be 2 e.quota ++ flag e.active

theorem witness_CourierTableLoads :
    (∀ kind r, Settled (asked kind r bank))
      ∧ (∀ e ∈ [newCourier 1 768, newCourier 65535 0, newCourier 9 5], let r := req .backend (courierBody e)
          Ready 14 r (asked 14 r bank) ∧ bodyLoadCourier r.body = some e ∧ 1 ≤ e.id ∧ e.id ≤ 65535 ∧ e.quota ≤ 768
            ∧ ((courierOf bank e.id).isSome = true ∨ bank.ret.couriers.length < 64))
      ∧ (let r := req .backend (be 2 9)
        Ready 15 r (asked 15 r bank) ∧ bodyNat 2 r.body = some 9 ∧ courierOf bank 9 = some courier) :=
  ⟨fun _ _ => settled_bank, by decide +kernel, by decide +kernel⟩

theorem witness_ReturnsListLoads :
    (∀ kind r, Settled (asked kind r bank) ∧ Settled (asked kind r returnsBusy))
      ∧ (let r := req .backend (be 5 9999999999 ++ be 1 3 ++ be 2 65535 ++ be 3 999999 ++ be 4 4294967295)
        let f : LoadReturnFields :=
          { reference := 9999999999, cls := 3, courier := 65535, postage := 999999, expiry := 4294967295 }
        Ready 16 r (asked 16 r bank) ∧ bodyLoadReturn r.body = some f ∧ classOf? f.cls = some .XL
          ∧ returnOf bank f.reference = none ∧ bank.ret.returns.length < 256)
      ∧ (let r := req .backend (be 5 77)
        Ready 17 r (asked 17 r bank) ∧ Ready 17 r (asked 17 r returnsBusy) ∧ bodyNat 5 r.body = some 77
          ∧ returnOf bank 77 = some freeEntry ∧ returnOf returnsBusy 77 = some { freeEntry with inUse := true }) :=
  ⟨fun _ _ => ⟨settled_bank, settled_returnsBusy⟩, by decide +kernel, by decide +kernel⟩

def settlement : Settlement := { number := 12, figures := Vector.replicate 4 zeroTakings }

def settledOnce : State := resealed { bank with ret := { bank.ret with lastSettlement := some settlement } }

theorem settled_settledOnce : Settled settledOnce := settled_of rfl (by decide +kernel) (by decide +kernel)

theorem witness_SettleTakesTakings :
    (∀ kind r, Settled (asked kind r bank) ∧ Settled (asked kind r settledOnce))
      ∧ (∀ n ∈ [12, 13], let r := req .backend (be 2 n)
        Ready 18 r (asked 18 r settledOnce) ∧ Ready 18 r (asked 18 r bank) ∧ bodyNat 2 r.body = some n)
      ∧ settledOnce.ret.lastSettlement = some settlement ∧ settlement.number = 12
      ∧ ∀ x, bank.ret.lastSettlement = some x → x.number ≠ 12 :=
  ⟨fun _ _ => ⟨settled_bank, settled_settledOnce⟩, by decide +kernel, rfl, rfl, fun _ h => by cases h⟩

def unlockedBank : State := { bank with skc := .unlocked, unlockDeadline := some 600 }

theorem witness_QueryReportsImage :
    (∀ kind r, Settled (asked kind r bank) ∧ Settled (asked kind r unlockedBank))
      ∧ (let r := req .backend (be 2 0)
        Ready 19 r (asked 19 r bank) ∧ StaffMay r (asked 19 r bank) ∧ bodyNat 2 r.body = some (0 : CompNo).val)
      ∧ (let r := req .service (be 2 767)
        Ready 19 r (asked 19 r unlockedBank) ∧ StaffMay r (asked 19 r unlockedBank)
          ∧ bodyNat 2 r.body = some (767 : CompNo).val) :=
  ⟨fun _ _ => ⟨settled_bank, settled_bank⟩, by decide +kernel, by decide +kernel⟩

/-- Compartment 10 with a record or none, and its line with a confirmed door and occupancy. -/
def suspect (parcel : Option Parcel) (door occupied : Option Bool) : State :=
  resealed (({ bank with boards := put bank.boards 1 { onlineBoard with
    lines := put onlineBoard.lines 10 { freshLine with doorOpen := door, occupied } } }).setComp 10
    { bank.comp 10 with parcel })

theorem settled_suspect (p : Option Parcel) (d o : Option Bool) : Settled (suspect p d o) :=
  fun h => ⟨rfl, (settled_bank h).2⟩

theorem witness_ClearReturnsCompartment :
    let r := req .backend (be 2 10)
    (∀ p d o, Settled (asked 20 r (suspect p d o)))
      ∧ (∀ s ∈ [suspect (some (.returned returned)) (some false) (some true), suspect none (some false) (some false),
            suspect (some (.delivery delivery)) (some false) (some false), suspect none none none],
          Ready 20 r (asked 20 r s) ∧ StaffMay r s ∧ (s.comp 10).state = .suspect)
      ∧ bodyNat 2 r.body = some (10 : CompNo).val
      ∧ (let s := suspect (some (.returned returned)) (some false) (some true)
        doorImage s 10 = some false ∧ occupancyImage s 10 = some true ∧ (s.comp 10).parcel = some (.returned returned))
      ∧ (let s := suspect none (some false) (some false)
        doorImage s 10 = some false ∧ occupancyImage s 10 = some false ∧ (s.comp 10).parcel = none)
      ∧ (let s := suspect (some (.delivery delivery)) (some false) (some false)
        doorImage s 10 = some false ∧ occupancyImage s 10 = some false ∧ (s.comp 10).parcel = some (.delivery delivery)
          ∧ delivery.code = some 4100 ∧ outboxHasRoom s = true)
      ∧ doorImage (suspect none none none) 10 ≠ some false ∧ doorImage (suspect none (some true) none) 10 ≠ some false :=
  ⟨fun p d o => settled_suspect p d o, by decide +kernel, by decide +kernel, by decide +kernel⟩

def ringingBank : State := resealed ringing

theorem settled_ringingBank : Settled ringingBank := settled_of rfl (by decide +kernel) (by decide +kernel)

def quietAlarms : State := { bank with alarms := [], attention := false }

theorem settled_quietAlarms : Settled quietAlarms := settled_of rfl (by decide +kernel) (by decide +kernel)

theorem witness_FetchAlarmTakesFirst :
    let r := req .backend []
    (Settled (asked 21 r ringingBank) ∧ Settled (asked 21 r quietAlarms))
      ∧ Ready 21 r (asked 21 r ringingBank) ∧ Ready 21 r (asked 21 r quietAlarms) ∧ StaffMay r ringingBank
      ∧ firstAlarm (visibleAlarms ringingBank) = some { kind := .forced, object := 207, posted := some 2 }
      ∧ firstAlarm (visibleAlarms quietAlarms) = none := ⟨⟨settled_ringingBank, settled_quietAlarms⟩, by decide +kernel⟩

/-! ### Witnesses: the station and the service terminal -/

theorem witness_BroadcastSetsClockAndState :
    ∀ p ∈ [(1, 0), (4, 1000), (5, 1002), (255, 4294967295)], let r := req .station (be 1 p.1 ++ be 4 p.2)
      (∀ s ∈ [bank, awaiting], Ready 22 r (asked 22 r s)) ∧ r.source = .station ∧ bodyBroadcast r.body = some p := by
  decide +kernel

/-- A fourth EVACUATE, or LOCKDOWN, at the clock's own time is adopted; compartment 6 then loses its drop. -/
theorem witness_BroadcastSetsClockAndState_adopts :
    (∀ p ∈ [(4, Concourse.evacuate), (5, .lockdown)],
        qualifying ([p.1, p.1, p.1] ++ [p.1]) = some p.2 ∧ awaiting.ret.concourse ≠ p.2) ∧ awaiting.clock = some 1000
      ∧ evacuated awaiting 6 = true ∧ evacuated awaiting 5 = false
      ∧ (awaiting.comp 6).transient = some dropping ∧ dropping.particulars = .drop 9 78 0
      ∧ (awaiting.comp 6).state ≠ .reconcile ∧ dropping.resolved = false := by decide +kernel

/-- A bank that has been given one quote has no other. -/
theorem quoteOf_given {s : State} {c d : CompNo} {q y : Quote} (h : s.quotes = put bank.quotes c (some q))
    (hy : s.quoteOf d = some y) : d = c ∧ y = q := by
  rw [State.quoteOf, h, look_put] at hy
  split at hy
  next e => cases hy; exact ⟨e, rfl⟩
  next => simp [bank, resealed, State.reset, look] at hy

theorem drops_awaiting (now : Nat) : LapsingDrops awaiting now := by
  intro c n h
  have quote : ∃ q, awaiting.quoteOf c = some q ∧ q.purpose = .postage n := by
    unfold lapsing at h
    cases hq : awaiting.quoteOf c with
    | none => rw [hq] at h; cases h
    | some q =>
      rw [hq] at h; dsimp only at h
      cases hp : q.purpose with
      | collection => rw [hp] at h; cases h
      | postage m =>
        rw [hp] at h; dsimp only at h
        split at h
        · cases h; exact ⟨q, rfl, hp⟩
        · cases h
  obtain ⟨q, hq, hp⟩ := quote
  obtain ⟨rfl, rfl⟩ := quoteOf_given (c := 6) rfl hq
  cases hp
  exact ⟨by decide +kernel, dropping, 9, by decide +kernel, rfl⟩

theorem drops_standing (expiry now : Nat) : LapsingDrops (standing 0 expiry bank) now := by
  intro c n h
  unfold lapsing at h
  cases hq : (standing 0 expiry bank).quoteOf c with
  | none => rw [hq] at h; cases h
  | some q =>
    obtain ⟨-, rfl⟩ := quoteOf_given (c := 5) rfl hq
    rw [hq] at h; cases h

/-- Steps of the clock from 1000: back; on within the minute past a COLLECTION quote; and over a multiple of 60 past
it and past the POSTAGE quote of compartment 6. -/
theorem witness_BroadcastSetsClockAndState_steps :
    (∀ time ∈ [997, 1003, 1020, 2001], ¬ (1000 ≤ time + 2 ∧ time ≤ 1000 + 2))
      ∧ ((997 : Nat) ≤ 1000 ∧ (1000 : Nat) / 60 = 1003 / 60 ∧ (1000 : Nat) / 60 < 1020 / 60)
      ∧ (∀ time, LapsingDrops awaiting time ∧ LapsingDrops (standing 0 1002 bank) time)
      ∧ (∀ c q, awaiting.quoteOf c = some q → (awaiting.comp c).state = .held → q.purpose = .collection)
      ∧ (∀ c q, (standing 0 1002 bank).quoteOf c = some q → ((standing 0 1002 bank).comp c).state = .held → q.purpose = .collection)
      ∧ lapsing awaiting 2001 6 = some 78 ∧ lapsing awaiting 2000 6 = none ∧ lapsesAt awaiting 2001 0 6 = true
      ∧ (standing 0 1002 bank).quoteOf 5 = some { quote with expiry := 1002 } := by
  refine ⟨by decide, by decide, fun time => ⟨drops_awaiting time, drops_standing 1002 time⟩, fun c q h held => ?_,
    fun c q h _ => ?_, by decide +kernel⟩
  · obtain ⟨rfl, rfl⟩ := quoteOf_given (c := 6) rfl h
    have : (awaiting.comp 6).state = .reserved := by decide +kernel
    rw [this] at held; cases held
  · obtain ⟨-, rfl⟩ := quoteOf_given (c := 5) rfl h
    rfl

theorem settled_locked (skc : SkcState) (d : Option Nat) : Settled (locked skc d) := fun h => ⟨rfl, (settled_bank h).2⟩

def unlocking (index : Nat) (word : BitVec 32) : Request := req .service (be 1 index ++ be 4 word.toNat)

theorem witness_SkcTable :
    (∀ kind r skc d, Settled (asked kind r (locked skc d)) ∧ Settled (asked kind r bank))
      ∧ (∀ p ∈ [(SkcState.idle, (0 : Fin 4)), (.collected1, 1), (.collected2, 2), (.collected3, 3), (.unlocked, 0), (.barred, 0)],
          let r := unlocking p.2.val (look keyWords p.2)
          Ready 23 r (asked 23 r (locked p.1 none)) ∧ bodyUnlockKey r.body = some (p.2.val, look keyWords p.2)
            ∧ look keyWords p.2 ≠ 0 ∧ look keyWords p.2 ≠ BitVec.allOnes 32)
      ∧ (∀ skc d, (locked skc d).skc = skc ∧ (locked skc d).ret.keys = some keyWords) ∧ bank.skc = .noKeys
      ∧ (let r := unlocking 0 0
        Ready 23 r (asked 23 r (locked .idle none)) ∧ Ready 23 r (asked 23 r bank) ∧ bodyUnlockKey r.body = some (0, 0))
      ∧ ∀ skc, Ready 24 (req .service []) (asked 24 (req .service []) (locked skc none)) :=
  ⟨fun _ _ skc d => ⟨settled_locked skc d, settled_bank⟩, by decide +kernel, fun _ _ => ⟨rfl, rfl⟩, by decide +kernel,
    by decide +kernel, fun _ => ⟨rfl, Nat.zero_lt_succ 3, rfl⟩⟩

theorem witness_SkcTable_refusals :
    ∀ p ∈ [(19, Instr.queryCompartment (req .service (be 2 5))), (29, .setHold (req .service (be 2 601))),
        (36, .blank (req .service []))],
      ∃ r, kindOf p.2 = some (p.1, r) ∧ r.source = .service ∧ bodyFits p.2 = true
        ∧ ∀ skc ∈ [SkcState.idle, .barred, .collected1, .collected2, .collected3],
            Ready p.1 r (asked p.1 r (locked skc none)) ∧ (locked skc none).skc = skc := by
  intro p hp
  simp only [List.mem_cons, List.not_mem_nil, or_false] at hp
  rcases hp with rfl | rfl | rfl <;> exact ⟨_, rfl, rfl, by decide +kernel, by decide +kernel⟩

theorem reset_has_no_maps (c : CompNo) : (State.reset.comp c).map = none := by
  simp [State.comp, look, State.reset, blankRetained, blankCompartment]

def mapping (c b l : Nat) : Request := req .service (be 2 c ++ be 1 1 ++ be 1 b ++ be 1 l ++ be 1 3 ++ be 1 1)

theorem witness_LoadMapSetsEntry :
    (∀ kind r, Settled (asked kind r bank) ∧ Settled (asked kind r State.reset))
      ∧ (let r := req .service (be 2 5 ++ be 1 0)
        Ready 25 r (asked 25 r bank) ∧ ServiceOpen bank ∧ bodyLoadMap r.body = some ((5 : CompNo).val, none)
          ∧ ¬ ((bank.comp 5).state = .vacant ∨ (bank.comp 5).state = .unserved))
      ∧ (let r := mapping 30 1 5
        let f : MapFields := { board := 1, line := 5, cls := 3, inService := true }
        Ready 25 r (asked 25 r bank) ∧ bodyLoadMap r.body = some ((30 : CompNo).val, some f)
          ∧ mapEntry? f = some (entryAt 5 .XL) ∧ (bank.comp 30).state = .unserved
          ∧ (bank.comp 5).map = some (entryAt 5 .S) ∧ (5 : CompNo) ≠ 30)
      ∧ (let r := mapping 767 63 11
        let f : MapFields := { board := 63, line := 11, cls := 3, inService := true }
        Ready 25 r (asked 25 r State.reset) ∧ ServiceOpen State.reset
          ∧ bodyLoadMap r.body = some ((767 : CompNo).val, some f) ∧ mapEntry? f ≠ none
          ∧ (State.reset.comp 767).state = .unserved)
      ∧ ∀ c x, (State.reset.comp c).map ≠ some x :=
  ⟨fun _ _ => ⟨settled_bank, settled_reset⟩, by decide +kernel, by decide +kernel, by decide +kernel,
    fun c x => by simp [reset_has_no_maps]⟩

def tariffBody (n : Nat) (t : TariffRow) : List Byte :=
  be 1 n ++ be 2 t.freePeriod ++ be 2 t.period ++ be 2 t.rate ++ be 3 t.cap ++ be 3 t.ceiling ++ be 2 t.allowance

theorem witness_LoadTariffStoresRow :
    (∀ kind r, Settled (asked kind r bank)) ∧ ServiceOpen bank
      ∧ ∀ p ∈ [(4, row), (0, { row with freePeriod := 20161 }), (0, { row with period := 0 }), (0, { row with period := 1441 }),
          (3, { row with freePeriod := 20160, period := 1440, cap := 0, ceiling := 1000000, allowance := 43201 })],
        let r := req .service (tariffBody p.1 p.2)
        Ready 26 r (asked 26 r bank) ∧ bodyLoadTariff r.body = some p :=
  ⟨fun _ _ => settled_bank, by decide +kernel⟩

def thirdSlot : State :=
  resealed { bank with ret := { bank.ret with
    slots := put bank.ret.slots 0 (put (look bank.ret.slots 0) 1 (some { board := 1, parity := .odd })) } }

theorem settled_thirdSlot : Settled thirdSlot := settled_of rfl (by decide +kernel) (by decide +kernel)

theorem idle_slots : ∀ j, look (look (put bank.ret.slots 0 (put (look bank.ret.slots 0) 0 none)) 0) j = none := by
  decide +kernel

theorem witness_LoadSlotReplacesContent :
    (∀ kind r, Settled (asked kind r bank) ∧ Settled (asked kind r thirdSlot) ∧ Settled (asked kind r State.reset))
      ∧ (let r := req .service (be 1 3 ++ be 1 15 ++ be 1 1 ++ be 1 63 ++ be 1 2)
        Ready 27 r (asked 27 r State.reset) ∧ ServiceOpen State.reset
          ∧ bodyLoadSlot r.body = some ((3 : SegNo).val, (15 : SlotNo).val, some (63, 2))
          ∧ slotContent? 63 2 = some { board := 63, parity := .odd } ∧ segmentOf 63 = 3
          ∧ otherSlotsNaming State.reset 3 15 63 < 2)
      ∧ (let r := req .service (be 1 0 ++ be 1 0 ++ be 1 0)
        Ready 27 r (asked 27 r bank) ∧ ServiceOpen bank ∧ bodyLoadSlot r.body = some ((0 : SegNo).val, (0 : SlotNo).val, none)
          ∧ (look (look bank.ret.slots 0) 0).map (·.board) = some 1 ∧ (bank.board 1).link = .online)
      ∧ (∀ j x, look (look (put bank.ret.slots 0 (put (look bank.ret.slots 0) 0 none)) 0) j = some x → x.board ≠ 1)
      ∧ (let r := req .service (be 1 0 ++ be 1 2 ++ be 1 1 ++ be 1 1 ++ be 1 0)
        Ready 27 r (asked 27 r thirdSlot) ∧ bodyLoadSlot r.body = some ((0 : SegNo).val, (2 : SlotNo).val, some (1, 0))
          ∧ slotContent? 1 0 = some { board := 1, parity := .every } ∧ segmentOf 1 = 0
          ∧ 2 ≤ otherSlotsNaming thirdSlot 0 2 1) :=
  ⟨fun _ _ => ⟨settled_bank, settled_thirdSlot, settled_reset⟩, by decide +kernel, by decide +kernel,
    fun j _ h => absurd ((idle_slots j).symm.trans h) nofun, by decide +kernel⟩

theorem witness_SetBudgetStoresAndIssues :
    (∀ kind r, Settled (asked kind r bank)) ∧ ServiceOpen bank
      ∧ ∀ v ∈ [0, 1, 3, 255], let r := req .service (be 1 3 ++ be 1 v)
        Ready 28 r (asked 28 r bank) ∧ bodySetBudget r.body = some ((3 : SegNo).val, v) :=
  ⟨fun _ _ => settled_bank, by decide +kernel⟩

theorem witness_SetHoldAndEnables :
    (∀ kind r, Settled (asked kind r bank)) ∧ ServiceOpen bank
      ∧ (∀ v ∈ [0, 59, 60, 600, 65535], let r := req .service (be 2 v)
        Ready 29 r (asked 29 r bank) ∧ bodyNat 2 r.body = some v)
      ∧ (let r := req .service (List.replicate 8 0)
        Ready 30 r (asked 30 r bank) ∧ bodySetEnables r.body = some (Vector.replicate 8 false).toList) :=
  ⟨fun _ _ => settled_bank, by decide +kernel⟩

theorem witness_SeedReplacesGenerator :
    (∀ kind r, Settled (asked kind r bank)) ∧ ServiceOpen bank
      ∧ ∀ v ∈ [0, 1, 4294967295], let r := req .service (be 4 v)
        Ready 31 r (asked 31 r bank) ∧ bodyNat 4 r.body = some v := ⟨fun _ _ => settled_bank, by decide +kernel⟩

def keysBody (keys : Vector (BitVec 32) 4) : List Byte := keys.toList.flatMap fun w => be 4 w.toNat

def badKeys : Vector (BitVec 32) 4 := #v[1, 2, 3, 4294967295]

theorem witness_SetKeysStoresWords :
    (∀ kind r, Settled (asked kind r bank)) ∧ ServiceOpen bank
      ∧ (let r := req .service (keysBody keyWords)
        Ready 32 r (asked 32 r bank) ∧ bodySetKeys r.body = some keyWords
          ∧ ∀ i, look keyWords i ≠ 0 ∧ look keyWords i ≠ BitVec.allOnes 32)
      ∧ (let r := req .service (keysBody badKeys)
        Ready 32 r (asked 32 r bank) ∧ bodySetKeys r.body = some badKeys ∧ look badKeys 3 = BitVec.allOnes 32) :=
  ⟨fun _ _ => settled_bank, by decide +kernel⟩

def withdrawnBank : State :=
  resealed { State.reset with
    ret := { blankRetained with withdrawn := put blankRetained.withdrawn 47 true }
    boards := put State.reset.boards 47 (freshBoard true) }

theorem settled_withdrawnBank : Settled withdrawnBank := settled_of rfl (by decide +kernel) (by decide +kernel)

theorem witness_WithdrawAndReinstate :
    (∀ kind r, Settled (asked kind r bank) ∧ Settled (asked kind r State.reset) ∧ Settled (asked kind r withdrawnBank))
      ∧ (∀ b ∈ [(0 : BoardNo), 1, 47, 63], let r := req .service (be 1 b.val)
        (∀ s ∈ [bank, State.reset, withdrawnBank], ServiceOpen s ∧ Ready 33 r (asked 33 r s) ∧ Ready 34 r (asked 34 r s))
          ∧ bodyNat 1 r.body = some b.val)
      ∧ (withdrawnBank.board 47).link = .withdrawn
      ∧ ((bank.board 1).link ≠ .withdrawn ∧ (bank.comp 5).map = some (entryAt 5 .S) ∧ (entryAt 5 .S).board = 1
        ∧ (bank.comp 5).state ≠ .vacant ∧ (bank.comp 5).state ≠ .unserved)
      ∧ (State.reset.board 63).link ≠ .withdrawn ∧ ∀ c x, (State.reset.comp c).map ≠ some x :=
  ⟨fun _ _ => ⟨settled_bank, settled_reset, settled_withdrawnBank⟩, by decide +kernel, by decide +kernel, by decide +kernel,
    by decide +kernel, fun c x => by simp [reset_has_no_maps]⟩

theorem witness_RestartAndBlankAccepted :
    (∀ kind r, Settled (asked kind r bank) ∧ Settled (asked kind r State.reset))
      ∧ (∀ s ∈ [bank, State.reset], let r := req .service []
        ServiceOpen s ∧ Ready 35 r (asked 35 r s) ∧ Ready 36 r (asked 36 r s))
      ∧ { bank with run := .restartPending }.run = .restartPending :=
  ⟨fun _ _ => ⟨settled_bank, settled_reset⟩, by decide +kernel, rfl⟩

/-! ### Witnesses: resets, the clock and deadlines -/

/-- The bank with a check word that does not agree. -/
def corrupted : State := { bank with checkWord := Config.retentionCheck bank.ret + 1 }

theorem witness_ResetsAndPower :
    Config.retentionCheck bank.ret = bank.checkWord ∧ Config.retentionCheck corrupted.ret ≠ corrupted.checkWord
      ∧ (ResetCause.pin = .pin ∧ bank.run ≠ .unpowered ∧ corrupted.run ≠ .unpowered)
      ∧ (ResetCause.powerOn = .powerOn ∧ unpowered.run = .unpowered)
      ∧ (let s := { bank with run := .restartPending }
        ResetCause.requested = .requested ∧ s.run = .restartPending ∧ s.transmit = [])
      ∧ (bank.comp 5).state.transacting = false ∧ (awaiting.comp 6).state = PriorState.reserved.state
      ∧ (let s := { State.reset with run := .blankPending }
        s.run = .blankPending ∧ s.transmit = []) :=
  ⟨rfl, (Nat.succ_ne_self _).symm, by decide +kernel⟩

theorem witness_ClockTickAdvances :
    (∀ v, let s := { bank with clock := v }
      Settled s ∧ s.run ≠ .unpowered ∧ s.clock = v) ∧ 4294967294 < 4294967295 ∧ State.reset.clock = none :=
  ⟨fun _ => ⟨settled_bank, RunMode.noConfusion, rfl⟩, by decide, rfl⟩

/-- The bank at the abandonment time of its delivery, with a boundary to be taken. -/
def expired : State := { bank with clock := some 263800, boundariesDue := 1 }

theorem witness_MinuteBoundaryScans :
    Settled expired ∧ (∀ c, expired.quoteOf c = none)
      ∧ expired.run ≠ .unpowered ∧ expired.clock = some 263800 ∧ 0 < expired.boundariesDue
      ∧ scanFinds expired 263800 5 = true ∧ scanFinds expired 263799 5 = false ∧ scanFinds expired 263800 8 = false
      ∧ (List.finRange 768).filter (scanFinds expired 263800) = [5] ∧ expired.ret.outbox.length + expired.ret.reservations = 0 :=
  ⟨settled_bank, fun c => Vector.getElem_replicate _, by decide +kernel, by decide +kernel, by decide +kernel,
    by decide +kernel, by decide +kernel, by decide +kernel, filter_one 5 _ (fun c => by
      by_cases h : c ∈ ([5, 6, 7, 8, 10] : List CompNo)
      · simp only [List.mem_cons, List.not_mem_nil, or_false] at h
        rcases h with rfl | rfl | rfl | rfl | rfl <;> decide +kernel
      · have none : (expired.comp c).parcel = none := parcel_bank h
        have ne : c ≠ 5 := fun e => h (by rw [e]; decide)
        simp [scanFinds, abandonDue, none, ne]) _ (List.mem_finRange _) (List.nodup_finRange _), by decide +kernel⟩

/-- With an expired quote the delivery is due too. -/
theorem witness_MinuteBoundaryScans_quoted :
    let s := expired.setQuote 5 (some quote)
    (∀ c q, s.quoteOf c = some q → (s.comp c).state = .held → q.purpose = .collection) ∧ Settled s
      ∧ scanFinds s 263800 5 = true := by
  refine ⟨fun c q h _ => ?_, settled_bank, by decide +kernel⟩
  rw [State.quoteOf_setQuote] at h
  split at h
  · cases h; rfl
  · rw [witness_MinuteBoundaryScans.2.1 c] at h; cases h

def lockedOut : State := bank.setKiosk 3 { freshKiosk with failures := 5, lockout := some 60 }

theorem witness_DeadlinesPass :
    (∀ n, Settled { lockedOut with elapsed := n } ∧ Settled { signedOn with elapsed := n }
        ∧ Settled { bank.setAjar 5 (some (.running 90)) with elapsed := n } ∧ Settled { bank with elapsed := n }
        ∧ Settled { unlockedBank with elapsed := n }
        ∧ ∀ skc d, Settled { locked skc d with elapsed := n })
      ∧ bank.run ≠ .unpowered
      ∧ (lockedOut.kiosk 3).lockout = some 60 ∧ session.deadline ≤ 120
      ∧ look (bank.setAjar 5 (some (.running 90))).ajar 5 = some (.running 90) ∧ bank.kioskIdle = some 120
      ∧ unlockedBank.unlockDeadline = some 600 ∧ unlockedBank.skc = .unlocked
      ∧ (locked .collected1 (some 60)).unlockDeadline = some 60
      ∧ (signedOn.kiosk 0).session = some session :=
  ⟨fun _ => ⟨settled_bank, settled_bank, settled_bank, settled_bank, settled_bank, fun skc d => settled_locked skc d⟩,
    by decide +kernel, by decide +kernel, by decide +kernel, by decide +kernel, by decide +kernel, by decide +kernel,
    by decide +kernel, by decide +kernel, rfl⟩

theorem witness_QuoteExpiryRemovesQuote :
    (∀ v, Settled { quoted with clock := some v } ∧ Settled { awaiting with clock := some v })
      ∧ quoted.run ≠ .unpowered ∧ awaiting.run ≠ .unpowered
      ∧ quoted.quoteOf 5 = some quote ∧ quote.purpose = .collection ∧ 9000 ≤ quote.expiry ∧ quote.expiry < 9001
      ∧ awaiting.quoteOf 6 = some postage ∧ postage.purpose = .postage 78 ∧ 2000 ≤ postage.expiry ∧ postage.expiry < 2001
      ∧ (awaiting.comp 6).state = .reserved ∧ (awaiting.comp 6).transient = some dropping :=
  ⟨fun _ => ⟨settled_bank, settled_awaiting⟩, by decide +kernel⟩

/-! ### Witnesses: strikes, sweeps and polls -/

/-- Compartment 6 RESERVED for a deposit, with a strike in segment 0 at elapsed time 60. -/
def struck (queue : List StrikeEntry) (active : List ActiveStrike) : State :=
  let s := { bank with ret := { bank.ret with reservations := 1 }, elapsed := 60 }
  (s.setComp 6 { s.comp 6 with
    state := .reserved
    transient := some { particulars := .deposit 0 0 9 55 0, kiosk := 0, strikeIssued := true, prior := none } }).setSeg 0
      { s.seg 0 with queue, active }

def strike (doorSeen : Bool) (attempt : Attempt) (phase : StrikePhase) : ActiveStrike :=
  { compartment := 6, purpose := .deposit, attempt, board := 1, line := 6, doorSeen, phase }

theorem witness_StrikeDeadlines :
    (∀ a ∈ [strike true .first (.issued 60), strike false .first (.issued 60), strike false .second (.issued 60),
        strike false .first (.confirming 60), strike false .second (.confirming 60)],
      let s := struck [] [a]
      s.run ≠ .unpowered ∧ activeOf s 6 = some (0, a) ∧ 60 ≤ s.elapsed ∧ (s.comp 6).state = .reserved
        ∧ s.ret.concourse ≠ .evacuate ∧ (s.seg 0).queue.length < 16 ∧ (s.comp 6).transient.isSome = true)
      ∧ (let s := ((struck [] [strike true .first (.issued 60)]).setLine 1 6 { freshLine with doorOpen := some true })
        (s.line 1 6).doorOpen ≠ some false ∧ activeOf s 6 = some (0, strike true .first (.issued 60))) := by decide +kernel

def waiting (enqueued : Nat) : StrikeEntry := { compartment := 6, purpose := .deposit, attempt := .first, enqueued }

/-- A success with the door confirmed closed again, a full queue with a drop at its tail, and EVACUATE. -/
theorem witness_StrikeDeadlines_rest :
    (let s := struck [] [strike true .first (.issued 60)];
      (s.line 1 6).doorOpen = some false ∧ (s.line 1 6).closeOccupied = some true ∧ (s.comp 6).state = .reserved)
      ∧ (let s := (struck (List.replicate 15 (waiting 0) ++ [{ waiting 1 with compartment := 7 }])
            [strike false .first (.issued 60)]).setComp 7 { bank.comp 7 with state := .reserved, transient := some dropping }
        s.ret.concourse ≠ .evacuate ∧ 16 ≤ (s.seg 0).queue.length
          ∧ (s.seg 0).queue.getLast? = some { waiting 1 with compartment := 7 } ∧ (s.comp 7).transient = some dropping
          ∧ dropping.particulars = .drop 9 78 0 ∧ activeOf s 6 = some (0, strike false .first (.issued 60)))
      ∧ (let s := struck [] [strike false .first (.confirming 60)]
        let s := { s with ret := { s.ret with concourse := .evacuate } }
        s.ret.concourse = .evacuate ∧ (s.seg 0).queue.length < 16 ∧ (s.comp 6).transient.isSome = true
          ∧ activeOf s 6 = some (0, strike false .first (.confirming 60))) := by decide +kernel

/-- The bank with board 1, which one slot names, in a link state, with a good run of 5 and a strike ISSUED. -/
def idling (link : LinkState) : State :=
  let s := bank.setBoard 1 { bank.board 1 with link, goodRun := 5 }
  s.setSeg 0 { s.seg 0 with active := [strike true .first (.issued 60)] }

theorem settled_idling (link : LinkState) : Settled (idling link) :=
  settled_of rfl (by cases link <;> decide +kernel) (by cases link <;> decide +kernel)

/-- A load that leaves an UNKNOWN or LOST board unnamed, one that names it again, and one that leaves an ONLINE
board with a strike ISSUED unnamed. -/
theorem witness_LoadSlotReplacesContent_boards :
    let r := req .service (be 1 0 ++ be 1 0 ++ be 1 0)
    let again := req .service (be 1 0 ++ be 1 0 ++ be 1 1 ++ be 1 2 ++ be 1 0)
    (∀ link kind r, Settled (asked kind r (idling link)))
      ∧ (∀ link ∈ [LinkState.unknown, .lost, .online], let s := idling link
        Ready 27 r (asked 27 r s) ∧ Ready 27 again (asked 27 again s) ∧ ServiceOpen s ∧ (s.board 1).link = link
          ∧ (look (look s.ret.slots 0) 0).map (·.board) = some 1 ∧ (s.board 2).link = .unknown)
      ∧ (∀ j, (look (look bank.ret.slots 0) j).map (·.board) ≠ some 2)
      ∧ bodyLoadSlot again.body = some ((0 : SegNo).val, (0 : SlotNo).val, some (2, 0))
      ∧ slotContent? 2 0 = some { board := 2, parity := .every } ∧ segmentOf 2 = 0
      ∧ ((disconnected 1 (idling .online)).seg (segmentOf 1)).active.length = 1 :=
  ⟨fun link _ _ => settled_idling link, by decide +kernel, by decide +kernel, by decide +kernel⟩

theorem witness_StrikeAgeingCancels :
    ∀ n ∈ [0, 1], let s := struck [waiting n] []
      s.run ≠ .unpowered ∧ queuedOf s 6 = some (0, waiting n) ∧ (s.comp 6).transient.isSome = true
        ∧ (s.elapsed < n + 60 ↔ n = 1) := by decide +kernel

/-- The part in QUIET mode, its sweeps ended. -/
def resting (elapsed : Nat) (phase : SweepPhase) : State :=
  { State.reset with
    kioskIdle := none, elapsed
    segments := Vector.replicate 4 { freshSegment with rate := .quiet, phase } }

theorem settled_resting :
    Settled (resting 1 .waiting) ∧ Settled (resting 0 .noSlots) ∧ Settled (resting 1 .noSlots) :=
  ⟨settled_of rfl (by decide +kernel) (by decide +kernel), settled_of rfl (by decide +kernel) (by decide +kernel),
    settled_of rfl (by decide +kernel) (by decide +kernel)⟩

theorem witness_SweepsStartAndEnd :
    (Settled (resting 1 .waiting) ∧ Settled (resting 0 .noSlots) ∧ Settled (resting 1 .noSlots) ∧ Settled State.reset)
      ∧ (let s := resting 1 .waiting
        s.run ≠ .unpowered ∧ (s.seg 3).rate = .quiet ∧ (s.seg 3).phase = .waiting ∧ (s.seg 3).sweepStart + 1 ≤ s.elapsed)
      ∧ (State.reset.run ≠ .unpowered ∧ (State.reset.seg 3).phase = .noSlots ∧ (State.reset.seg 3).rate = .full)
      ∧ (let s := resting 1 .noSlots
        s.run ≠ .unpowered ∧ (s.seg 3).phase = .noSlots ∧ (s.seg 3).rate = .quiet ∧ (s.seg 3).sweepStart + 1 ≤ s.elapsed)
      ∧ (let s := resting 0 .noSlots
        (s.seg 3).phase = .noSlots ∧ (s.seg 3).rate = .quiet ∧ s.elapsed ≤ (s.seg 3).sweepStart) :=
  ⟨⟨settled_resting.1, settled_resting.2.1, settled_resting.2.2, settled_reset⟩, by decide +kernel⟩

/-- A poll of board 1 under way, with a link state, a good run and a health window. -/
def polling (link : LinkState) (goodRun : Nat) (window : List Bool) : State :=
  let s := bank.setSeg 0 { bank.seg 0 with phase := .polling 0 1 none }
  s.setBoard 1 { s.board 1 with link, goodRun, window }

/-- A reply of board 1 with these doors open, every compartment empty, and this report byte. -/
def heardReply (doors : Nat) (report : Byte) : List Byte :=
  let head : List Byte := [1] ++ be 2 doors ++ [0, 0, 0, report, 0]
  head ++ be 2 (crc16 head).toNat

/-- A reply of board 1 with every door closed and every compartment empty. -/
def boardReply : List Byte := heardReply 0 0

/-- A poll of slot 0 with another slot to poll after it, and with none. -/
theorem witness_SweepsStartAndEnd_polls :
    (let s := thirdSlot.setSeg 0 { thirdSlot.seg 0 with phase := .polling 0 1 none, sweepCounter := 1 };
      s.run ≠ .unpowered ∧ (s.seg 0).phase = .polling 0 1 none ∧ (nextPolled s 0 1).map (·.1) = some 1)
      ∧ (let s := polling .online 0 []
        s.run ≠ .unpowered ∧ (s.seg 0).phase = .polling 0 1 none ∧ nextPolled s 0 1 = none ∧ (nextPolled s 0 0).map (·.2) = some 1
          ∧ (s.seg 0).rate = .full) := by decide +kernel

/-- The sweep goes on with the next slot that it polls; after the last one it ends, and in FULL mode the next
sweep polls slot 0 again (R177, R178). -/
theorem test_sweep_goes_on :
    after (exec (.pollOutcome 0 none) (thirdSlot.setSeg 0 { thirdSlot.seg 0 with phase := .polling 0 1 none, sweepCounter := 1 }))
        (fun t => ((t.seg 0).phase, (t.seg 0).sweepCounter)) = some (.polling 1 1 none, 1)
      ∧ after (exec (.pollOutcome 0 none) (polling .online 0 [])) (fun t => ((t.seg 0).phase, (t.seg 0).sweepCounter))
        = some (.polling 0 1 none, 1) := by decide +kernel

theorem witness_PollOutcomeSupervises :
    (∀ s ∈ [polling .unknown 30 [], polling .lost 31 [], polling .online 0 (List.replicate 6 false),
        polling .online 0 (List.replicate 7 false), polling .online 0 (List.replicate 8 false ++ List.replicate 24 true)],
      s.run ≠ .unpowered ∧ (s.seg 0).phase = .polling 0 1 none)
      ∧ goodReply 1 none = none ∧ (goodReply 1 (some boardReply)).isSome = true
      ∧ ((polling .unknown 30 []).board 1).link = .unknown ∧ ((polling .lost 31 []).board 1).link = .lost
      ∧ ((polling .unknown 30 []).board 1).goodRun + 1 < 32
      ∧ ((polling .online 0 (List.replicate 6 false)).board 1).window.count false + 1 < 8
      ∧ 8 ≤ ((polling .online 0 (List.replicate 7 false)).board 1).window.count false + 1
      ∧ 8 ≤ ((List.replicate 8 false ++ List.replicate 24 true).drop 1).count false + 1 := by decide +kernel

theorem quiet_of_none {s : State} {b : BoardNo} {readings : Vector Reading 12} {l : LineNo}
    (h : (s.line b l).newer = none) : LineQuiet s b readings l := fun o ho => by rw [h] at ho; cases ho

/-- An ONLINE board, and one at its 32nd good poll, whose lines have no readings yet. -/
theorem witness_PollOutcomeSupervises_quiet :
    ∀ s ∈ [polling .online 0 [], polling .unknown 31 [], polling .lost 31 []],
      (∀ readings l, LineQuiet s 1 readings l) ∧ (goodReply 1 (some boardReply)).map (·.report) = some none := by
  intro s hs
  simp only [List.mem_cons, List.not_mem_nil, or_false] at hs
  have none : ∀ s ∈ [polling .online 0 [], polling .unknown 31 [], polling .lost 31 []], ∀ l, (s.line 1 l).newer = none := by
    decide +kernel
  rcases hs with rfl | rfl | rfl <;> exact ⟨fun _ l => quiet_of_none (none _ (by simp) l), by decide +kernel⟩

/-- A poll of the ONLINE board 1, with the state, the strike and the line of compartment 6. -/
def pollingLine (state : CompState) (active : List ActiveStrike) (x : Line) : State :=
  let s := struck [] active
  let s := s.setComp 6 { s.comp 6 with state }
  (s.setSeg 0 { s.seg 0 with phase := .polling 0 1 none }).setLine 1 6 x

theorem pollingLine_others (state : CompState) (active : List ActiveStrike) (x : Line) (readings : Vector Reading 12) :
    ∀ k, k ≠ 6 → LineQuiet (pollingLine state active x) 1 readings k := by
  intro k hk
  refine quiet_of_none ?_
  have : (pollingLine state active x).line 1 k = look (put onlineBoard.lines 6 x) k := rfl
  rw [this, look_put_other _ _ hk]
  simp [look, onlineBoard, freshLine]

/-- The eighth failed poll of board 1 in its window, with no ISSUED strike or with one, whose door was seen or
not, of a first or a second attempt. -/
theorem witness_PollOutcomeSupervises_lost :
    ∀ active ∈ [[], [strike true .first (.issued 60)], [strike false .first (.issued 60)],
        [strike false .second (.issued 60)], [strike false .first (.confirming 60)]],
      let s := pollingLine .reserved active freshLine
      let s := s.setBoard 1 { s.board 1 with window := List.replicate 7 false }
      s.run ≠ .unpowered ∧ (s.seg 0).phase = .polling 0 1 none ∧ (s.board 1).link = .online
        ∧ 8 ≤ (s.board 1).window.count false + 1
        ∧ ((disconnected 1 s).seg (segmentOf 1)).active.filter (fun a => a.isIssued && a.board = 1)
            = active.filter (·.isIssued)
        ∧ ((disconnected 1 s).comp 6).state = .reserved ∧ ((disconnected 1 s).comp 6).transient.isSome = true
        ∧ (disconnected 1 s).ret.concourse ≠ .evacuate ∧ ((disconnected 1 s).seg 0).queue.length < 16 := by decide +kernel

/-- Board 1 at its 32nd good poll, compartment 5 in UNLOADING for a sweep whose next entry is compartment 8, and
compartment 7's strike queued. The latest readings have line 7 open and the others closed and empty. -/
def connecting (link : LinkState) : State :=
  let s := setSession 0 (some { session with
    sweep := some { pickup with entries := [flying 5, { compartment := 8, kind := .returned, inFlight := false }] } })
    (polling link 31 [])
  let s := { s with ret := { s.ret with reservations := 2 } }
  let s := s.setComp 5 { s.comp 5 with
    state := .unloading, transient := some { particulars := .retrieve 0 9, kiosk := 0, strikeIssued := true, prior := none } }
  let s := s.setComp 7 { s.comp 7 with
    state := .reserved
    transient := some { particulars := .deposit 0 0 9 55 0, kiosk := 0, strikeIssued := false, prior := none } }
  let s := s.setSeg 0 { s.seg 0 with queue := [{ waiting 0 with compartment := 7 }] }
  s.setBoard 1 { s.board 1 with
    lines := Vector.ofFn fun l =>
      let reading : Option Reading := some ⟨l = 7, false⟩
      { freshLine with older := reading, newer := reading } }

theorem witness_PollOutcomeSupervises_declares :
    ∀ link ∈ [LinkState.unknown, .lost], let s := connecting link
      s.run ≠ .unpowered ∧ (s.seg 0).phase = .polling 0 1 none ∧ (s.board 1).link = link ∧ 32 ≤ (s.board 1).goodRun + 1
        ∧ (∀ l, (s.line 1 l).doorOpen = none)
        ∧ (goodReply 1 (some (heardReply 128 0))).map (·.report) = some none := by decide +kernel

/-- Within step 3 of the declaration no strike of the board is issued (R183): the close of compartment 5 queues
the sweep's next strike, and compartment 7's, the oldest of the queue, stays queued. -/
theorem test_declaration_confirms_before_issue :
    let t := confirmFresh 1 5 { connecting .online with declaring := some 1 }
    (t.comp 5).state = .vacant ∧ (t.comp 8).state = .releasing
      ∧ (t.seg 0).queue.map (·.compartment) = [7, 8] ∧ (t.seg 0).active = [] := by decide +kernel

/-- The line of compartment 6 with its newer reading and its confirmed state. -/
def lineOf (newer : Reading) (doorOpen : Bool) : Line :=
  { freshLine with newer := some newer, doorOpen := some doorOpen, occupied := some true }

/-- A close in LOADING, an opening in RESERVED without a strike, with one ISSUED and with one CONFIRMING,
and an occupancy found empty in VACANT. -/
theorem witness_PollOutcomeSupervises_changes :
    (let s := pollingLine .loading [] (lineOf ⟨false, true⟩ true);
      OnlineAfter s 1 ∧ compAt s 1 6 = some 6 ∧ ((readied 1 s).comp 6).state = .loading
        ∧ ((readied 1 s).comp 6).transient.isSome = true ∧ (s.line 1 6).doorOpen ≠ some false)
      ∧ (∀ active ∈ [[], [strike false .first (.issued 60)], [strike false .first (.confirming 60)]],
        let s := pollingLine .reserved active (lineOf ⟨true, true⟩ false)
        OnlineAfter s 1 ∧ compAt s 1 6 = some 6 ∧ ((readied 1 s).comp 6).state = .reserved
          ∧ ((readied 1 s).comp 6).transient.isSome = true ∧ (s.line 1 6).doorOpen ≠ some true
          ∧ (activeOf s 6).map (·.2) = active.head?)
      ∧ (let s := pollingLine .vacant [] (lineOf ⟨false, false⟩ false)
        OnlineAfter s 1 ∧ compAt s 1 6 = some 6 ∧ (s.line 1 6).doorOpen = some false ∧ (s.line 1 6).occupied ≠ some false)
      ∧ (goodReply 1 (some boardReply)).map (fun y => look y.readings 6) = some ⟨false, false⟩
      ∧ (goodReply 1 (some (heardReply 64 0))).map (fun y => (look y.readings 6, y.report)) = some (⟨true, false⟩, none) := by
  decide +kernel

/-- A DONE and a FAULT report of line 6 with the expected bit, for a strike whose door was seen or not. -/
theorem witness_PollOutcomeSupervises_reports :
    (goodReply 1 (some (heardReply 0 0x86))).map (·.report) = some (some (6, false, false))
      ∧ (goodReply 1 (some (heardReply 0 0xC6))).map (·.report) = some (some (6, true, false))
      ∧ ∀ a ∈ [strike true .first (.issued 60), strike false .first (.issued 60), strike false .second (.issued 60)],
        let s := pollingLine .reserved [a] freshLine
        s.run ≠ .unpowered ∧ (s.seg 0).phase = .polling 0 1 none ∧ (s.board 1).link = .online ∧ (s.board 1).expectedBit = false
          ∧ (s.seg (segmentOf 1)).active.find? (fun a => a.isIssued && a.board = 1 && a.line = 6) = some a
          ∧ (s.comp 6).transient.isSome = true ∧ (s.seg (segmentOf 1)).queue.length < 16 ∧ (s.line 1 6).newer = none := by
  decide +kernel

def oneUnissued : CourierSweep := { pickup with entries := [{ compartment := 8, kind := .returned, inFlight := false }] }

/-- Compartment 10 is SUSPECT and no longer stands as listed; 8 does. -/
def waitingEntries : List PickupEntry :=
  [{ compartment := 10, kind := .delivery, inFlight := false }, { compartment := 8, kind := .returned, inFlight := false }]

/-- None, one, three and four entries IN_FLIGHT before the two that wait, or none waiting. -/
theorem witness_SweepIssueGrants :
    (∀ A ∈ [[], [flying 4], [flying 1, flying 2, flying 3], [flying 1, flying 2, flying 3, flying 4]],
      ∀ B ∈ [[], waitingEntries], ∀ draining ∈ [true, false],
        let w := { pickup with entries := A ++ B, draining }
        (withSweep w).run ≠ .unpowered ∧ ((withSweep w).kiosk 0).session.map (fun x => x.courier) = some 9
          ∧ (∀ e ∈ A, e.inFlight = true) ∧ (∀ e ∈ B, e.inFlight = false) ∧ (w.entries.map (·.compartment)).Nodup
          ∧ w.draining = draining ∧ ∀ e, B.head? = some e → issueHeldUp (withSweep w) e = false)
      ∧ (∀ w, ((withSweep w).kiosk 0).session = some { session with sweep := some w })
      ∧ waitingEntries.filter (asListed (withSweep pickup) 9) = [{ compartment := 8, kind := .returned, inFlight := false }]
      ∧ (let s := { withSweep oneUnissued with ret := { bank.ret with concourse := .lockdown } }
        issueHeldUp s { compartment := 8, kind := .returned, inFlight := false } = true) :=
  ⟨by decide +kernel, fun _ => rfl, by decide +kernel, by decide +kernel⟩

/-- The issue rule removes the entry that no longer stands as listed and issues the next (R146). -/
theorem test_unlisted_entry_is_skipped :
    after (exec (.sweepIssue 0) (withSweep { pickup with entries := flying 4 :: waitingEntries }))
        (fun t => ((t.kiosk 0).session.bind fun x => x.sweep.map fun w => (w.entries, w.skipped), (t.comp 8).state,
          (t.comp 10).state))
      = some (some ([flying 4, { compartment := 8, kind := .returned, inFlight := true }], 1), .releasing, .suspect) := by
  decide +kernel

/-! ### Collections and sweeps (R129, R146) -/

/-- The kiosk's last door result after an occupied close of a drop, resolved from RECONCILE or not (R129). -/
theorem test_resolved_drop_writes_no_result :
    [true, false].map (fun resolved =>
      ((closeHandling 6 true (bank.setComp 6 { bank.comp 6 with
        state := .loading, transient := some { dropping with resolved } })).kiosk 0).doorResult)
      = [none, some { compartment := 6, purpose := .drop, outcome := .completed }] := by decide +kernel

/-- An entry whose compartment has lost its map entry is removed and the sweep, with no entry left, ends
(R146). -/
theorem test_mapless_entry_is_removed :
    after (exec (.sweepIssue 0) ((withSweep oneUnissued).setComp 8 { bank.comp 8 with map := none, state := .suspect }))
        (fun t => ((t.kiosk 0).session.map fun x => x.sweep.isNone, (t.comp 8).state))
      = some (some true, .suspect) := by decide +kernel

/-! ### Witnesses: laws and invariants -/

theorem witness_ChargeGrowsWithinCeiling : 1 ≤ row.period ∧ 1439 < 1440 ∧ 1 ≤ delivery.snapshot.period
    ∧ 1000 + 60 * delivery.snapshot.freePeriod ≤ 1000 + 60 * delivery.snapshot.freePeriod := by decide

theorem witness_GenerationAndAllocation :
    (1 : BitVec 32) ≠ 0 ∧ (∃ g code, generateCode bank.ret.directory 8 1 = (g, some code))
      ∧ (∃ u, allocate bank .S false false = some (u, 6)) ∧ allocate State.reset .XL false false = none
      ∧ Searched bank .S true true .XL ∧ ¬ Searched { bank with ret := blankRetained } .S true true .XL :=
  ⟨by decide, exists_second (by decide +kernel), exists_first test_allocation, allocate_unmapped rfl .XL false false,
    by unfold Searched; decide +kernel, by unfold Searched; decide +kernel⟩

/-- A search begins one past the cursor and wraps from 767 to 0 (R9). -/
theorem test_visits :
    visitedBefore 44 45 = 0 ∧ visitedBefore 44 767 = 722 ∧ visitedBefore 44 0 = 723 ∧ visitedBefore 44 44 = 767
      ∧ visitedBefore 767 0 = 0 := by decide

theorem witness_TablesChangeOnlyByTheirCommands :
    (∃ t, exec .replyTransmitted State.reset = .next t) ∧ (∀ cause straps, Instr.replyTransmitted ≠ .reset cause straps)
      ∧ (∀ straps, Instr.replyTransmitted ≠ .blankStart straps) ∧ ∀ r, Instr.replyTransmitted ≠ .broadcast r :=
  ⟨⟨_, rfl⟩, nofun, nofun, nofun⟩

theorem witness_SettledIsKept :
    Settled { State.reset with pending := [.replyTransmitted] }
      ∧ ∃ t, step { State.reset with pending := [.replyTransmitted] } = .next t := ⟨settled_reset, _, rfl⟩

theorem pickupsInOrder_withSweep : PickupsInOrder (withSweep pickup) := by
  intro k x w hx hw
  by_cases hk : k = 0
  · subst hk
    cases Option.some.inj (hx.symm.trans (rfl : ((withSweep pickup).kiosk 0).session = some { session with sweep := some pickup }))
    cases hw
    exact ⟨by decide, [flying 4], [{ compartment := 8, kind := .returned, inFlight := false }], rfl, by decide, by decide⟩
  · have none : ∀ j, j ≠ 0 → ((withSweep pickup).kiosk j).session.isNone = true := by decide +kernel
    rw [Option.isNone_iff_eq_none.mp (none k hk)] at hx
    cases hx

theorem witness_CapacitiesAreKept :
    (∃ t, step { State.reset with pending := [.replyTransmitted] } = .next t)
      ∧ TrunkBounded State.reset ∧ QueuesBounded State.reset ∧ AlarmsDistinct State.reset
      ∧ TablesBounded State.reset ∧ PickupsInOrder (withSweep pickup) :=
  ⟨⟨_, rfl⟩, by simp [TrunkBounded, State.reset], by unfold QueuesBounded; decide +kernel,
    by unfold AlarmsDistinct; decide +kernel,
    ⟨by decide, fun i => by simp [look, State.reset, blankRetained], by decide, by decide⟩, pickupsInOrder_withSweep⟩

theorem witness_RangesAreKept :
    (∃ t, step { State.reset with pending := [.replyTransmitted] } = .next t)
      ∧ SkcConsistent State.reset ∧ WithdrawnAgrees State.reset ∧ LockoutsAgree State.reset ∧ LoadsInRange State.reset
      ∧ ImagesFollowLinks bank ∧ NoneDeclared State.reset :=
  ⟨⟨_, rfl⟩, by unfold SkcConsistent; decide +kernel, by unfold WithdrawnAgrees; decide +kernel,
    by unfold LockoutsAgree; decide +kernel,
    ⟨by decide +kernel, by decide +kernel, fun i t h => by simp [State.reset, blankRetained, look] at h, by decide +kernel,
      fun _ h => by cases h⟩,
    by unfold ImagesFollowLinks; decide +kernel, rfl⟩

theorem witness_ReservationsAreKept :
    ReservationsAgree State.reset ∧ ∃ t, step { State.reset with pending := [.replyTransmitted] } = .next t :=
  ⟨⟨fun c => by simp [State.comp, look, State.reset, blankRetained, blankCompartment, CompState.transacting],
    by decide +kernel, by decide +kernel⟩, _, rfl⟩

end Sys2Proof.Tests
end

/-! No command stops, and none touches the queue of waiting commands (R2; log 3). Most operations are known to leave
the queue alone since they write nothing of the fixed part of the state; those that write beyond it have a lemma on the
queue each. On these stand the frame of an event and of a request, the checks of a request, and then the commands in
the order of their files. -/

namespace Sys2Proof.Machine

/-- A command's meaning gives every state a successor, with the same commands waiting. -/
def KeepsQueue (run : State → Result) : Prop := ∀ s, Completes (run s) fun t => t.pending = s.pending

/-- Where an event has an effect, the same commands wait after it. -/
def EffectKeepsQueue (effect : State → Option State) : Prop := ∀ s, ∀ t ∈ effect s, t.pending = s.pending

/-! ### The fixed part of the state -/

theorem fixed_reserveSlot {s t : State} (h : reserveSlot s = some t) : t.fixed = s.fixed := by
  unfold reserveSlot at h
  split at h
  · cases h; exact fixed_takeSlot s
  · cases h

@[simp] theorem fixed_grantCollection (c : CompNo) (k : KioskNo) (s : State) :
    (grantCollection c k s).fixed = s.fixed := by simp [grantCollection]

@[simp] theorem fixed_acceptDeclare (k : KioskNo) (x : Session) (f : DeclareFields) (c : CompNo) (code : Nat)
    (s : State) : (acceptDeclare k x f c code s).state.fixed = s.fixed := by simp [acceptDeclare]

@[simp] theorem fixed_abandonParcel (c : CompNo) (d : Delivery) (deposited now : Nat) (s : State) :
    (abandonParcel c d deposited now s).fixed = s.fixed := rfl

@[simp] theorem fixed_expireHeld (c : CompNo) (s : State) : (expireHeld c s).fixed = s.fixed := by
  unfold expireHeld
  split
  · split <;> simp
  · rfl

@[simp] theorem fixed_scanComp (now : Nat) (c : CompNo) (s : State) : (scanComp now c s).fixed = s.fixed := by
  rw [scanComp_eq]
  split
  · split
    next t h => simp [fixed_reserveSlot h]
    next => simp
  · simp

@[simp] theorem fixed_lapseReturns (now : Nat) (s : State) : (lapseReturns now s).fixed = s.fixed := rfl

@[simp] theorem fixed_takeBoundary (now : Nat) (s : State) : (takeBoundary now s).fixed = s.fixed :=
  (fixed_lapseReturns now _).trans (fixed_forEach _ (fixed_scanComp now) s)

@[simp] theorem fixed_expireQuote (c : CompNo) (s : State) : (expireQuote c s).fixed = s.fixed := by
  unfold expireQuote
  split
  · split <;> simp
  · rfl

@[simp] theorem fixed_cancelQueue (g : SegNo) (n : Nat) (s : State) : (cancelQueue g n s).fixed = s.fixed := by
  induction n generalizing s with
  | zero => rfl
  | succ n ih =>
    unfold cancelQueue
    split
    · simp [ih]
    · rfl

@[simp] theorem fixed_evacuate (s : State) : (evacuate s).fixed = s.fixed := by
  unfold evacuate; dsimp only
  rw [fixed_forEach _ fixed_dropQuote, fixed_forEach _ fun g s => fixed_cancelQueue g _ s]
  rfl

@[simp] theorem fixed_unnameBoard (b : BoardNo) (s : State) : (unnameBoard b s).fixed = s.fixed := by
  unfold unnameBoard; split <;> simp

@[simp] theorem fixed_nameBoard (b : BoardNo) (s : State) : (nameBoard b s).fixed = s.fixed := by
  unfold nameBoard; split <;> simp

/-! ### The queue through operations that write beyond the fixed part -/

theorem allocate_pending {s t : State} {cls : SizeClass} {upsize deposit : Bool} {c : CompNo}
    (h : allocate s cls upsize deposit = some (t, c)) : t.pending = s.pending := by rw [allocate_frame h]

theorem generation_pending {s t : State} {code : Option Nat} (h : generation s = (t, code)) :
    t.pending = s.pending := by
  have : (generation s).1.pending = s.pending := rfl
  rwa [h] at this

theorem takeFrame_pending {f : Frame} {s t : State} (h : takeFrame f s = some t) : t.pending = s.pending := by
  obtain ⟨-, -, -, rfl⟩ := takeFrame_some h; rfl

@[simp] theorem settle_pending (s : State) : (settle s).pending = s.pending := by rw [settle_eq]

@[simp] theorem touchIdle_pending (r : Request) (s : State) : (touchIdle r s).pending = s.pending := by
  rw [touchIdle_eq]

@[simp] theorem sendReply_pending (kind : Byte) (r : Request) (a : Answer) :
    (sendReply kind r a).pending = a.state.pending := by
  unfold sendReply; split <;> rfl

theorem collectWord_pending (n : Fin 4) (s : State) : (collectWord n s).pending = s.pending := by
  unfold collectWord; split <;> rfl

theorem storeKeys_pending (keys : Vector (BitVec 32) 4) (s : State) : (storeKeys keys s).pending = s.pending := by
  unfold storeKeys; dsimp only; split <;> rfl

@[simp] theorem unnameBoard_pending (b : BoardNo) (s : State) : (unnameBoard b s).pending = s.pending :=
  pending_of_fixed (fixed_unnameBoard b s)

@[simp] theorem nameBoard_pending (b : BoardNo) (s : State) : (nameBoard b s).pending = s.pending :=
  pending_of_fixed (fixed_nameBoard b s)

theorem storeSlot_pending (g : SegNo) (slot : SlotNo) (content : Option SlotContent) (s : State) :
    (storeSlot g slot content s).pending = s.pending := by
  unfold storeSlot; dsimp only
  repeat' split
  all_goals simp

theorem storeBudget_pending (g : SegNo) (v : Nat) (s : State) : (storeBudget g v s).pending = s.pending :=
  (pending_of_fixed (fixed_applyIssue g _)).trans rfl

/-- Stated for any state: with `takeBoundary` in its place, deciding this by computation would unroll the scan of all
768 compartments. -/
theorem boundariesDue_pending (s : State) (n : Nat) : { s with boundariesDue := n }.pending = s.pending := rfl

theorem stepClock_pending (v t : Nat) (s : State) : (stepClock v t s).pending = s.pending := by
  have expired : (forEach expireQuote { s with clock := some t }).pending = s.pending :=
    (pending_of_fixed (fixed_forEach _ fixed_expireQuote _)).trans rfl
  unfold stepClock; dsimp only
  split
  · split
    · exact (pending_of_fixed (fixed_takeBoundary t _)).trans expired
    · exact expired
  · rfl

theorem applyTime_pending (t : Nat) (s : State) : (applyTime t s).pending = s.pending := by
  unfold applyTime
  split
  · rfl
  · split
    · rfl
    · exact stepClock_pending ..

theorem adopt_pending (state : Concourse) (s : State) : (adopt state s).pending = s.pending := by
  unfold adopt; dsimp only
  rw [pending_of_fixed (fixed_forEach _ fixed_applyIssue _)]
  split
  · exact (pending_of_fixed (fixed_evacuate _)).trans rfl
  · rfl

theorem applyCode_pending (code : Nat) (s : State) : (applyCode code s).pending = s.pending := by
  unfold applyCode; dsimp only
  split
  · split
    · rfl
    · exact adopt_pending ..
  · rfl

theorem coldStart_pending (r : Retained) (straps : BankId) (alarms : List Alarm) (s : State) :
    (coldStart r straps alarms s).pending = s.pending :=
  (pending_of_fixed (fixed_forEach _ fixed_startSweep _)).trans rfl

theorem resetPart_pending (straps : BankId) (s : State) : (resetPart straps s).pending = s.pending := by
  unfold resetPart
  split
  · exact coldStart_pending ..
  · exact coldStart_pending ..

/-! ### Events and requests -/

theorem event_keepsQueue {effect : State → Option State} (h : EffectKeepsQueue effect) :
    KeepsQueue fun s => event s effect := by
  intro s
  dsimp only
  by_cases power : s.run = .unpowered
  · exact ⟨s, event_unpowered power effect, rfl⟩
  · cases e : effect s with
    | none => exact ⟨s, event_none e, rfl⟩
    | some t => exact ⟨settle t, event_some power e, (settle_pending t).trans (h s t e)⟩

/-- A request keeps the queue where its owner does: the trunk takes the frame and sends the reply beside it. -/
theorem request_keepsQueue {kind : Byte} {r : Request} {own : State → Answer}
    (h : ∀ s, (own s).state.pending = s.pending) : KeepsQueue fun s => request kind r s own := by
  refine event_keepsQueue fun s t ht => ?_
  obtain ⟨u, hu, rfl⟩ := Option.map_eq_some_iff.mp ht
  rw [sendReply_pending, h, touchIdle_pending, takeFrame_pending hu]

/-- An effect that has a condition keeps the queue where it does so under the condition. -/
theorem pending_of_due {p : Prop} [Decidable p] {s t u : State} (h : t ∈ if p then some u else none)
    (kept : u.pending = s.pending) : t.pending = s.pending := by
  obtain ⟨-, h⟩ := Option.ite_none_right_eq_some.mp h
  rwa [← Option.some.inj h]

/-! ### The checks of a request

Each check either refuses, and then changes at most the SKC, or hands on to what comes after it. -/

section checks

variable {α : Type} {r : Request} {parsed : Option α} {s : State}

theorem withBody_pending {own : α → Answer} (h : ∀ x, (own x).state.pending = s.pending) :
    (withBody parsed s own).state.pending = s.pending := by
  cases parsed with
  | some x => exact h x
  | none => rfl

theorem fromKiosk_pending {own : KioskNo → Answer} (h : ∀ k, (own k).state.pending = s.pending) :
    (fromKiosk r s own).state.pending = s.pending := by
  unfold fromKiosk
  split
  · exact h _
  · rfl

theorem fromBackend_pending {own : Answer} (h : own.state.pending = s.pending) :
    (fromBackend r s own).state.pending = s.pending := by
  unfold fromBackend
  split
  · exact h
  · rfl

theorem admitted_pending {own : State → Answer} (h : ∀ t, (own t).state.pending = t.pending) :
    (admitted s own).state.pending = s.pending := by
  unfold admitted
  split
  case h_1 => exact h s
  case h_2 => exact h (extendUnlock s)
  all_goals rfl

theorem maintenance_pending {own : α → State → Answer} (h : ∀ x t, (own x t).state.pending = t.pending) :
    (maintenance r parsed s own).state.pending = s.pending := by
  unfold maintenance
  split
  · exact withBody_pending fun x => admitted_pending (h x)
  · rfl

theorem staffRequest_pending {own : α → State → Answer} (h : ∀ x t, (own x t).state.pending = t.pending) :
    (staffRequest r parsed s own).state.pending = s.pending := by
  unfold staffRequest
  split
  · exact withBody_pending fun x => h x s
  · exact withBody_pending fun x => admitted_pending (h x)
  · rfl

theorem customerConcourse_pending {own : Answer} (h : own.state.pending = s.pending) :
    (customerConcourse s own).state.pending = s.pending := by
  unfold customerConcourse
  split
  case h_1 | h_2 => exact h
  all_goals rfl

theorem courierConcourse_pending {own : Answer} (h : own.state.pending = s.pending) :
    (courierConcourse s own).state.pending = s.pending := by
  unfold courierConcourse
  split
  case h_1 | h_2 | h_3 => exact h
  all_goals rfl

theorem notLockedOut_pending {k : KioskNo} {own : Answer} (h : own.state.pending = s.pending) :
    (notLockedOut k s own).state.pending = s.pending := by
  unfold notLockedOut
  split
  · rfl
  · exact h

theorem withClock_pending {own : Nat → Answer} (h : ∀ now, (own now).state.pending = s.pending) :
    (withClock s own).state.pending = s.pending := by
  unfold withClock
  split
  · exact h _
  · rfl

theorem customer_pending {own : KioskNo → α → Answer} (h : ∀ k x, (own k x).state.pending = s.pending) :
    (customer r parsed s own).state.pending = s.pending :=
  fromKiosk_pending fun k => withBody_pending fun x => customerConcourse_pending (notLockedOut_pending (h k x))

theorem courierRequest_pending {own : KioskNo → α → State → Answer}
    (h : ∀ k x t, (own k x t).state.pending = t.pending) :
    (courierRequest r parsed s own).state.pending = s.pending := by
  refine fromKiosk_pending fun k => ?_
  have touched : (touchSession k s).pending = s.pending := pending_of_fixed (fixed_touchSession k s)
  rw [← touched]
  exact withBody_pending fun x => h k x _

theorem withSession_pending {k : KioskNo} {own : Session → Answer} (h : ∀ x, (own x).state.pending = s.pending) :
    (withSession k s own).state.pending = s.pending := by
  unfold withSession
  split
  · exact h _
  · rfl

end checks

/-! ### Customers -/

theorem chargeCollect_pending (k : KioskNo) (now : Nat) (c : CompNo) (s : State) :
    (chargeCollect k now c s).state.pending = s.pending := by
  unfold chargeCollect; dsimp only
  split
  · split
    · rfl
    · split
      · rfl
      · split
        next => rfl
        next t ht => exact pending_of_fixed ((fixed_grantCollection c k t).trans (fixed_reserveSlot ht))
  · rfl

theorem ownCollect_pending (k : KioskNo) (code now : Nat) (s : State) :
    (ownCollect k code now s).state.pending = s.pending := by
  unfold ownCollect; dsimp only
  split
  · exact pending_of_fixed (fixed_countFailure k s)
  · split
    · rfl
    · split
      · split
        · rw [chargeCollect_pending]
          exact pending_of_fixed (by simp)
        · split
          · exact chargeCollect_pending ..
          · rfl
      · exact chargeCollect_pending ..

theorem execCollect_keepsQueue (r : Request) : KeepsQueue (execCollect r) :=
  request_keepsQueue fun _ =>
    customer_pending fun k code => withClock_pending fun now => ownCollect_pending k code now _

theorem acceptCollectionPay_pending (k : KioskNo) (p : PayFields) (c : CompNo) (s : State) :
    (acceptCollectionPay k p c s).state.pending = s.pending :=
  (pending_of_fixed (fixed_grantCollection c k _)).trans rfl

theorem acceptPostagePay_pending (k : KioskNo) (p : PayFields) (c : CompNo) (s : State) :
    (acceptPostagePay k p c s).state.pending = s.pending :=
  (pending_of_fixed (fixed_queueStrike c .drop _)).trans rfl

theorem payWithoutQuote_pending (k : KioskNo) (p : PayFields) (s : State) :
    (payWithoutQuote k p s).state.pending = s.pending := by
  unfold payWithoutQuote
  split
  · split <;> rfl
  · rfl

theorem payQuote_pending (k : KioskNo) (p : PayFields) (c : CompNo) (q : Quote) (s : State) :
    (payQuote k p c q s).state.pending = s.pending := by
  unfold payQuote
  split; · rfl
  split; · exact pending_of_fixed (fixed_dropQuote c s)
  split; · rfl
  split; · rfl
  split
  · exact acceptPostagePay_pending ..
  · split
    · rfl
    · split
      next t ht => exact (acceptCollectionPay_pending k p c t).trans (pending_of_fixed (fixed_reserveSlot ht))
      next => rfl

theorem ownPay_pending (k : KioskNo) (p : PayFields) (s : State) : (ownPay k p s).state.pending = s.pending := by
  unfold ownPay
  split
  · split
    · split
      · exact payQuote_pending ..
      · exact payWithoutQuote_pending ..
    · exact payWithoutQuote_pending ..
  · exact payWithoutQuote_pending ..

theorem echoPay_state (parsed : Option PayFields) (a : Answer) : (echoPay parsed a).state = a.state := by
  unfold echoPay; split <;> rfl

theorem execPay_keepsQueue (r : Request) : KeepsQueue (execPay r) :=
  request_keepsQueue fun s => by
    rw [echoPay_state]
    exact customer_pending fun k p => ownPay_pending k p s

theorem admitDrop_pending (k : KioskNo) (now : Nat) (e : ReturnEntry) (c : CompNo) (s : State) :
    (admitDrop k now e c s).state.pending = s.pending := by
  unfold admitDrop; dsimp only
  split
  · exact pending_of_fixed (by simp)
  · rfl

theorem ownReturnDrop_pending (k : KioskNo) (reference now : Nat) (s : State) :
    (ownReturnDrop k reference now s).state.pending = s.pending := by
  unfold ownReturnDrop; dsimp only
  split; · exact pending_of_fixed (fixed_countFailure k s)
  split; · rfl
  split; · rfl
  split; · rfl
  next t ht =>
    have reserved : t.pending = s.pending := (pending_of_fixed (fixed_reserveSlot ht)).trans rfl
    split; · exact reserved
    next u c hu =>
      have allocated : u.pending = s.pending := (allocate_pending hu).trans reserved
      split
      · exact (admitDrop_pending k now _ c u).trans allocated
      · exact allocated

theorem execReturnDrop_keepsQueue (r : Request) : KeepsQueue (execReturnDrop r) :=
  request_keepsQueue fun _ =>
    customer_pending fun k reference => withClock_pending fun now => ownReturnDrop_pending k reference now _

theorem execDoorStatus_keepsQueue (r : Request) : KeepsQueue (execDoorStatus r) :=
  request_keepsQueue fun _ => customer_pending fun _ _ => by split <;> rfl

/-! ### Couriers -/

theorem ownSignOn_pending (k : KioskNo) (id : Nat) (credential : BitVec 32) (s : State) :
    (ownSignOn k id credential s).state.pending = s.pending := by
  have failed : (countFailure k s).pending = s.pending := pending_of_fixed (fixed_countFailure k s)
  unfold ownSignOn
  split; · rfl
  split
  · split
    · split <;> rfl
    · exact failed
  · exact failed

theorem execSignOn_keepsQueue (r : Request) : KeepsQueue (execSignOn r) :=
  request_keepsQueue fun _ => courierRequest_pending fun k ⟨id, credential⟩ s =>
    courierConcourse_pending (notLockedOut_pending (ownSignOn_pending k id credential s))

theorem execSignOff_keepsQueue (r : Request) : KeepsQueue (execSignOff r) :=
  request_keepsQueue fun _ => courierRequest_pending fun _ _ _ => withSession_pending fun _ => rfl

theorem placeDeclare_pending (k : KioskNo) (x : Session) (f : DeclareFields) (cls : SizeClass) (s : State) :
    (placeDeclare k x f cls s).state.pending = s.pending := by
  unfold placeDeclare
  split; · rfl
  next t ht =>
    have reserved : t.pending = s.pending := pending_of_fixed (fixed_reserveSlot ht)
    split; · exact reserved
    next u c hu =>
      have allocated : u.pending = s.pending := (allocate_pending hu).trans reserved
      split; · exact allocated
      split
      next v code hv =>
        exact (pending_of_fixed (fixed_acceptDeclare k x f c code v)).trans ((generation_pending hv).trans allocated)
      next v hv => exact (generation_pending hv).trans allocated

theorem rangeDeclare_pending (k : KioskNo) (x : Session) (e : Courier) (f : DeclareFields) (s : State) :
    (rangeDeclare k x e f s).state.pending = s.pending := by
  refine withClock_pending fun _ => ?_
  split; · rfl
  split; · rfl
  split; · rfl
  split; · rfl
  split; · rfl
  exact placeDeclare_pending ..

theorem execDeclare_keepsQueue (r : Request) : KeepsQueue (execDeclare r) :=
  request_keepsQueue fun _ => courierRequest_pending fun k f s => withSession_pending fun x => by
    split
    · split
      · exact courierConcourse_pending (rangeDeclare_pending k x _ f s)
      · rfl
    · rfl

theorem execSessionStatus_keepsQueue (r : Request) : KeepsQueue (execSessionStatus r) :=
  request_keepsQueue fun _ => courierRequest_pending fun _ _ _ => withSession_pending fun _ => rfl

theorem startCourierSweep_pending (k : KioskNo) (x : Session) (returns recover : Bool) (s : State) :
    (startCourierSweep k x returns recover s).state.pending = s.pending := by
  unfold startCourierSweep; dsimp only
  split; · rfl
  split; · rfl
  exact pending_of_fixed (by simp)

theorem execSweep_keepsQueue (r : Request) : KeepsQueue (execSweep r) :=
  request_keepsQueue fun _ => courierRequest_pending fun k ⟨returns, recover⟩ s => withSession_pending fun x => by
    split; · rfl
    split
    · split
      · rfl
      · exact courierConcourse_pending (startCourierSweep_pending k x returns recover s)
    · rfl

theorem execSweepEnd_keepsQueue (r : Request) : KeepsQueue (execSweepEnd r) :=
  request_keepsQueue fun _ => courierRequest_pending fun _ _ _ => withSession_pending fun _ => by split <;> rfl

/-! ### The backend and the staff -/

theorem execFetchNotice_keepsQueue (r : Request) : KeepsQueue (execFetchNotice r) :=
  request_keepsQueue fun _ => fromBackend_pending <| withBody_pending fun _ => by split <;> rfl

theorem execRevoke_keepsQueue (r : Request) : KeepsQueue (execRevoke r) :=
  request_keepsQueue fun _ => fromBackend_pending <| withBody_pending fun _ => by
    split; · rfl
    split
    · rfl
    · split <;> rfl

theorem execReissue_keepsQueue (r : Request) : KeepsQueue (execReissue r) :=
  request_keepsQueue fun s => fromBackend_pending <| withBody_pending fun _ => by
    split; · rfl
    split; · rfl
    split; · rfl
    split
    next t ht => exact generation_pending ht
    next t code ht => exact (generation_pending ht :)

theorem execLoadCourier_keepsQueue (r : Request) : KeepsQueue (execLoadCourier r) :=
  request_keepsQueue fun _ => fromBackend_pending <| withBody_pending fun _ => by
    split; · rfl
    dsimp only
    split <;> rfl

theorem execRemoveCourier_keepsQueue (r : Request) : KeepsQueue (execRemoveCourier r) :=
  request_keepsQueue fun _ => fromBackend_pending <| withBody_pending fun _ => by
    split; · rfl
    split <;> rfl

theorem execLoadReturn_keepsQueue (r : Request) : KeepsQueue (execLoadReturn r) :=
  request_keepsQueue fun _ => fromBackend_pending <| withBody_pending fun _ => by
    split; · rfl
    split; · rfl
    split; · rfl
    split <;> rfl

theorem execRemoveReturn_keepsQueue (r : Request) : KeepsQueue (execRemoveReturn r) :=
  request_keepsQueue fun _ => fromBackend_pending <| withBody_pending fun _ => by
    split; · rfl
    split; · rfl
    split <;> rfl

theorem execSettle_keepsQueue (r : Request) : KeepsQueue (execSettle r) :=
  request_keepsQueue fun _ => fromBackend_pending <| withBody_pending fun _ => by
    split
    · split <;> rfl
    · rfl

theorem execQueryCompartment_keepsQueue (r : Request) : KeepsQueue (execQueryCompartment r) :=
  request_keepsQueue fun _ => staffRequest_pending fun _ _ => by split <;> rfl

theorem clearEmpty_pending (c : CompNo) (s : State) : (clearEmpty c s).state.pending = s.pending := by
  unfold clearEmpty; dsimp only
  split
  · split
    · split
      next => rfl
      next t ht => exact (pending_of_fixed (fixed_reserveSlot ht) :)
    · rfl
  · rfl

theorem clearOccupied_pending (c : CompNo) (s : State) : (clearOccupied c s).state.pending = s.pending := by
  unfold clearOccupied; dsimp only
  split; · rfl
  dsimp only
  rw [apply_ite State.pending]
  exact ite_self _

theorem execClear_keepsQueue (r : Request) : KeepsQueue (execClear r) :=
  request_keepsQueue fun _ => staffRequest_pending fun _ t => by
    split; · rfl
    split; · rfl
    split
    · exact clearEmpty_pending _ t
    · exact clearOccupied_pending _ t
    · rfl

theorem execFetchAlarm_keepsQueue (r : Request) : KeepsQueue (execFetchAlarm r) :=
  request_keepsQueue fun _ => staffRequest_pending fun _ _ => by split <;> rfl

/-! ### The station -/

theorem execBroadcast_keepsQueue (r : Request) : KeepsQueue (execBroadcast r) :=
  request_keepsQueue fun s => by
    split
    · exact withBody_pending fun ⟨code, time⟩ => (applyCode_pending code _).trans (applyTime_pending time s)
    · rfl

/-! ### The service terminal -/

theorem unlockWith_pending (index : Nat) (word : BitVec 32) (s : State) :
    (unlockWith index word s).state.pending = s.pending := by
  unfold unlockWith
  split
  · split
    · exact collectWord_pending ..
    · rfl
  · split
    · rfl
    · split <;> rfl

theorem execUnlockKey_keepsQueue (r : Request) : KeepsQueue (execUnlockKey r) :=
  request_keepsQueue fun s => by
    split
    · exact withBody_pending fun ⟨index, word⟩ => unlockWith_pending index word s
    · rfl

theorem endService_pending (s : State) : (endService s).state.pending = s.pending := by
  unfold endService; split <;> rfl

theorem execEndService_keepsQueue (r : Request) : KeepsQueue (execEndService r) :=
  request_keepsQueue fun s => by
    split
    · exact withBody_pending fun _ => endService_pending s
    · rfl

theorem execLoadMap_keepsQueue (r : Request) : KeepsQueue (execLoadMap r) :=
  request_keepsQueue fun _ => maintenance_pending fun ⟨_, _⟩ _ => by
    dsimp only
    split
    · rfl
    · split <;> rfl
    · split; · rfl
      split; · rfl
      split <;> rfl

theorem execLoadTariff_keepsQueue (r : Request) : KeepsQueue (execLoadTariff r) :=
  request_keepsQueue fun _ => maintenance_pending fun ⟨_, _⟩ _ => by
    dsimp only
    split; · rfl
    split <;> rfl

theorem execLoadSlot_keepsQueue (r : Request) : KeepsQueue (execLoadSlot r) :=
  request_keepsQueue fun _ => maintenance_pending fun ⟨_, _, _⟩ _ => by
    dsimp only
    split
    · exact storeSlot_pending ..
    · split; · rfl
      split; · rfl
      split; · rfl
      exact storeSlot_pending ..
    · rfl

theorem execSetBudget_keepsQueue (r : Request) : KeepsQueue (execSetBudget r) :=
  request_keepsQueue fun _ => maintenance_pending fun ⟨_, _⟩ _ => by
    dsimp only
    split
    · rfl
    · exact storeBudget_pending ..

theorem execSetHold_keepsQueue (r : Request) : KeepsQueue (execSetHold r) :=
  request_keepsQueue fun _ => maintenance_pending fun _ _ => rfl

theorem execSetEnables_keepsQueue (r : Request) : KeepsQueue (execSetEnables r) :=
  request_keepsQueue fun _ => maintenance_pending fun _ _ => rfl

theorem execSeedGenerator_keepsQueue (r : Request) : KeepsQueue (execSeedGenerator r) :=
  request_keepsQueue fun _ => maintenance_pending fun _ _ => rfl

theorem execSetKeys_keepsQueue (r : Request) : KeepsQueue (execSetKeys r) :=
  request_keepsQueue fun _ => maintenance_pending fun keys s => by
    split
    · rfl
    · exact storeKeys_pending keys s

theorem execWithdraw_keepsQueue (r : Request) : KeepsQueue (execWithdraw r) :=
  request_keepsQueue fun _ => maintenance_pending fun _ _ => by
    split; · rfl
    split; · rfl
    split <;> rfl

theorem execReinstate_keepsQueue (r : Request) : KeepsQueue (execReinstate r) :=
  request_keepsQueue fun _ => maintenance_pending fun _ _ => by
    split; · rfl
    split <;> rfl

theorem execRestart_keepsQueue (r : Request) : KeepsQueue (execRestart r) :=
  request_keepsQueue fun _ => maintenance_pending fun _ _ => rfl

theorem execBlank_keepsQueue (r : Request) : KeepsQueue (execBlank r) :=
  request_keepsQueue fun _ => maintenance_pending fun _ _ => by split <;> rfl

/-! ### The trunk -/

theorem execFrameReceive_keepsQueue (bytes : List Byte) : KeepsQueue (execFrameReceive bytes) :=
  event_keepsQueue fun s t ht => by
    split at ht
    · exact pending_of_due ht rfl
    · cases ht

theorem execReplyTransmitted_keepsQueue : KeepsQueue execReplyTransmitted :=
  event_keepsQueue fun s t ht => by
    split at ht
    · cases ht; rfl
    · cases ht

theorem execUnknownKind_keepsQueue (kind : Byte) (r : Request) : KeepsQueue (execUnknownKind kind r) := by
  intro s
  unfold execUnknownKind
  split
  · exact request_keepsQueue (fun _ => rfl) s
  · exact ⟨s, rfl, rfl⟩

/-! ### Resets and power -/

theorem execReset_keepsQueue (cause : ResetCause) (straps : BankId) : KeepsQueue (execReset cause straps) := by
  refine fun s => ⟨_, rfl, ?_⟩
  split
  · exact resetPart_pending straps s
  · rfl

theorem execBlankStart_keepsQueue (straps : BankId) : KeepsQueue (execBlankStart straps) := by
  refine fun s => ⟨_, rfl, ?_⟩
  split
  · exact coldStart_pending ..
  · rfl

theorem execLossOfMainPower_keepsQueue (interrupted : Bool) : KeepsQueue (execLossOfMainPower interrupted) := by
  refine fun s => ⟨_, rfl, ?_⟩
  split
  · rfl
  · split <;> rfl

/-! ### The clock and the deadlines -/

theorem execClockTick_keepsQueue : KeepsQueue execClockTick :=
  event_keepsQueue fun s t ht => by
    dsimp only at ht
    split at ht
    · split at ht <;> (cases ht; rfl)
    · cases ht; rfl

theorem execMinuteBoundary_keepsQueue : KeepsQueue execMinuteBoundary :=
  event_keepsQueue fun s t ht => by
    split at ht
    · refine pending_of_due ht ?_
      rw [boundariesDue_pending]
      exact pending_of_fixed (fixed_takeBoundary _ s)
    · cases ht

theorem execQuoteExpiry_keepsQueue (c : CompNo) : KeepsQueue (execQuoteExpiry c) :=
  event_keepsQueue fun s t ht => by
    split at ht
    · exact pending_of_due ht (pending_of_fixed (fixed_dropQuote c s))
    · cases ht

theorem execLockoutDeadline_keepsQueue (k : KioskNo) : KeepsQueue (execLockoutDeadline k) :=
  event_keepsQueue fun s t ht => by
    split at ht
    · exact pending_of_due ht (pending_of_fixed (fixed_setKiosk s k _))
    · cases ht

theorem execInactivityDeadline_keepsQueue (k : KioskNo) : KeepsQueue (execInactivityDeadline k) :=
  event_keepsQueue fun s t ht => by
    split at ht
    · exact pending_of_due ht (pending_of_fixed (fixed_setSession k none s))
    · cases ht

theorem execEnergiseDeadline_keepsQueue (c : CompNo) : KeepsQueue (execEnergiseDeadline c) :=
  event_keepsQueue fun s t ht => by
    split at ht
    next g a _ =>
      split at ht
      · exact pending_of_due ht (pending_of_fixed (fixed_energiseEnds g a s))
      · cases ht
    next => cases ht

theorem execConfirmDeadline_keepsQueue (c : CompNo) : KeepsQueue (execConfirmDeadline c) :=
  event_keepsQueue fun s t ht => by
    split at ht
    next g a _ =>
      split at ht
      · exact pending_of_due ht (pending_of_fixed (fixed_attemptFails g a s))
      · cases ht
    next => cases ht

theorem execStrikeAgeing_keepsQueue (c : CompNo) : KeepsQueue (execStrikeAgeing c) :=
  event_keepsQueue fun s t ht => by
    split at ht
    · exact pending_of_due ht (pending_of_fixed (by simp))
    · cases ht

theorem execAjarDeadline_keepsQueue (c : CompNo) : KeepsQueue (execAjarDeadline c) :=
  event_keepsQueue fun s t ht => by
    split at ht
    · exact pending_of_due ht (pending_of_fixed (by simp))
    · cases ht
    · cases ht

theorem execKioskIdleDeadline_keepsQueue : KeepsQueue execKioskIdleDeadline :=
  event_keepsQueue fun s t ht => by
    split at ht
    · exact pending_of_due ht rfl
    · cases ht

theorem execUnlockDeadline_keepsQueue : KeepsQueue execUnlockDeadline :=
  event_keepsQueue fun s t ht => by
    split at ht
    · exact pending_of_due ht rfl
    · cases ht

/-! ### Sweeps and polls -/

theorem execQuietSweepStart_keepsQueue (g : SegNo) : KeepsQueue (execQuietSweepStart g) :=
  event_keepsQueue fun s _ ht => pending_of_due ht (pending_of_fixed (fixed_startSweep g s))

theorem execPollOutcome_keepsQueue (g : SegNo) (heard : Option (List Byte)) : KeepsQueue (execPollOutcome g heard) :=
  event_keepsQueue fun s t ht => by
    split at ht
    · cases ht; exact pending_of_fixed (by simp)
    · cases ht
    · cases ht

theorem execSweepIssue_keepsQueue (k : KioskNo) : KeepsQueue (execSweepIssue k) :=
  event_keepsQueue fun s t ht => by
    obtain ⟨-, -, rfl⟩ := Option.map_eq_some_iff.mp ht
    exact pending_of_fixed (fixed_applyPickup k s)

theorem execSweepThatPollsNoSlotEnds_keepsQueue (g : SegNo) : KeepsQueue (execSweepThatPollsNoSlotEnds g) :=
  event_keepsQueue fun s _ ht => pending_of_due ht (pending_of_fixed (fixed_endSweep g s))

/-! ### Every command -/

theorem exec_keepsQueue (c : Instr) : KeepsQueue (exec c) := by
  cases c with
  | frameReceive bytes => exact execFrameReceive_keepsQueue bytes
  | replyTransmitted => exact execReplyTransmitted_keepsQueue
  | unknownKind kind r => exact execUnknownKind_keepsQueue kind r
  | collect r => exact execCollect_keepsQueue r
  | pay r => exact execPay_keepsQueue r
  | returnDrop r => exact execReturnDrop_keepsQueue r
  | doorStatus r => exact execDoorStatus_keepsQueue r
  | signOn r => exact execSignOn_keepsQueue r
  | signOff r => exact execSignOff_keepsQueue r
  | declare r => exact execDeclare_keepsQueue r
  | sessionStatus r => exact execSessionStatus_keepsQueue r
  | sweep r => exact execSweep_keepsQueue r
  | sweepEnd r => exact execSweepEnd_keepsQueue r
  | fetchNotice r => exact execFetchNotice_keepsQueue r
  | revoke r => exact execRevoke_keepsQueue r
  | reissue r => exact execReissue_keepsQueue r
  | loadCourier r => exact execLoadCourier_keepsQueue r
  | removeCourier r => exact execRemoveCourier_keepsQueue r
  | loadReturn r => exact execLoadReturn_keepsQueue r
  | removeReturn r => exact execRemoveReturn_keepsQueue r
  | settle r => exact execSettle_keepsQueue r
  | queryCompartment r => exact execQueryCompartment_keepsQueue r
  | clear r => exact execClear_keepsQueue r
  | fetchAlarm r => exact execFetchAlarm_keepsQueue r
  | broadcast r => exact execBroadcast_keepsQueue r
  | unlockKey r => exact execUnlockKey_keepsQueue r
  | endService r => exact execEndService_keepsQueue r
  | loadMap r => exact execLoadMap_keepsQueue r
  | loadTariff r => exact execLoadTariff_keepsQueue r
  | loadSlot r => exact execLoadSlot_keepsQueue r
  | setBudget r => exact execSetBudget_keepsQueue r
  | setHold r => exact execSetHold_keepsQueue r
  | setEnables r => exact execSetEnables_keepsQueue r
  | seedGenerator r => exact execSeedGenerator_keepsQueue r
  | setKeys r => exact execSetKeys_keepsQueue r
  | withdraw r => exact execWithdraw_keepsQueue r
  | reinstate r => exact execReinstate_keepsQueue r
  | restart r => exact execRestart_keepsQueue r
  | blank r => exact execBlank_keepsQueue r
  | reset cause straps => exact execReset_keepsQueue cause straps
  | blankStart straps => exact execBlankStart_keepsQueue straps
  | clockTick => exact execClockTick_keepsQueue
  | minuteBoundary => exact execMinuteBoundary_keepsQueue
  | quoteExpiry c => exact execQuoteExpiry_keepsQueue c
  | lockoutDeadline k => exact execLockoutDeadline_keepsQueue k
  | inactivityDeadline k => exact execInactivityDeadline_keepsQueue k
  | energiseDeadline c => exact execEnergiseDeadline_keepsQueue c
  | confirmDeadline c => exact execConfirmDeadline_keepsQueue c
  | strikeAgeing c => exact execStrikeAgeing_keepsQueue c
  | ajarDeadline c => exact execAjarDeadline_keepsQueue c
  | kioskIdleDeadline => exact execKioskIdleDeadline_keepsQueue
  | unlockDeadline => exact execUnlockDeadline_keepsQueue
  | quietSweepStart g => exact execQuietSweepStart_keepsQueue g
  | pollOutcome g heard => exact execPollOutcome_keepsQueue g heard
  | sweepIssue k => exact execSweepIssue_keepsQueue k
  | sweepThatPollsNoSlotEnds g => exact execSweepThatPollsNoSlotEnds_keepsQueue g
  | lossOfMainPower interrupted => exact execLossOfMainPower_keepsQueue interrupted

/-- Settles O3: each command is an event, a request or a reset, and no part of it writes the queue. -/
theorem commandsAlwaysComplete : Obligations.CommandsAlwaysComplete := exec_keepsQueue

end Sys2Proof.Machine

/-! What every step leaves in step (R29, R178, R205). An event ends by bringing it in step, so it holds after every
command but those that are no events: a reset sets it up anew, and loss of main power leaves nothing to keep in step. -/

namespace Sys2Proof.Machine

/-- A command's meaning leads from states in step to states in step. -/
def KeepsSettled (run : State → Result) : Prop := ∀ s t, Settled s → run s = .next t → Settled t

/-! ### Events and requests -/

theorem event_keepsSettled (effect : State → Option State) : KeepsSettled fun s => event s effect := by
  intro s t settled run
  obtain ⟨-, u, -, rfl⟩ | rfl := event_cases run
  · exact settled_settle u
  · exact settled

theorem request_keepsSettled (kind : Byte) (r : Request) (own : State → Answer) :
    KeepsSettled fun s => request kind r s own := event_keepsSettled _

theorem execUnknownKind_keepsSettled (kind : Byte) (r : Request) : KeepsSettled (execUnknownKind kind r) := by
  intro s t settled run
  unfold execUnknownKind at run
  split at run
  · exact request_keepsSettled kind r _ s t settled run
  · cases run; exact settled

/-! ### Resets and power -/

theorem settled_unpowered {s : State} (h : s.run = .unpowered) : Settled s := fun power => absurd h power

theorem startSweeps_rate (g : SegNo) (s : State) : ((forEach startSweep s).seg g).rate = (s.seg g).rate := by
  have list (gs : List SegNo) (s : State) :
      ((gs.foldl (fun s h => startSweep h s) s).seg g).rate = (s.seg g).rate := by
    induction gs generalizing s with
    | nil => rfl
    | cons h gs ih => rw [List.foldl_cons, ih, startSweep_rate]
  exact list _ s

/-- Where the conditions of QUIET mode fail on every segment, the rate modes follow exactly in FULL mode (R178). -/
theorem ratesFollow_full {s : State} (active : s.kioskIdle ≠ none) (full : ∀ g, (s.seg g).rate = .full) :
    RatesFollow s := by
  intro g
  have : quietHolds s g = false := by simp [quietHolds, active]
  rw [full, this]; rfl

/-- After a reset everything is in step, where every alarm that it posts is enabled (R29, R178, R205). -/
theorem settled_coldStart {r : Retained} {alarms : List Alarm}
    (enabled : ∀ a ∈ alarms, look r.enables (alarmCode a.kind) = true) (straps : BankId) (s : State) :
    Settled (coldStart r straps alarms s) := by
  intro _
  have rate (g : SegNo) : ((coldStart r straps alarms s).seg g).rate = .full := by
    unfold coldStart
    rw [startSweeps_rate]
    exact congrArg Segment.rate (look_replicate freshSegment g)
  have frame := startSweeps_frame
  unfold coldStart at rate ⊢
  rw [frame] at rate ⊢
  refine ⟨rfl, ?_, ratesFollow_full (Option.some_ne_none 120) rate⟩
  cases alarms with
  | nil => simp
  | cons a rest => exact ⟨fun _ => ⟨a, List.mem_cons_self, enabled a List.mem_cons_self⟩, fun _ => rfl⟩

theorem settled_restartPart (straps : BankId) (s : State) : Settled (restartPart straps s) :=
  settled_coldStart (fun _ h => absurd h List.not_mem_nil) straps s

/-- A blank start enables every alarm, RETENTION among them (R207). -/
theorem settled_blankPart (straps : BankId) (s : State) : Settled (blankPart straps s) :=
  settled_coldStart (fun a _ => look_replicate true (alarmCode a.kind)) straps s

theorem settled_resetPart (straps : BankId) (s : State) : Settled (resetPart straps s) := by
  unfold resetPart
  split
  · exact settled_restartPart straps s
  · exact settled_blankPart straps s

theorem execReset_keepsSettled (cause : ResetCause) (straps : BankId) : KeepsSettled (execReset cause straps) := by
  intro s t settled run
  cases run
  split
  · exact settled_resetPart straps s
  · exact settled

theorem execBlankStart_keepsSettled (straps : BankId) : KeepsSettled (execBlankStart straps) := by
  intro s t settled run
  cases run
  split
  · exact settled_blankPart straps s
  · exact settled

/-- Loss of main power leaves no power, and without it nothing is kept in step. -/
theorem execLossOfMainPower_keepsSettled (interrupted : Bool) : KeepsSettled (execLossOfMainPower interrupted) := by
  intro s t settled run
  cases run
  split
  · exact settled
  · split <;> exact settled_unpowered rfl

/-! ### Every command -/

/-- Every command but these four is an event, the requests among them. -/
theorem exec_keepsSettled (c : Instr) : KeepsSettled (exec c) := by
  cases c with
  | unknownKind kind r => exact execUnknownKind_keepsSettled kind r
  | reset cause straps => exact execReset_keepsSettled cause straps
  | blankStart straps => exact execBlankStart_keepsSettled straps
  | lossOfMainPower interrupted => exact execLossOfMainPower_keepsSettled interrupted
  | _ => exact event_keepsSettled _

/-- What is kept in step does not depend on the commands that wait. -/
theorem Settled.withPending {s : State} (h : Settled s) (queue : List Instr) : Settled { s with pending := queue } := h

/-- Settles O57: a step runs the front command, or idles. -/
theorem settledIsKept : Obligations.SettledIsKept := by
  intro s t settled run
  unfold step at run
  split at run
  next c rest _ => exact exec_keepsSettled c _ t (settled.withPending rest) run
  next => cases run; exact settled

end Sys2Proof.Machine

/-! The part right after reset (R31, R49, R67, R90, R115, R153, R174, R191, R200, R207, R215, R221): what its tables
hold, entry by entry, and from that every invariant. -/

namespace Sys2Proof.Machine

/-! ### The tables right after reset -/

@[simp] theorem reset_comp (c : CompNo) : State.reset.comp c = blankCompartment := look_replicate ..

@[simp] theorem reset_quoteOf (c : CompNo) : State.reset.quoteOf c = none := look_replicate ..

@[simp] theorem reset_ajar (c : CompNo) : look State.reset.ajar c = none := look_replicate ..

@[simp] theorem reset_kiosk (k : KioskNo) : State.reset.kiosk k = freshKiosk := look_replicate ..

@[simp] theorem reset_seg (g : SegNo) : State.reset.seg g = freshSegment := look_replicate ..

@[simp] theorem reset_board (b : BoardNo) : State.reset.board b = freshBoard false := look_replicate ..

@[simp] theorem reset_line (b : BoardNo) (l : LineNo) : State.reset.line b l = freshLine := by
  simp [State.line, freshBoard]

@[simp] theorem reset_cursors (i : Fin 4) : look State.reset.ret.cursors i = 767 := look_replicate ..

@[simp] theorem reset_directory (i : Fin 256) : look State.reset.ret.directory i = [] := look_replicate ..

@[simp] theorem reset_tariff (i : Fin 4) : look State.reset.ret.tariff i = none := look_replicate ..

@[simp] theorem reset_takings (k : KioskNo) : look State.reset.ret.takings k = zeroTakings := look_replicate ..

@[simp] theorem reset_budgets (g : SegNo) : look State.reset.ret.budgets g = 2 := look_replicate ..

@[simp] theorem reset_slots (g : SegNo) (i : SlotNo) : look (look State.reset.ret.slots g) i = none := by
  simp [State.reset, blankRetained]

@[simp] theorem reset_withdrawn (b : BoardNo) : look State.reset.ret.withdrawn b = false := look_replicate ..

@[simp] theorem reset_enables (i : Fin 8) : look State.reset.ret.enables i = true := look_replicate ..

/-! ### The invariants right after reset -/

/-- The state right after reset is one that a blank start leaves. -/
theorem settled_reset : Settled State.reset := blankPart_eq_reset ▸ settled_blankPart 0 State.reset

theorem trunkBounded_reset : TrunkBounded State.reset := by simp [TrunkBounded, State.reset]

theorem loadsInRange_reset : LoadsInRange State.reset := by
  refine ⟨by decide, fun g => ?_, fun i t present => ?_, reset_enables _, fun keys present => ?_⟩
  · rw [reset_budgets]; decide
  · rw [reset_tariff] at present; cases present
  · cases present

theorem tablesBounded_reset : TablesBounded State.reset := by
  refine ⟨by decide, fun i => ?_, Nat.zero_le _, Nat.zero_le _⟩
  rw [reset_directory]; exact Nat.zero_le _

theorem skcConsistent_reset : SkcConsistent State.reset := by simp [SkcConsistent, State.reset, blankRetained]

theorem withdrawnAgrees_reset : WithdrawnAgrees State.reset := fun b => by simp [freshBoard]

theorem lockoutsAgree_reset : LockoutsAgree State.reset := fun k => by simp [freshKiosk]

theorem alarmsDistinct_reset : AlarmsDistinct State.reset := List.nodup_singleton _

theorem queuesBounded_reset : QueuesBounded State.reset := fun g => by simp [freshSegment]

/-- Right after reset no compartment holds a transient part, so none holds a reservation (R212). -/
theorem reservationsAgree_reset : ReservationsAgree State.reset := by
  refine ⟨fun c => by simp [blankCompartment, CompState.transacting], ?_, Nat.zero_le _⟩
  have : State.reset.ret.compartments.toList = List.replicate 768 blankCompartment := Vector.toList_replicate
  rw [this, List.countP_replicate]; rfl

theorem pickupsInOrder_reset : PickupsInOrder State.reset := fun k x w signedOn _ => by
  rw [reset_kiosk] at signedOn; cases signedOn

theorem imagesFollowLinks_reset : ImagesFollowLinks State.reset := fun b _ l => by simp [freshLine]

/-- Settles O56: the invariants one by one, then the blank values. -/
theorem resetMeetsInvariants : Obligations.ResetMeetsInvariants :=
  ⟨⟨settled_reset, trunkBounded_reset, loadsInRange_reset, tablesBounded_reset, skcConsistent_reset,
      withdrawnAgrees_reset, lockoutsAgree_reset, alarmsDistinct_reset, queuesBounded_reset, reservationsAgree_reset,
      pickupsInOrder_reset, imagesFollowLinks_reset, rfl⟩,
    fun c => ⟨reset_comp c, reset_quoteOf c, reset_ajar c⟩,
    fun i => ⟨reset_cursors i, reset_tariff i, reset_budgets i, reset_takings i⟩,
    reset_directory, rfl, rfl, rfl, rfl, rfl, rfl, rfl, reset_slots, rfl, rfl, rfl, rfl, reset_kiosk, rfl,
    reset_enables, fun b => ⟨reset_withdrawn b, reset_board b⟩, fun g => by simp [freshSegment],
    rfl, rfl, rfl, rfl, rfl, rfl, rfl⟩

end Sys2Proof.Machine

/-! Requests of the staff on one compartment: Query Compartment and Clear, which BACKEND and SERVICE may both send, and
Load Map (R3, R4, R26, R32). None touches the segments or the conditions of the rate modes, so each ends with the
owner's state, the reply queued, and the attention line and the check word renewed. -/

namespace Sys2Proof.Machine

theorem compNo?_val (c : CompNo) : compNo? c.val = some c := dif_pos c.isLt

/-! ### The admission of a staff request -/

/-- Admission moves at most the unlock deadline (R216). -/
theorem admittedState_eq (s : State) :
    admittedState s = { s with unlockDeadline := (admittedState s).unlockDeadline } := by
  unfold admittedState; split <;> rfl

theorem staffState_eq (r : Request) (s : State) :
    staffState r s = { s with unlockDeadline := (staffState r s).unlockDeadline } := by
  unfold staffState
  split
  · exact admittedState_eq s
  · rfl

theorem admittedState_taken (s : State) :
    admittedState { s with receive := s.receive.tail } =
      { s with receive := s.receive.tail, unlockDeadline := (admittedState s).unlockDeadline } := by
  unfold admittedState; split <;> rfl

theorem StaffMay.not_kiosk {r : Request} {s : State} (may : StaffMay r s) (k : KioskNo) : r.source ≠ .kiosk k := by
  obtain source | ⟨source, -⟩ := may <;> rw [source] <;> nofun

theorem staffState_taken (r : Request) (s : State) :
    staffState r { s with receive := s.receive.tail } =
      { s with receive := s.receive.tail, unlockDeadline := (staffState r s).unlockDeadline } := by
  unfold staffState
  split
  · exact admittedState_taken s
  · rfl

/-- A well-formed staff request that may be sent reaches its owner, with its frame taken (R210, R211, R216). -/
theorem staffRequest_taken {α : Type} {r : Request} {parsed : Option α} {x : α} {s : State} (may : StaffMay r s)
    (body : parsed = some x) (own : α → State → Answer) :
    staffRequest r parsed { s with receive := s.receive.tail } own =
      own x { s with receive := s.receive.tail, unlockDeadline := (staffState r s).unlockDeadline } := by
  rw [← staffState_taken]
  subst body
  unfold staffRequest staffState
  obtain source | ⟨source, skc⟩ := may
  · rw [source, if_neg (by decide)]; rfl
  · rw [source, if_pos rfl]
    exact admitted_open (s := { s with receive := s.receive.tail }) skc _

/-- The same of a maintenance request from SERVICE (R211, R216). -/
theorem maintenance_taken {α : Type} {r : Request} {parsed : Option α} {x : α} {s : State}
    (source : r.source = .service) (body : parsed = some x) (skc : ServiceOpen s) (own : α → State → Answer) :
    maintenance r parsed { s with receive := s.receive.tail } own =
      own x { s with receive := s.receive.tail, unlockDeadline := (admittedState s).unlockDeadline } := by
  rw [← admittedState_taken]
  exact maintenance_open (s := { s with receive := s.receive.tail }) source body skc own

/-! ### The end of such a request -/

theorem idleAfter_not_kiosk {r : Request} (source : ∀ k, r.source ≠ .kiosk k) (s : State) :
    idleAfter s r = s.kioskIdle := by
  unfold idleAfter
  split
  next k e => exact absurd e (source k)
  next => rfl

theorem settle_of_follow {s : State} (rates : RatesFollow s) :
    settle s = { s with attention := attentionLevel s, checkWord := Config.retentionCheck s.ret } := by
  simp only [settle, setRates_of_follow rates]

section answers

variable {kind : Nat} {r : Request} {s : State} {own : State → Answer} {status : Status} {body : List Byte}
  {ret : Retained} {deadline : Option Nat}

/-- A request that is not a kiosk's, whose owner changes the retained state beside the concourse, the unlock deadline
and the alarms: of its end only the attention line is left open. -/
theorem request_changes_alarms {alarms : List Alarm} (ready : Ready kind r s) (source : ∀ k, r.source ≠ .kiosk k)
    (settled : Settled s)
    (answer : own { s with receive := s.receive.tail } =
      { state := { s with receive := s.receive.tail, unlockDeadline := deadline, ret, alarms }, status, body })
    (concourse : ret.concourse = s.ret.concourse) :
    Completes (request (BitVec.ofNat 8 kind) r s own) fun t =>
      t = { resealed { answered kind r status body { s with unlockDeadline := deadline } with ret } with
        alarms, attention := t.attention } := by
  obtain ⟨-, -, rates⟩ := settled.running ready.1
  refine ⟨_, request_ready ready own, ?_⟩
  have untouched : touchIdle r { s with receive := s.receive.tail } = { s with receive := s.receive.tail } := by
    rw [touchIdle_eq]
    exact congrArg (fun idle => { s with receive := s.receive.tail, kioskIdle := idle }) (idleAfter_not_kiosk source _)
  rw [untouched, answer, sendReply_eq, settle_of_follow fun g => ?follow]
  case follow =>
    have same := rates g
    rwa [← quietHolds_congr (t := { s with ret }) concourse rfl rfl rfl] at same
  simp only [resealed, answered, idleAfter_not_kiosk source]
  rfl

/-- A request that is not a kiosk's, whose owner changes at most the unlock deadline and the retained state beside the
concourse and the enables. -/
theorem request_changes_ret (ready : Ready kind r s) (source : ∀ k, r.source ≠ .kiosk k) (settled : Settled s)
    (answer : own { s with receive := s.receive.tail } =
      { state := { s with receive := s.receive.tail, unlockDeadline := deadline, ret }, status, body })
    (enables : ret.enables = s.ret.enables) (concourse : ret.concourse = s.ret.concourse) :
    request (BitVec.ofNat 8 kind) r s own =
      .next (resealed { answered kind r status body { s with unlockDeadline := deadline } with ret }) := by
  rw [request_untouched ready source settled own answer enables concourse rfl rfl rfl rfl]
  simp only [resealed, answered, idleAfter_not_kiosk source]
  rfl

/-- A request that is not a kiosk's, whose owner changes at most the unlock deadline. -/
theorem request_changes_deadline (ready : Ready kind r s) (source : ∀ k, r.source ≠ .kiosk k) (settled : Settled s)
    (answer : own { s with receive := s.receive.tail } =
      { state := { s with receive := s.receive.tail, unlockDeadline := deadline }, status, body }) :
    request (BitVec.ofNat 8 kind) r s own =
      .next (answered kind r status body { s with unlockDeadline := deadline }) := by
  rw [request_changes_ret (ret := s.ret) ready source settled answer rfl rfl]
  exact congrArg _ (resealed_eq (settled.running ready.1).1)

end answers

/-! ### Query Compartment -/

/-- Settles O29: the owner only reads. -/
theorem queryReportsImage : Obligations.QueryReportsImage := by
  intro r s c ready may body settled
  rw [staffState_eq]
  unfold exec execQueryCompartment
  refine request_changes_deadline (kind := 19) ready may.not_kiosk settled ?_
  rw [staffRequest_taken may body]
  simp only [compNo?_val]
  rfl
/-! ### Clear -/

/-- Clear's answer for a compartment in a state that it clears: by the images of its line (R26). -/
def clearAnswer (c : CompNo) (s : State) : Answer :=
  match doorImage s c, occupancyImage s c with
  | some false, some false => clearEmpty c s
  | some false, some true => clearOccupied c s
  | _, _ => refuse s .badState

/-- A Clear that may be sent, for a compartment that is JAMMED or SUSPECT, comes to its images. -/
theorem execClear_own {r : Request} {s : State} {c : CompNo} (may : StaffMay r s)
    (body : bodyNat 2 r.body = some c.val) (stuck : (s.comp c).state = .jammed ∨ (s.comp c).state = .suspect) :
    ∃ own, exec (.clear r) s = request 20 r s own
      ∧ own { s with receive := s.receive.tail } =
        clearAnswer c { s with receive := s.receive.tail, unlockDeadline := (staffState r s).unlockDeadline } := by
  unfold exec execClear
  refine ⟨_, rfl, ?_⟩
  rw [staffRequest_taken may body]
  simp only [compNo?_val]
  refine if_neg fun h => ?_
  exact stuck.elim h.1 h.2

theorem clearAnswer_not_shut {c : CompNo} {s : State} (door : doorImage s c ≠ some false) :
    clearAnswer c s = refuse s .badState := by
  unfold clearAnswer
  split
  next h _ => exact absurd h door
  next h _ => exact absurd h door
  next => rfl

/-- Of an occupied compartment only its state and the status of its code change (R26, R35). -/
theorem clearAnswer_occupied {c : CompNo} {s : State} {p : Parcel} (door : doorImage s c = some false)
    (occupied : occupancyImage s c = some true) :
    (s.comp c).parcel = some p → clearAnswer c s =
      { state := { s with ret := { s.ret with
          compartments := put s.ret.compartments c { s.comp c with state := restedState (some p) }
          directory := match p with
            | .delivery d => if d.code.isSome then (setEntryStatus c .live s).ret.directory else s.ret.directory
            | .returned _ => s.ret.directory } }
        status := .accepted, body := [] } := by
  intro parcel
  simp only [clearAnswer, door, occupied, clearOccupied, parcel]
  cases p with
  | delivery d =>
    dsimp only
    by_cases coded : d.code.isSome = true
    · rw [if_pos coded, if_pos coded]; rfl
    · rw [if_neg coded, if_neg coded]; rfl
  | returned _ => rfl

/-- An empty compartment without a code becomes VACANT and loses its record (R26). -/
theorem clearAnswer_uncoded {c : CompNo} {s : State} (door : doorImage s c = some false)
    (empty : occupancyImage s c = some false) (uncoded : ∀ d, (s.comp c).parcel = some (.delivery d) → d.code = none) :
    clearAnswer c s =
      { state := { s with ret := { s.ret with
          compartments := put s.ret.compartments c { s.comp c with state := .vacant, parcel := none } } }
        status := .accepted, body := [] } := by
  simp only [clearAnswer, door, empty, clearEmpty]
  split
  next d parcel => rw [uncoded d parcel]; rfl
  next => rfl

/-- With a code, where an outbox slot is free, its entry leaves the directory as well and a CLEARED notice is made
(R26, R35, R213). -/
theorem clearAnswer_coded {c : CompNo} {s : State} {d : Delivery} {code : Nat} (door : doorImage s c = some false)
    (empty : occupancyImage s c = some false) (parcel : (s.comp c).parcel = some (.delivery d)) (coded : d.code = some code)
    (room : outboxHasRoom s = true) :
    clearAnswer c s =
      { state := { s with
          ret := { s.ret with
            compartments := put s.ret.compartments c { s.comp c with state := .vacant, parcel := none }
            directory := (removeEntry c s).ret.directory
            outbox := s.ret.outbox ++
              [{ sequence := s.ret.noticeSequence, notice := .cleared c d.reference d.courier d.depositTime d.paid }]
            noticeSequence := (s.ret.noticeSequence + 1) % 65536 }
          alarms := (takeSlot s).alarms }
        status := .accepted, body := [] } := by
  simp only [clearAnswer, door, empty, clearEmpty, parcel, coded, reserveSlot, room, if_true, Option.isSome_some]
  rw [takeSlot_eq]
  rfl

theorem takeSlot_alarms_congr {s t : State} (ret : t.ret = s.ret) (alarms : t.alarms = s.alarms)
    (clock : t.clock = s.clock) : (takeSlot t).alarms = (takeSlot s).alarms := by
  rw [takeSlot_alarms, takeSlot_alarms, ret, alarms, postAlarm_alarms_congr alarms clock]

/-- Settles O30: one case for each row of what Clear finds. -/
theorem clearReturnsCompartment : Obligations.ClearReturnsCompartment := by
  intro r s c ready may body settled stuck
  obtain ⟨own, run, answer⟩ := execClear_own may body stuck
  rw [run, staffState_eq]
  refine ⟨fun p door occupied parcel => ?_, fun door empty uncoded => ?_, fun d code door empty parcel coded room => ?_,
    fun door => ?_⟩
  · exact request_changes_ret ready may.not_kiosk settled (answer.trans (clearAnswer_occupied door occupied parcel)) rfl rfl
  · exact request_changes_ret ready may.not_kiosk settled (answer.trans (clearAnswer_uncoded door empty uncoded)) rfl rfl
  · rw [← takeSlot_alarms_congr (s := s) (t := { s with
      receive := s.receive.tail, unlockDeadline := (staffState r s).unlockDeadline }) rfl rfl rfl]
    exact request_changes_alarms ready may.not_kiosk settled
      (answer.trans (clearAnswer_coded door empty parcel coded room)) rfl
  · exact request_changes_deadline ready may.not_kiosk settled (answer.trans (clearAnswer_not_shut door))

/-! ### Load Map -/

theorem Compartment.idle_iff (x : Compartment) : x.idle = true ↔ x.state = .vacant ∨ x.state = .unserved := by
  simp [Compartment.idle]

theorem namedByOther_iff {s : State} {c : CompNo} {m : MapEntry} :
    namedByOther s c m = true ↔ ∃ d x, d ≠ c ∧ (s.comp d).map = some x ∧ x.board = m.board ∧ x.line = m.line := by
  unfold namedByOther
  rw [List.any_eq_true]
  refine exists_congr fun d => ?_
  cases (s.comp d).map <;> simp [List.mem_finRange]

/-- Load Map's answer for a compartment and an entry whose fields are in range (R3, R4). -/
def mapAnswer (c : CompNo) (m : Option MapEntry) (s : State) : Answer :=
  if ¬ (s.comp c).idle then refuse s .held
  else if m.any (namedByOther s c) then refuse s .duplicate
  else storeMap c m s

/-- A Load Map that may be sent, whose fields are in range, comes to the compartment and the entry. -/
theorem execLoadMap_own {r : Request} {s : State} {c : CompNo} {f : Option MapFields} {m : Option MapEntry}
    (source : r.source = .service) (skc : ServiceOpen s) (body : bodyLoadMap r.body = some (c.val, f))
    (entry : f = none ∧ m = none ∨ ∃ x, f = some x ∧ mapEntry? x = m ∧ m ≠ none) :
    ∃ own, exec (.loadMap r) s = request 25 r s own
      ∧ own { s with receive := s.receive.tail } =
        mapAnswer c m { s with receive := s.receive.tail, unlockDeadline := (admittedState s).unlockDeadline } := by
  unfold exec execLoadMap
  refine ⟨_, rfl, ?_⟩
  rw [maintenance_taken source body skc]
  generalize { s with receive := s.receive.tail, unlockDeadline := (admittedState s).unlockDeadline } = t
  obtain ⟨rfl, rfl⟩ | ⟨x, rfl, named, present⟩ := entry
  · simp only [compNo?_val]
    cases idle : (t.comp c).idle <;> simp [mapAnswer, idle]
  · obtain ⟨n, rfl⟩ := Option.ne_none_iff_exists'.mp present
    simp only [compNo?_val, named]
    cases idle : (t.comp c).idle <;> simp [mapAnswer, idle]

theorem mapAnswer_held {c : CompNo} {m : Option MapEntry} {s : State}
    (held : ¬ ((s.comp c).state = .vacant ∨ (s.comp c).state = .unserved)) : mapAnswer c m s = refuse s .held :=
  if_pos fun h => held ((Compartment.idle_iff _).mp h)

theorem any_namedByOther_iff {s : State} {c : CompNo} {m : Option MapEntry} :
    m.any (namedByOther s c) = true ↔
      ∃ n d x, m = some n ∧ d ≠ c ∧ (s.comp d).map = some x ∧ x.board = n.board ∧ x.line = n.line := by
  cases m with
  | none => simp
  | some n => simp [namedByOther_iff]

section free

variable {c : CompNo} {m : Option MapEntry} {s : State}
  (free : (s.comp c).state = .vacant ∨ (s.comp c).state = .unserved)
include free

theorem mapAnswer_duplicate
    (taken : ∃ n d x, m = some n ∧ d ≠ c ∧ (s.comp d).map = some x ∧ x.board = n.board ∧ x.line = n.line) :
    mapAnswer c m s = refuse s .duplicate :=
  (if_neg (not_not_intro ((Compartment.idle_iff _).mpr free))).trans (if_pos (any_namedByOther_iff.mpr taken))

theorem mapAnswer_stored
    (untaken : ¬ ∃ n d x, m = some n ∧ d ≠ c ∧ (s.comp d).map = some x ∧ x.board = n.board ∧ x.line = n.line) :
    mapAnswer c m s = storeMap c m s :=
  (if_neg (not_not_intro ((Compartment.idle_iff _).mpr free))).trans
    (if_neg fun h => untaken (any_namedByOther_iff.mp h))

end free

/-- Settles O34: the checks of R3 in their order, then the new entry. -/
theorem loadMapSetsEntry : Obligations.LoadMapSetsEntry := by
  intro r s c f m ready source skc settled body entry
  have not_kiosk (k : KioskNo) : r.source ≠ .kiosk k := by rw [source]; nofun
  obtain ⟨own, run, answer⟩ := execLoadMap_own source skc body entry
  rw [run, admittedState_eq]
  refine ⟨fun held => ?_, fun free taken => ?_, fun free untaken => ?_⟩
  · exact request_changes_deadline ready not_kiosk settled (answer.trans (mapAnswer_held held))
  · exact request_changes_deadline ready not_kiosk settled (answer.trans (mapAnswer_duplicate free taken))
  · exact request_changes_ret ready not_kiosk settled (answer.trans (mapAnswer_stored free untaken)) rfl rfl

end Sys2Proof.Machine

/-! The minute boundary (R24, R72, R136, R199), on the laws of the expiry scan. -/

namespace Sys2Proof.Machine

/-- A boundary counted and not yet taken is taken: the scan, the removal of lapsed returns entries, and the end of the
event, which renews the attention line and the check word. -/
theorem execMinuteBoundary_taken {s : State} {now : Nat} (power : s.run ≠ .unpowered) (settled : Settled s)
    (clock : s.clock = some now) (due : 0 < s.boundariesDue)
    (quotes : ∀ c q, s.quoteOf c = some q → (s.comp c).state = .held → q.purpose = .collection) :
    ∃ line, exec .minuteBoundary s = .next (resealed { lapseReturns now (forEach (scanComp now) s) with
      boundariesDue := s.boundariesDue - 1, attention := line }) := by
  obtain ⟨-, -, rates⟩ := settled power
  obtain ⟨-, segments, concourse, idle⟩ := scanned_takeBoundary (now := now) quotes
  have run : exec .minuteBoundary s = .next (settle { takeBoundary now s with boundariesDue := s.boundariesDue - 1 }) := by
    unfold exec execMinuteBoundary
    refine event_some power ?_
    rw [clock]
    exact if_pos due
  rw [settle_counted _ rates segments concourse idle] at run
  exact ⟨_, run⟩

/-- Settles O45: what the scan takes is what the statement names. -/
theorem minuteBoundaryScans : Obligations.MinuteBoundaryScans := by
  rintro s now _ power settled clock due quotes rfl
  obtain ⟨line, run⟩ := execMinuteBoundary_taken power settled clock due quotes
  refine ⟨_, run, ?_⟩
  obtain ⟨comps, quoted, rest⟩ := scanned_counted (scanned_scan (now := now) quotes) rfl
  refine ⟨comps, fun c => ?_, rest⟩
  simpa only [List.mem_finRange, true_and] using quoted c

end Sys2Proof.Machine

/-! Where codes and compartments are given out (R8, R9, R33, R36, R37). -/

namespace Sys2Proof.Machine

/-! ### The generator -/

theorem doubled_eq_zero {g : BitVec 32} (h : g <<< 1 = 0) : g = 0 ∨ g = 2147483648 := by
  have doubled : g.toNat <<< 1 % 2 ^ 32 = 0 := by rw [← BitVec.toNat_shiftLeft, h]; rfl
  rw [Nat.shiftLeft_eq] at doubled
  bv_omega

theorem doubled_add_one_ne_zero (g : BitVec 32) : g <<< 1 + 1 ≠ 0 := by
  intro h
  have odd : (g.toNat <<< 1 % 2 ^ 32 + 1) % 2 ^ 32 = 0 := by
    rw [← BitVec.toNat_shiftLeft]
    exact congrArg BitVec.toNat h
  rw [Nat.shiftLeft_eq] at odd
  omega

/-- A step leads to 0 only from 0: the doubling loses position 31 alone, and from that digit alone the feedback is 1
(R36). -/
theorem generatorStep_ne_zero {g : BitVec 32} (h : g ≠ 0) : generatorStep g ≠ 0 := by
  intro zero
  unfold generatorStep at zero
  dsimp only at zero
  split at zero
  next => exact doubled_add_one_ne_zero g zero
  next feedback =>
    obtain rfl | rfl := doubled_eq_zero ((BitVec.add_zero _).symm.trans zero)
    · exact h rfl
    · exact feedback (by decide)

theorem generatorAdvance_ne_zero (n : Nat) {g : BitVec 32} (h : g ≠ 0) : generatorAdvance n g ≠ 0 := by
  induction n generalizing g with
  | zero => exact h
  | succ n ih => exact ih (generatorStep_ne_zero h)

/-! ### Generated codes -/

theorem repeatedDigits_iff (code : Nat) : repeatedDigits code = true ↔ ∃ x < 10, code = x * 11111111 := by
  simp [repeatedDigits]

/-- A code that is not rejected has digits that differ, no entry, and a free way in its set (R33, R37). -/
theorem not_rejected {directory : Vector (List DirEntry) 256} {code : Nat} (h : rejected directory code = false) :
    (∀ x < 10, code ≠ x * 11111111) ∧ (∀ e ∈ look directory (codeSet code), e.tag ≠ codeTag code)
      ∧ (look directory (codeSet code)).length < 4 := by
  unfold rejected at h
  simp only [Bool.or_eq_false_iff, List.any_eq_false, decide_eq_true_eq, decide_eq_false_iff_not, Nat.not_le] at h
  obtain ⟨⟨digits, absent⟩, way⟩ := h
  refine ⟨fun x hx e => ?_, absent, way⟩
  rw [(repeatedDigits_iff code).mpr ⟨x, hx, e⟩] at digits
  cases digits

/-- A code is 256 times its tag, plus its set (R33). -/
theorem tag_and_set (code : Nat) : 256 * codeTag code + (codeSet code).val = code := Nat.div_add_mod code 256

theorem generateCode_some {directory : Vector (List DirEntry) 256} {n : Nat} {g h : BitVec 32} {code : Nat}
    (run : generateCode directory n g = (h, some code)) : code < 100000000 ∧ rejected directory code = false := by
  induction n generalizing g with
  | zero => cases run
  | succ n ih =>
    unfold generateCode at run
    dsimp only at run
    split at run
    · exact ih run
    next free =>
      cases run
      exact ⟨Nat.mod_lt _ (by decide), Bool.eq_false_iff.mpr free⟩

/-! ### Allocation -/

theorem mem_largerClasses {j k : SizeClass} : j ∈ largerClasses k ↔ k.index < j.index := by
  cases j <;> cases k <;> decide

/-- The classes that an allocation goes through are those that it may search (R9). -/
theorem mem_searchedClasses {s : State} {cls k : SizeClass} {upsize deposit : Bool} :
    k ∈ searchedClasses s cls upsize deposit ↔ Searched s cls upsize deposit k := by
  unfold searchedClasses Searched
  cases upsize <;> cases deposit <;> simp [mem_largerClasses]

/-- It goes through them in ascending order of size. -/
theorem searchedClasses_ascend (s : State) (cls : SizeClass) (upsize deposit : Bool) :
    (searchedClasses s cls upsize deposit).Pairwise fun j k => j.index < k.index := by
  unfold searchedClasses
  have larger : (cls :: largerClasses cls).Pairwise fun j k => j.index < k.index := by cases cls <;> decide
  refine larger.sublist (List.Sublist.cons_cons cls ?_)
  split
  · exact List.filter_sublist
  · exact List.nil_sublist _

theorem allocate_none {s : State} {cls : SizeClass} {upsize deposit : Bool} (failed : allocate s cls upsize deposit = none)
    {k : SizeClass} (searched : Searched s cls upsize deposit k) (c : CompNo) : ¬ Offers s k c := by
  have missed := List.findSome?_eq_none_iff.mp failed k (mem_searchedClasses.mpr searched)
  exact (searchClass_spec s k).2 (Option.map_eq_none_iff.mp missed) c

/-- An allocation takes what the search of one class finds, after the smaller ones have found none. -/
theorem allocate_some {s u : State} {cls : SizeClass} {upsize deposit : Bool} {c : CompNo}
    (found : allocate s cls upsize deposit = some (u, c)) :
    ∃ k, Searched s cls upsize deposit k ∧ searchClass s k = some c
      ∧ (∀ j, Searched s cls upsize deposit j → j.index < k.index → searchClass s j = none)
      ∧ u = { s with ret := { s.ret with cursors := put s.ret.cursors k.index c } } := by
  obtain ⟨smaller, k, larger, split, hit, missed⟩ := List.findSome?_eq_some_iff.mp found
  obtain ⟨d, search, e⟩ := Option.map_eq_some_iff.mp hit
  obtain ⟨rfl, rfl⟩ := Prod.mk.inj e
  have ascend := searchedClasses_ascend s cls upsize deposit
  rw [split] at ascend
  refine ⟨k, mem_searchedClasses.mp (by simp [split]), search, fun j searched below => ?_, rfl⟩
  have here := mem_searchedClasses.mpr searched
  rw [split, List.mem_append, List.mem_cons] at here
  have above : ∀ i ∈ larger, k.index < i.index := (List.pairwise_cons.mp (List.pairwise_append.mp ascend).2.1).1
  obtain before | rfl | after := here
  · exact Option.map_eq_none_iff.mp (missed j before)
  · exact absurd below (lt_irrefl _)
  · exact absurd below (lt_asymm (above j after))

/-- Settles O54: the generator, the codes and the search one after the other. -/
theorem generationAndAllocation : Obligations.GenerationAndAllocation := by
  refine ⟨fun n g => generatorAdvance_ne_zero n, fun directory n g h code run => ?_, fun s cls upsize deposit =>
    ⟨fun u c found => ?_, fun failed k c searched => allocate_none failed searched c⟩⟩
  · obtain ⟨range, accepted⟩ := generateCode_some run
    obtain ⟨digits, absent, way⟩ := not_rejected accepted
    exact ⟨range, digits, absent, way, tag_and_set code⟩
  · obtain ⟨k, searched, search, smaller, state⟩ := allocate_some found
    obtain ⟨offers, first⟩ := (searchClass_spec s k).1 c search
    exact ⟨k, searched, offers, first, fun j d hj below => (searchClass_spec s j).2 (smaller j hj below) d, state⟩

end Sys2Proof.Machine

/-! What stands of the boards and the kiosks between commands: link states, confirmed states, failure counts and
lockouts. Beside the fixed part of the state the invariants of R41 to R43 and R182 to R191 read nothing else, and like
the fixed part almost no operation writes it. -/

namespace Sys2Proof.Machine

/-- The link states and confirmed states of the boards, and the failure counts and lockouts of the kiosks. -/
structure Standing where
  links  : BoardNo → LinkState
  images : BoardNo → LineNo → Option Bool × Option Bool
  counts : KioskNo → Nat × Option Nat

/-- What stands of the boards and the kiosks of a state. -/
def State.standing (s : State) : Standing where
  links b := (s.board b).link
  images b l := ((s.line b l).doorOpen, (s.line b l).occupied)
  counts k := ((s.kiosk k).failures, (s.kiosk k).lockout)

theorem standing_of_tables {s t : State} (boards : t.boards = s.boards) (kiosks : t.kiosks = s.kiosks) :
    t.standing = s.standing := by
  simp only [State.standing, State.line, State.board, State.kiosk, boards, kiosks]

theorem standing_foldl {α : Type} (f : State → α → State) (hf : ∀ s a, (f s a).standing = s.standing) (l : List α)
    (s : State) : (l.foldl f s).standing = s.standing := by
  induction l generalizing s with
  | nil => rfl
  | cons a l ih => rw [List.foldl_cons, ih, hf]

theorem standing_forEach {n : Nat} (f : Fin n → State → State) (hf : ∀ i s, (f i s).standing = s.standing) (s : State) :
    (forEach f s).standing = s.standing := standing_foldl _ (fun s i => hf i s) _ s

/-! ### The tables -/

@[simp] theorem standing_setComp (s : State) (c : CompNo) (x : Compartment) : (s.setComp c x).standing = s.standing := rfl

@[simp] theorem standing_setQuote (s : State) (c : CompNo) (x : Option Quote) : (s.setQuote c x).standing = s.standing := rfl

@[simp] theorem standing_setSeg (s : State) (g : SegNo) (x : Segment) : (s.setSeg g x).standing = s.standing := rfl

@[simp] theorem standing_setAjar (s : State) (c : CompNo) (x : Option AjarWatch) : (s.setAjar c x).standing = s.standing := rfl

/-- A kiosk's record may change beside its failure count and lockout. -/
theorem standing_setKiosk {s : State} {k : KioskNo} {x : Kiosk} (failures : x.failures = (s.kiosk k).failures)
    (lockout : x.lockout = (s.kiosk k).lockout) : (s.setKiosk k x).standing = s.standing := by
  have counts (j : KioskNo) : (((s.setKiosk k x).kiosk j).failures, ((s.setKiosk k x).kiosk j).lockout)
      = ((s.kiosk j).failures, (s.kiosk j).lockout) := by
    rw [State.kiosk_setKiosk]
    split
    next same => rw [same, failures, lockout]
    next => rfl
  exact congrArg (fun c => { s.standing with counts := c }) (funext counts)

/-- A board's record may change beside its link state and the confirmed states of its lines. -/
theorem standing_setBoard {s : State} {b : BoardNo} {x : Board} (link : x.link = (s.board b).link)
    (images : ∀ l, (look x.lines l).doorOpen = (s.line b l).doorOpen ∧ (look x.lines l).occupied = (s.line b l).occupied) :
    (s.setBoard b x).standing = s.standing := by
  have board (d : BoardNo) : ((s.setBoard b x).board d).link = (s.board d).link
      ∧ ∀ l, ((s.setBoard b x).line d l).doorOpen = (s.line d l).doorOpen
        ∧ ((s.setBoard b x).line d l).occupied = (s.line d l).occupied := by
    simp only [State.line, State.board_setBoard]
    split
    next same => subst same; exact ⟨link, images⟩
    next => exact ⟨rfl, fun _ => ⟨rfl, rfl⟩⟩
  simp only [State.standing, (board _).1, ((board _).2 _).1, ((board _).2 _).2]
  rfl

/-- Where a board's link state and lines are left alone. -/
theorem standing_setBoard_lines {s : State} {b : BoardNo} {x : Board} (link : x.link = (s.board b).link)
    (lines : x.lines = (s.board b).lines) : (s.setBoard b x).standing = s.standing :=
  standing_setBoard link fun l => by rw [lines]; exact ⟨rfl, rfl⟩

@[simp] theorem standing_setHandOff (s : State) (b : BoardNo) (x : List LineNo) :
    (s.setBoard b { s.board b with handOff := x }).standing = s.standing := standing_setBoard_lines rfl rfl

@[simp] theorem standing_setExpectedBit (s : State) (b : BoardNo) (x : Bool) :
    (s.setBoard b { s.board b with expectedBit := x }).standing = s.standing := standing_setBoard_lines rfl rfl

/-! ### The outbox, the alarms, the directory and the returns list -/

@[simp] theorem standing_postAlarm (k : AlarmKind) (n : Nat) (s : State) : (postAlarm k n s).standing = s.standing :=
  standing_of_tables (by simp) (by simp)

@[simp] theorem standing_takeSlot (s : State) : (takeSlot s).standing = s.standing :=
  standing_of_tables (by simp) (by simp)

theorem standing_reserveSlot {s t : State} (h : reserveSlot s = some t) : t.standing = s.standing := by
  unfold reserveSlot at h
  split at h
  · cases h; exact standing_takeSlot s
  · cases h

@[simp] theorem standing_releaseSlot (s : State) : (releaseSlot s).standing = s.standing := rfl

@[simp] theorem standing_fillSlot (n : Notice) (s : State) : (fillSlot n s).standing = s.standing := rfl

@[simp] theorem standing_setEntryStatus (c : CompNo) (x : CodeStatus) (s : State) :
    (setEntryStatus c x s).standing = s.standing := rfl

@[simp] theorem standing_removeEntry (c : CompNo) (s : State) : (removeEntry c s).standing = s.standing := rfl

@[simp] theorem standing_addEntry (code : Nat) (c : CompNo) (x : CodeStatus) (s : State) :
    (addEntry code c x s).standing = s.standing := rfl

@[simp] theorem standing_changeReturn (n : Nat) (f : ReturnEntry → Option ReturnEntry) (s : State) :
    (changeReturn n f s).standing = s.standing := rfl

@[simp] theorem standing_freeReturn (n p : Nat) (s : State) : (freeReturn n p s).standing = s.standing := rfl

/-! ### The kiosks' records -/

@[simp] theorem standing_setDoorResult (k : KioskNo) (r : Option DoorResult) (s : State) :
    (setDoorResult k r s).standing = s.standing := standing_setKiosk rfl rfl

@[simp] theorem standing_setSession (k : KioskNo) (x : Option Session) (s : State) :
    (setSession k x s).standing = s.standing := standing_setKiosk rfl rfl

@[simp] theorem standing_setLastPayment (k : KioskNo) (p : LastPayment) (s : State) :
    (setLastPayment k p s).standing = s.standing := standing_setKiosk rfl rfl

@[simp] theorem standing_touchSession (k : KioskNo) (s : State) : (touchSession k s).standing = s.standing := by
  unfold touchSession; split <;> simp

/-- Every kiosk's record may change beside its failure count and lockout. -/
theorem standing_mapKiosks {s : State} {f : Kiosk → Kiosk} (h : ∀ x, (f x).failures = x.failures ∧ (f x).lockout = x.lockout) :
    ({ s with kiosks := s.kiosks.map f } : State).standing = s.standing := by
  have counts (k : KioskNo) : ((look (s.kiosks.map f) k).failures, (look (s.kiosks.map f) k).lockout)
      = ((s.kiosk k).failures, (s.kiosk k).lockout) := by
    rw [look_map, (h _).1, (h _).2]; rfl
  exact congrArg (fun c => { s.standing with counts := c }) (funext counts)

/-! ### Strikes and courier sweeps -/

@[simp] theorem standing_setMark (c : CompNo) (m : Bool) (s : State) : (setMark c m s).standing = s.standing := rfl

@[simp] theorem standing_issueEntry (g : SegNo) (e : StrikeEntry) (m : MapEntry) (s : State) :
    (issueEntry g e m s).standing = s.standing := by simp [issueEntry]

@[simp] theorem standing_issueUpTo (g : SegNo) (n : Nat) (s : State) : (issueUpTo g n s).standing = s.standing := by
  induction n generalizing s with
  | zero => rfl
  | succ n ih =>
    unfold issueUpTo
    split
    · simp [ih]
    · rfl

@[simp] theorem standing_applyIssue (g : SegNo) (s : State) : (applyIssue g s).standing = s.standing := by
  simp [applyIssue]

@[simp] theorem standing_queueStrike (c : CompNo) (p : Purpose) (s : State) :
    (queueStrike c p s).standing = s.standing := by
  unfold queueStrike; split <;> simp

@[simp] theorem standing_dropQueued (g : SegNo) (c : CompNo) (s : State) : (dropQueued g c s).standing = s.standing := rfl

@[simp] theorem standing_withdrawStrike (c : CompNo) (s : State) : (withdrawStrike c s).standing = s.standing :=
  standing_forEach _ (fun g s => standing_dropQueued g c s) s

@[simp] theorem standing_setActive (g : SegNo) (a : ActiveStrike) (s : State) : (setActive g a s).standing = s.standing := rfl

@[simp] theorem standing_disownPoll (g : SegNo) (b : BoardNo) (l : LineNo) (s : State) :
    (disownPoll g b l s).standing = s.standing := by
  unfold disownPoll
  split
  · split <;> simp
  · rfl

@[simp] theorem standing_endStrike (g : SegNo) (a : ActiveStrike) (s : State) : (endStrike g a s).standing = s.standing := by
  unfold endStrike; dsimp only
  rw [standing_disownPoll, standing_setHandOff, standing_setSeg]

@[simp] theorem standing_grantRetrieval (k : KioskNo) (n i : Nat) (c : CompNo) (s : State) :
    (grantRetrieval k n i c s).standing = s.standing := by simp [grantRetrieval]

theorem standing_issuePickup {k : KioskNo} {s t : State} (h : issuePickup k s = some t) : t.standing = s.standing := by
  simp only [issuePickup, Option.bind_eq_bind, Option.bind_eq_some_iff] at h
  obtain ⟨x, -, w, -, e, -, h⟩ := h
  split at h
  · cases h
  · split at h <;> (cases h; simp)

@[simp] theorem standing_issuePickups (k : KioskNo) (n : Nat) (s : State) :
    (issuePickups k n s).standing = s.standing := by
  induction n generalizing s with
  | zero => rfl
  | succ n ih =>
    unfold issuePickups
    split
    next t h => rw [ih, standing_issuePickup h]
    next => rfl

@[simp] theorem standing_applyPickup (k : KioskNo) (s : State) : (applyPickup k s).standing = s.standing := by
  simp [applyPickup]

/-! ### Doors -/

@[simp] theorem standing_reportOutcome (c : CompNo) (k : KioskNo) (n d : Nat) (o : DeclOutcome) (s : State) :
    (reportOutcome c k n d o s).standing = s.standing := by
  unfold reportOutcome
  repeat' split
  all_goals simp

@[simp] theorem standing_reportRetrieval (c : CompNo) (k : KioskNo) (n : Nat) (r : Bool) (s : State) :
    (reportRetrieval c k n r s).standing = s.standing := by
  unfold reportRetrieval
  repeat' split
  all_goals simp

@[simp] theorem standing_reportOpening (c : CompNo) (t : Transient) (s : State) :
    (reportOpening c t s).standing = s.standing := by
  unfold reportOpening
  repeat' split
  all_goals simp

@[simp] theorem standing_noteDoor (x : CompState) (c : CompNo) (t : Transient) (o : DoorOutcome) (s : State) :
    (noteDoor x c t o s).standing = s.standing := by
  unfold noteDoor; split <;> simp

@[simp] theorem standing_endTransaction (e : Ending) (c : CompNo) (s : State) :
    (endTransaction e c s).standing = s.standing := by
  unfold endTransaction; dsimp only
  split
  · rfl
  · split
    · simp
    · simp
    · split <;> simp
    · simp

@[simp] theorem standing_dropQuote (c : CompNo) (s : State) : (dropQuote c s).standing = s.standing := by
  unfold dropQuote
  repeat' split
  all_goals simp

@[simp] theorem standing_noticeCollected (c : CompNo) (p : Option Parcel) (s : State) :
    (noticeCollected c p s).standing = s.standing := by
  unfold noticeCollected; split <;> simp

@[simp] theorem standing_noticeRetrieved (c : CompNo) (n : Nat) (p : Option Parcel) (s : State) :
    (noticeRetrieved c n p s).standing = s.standing := by
  unfold noticeRetrieved; split <;> simp

@[simp] theorem standing_closeHandling (c : CompNo) (o : Bool) (s : State) :
    (closeHandling c o s).standing = s.standing := by
  unfold closeHandling; dsimp only
  split
  · simp
  · split
    all_goals simp

@[simp] theorem standing_confirmedClose (c : CompNo) (o : Bool) (s : State) :
    (confirmedClose c o s).standing = s.standing := by
  unfold confirmedClose; split <;> simp

@[simp] theorem standing_occupancyConfirmed (c : CompNo) (o : Bool) (s : State) :
    (occupancyConfirmed c o s).standing = s.standing := by
  unfold occupancyConfirmed; split <;> simp

@[simp] theorem standing_forceDoor (c : CompNo) (s : State) : (forceDoor c s).standing = s.standing := by
  unfold forceDoor; dsimp only; rw [standing_postAlarm]; split <;> simp

@[simp] theorem standing_startWatch (c : CompNo) (s : State) : (startWatch c s).standing = s.standing := rfl

@[simp] theorem standing_resumeOpen (c : CompNo) (x : CompState) (s : State) : (resumeOpen c x s).standing = s.standing := rfl

@[simp] theorem standing_doorOpenUnstruck (c : CompNo) (s : State) : (doorOpenUnstruck c s).standing = s.standing := by
  unfold doorOpenUnstruck; dsimp only
  repeat' split
  all_goals simp

@[simp] theorem standing_enterDoorPhase (c : CompNo) (s : State) : (enterDoorPhase c s).standing = s.standing := by
  unfold enterDoorPhase; dsimp only; split <;> simp

@[simp] theorem standing_strikeSucceeds (g : SegNo) (a : ActiveStrike) (s : State) :
    (strikeSucceeds g a s).standing = s.standing := by
  unfold strikeSucceeds; dsimp only; split <;> simp

@[simp] theorem standing_cancelTransaction (c : CompNo) (s : State) : (cancelTransaction c s).standing = s.standing := by
  simp [cancelTransaction]

@[simp] theorem standing_requeue (g : SegNo) (a : ActiveStrike) (s : State) : (requeue g a s).standing = s.standing := by
  unfold requeue; dsimp only
  split <;> simp [apply_ite State.standing]

@[simp] theorem standing_attemptFails (g : SegNo) (a : ActiveStrike) (s : State) :
    (attemptFails g a s).standing = s.standing := by
  unfold attemptFails; dsimp only
  split <;> simp

@[simp] theorem standing_energiseEnds (g : SegNo) (a : ActiveStrike) (s : State) :
    (energiseEnds g a s).standing = s.standing := by
  unfold energiseEnds; split <;> simp

@[simp] theorem standing_strikeDone (g : SegNo) (a : ActiveStrike) (s : State) :
    (strikeDone g a s).standing = s.standing := by
  unfold strikeDone; split <;> simp

@[simp] theorem standing_doorOpened (c : CompNo) (s : State) : (doorOpened c s).standing = s.standing := by
  unfold doorOpened
  repeat' split
  all_goals simp

/-! ### Polls, where no confirmation is derived and no link state changes -/

@[simp] theorem standing_startSweep (g : SegNo) (s : State) : (startSweep g s).standing = s.standing := by
  unfold startSweep; dsimp only; split <;> rfl

@[simp] theorem standing_endSweep (g : SegNo) (s : State) : (endSweep g s).standing = s.standing := by
  unfold endSweep; dsimp only; split <;> simp

@[simp] theorem standing_advanceSweep (g : SegNo) (i : SlotNo) (s : State) : (advanceSweep g i s).standing = s.standing := by
  unfold advanceSweep
  split
  · rfl
  · simp

@[simp] theorem standing_setRates (s : State) : (setRates s).standing = s.standing := by
  rw [setRates_segments]; rfl

@[simp] theorem standing_closeOccupancy (b : BoardNo) (l : LineNo) (s : State) :
    (closeOccupancy b l s).standing = s.standing := by
  unfold closeOccupancy
  repeat' split
  all_goals simp

/-- Readings are taken beside the confirmed states (R184). -/
@[simp] theorem standing_takeReadings (b : BoardNo) (r : Vector Reading 12) (s : State) :
    (takeReadings b r s).standing = s.standing := by
  unfold takeReadings
  exact standing_setBoard rfl fun l => by rw [look_ofFn]; exact ⟨rfl, rfl⟩

@[simp] theorem standing_serveBoard (b : BoardNo) (s : State) : (serveBoard b s).standing = s.standing := rfl

@[simp] theorem standing_strikeTaken (b : BoardNo) (x y : Option LineNo) (s : State) :
    (strikeTaken b x y s).standing = s.standing := by
  unfold strikeTaken
  repeat' split
  all_goals simp

@[simp] theorem standing_reportStrike (b : BoardNo) (l : LineNo) (f : Bool) (s : State) :
    (reportStrike b l f s).standing = s.standing := by
  unfold reportStrike; dsimp only
  repeat' split
  all_goals simp

@[simp] theorem standing_takeReport (b : BoardNo) (r : Option (LineNo × Bool × Bool)) (s : State) :
    (takeReport b r s).standing = s.standing := by
  unfold takeReport; dsimp only
  repeat' split
  all_goals simp

/-! ### Scans, expiries and cancellations -/

@[simp] theorem standing_expireHeld (c : CompNo) (s : State) : (expireHeld c s).standing = s.standing := by
  unfold expireHeld
  split
  · split <;> simp
  · rfl

@[simp] theorem standing_abandonParcel (c : CompNo) (d : Delivery) (deposited now : Nat) (s : State) :
    (abandonParcel c d deposited now s).standing = s.standing := rfl

@[simp] theorem standing_scanComp (now : Nat) (c : CompNo) (s : State) : (scanComp now c s).standing = s.standing := by
  rw [scanComp_eq]
  split
  · split
    next t h => simp [standing_reserveSlot h]
    next => simp
  · simp

@[simp] theorem standing_lapseReturns (now : Nat) (s : State) : (lapseReturns now s).standing = s.standing := rfl

@[simp] theorem standing_takeBoundary (now : Nat) (s : State) : (takeBoundary now s).standing = s.standing :=
  (standing_lapseReturns now _).trans (standing_forEach _ (standing_scanComp now) s)

@[simp] theorem standing_expireQuote (c : CompNo) (s : State) : (expireQuote c s).standing = s.standing := by
  unfold expireQuote
  split
  · split <;> simp
  · rfl

@[simp] theorem standing_cancelQueue (g : SegNo) (n : Nat) (s : State) : (cancelQueue g n s).standing = s.standing := by
  induction n generalizing s with
  | zero => rfl
  | succ n ih =>
    unfold cancelQueue
    split
    · simp [ih]
    · rfl

@[simp] theorem standing_evacuate (s : State) : (evacuate s).standing = s.standing := by
  unfold evacuate; dsimp only
  rw [standing_forEach _ standing_dropQuote, standing_forEach _ fun g s => standing_cancelQueue g _ s]
  exact standing_mapKiosks fun _ => ⟨rfl, rfl⟩

end Sys2Proof.Machine

/-! Every step keeps the loaded values in range, the SKC consistent, the withdrawn flags and the confirmed states in
agreement with the link states, and the lockouts with the failure counts (R41 to R43, R50, R54, R158, R182, R191, R203,
R216, R218). These invariants read a small part of the state, which most operations leave alone; the operations that
write it, those on the failure counts, the SKC, the boards and the loaded tables, keep each invariant by itself. -/

namespace Sys2Proof.Machine

/-! ### What the invariants read -/

/-- The part of the state that the invariants read. -/
structure Ranged where
  hold           : Nat
  budgets        : Vector Nat 4
  tariff         : Vector (Option TariffRow) 4
  enables        : Vector Bool 8
  keys           : Option (Vector (BitVec 32) 4)
  withdrawn      : Vector Bool 64
  skc            : SkcState
  unlockDeadline : Option Nat
  declaring      : Option BoardNo
  standing       : Standing

/-- The part of a state that the invariants read. -/
def State.ranged (s : State) : Ranged :=
  { hold := s.ret.hold, budgets := s.ret.budgets, tariff := s.ret.tariff, enables := s.ret.enables, keys := s.ret.keys,
    withdrawn := s.ret.withdrawn, skc := s.skc, unlockDeadline := s.unlockDeadline, declaring := s.declaring,
    standing := s.standing }

/-- What writes neither the fixed part of the state nor what stands of boards and kiosks leaves it alone. -/
theorem ranged_of_fixed {s t : State} (fixed : t.fixed = s.fixed) (standing : t.standing = s.standing) :
    t.ranged = s.ranged := by
  simp only [State.ranged, ret_hold_of_fixed fixed, ret_budgets_of_fixed fixed, ret_tariff_of_fixed fixed,
    ret_enables_of_fixed fixed, ret_keys_of_fixed fixed, ret_withdrawn_of_fixed fixed, skc_of_fixed fixed,
    unlockDeadline_of_fixed fixed, declaring_of_fixed fixed, standing]

/-- Each invariant of the ranges that holds in one state holds in another. -/
structure KeepsRanges (s t : State) : Prop where
  loads     : LoadsInRange s → LoadsInRange t
  skc       : SkcConsistent s → SkcConsistent t
  withdrawn : WithdrawnAgrees s → WithdrawnAgrees t
  lockouts  : LockoutsAgree s → LockoutsAgree t
  images    : ImagesFollowLinks s → ImagesFollowLinks t
  declared  : NoneDeclared s → NoneDeclared t

theorem KeepsRanges.refl (s : State) : KeepsRanges s s := ⟨id, id, id, id, id, id⟩

theorem KeepsRanges.trans {s t u : State} (h : KeepsRanges s t) (k : KeepsRanges t u) : KeepsRanges s u where
  loads i := k.loads (h.loads i)
  skc i := k.skc (h.skc i)
  withdrawn i := k.withdrawn (h.withdrawn i)
  lockouts i := k.lockouts (h.lockouts i)
  images i := k.images (h.images i)
  declared i := k.declared (h.declared i)

/-- Where what they read is left alone, the invariants are kept. -/
theorem KeepsRanges.of_ranged {s t : State} (h : t.ranged = s.ranged) : KeepsRanges s t := by
  have link (b : BoardNo) : (t.board b).link = (s.board b).link := congrArg (fun r => r.standing.links b) h
  have image (b : BoardNo) (l : LineNo) :
      ((t.line b l).doorOpen, (t.line b l).occupied) = ((s.line b l).doorOpen, (s.line b l).occupied) :=
    congrArg (fun r => r.standing.images b l) h
  have count (k : KioskNo) :
      ((t.kiosk k).failures, (t.kiosk k).lockout) = ((s.kiosk k).failures, (s.kiosk k).lockout) :=
    congrArg (fun r => r.standing.counts k) h
  have hold : t.ret.hold = s.ret.hold := congrArg Ranged.hold h
  have budgets : t.ret.budgets = s.ret.budgets := congrArg Ranged.budgets h
  have tariff : t.ret.tariff = s.ret.tariff := congrArg Ranged.tariff h
  have enables : t.ret.enables = s.ret.enables := congrArg Ranged.enables h
  have keys : t.ret.keys = s.ret.keys := congrArg Ranged.keys h
  have flags : t.ret.withdrawn = s.ret.withdrawn := congrArg Ranged.withdrawn h
  have skc : t.skc = s.skc := congrArg Ranged.skc h
  have deadline : t.unlockDeadline = s.unlockDeadline := congrArg Ranged.unlockDeadline h
  have declaring : t.declaring = s.declaring := congrArg Ranged.declaring h
  refine ⟨fun i => ?_, fun i => ?_, fun i b => ?_, fun i k => ?_, fun i b off l => ?_, fun i => ?_⟩
  · unfold LoadsInRange; rw [hold, budgets, tariff, enables, keys]; exact i
  · unfold SkcConsistent; rw [skc, keys, deadline]; exact i
  · rw [link, flags]; exact i b
  · obtain ⟨failures, lockout⟩ := Prod.mk.inj (count k)
    rw [failures, lockout]; exact i k
  · obtain ⟨door, occupied⟩ := Prod.mk.inj (image b l)
    rw [door, occupied]; exact i b (by rwa [← link b]) l
  · exact declaring.trans i

/-- An operation known to write neither the fixed part nor what stands of boards and kiosks. -/
theorem KeepsRanges.of_fixed {s t : State} (fixed : t.fixed = s.fixed) (standing : t.standing = s.standing) :
    KeepsRanges s t := .of_ranged (ranged_of_fixed fixed standing)

theorem keepsRanges_foldl {α : Type} {f : State → α → State} (hf : ∀ s a, KeepsRanges s (f s a)) (l : List α)
    (s : State) : KeepsRanges s (l.foldl f s) := by
  induction l generalizing s with
  | nil => exact .refl s
  | cons a l ih => exact (hf s a).trans (ih _)

theorem keepsRanges_forEach {n : Nat} {f : Fin n → State → State} (hf : ∀ i s, KeepsRanges s (f i s)) (s : State) :
    KeepsRanges s (forEach f s) := keepsRanges_foldl (fun s i => hf i s) _ s

/-! ### Failure counts and lockouts (R41, R42, R43) -/

/-- A kiosk's record may change where its own lockout and failure count agree. -/
theorem keepsRanges_setKiosk {s : State} {k : KioskNo} {x : Kiosk}
    (h : LockoutsAgree s → x.failures ≤ 5 ∧ (x.lockout.isSome ↔ x.failures = 5)) :
    KeepsRanges s (s.setKiosk k x) where
  loads := id
  skc := id
  withdrawn := id
  lockouts i j := by
    rw [State.kiosk_setKiosk]
    split
    · exact h i
    · exact i j
  images := id
  declared := id

theorem keepsRanges_countFailure (k : KioskNo) (s : State) : KeepsRanges s (countFailure k s) := by
  unfold countFailure; dsimp only
  split
  next few =>
    refine keepsRanges_setKiosk fun i => ?_
    have free := (i k).2
    exact ⟨by dsimp only; omega, ⟨fun out => by have := free.mp out; omega, fun five => by dsimp only at five; omega⟩⟩
  next =>
    split
    · refine (keepsRanges_setKiosk fun _ => ?_).trans (.of_fixed (fixed_postAlarm ..) (standing_postAlarm ..))
      exact ⟨le_refl 5, by simp⟩
    · exact .refl s

/-- A success is counted only while no lockout runs. -/
theorem keepsRanges_countSuccess {k : KioskNo} {s : State} (free : (s.kiosk k).lockout = none) :
    KeepsRanges s (countSuccess k s) :=
  keepsRanges_setKiosk fun _ => ⟨Nat.zero_le 5, by simp [free]⟩

/-! ### The SKC (R216, R217, R218) -/

/-- A move of the SKC with its deadline keeps the invariants where the SKC stays consistent. -/
theorem keepsRanges_moveSkc {state : SkcState} {deadline : Option Nat} {s : State}
    (keys : SkcConsistent s → (state = .noKeys ↔ s.ret.keys = none))
    (held : deadline ≠ none ↔ state = .collected1 ∨ state = .collected2 ∨ state = .collected3 ∨ state = .unlocked) :
    KeepsRanges s (moveSkc state deadline s) :=
  ⟨id, fun i => ⟨keys i, held⟩, id, id, id, id⟩

/-- Where the SKC has keys and moves to another state than NO_KEYS. -/
theorem keepsRanges_moveSkc_keyed {state : SkcState} {deadline : Option Nat} {s : State} (before : s.skc ≠ .noKeys)
    (after : state ≠ .noKeys)
    (held : deadline ≠ none ↔ state = .collected1 ∨ state = .collected2 ∨ state = .collected3 ∨ state = .unlocked) :
    KeepsRanges s (moveSkc state deadline s) :=
  keepsRanges_moveSkc (fun i => iff_of_false after fun none => before (i.1.mpr none)) held

theorem keepsRanges_barred {s : State} (keyed : s.skc ≠ .noKeys) : KeepsRanges s (moveSkc .barred none s) :=
  keepsRanges_moveSkc_keyed keyed (by decide) (by decide)

theorem keepsRanges_extendUnlock {s : State} (unlocked : s.skc = .unlocked) : KeepsRanges s (extendUnlock s) :=
  ⟨id, fun i => ⟨i.1, by simp [extendUnlock, unlocked]⟩, id, id, id, id⟩

theorem keepsRanges_collectWord (n : Fin 4) {s : State} (keyed : s.skc ≠ .noKeys) :
    KeepsRanges s (collectWord n s) := by
  unfold collectWord
  split <;> exact keepsRanges_moveSkc_keyed keyed (by decide) (by simp)

theorem SkcState.keyed_of_expected {x : SkcState} {n : Fin 4} (h : x.expected = some n) : x ≠ .noKeys := by
  rintro rfl; cases h

theorem keepsRanges_unlockWith (index : Nat) (word : BitVec 32) (s : State) :
    KeepsRanges s (unlockWith index word s).state := by
  unfold unlockWith
  split
  next n expected =>
    have keyed := SkcState.keyed_of_expected expected
    split
    · exact keepsRanges_collectWord n keyed
    · exact keepsRanges_barred keyed
  next =>
    split
    · exact .refl s
    next keyed =>
      split
      next unlocked => exact keepsRanges_extendUnlock unlocked
      next => exact keepsRanges_barred keyed

theorem keepsRanges_endService (s : State) : KeepsRanges s (endService s).state := by
  unfold endService
  split
  case h_1 | h_2 => exact .refl s
  case h_3 h => exact keepsRanges_moveSkc_keyed (by rw [h]; decide) (by decide) (by decide)
  case h_4 h | h_5 h | h_6 h | h_7 h => exact keepsRanges_barred (by rw [h]; decide)

/-- The SKC's state once its deadline has passed is one without a deadline (R216). -/
theorem keepsRanges_lapsed (s : State) : KeepsRanges s { s with skc := s.skc.lapsed, unlockDeadline := none } := by
  have noKeys (x : SkcState) : x.lapsed = .noKeys ↔ x = .noKeys := by cases x <;> decide
  have unheld (x : SkcState) :
      ¬ (x.lapsed = .collected1 ∨ x.lapsed = .collected2 ∨ x.lapsed = .collected3 ∨ x.lapsed = .unlocked) := by
    cases x <;> decide
  exact keepsRanges_moveSkc (fun i => (noKeys s.skc).trans i.1) (iff_of_false (not_not_intro rfl) (unheld s.skc))

/-! ### Loaded values (R50, R54, R158, R203, R218) -/

theorem clamp_in_range {low high : Nat} (order : low ≤ high) (v : Nat) :
    low ≤ clamp low high v ∧ clamp low high v ≤ high := by
  unfold clamp; omega

theorem keepsRanges_storeRow (cls : SizeClass) {t : TariffRow} (row : RowInRange t) (s : State) :
    KeepsRanges s (storeRow cls t s) where
  loads := fun ⟨hold, budgets, tariff, enables, keys⟩ => ⟨hold, budgets, fun i x present => by
    dsimp only [storeRow] at present
    rw [look_put] at present
    split at present
    · cases present; exact row
    · exact tariff i x present, enables, keys⟩
  skc := id
  withdrawn := id
  lockouts := id
  images := id
  declared := id

theorem clampRow_in_range {t : TariffRow} (h : ¬ (20160 < t.freePeriod ∨ t.period = 0 ∨ 1440 < t.period ∨ 65535 < t.rate)) :
    RowInRange (clampRow t) := by
  have cap := clamp_in_range (show 1 ≤ 999999 by decide) t.cap
  have ceiling := clamp_in_range (Nat.zero_le 999999) t.ceiling
  have allowance := clamp_in_range (show 1 ≤ 43200 by decide) t.allowance
  refine ⟨?_, ?_, ?_, ?_, cap.1, cap.2, ceiling.2, allowance.1, allowance.2⟩ <;> dsimp only [clampRow] <;> omega

theorem keepsRanges_setHold (v : Nat) (s : State) :
    KeepsRanges s { s with ret := { s.ret with hold := clamp 60 600 v } } :=
  ⟨fun i => ⟨clamp_in_range (by decide) v, i.2⟩, id, id, id, id, id⟩

theorem keepsRanges_setBudget (g : SegNo) (v : Nat) (s : State) :
    KeepsRanges s { s with ret := { s.ret with budgets := put s.ret.budgets g (clamp 1 3 v) } } where
  loads := fun ⟨hold, budgets, rest⟩ => ⟨hold, fun h => by
    dsimp only
    rw [look_put]
    split
    · exact clamp_in_range (by decide) v
    · exact budgets h, rest⟩
  skc := id
  withdrawn := id
  lockouts := id
  images := id
  declared := id

theorem keepsRanges_setEnables (given : List Bool) (s : State) :
    KeepsRanges s { s with ret := { s.ret with enables := storedEnables given } } where
  loads := fun ⟨hold, budgets, tariff, _, keys⟩ =>
    ⟨hold, budgets, tariff, (look_ofFn ..).trans (if_pos rfl), keys⟩
  skc := id
  withdrawn := id
  lockouts := id
  images := id
  declared := id

theorem not_flatWord {keys : Vector (BitVec 32) 4} (h : ¬ keys.any flatWord = true) (i : Fin 4) :
    look keys i ≠ 0 ∧ look keys i ≠ BitVec.allOnes 32 := by
  have word : ¬ flatWord (look keys i) = true := fun flat =>
    h (Vector.any_eq_true.mpr ⟨i.val, i.isLt, flat⟩)
  simpa [flatWord] using word

theorem keepsRanges_storeKeys {keys : Vector (BitVec 32) 4} (words : ¬ keys.any flatWord = true) (s : State) :
    KeepsRanges s (storeKeys keys s) := by
  have loads (i : LoadsInRange s) : LoadsInRange { s with ret := { s.ret with keys := some keys } } := by
    obtain ⟨hold, budgets, tariff, enables, -⟩ := i
    refine ⟨hold, budgets, tariff, enables, fun k present => ?_⟩
    cases present
    exact not_flatWord words
  unfold storeKeys; dsimp only
  split
  · exact ⟨loads, fun _ => ⟨by simp [moveSkc], by simp [moveSkc]⟩, id, id, id, id⟩
  next keyed => exact ⟨loads, fun i => ⟨iff_of_false keyed (by simp), i.2⟩, id, id, id, id⟩

/-! ### Boards (R182, R183, R189, R190) -/

/-- A board's record may change where it is WITHDRAWN as before, and its confirmed states are none unless it is
ONLINE. -/
theorem keepsRanges_setBoard {s : State} {b : BoardNo} {x : Board}
    (link : x.link = .withdrawn ↔ (s.board b).link = .withdrawn)
    (images : x.link ≠ .online → ∀ l, (look x.lines l).doorOpen = none ∧ (look x.lines l).occupied = none) :
    KeepsRanges s (s.setBoard b x) where
  loads := id
  skc := id
  withdrawn i d := by
    rw [State.board_setBoard]
    split
    next same => rw [link, ← same]; exact i d
    next => exact i d
  lockouts := id
  images i d := by
    unfold State.line
    rw [State.board_setBoard]
    split
    · exact images
    · exact i d
  declared := id

/-- A line of an ONLINE board may take any confirmed state. -/
theorem keepsRanges_setLine {s : State} {b : BoardNo} (online : (s.board b).link = .online) (l : LineNo) (x : Line) :
    KeepsRanges s (s.setLine b l x) :=
  keepsRanges_setBoard Iff.rfl fun off => absurd online off

theorem keepsRanges_lineOpened {b : BoardNo} {s : State} (online : (s.board b).link = .online) (l : LineNo) :
    KeepsRanges s (lineOpened b l s) := by
  unfold lineOpened; dsimp only
  split
  · exact (keepsRanges_setLine online l _).trans (.of_fixed (fixed_doorOpened ..) (standing_doorOpened ..))
  · exact keepsRanges_setLine online l _

theorem keepsRanges_lineClosed {b : BoardNo} {s : State} (online : (s.board b).link = .online) (l : LineNo) (n : Reading) :
    KeepsRanges s (lineClosed b l n s) := by
  unfold lineClosed; dsimp only
  split
  · exact (keepsRanges_setLine online l _).trans (.of_fixed (fixed_confirmedClose ..) (standing_confirmedClose ..))
  · exact keepsRanges_setLine online l _

theorem keepsRanges_confirmDoor (b : BoardNo) (l : LineNo) (s : State) : KeepsRanges s (confirmDoor b l s) := by
  unfold confirmDoor; dsimp only
  split
  · split
    next o n _ _ confirmed =>
      split
      · exact keepsRanges_lineOpened confirmed.1 l
      · exact keepsRanges_lineClosed confirmed.1 l n
    next => exact .refl s
  · exact .refl s

theorem keepsRanges_confirmOccupancy (b : BoardNo) (l : LineNo) (s : State) :
    KeepsRanges s (confirmOccupancy b l s) := by
  unfold confirmOccupancy; dsimp only
  split
  · split
    next o n _ _ confirmed =>
      have online := confirmed.1
      split
      · exact (keepsRanges_setLine online l _).trans
          (.of_fixed (fixed_occupancyConfirmed ..) (standing_occupancyConfirmed ..))
      · exact keepsRanges_setLine online l _
    next => exact .refl s
  · exact .refl s

theorem keepsRanges_closeOccupancy (b : BoardNo) (l : LineNo) (s : State) : KeepsRanges s (closeOccupancy b l s) :=
  .of_fixed (fixed_closeOccupancy ..) (standing_closeOccupancy ..)

theorem keepsRanges_confirmOccupancies (before : Vector Line 12) (b : BoardNo) (l : LineNo) (s : State) :
    KeepsRanges s (confirmOccupancies before b l s) := by
  unfold confirmOccupancies
  split
  · exact keepsRanges_closeOccupancy b l s
  · exact keepsRanges_confirmOccupancy b l s

theorem keepsRanges_confirmFresh (b : BoardNo) (l : LineNo) (s : State) : KeepsRanges s (confirmFresh b l s) := by
  unfold confirmFresh; dsimp only
  split
  · exact (keepsRanges_confirmDoor b l s).trans (keepsRanges_closeOccupancy b l _)
  · exact keepsRanges_confirmDoor b l s

/-- The model's own field of a declaration under way is put back after it (log 49). -/
theorem KeepsRanges.declaring {s t : State} {b : Option BoardNo} (h : KeepsRanges { s with declaring := b } t) :
    KeepsRanges s { t with declaring := s.declaring } :=
  ⟨h.loads, h.skc, h.withdrawn, h.lockouts, h.images, id⟩

theorem keepsRanges_confirmLines (b : BoardNo) (s : State) : KeepsRanges s (confirmLines b s) :=
  (keepsRanges_forEach (keepsRanges_confirmFresh b) { s with declaring := some b }).declaring

/-- A board that is not WITHDRAWN is declared LOST: its confirmed states are none (R182). -/
theorem keepsRanges_declareLost {b : BoardNo} {s : State} (link : (s.board b).link ≠ .withdrawn) :
    KeepsRanges s (declareLost b s) := by
  rw [declareLost_eq]
  refine KeepsRanges.trans (t := disconnected b s) ?_
    (keepsRanges_foldl (fun s a => .of_fixed (fixed_energiseEnds _ a s) (standing_energiseEnds _ a s)) _ _)
  unfold disconnected
  refine (keepsRanges_setBoard (iff_of_false LinkState.noConfusion link) fun _ l => ?_).trans (.of_ranged rfl)
  rw [look_map]; exact ⟨rfl, rfl⟩

/-- A board that is not WITHDRAWN is declared ONLINE (R183). -/
theorem keepsRanges_declareOnline {b : BoardNo} {s : State} (link : (s.board b).link ≠ .withdrawn) :
    KeepsRanges s (declareOnline b s) := by
  have online : KeepsRanges s (s.setBoard b { s.board b with link := .online, goodRun := 0, window := [] }) :=
    keepsRanges_setBoard (iff_of_false LinkState.noConfusion link) fun off => absurd rfl off
  unfold declareOnline
  exact online.trans <| (KeepsRanges.of_fixed (fixed_serveBoard b _) (standing_serveBoard b _)).trans <|
    (keepsRanges_confirmLines b _).trans (.of_fixed (fixed_applyIssue ..) (standing_applyIssue ..))

/-- What supervision counts of a board's polls is none of its link state and lines. -/
theorem keepsRanges_setBoard_lines {b : BoardNo} {x : Board} {s : State} (link : x.link = (s.board b).link)
    (lines : x.lines = (s.board b).lines) : KeepsRanges s (s.setBoard b x) :=
  .of_fixed (fixed_setBoard ..) (standing_setBoard_lines link lines)

theorem keepsRanges_supervise (b : BoardNo) (good : Bool) (s : State) : KeepsRanges s (supervise b good s) := by
  unfold supervise; dsimp only
  split
  case h_1 online =>
    have counted (window : List Bool) : KeepsRanges s (s.setBoard b { s.board b with window }) :=
      keepsRanges_setBoard_lines rfl rfl
    split
    · refine (counted _).trans (keepsRanges_declareLost ?_)
      rw [State.board_setBoard_same, online]; decide
    · exact counted _
  case h_2 off | h_3 off =>
    split
    · split
      · exact keepsRanges_declareOnline (by rw [off]; decide)
      · exact keepsRanges_setBoard_lines rfl rfl
    · exact keepsRanges_setBoard_lines rfl rfl
  case h_4 => exact .refl s

theorem keepsRanges_takeReply (b : BoardNo) (carried : Option LineNo) (r : BoardReply) (s : State) :
    KeepsRanges s (takeReply b carried r s) := by
  have readings : KeepsRanges s (if (s.board b).link = .withdrawn then s else takeReadings b r.readings s) := by
    split
    · exact .refl s
    · exact .of_fixed (fixed_takeReadings ..) (standing_takeReadings ..)
  have strike (s : State) : KeepsRanges s (strikeTaken b carried r.taken s) :=
    .of_fixed (fixed_strikeTaken ..) (standing_strikeTaken ..)
  have report (s : State) : KeepsRanges s (takeReport b r.report s) :=
    .of_fixed (fixed_takeReport ..) (standing_takeReport ..)
  unfold takeReply
  exact readings.trans <| (keepsRanges_supervise b true _).trans <| (strike _).trans <|
    (keepsRanges_forEach (keepsRanges_confirmDoor b) _).trans <|
    (keepsRanges_forEach (keepsRanges_confirmOccupancies _ b) _).trans (report _)

theorem keepsRanges_takeOutcome (b : BoardNo) (carried : Option LineNo) (heard : Option (List Byte)) (s : State) :
    KeepsRanges s (takeOutcome b carried heard s) := by
  unfold takeOutcome
  split
  · exact keepsRanges_takeReply ..
  · exact keepsRanges_supervise ..

theorem freshBoard_images (flag : Bool) (l : LineNo) :
    (look (freshBoard flag).lines l).doorOpen = none ∧ (look (freshBoard flag).lines l).occupied = none := by
  rw [show look (freshBoard flag).lines l = freshLine from look_replicate ..]; exact ⟨rfl, rfl⟩

theorem freshBoard_withdrawn (flag : Bool) : (freshBoard flag).link = .withdrawn ↔ flag = true := by
  cases flag <;> decide

/-- A board as after a reset but for its report bit, with its withdrawn flag to match (R189, R190). -/
theorem keepsRanges_renewBoard (b : BoardNo) (flag : Bool) (compartments : Vector Compartment 768) (bit : Bool) (s : State) :
    KeepsRanges s
      (({ s with ret := { s.ret with withdrawn := put s.ret.withdrawn b flag, compartments } } : State).setBoard b
        { freshBoard flag with expectedBit := bit }) where
  loads := id
  skc := id
  withdrawn i d := by
    rw [State.board_setBoard, State.setBoard_ret]; dsimp only
    rw [look_put]
    split
    · exact freshBoard_withdrawn flag
    · exact i d
  lockouts := id
  images i d := by
    unfold State.line
    rw [State.board_setBoard]
    split
    · exact fun _ => freshBoard_images flag
    · exact i d
  declared := id

theorem keepsRanges_withdrawBoard (b : BoardNo) (s : State) : KeepsRanges s (withdrawBoard b s) :=
  keepsRanges_renewBoard ..

theorem keepsRanges_reinstateBoard (b : BoardNo) (s : State) : KeepsRanges s (reinstateBoard b s) :=
  keepsRanges_renewBoard b false s.ret.compartments ..

theorem keepsRanges_unnameBoard (b : BoardNo) (s : State) : KeepsRanges s (unnameBoard b s) := by
  unfold unnameBoard
  split
  case h_1 online => exact keepsRanges_declareLost (by rw [online]; decide)
  case h_2 | h_3 => exact keepsRanges_setBoard_lines rfl rfl
  case h_4 => exact .refl s

theorem keepsRanges_nameBoard (b : BoardNo) (s : State) : KeepsRanges s (nameBoard b s) := by
  unfold nameBoard
  split
  case h_1 | h_2 => exact keepsRanges_setBoard_lines rfl rfl
  case h_3 | h_4 => exact .refl s

theorem keepsRanges_storeSlot (g : SegNo) (slot : SlotNo) (content : Option SlotContent) (s : State) :
    KeepsRanges s (storeSlot g slot content s) := by
  unfold storeSlot; dsimp only
  generalize stored : ({ s with ret := { s.ret with
    slots := put s.ret.slots g (put (look s.ret.slots g) slot content) } } : State) = u
  have loaded : KeepsRanges s u := by rw [← stored]; exact .of_ranged rfl
  have unnamed : KeepsRanges s (match look (look s.ret.slots g) slot with
      | some x => if slotted u g x.board then u else unnameBoard x.board u
      | none => u) := by
    split
    · split
      · exact loaded
      · exact loaded.trans (keepsRanges_unnameBoard ..)
    · exact loaded
  split
  · split
    · exact unnamed
    · exact unnamed.trans (keepsRanges_nameBoard ..)
  · exact unnamed

/-! ### Resets (R30, R48, R191, R216) -/

/-- The records of boards, kiosks and the SKC right after a reset meet every invariant; the loads are retained. -/
theorem keepsRanges_fresh {s t : State} (loads : LoadsInRange s → LoadsInRange t)
    (skc : t.skc = if t.ret.keys.isSome then .idle else .noKeys) (deadline : t.unlockDeadline = none)
    (boards : t.boards = t.ret.withdrawn.map freshBoard) (kiosks : t.kiosks = Vector.replicate 4 freshKiosk)
    (declaring : t.declaring = none) : KeepsRanges s t := by
  have board (b : BoardNo) : t.board b = freshBoard (look t.ret.withdrawn b) := by rw [State.board, boards, look_map]
  have kiosk (k : KioskNo) : t.kiosk k = freshKiosk := by rw [State.kiosk, kiosks, look_replicate]
  refine ⟨loads, fun _ => ?_, fun _ b => ?_, fun _ k => ?_, fun _ b _ l => ?_, fun _ => declaring⟩
  · unfold SkcConsistent
    rw [skc, deadline]
    cases t.ret.keys <;> simp
  · rw [board]; exact freshBoard_withdrawn _
  · rw [kiosk]; decide
  · rw [State.line, board]; exact freshBoard_images _ l

/-- A reset leaves every invariant, where the retained state that it starts from has its loads in range. -/
theorem keepsRanges_coldStart {r : Retained} {s : State} (straps : BankId) (alarms : List Alarm)
    (loads : LoadsInRange s → LoadsInRange { s with ret := r }) : KeepsRanges s (coldStart r straps alarms s) := by
  unfold coldStart
  refine KeepsRanges.trans ?_ (.of_fixed (fixed_forEach _ fixed_startSweep _) (standing_forEach _ standing_startSweep _))
  exact keepsRanges_fresh loads rfl rfl rfl rfl rfl

theorem keepsRanges_restartPart (straps : BankId) (s : State) : KeepsRanges s (restartPart straps s) :=
  keepsRanges_coldStart straps [] id

theorem keepsRanges_blankPart (straps : BankId) (s : State) : KeepsRanges s (blankPart straps s) :=
  keepsRanges_coldStart straps _ fun _ => loadsInRange_reset

theorem keepsRanges_resetPart (straps : BankId) (s : State) : KeepsRanges s (resetPart straps s) := by
  unfold resetPart
  split
  · exact keepsRanges_restartPart straps s
  · exact keepsRanges_blankPart straps s

end Sys2Proof.Machine

/-! The commands, in the order of their files: each keeps the invariants of the ranges, since what it is made of does. -/

namespace Sys2Proof.Machine

/-! ### Events and requests -/

/-- A command's meaning keeps the invariants of the ranges. -/
def RangesKept (run : State → Result) : Prop := ∀ s t, run s = .next t → KeepsRanges s t

theorem event_rangesKept {effect : State → Option State} (h : ∀ s, ∀ t ∈ effect s, KeepsRanges s t) :
    RangesKept fun s => event s effect := by
  intro s t run
  obtain ⟨-, u, some, rfl⟩ | rfl := event_cases run
  · refine (h s u some).trans (.of_ranged ?_)
    rw [settle_eq]; rfl
  · exact .refl t

/-- A request keeps the invariants where its owner does: the trunk takes the frame and sends the reply beside them. -/
theorem request_rangesKept {kind : Byte} {r : Request} {own : State → Answer}
    (h : ∀ s, KeepsRanges s (own s).state) : RangesKept fun s => request kind r s own := by
  refine event_rangesKept fun s t some => ?_
  obtain ⟨u, frame, rfl⟩ := Option.map_eq_some_iff.mp some
  obtain ⟨-, -, -, rfl⟩ := takeFrame_some frame
  have taken : KeepsRanges s { s with receive := s.receive.tail } := .of_ranged rfl
  have idle (u : State) : KeepsRanges u (touchIdle r u) := .of_ranged (by rw [touchIdle_eq]; rfl)
  have reply (a : Answer) : KeepsRanges a.state (sendReply kind r a) :=
    .of_ranged (by unfold sendReply; split <;> rfl)
  exact taken.trans ((idle _).trans ((h _).trans (reply _)))

/-- An effect that has a condition keeps the invariants where it does so under the condition. -/
theorem keepsRanges_of_due {p : Prop} [Decidable p] {s t u : State} (h : t ∈ if p then some u else none)
    (kept : KeepsRanges s u) : KeepsRanges s t := by
  obtain ⟨-, h⟩ := Option.ite_none_right_eq_some.mp h
  rwa [← Option.some.inj h]

/-! ### The checks of a request

Each check either refuses or hands on to what comes after it, so what holds of the state either way holds of the state
after the check. -/

section checks

variable {α : Type} {r : Request} {parsed : Option α} {s : State} {P : State → Prop}

theorem withBody_holds {own : α → Answer} (refused : P s) (h : ∀ x, P (own x).state) : P (withBody parsed s own).state := by
  cases parsed with
  | some x => exact h x
  | none => exact refused

theorem fromKiosk_holds {own : KioskNo → Answer} (refused : P s) (h : ∀ k, P (own k).state) :
    P (fromKiosk r s own).state := by
  unfold fromKiosk
  split
  · exact h _
  · exact refused

theorem fromBackend_holds {own : Answer} (refused : P s) (h : P own.state) : P (fromBackend r s own).state := by
  unfold fromBackend
  split
  · exact h
  · exact refused

theorem customerConcourse_holds {own : Answer} (refused : P s) (h : P own.state) :
    P (customerConcourse s own).state := by
  unfold customerConcourse
  split
  case h_1 | h_2 => exact h
  all_goals exact refused

theorem courierConcourse_holds {own : Answer} (refused : P s) (h : P own.state) :
    P (courierConcourse s own).state := by
  unfold courierConcourse
  split
  case h_1 | h_2 | h_3 => exact h
  all_goals exact refused

theorem notLockedOut_holds {k : KioskNo} {own : Answer} (refused : P s)
    (h : (s.kiosk k).lockout = none → P own.state) : P (notLockedOut k s own).state := by
  unfold notLockedOut
  split
  · exact refused
  next free => exact h (Option.not_isSome_iff_eq_none.mp free)

theorem withClock_holds {own : Nat → Answer} (refused : P s) (h : ∀ now, P (own now).state) :
    P (withClock s own).state := by
  unfold withClock
  split
  · exact h _
  · exact refused

theorem withSession_holds {k : KioskNo} {own : Session → Answer} (refused : P s) (h : ∀ x, P (own x).state) :
    P (withSession k s own).state := by
  unfold withSession
  split
  · exact h _
  · exact refused

theorem customer_holds {own : KioskNo → α → Answer} (refused : P s)
    (h : ∀ k x, (s.kiosk k).lockout = none → P (own k x).state) : P (customer r parsed s own).state :=
  fromKiosk_holds refused fun k => withBody_holds refused fun x =>
    customerConcourse_holds refused (notLockedOut_holds refused (h k x))

theorem courierRequest_keepsRanges {own : KioskNo → α → State → Answer}
    (h : ∀ k x t, KeepsRanges t (own k x t).state) : KeepsRanges s (courierRequest r parsed s own).state := by
  refine fromKiosk_holds (.refl s) fun k => ?_
  have touched : KeepsRanges s (touchSession k s) := .of_fixed (fixed_touchSession k s) (standing_touchSession k s)
  exact withBody_holds touched fun x => touched.trans (h k x _)

theorem backendRequest_keepsRanges {own : α → Answer} (h : ∀ x, KeepsRanges s (own x).state) :
    KeepsRanges s (fromBackend r s (withBody parsed s own)).state :=
  fromBackend_holds (.refl s) (withBody_holds (.refl s) h)

theorem admitted_keepsRanges {own : State → Answer} (h : ∀ t, KeepsRanges t (own t).state) :
    KeepsRanges s (admitted s own).state := by
  unfold admitted
  split
  case h_1 => exact h s
  case h_2 unlocked => exact (keepsRanges_extendUnlock unlocked).trans (h _)
  case h_3 | h_4 => exact .refl s
  case h_5 x | h_6 x | h_7 x => exact keepsRanges_barred (by rw [x]; decide)

theorem maintenance_keepsRanges {own : α → State → Answer} (h : ∀ x t, KeepsRanges t (own x t).state) :
    KeepsRanges s (maintenance r parsed s own).state := by
  unfold maintenance
  split
  · exact withBody_holds (.refl s) fun x => admitted_keepsRanges (h x)
  · exact .refl s

theorem staffRequest_keepsRanges {own : α → State → Answer} (h : ∀ x t, KeepsRanges t (own x t).state) :
    KeepsRanges s (staffRequest r parsed s own).state := by
  unfold staffRequest
  split
  · exact withBody_holds (.refl s) fun x => h x s
  · exact withBody_holds (.refl s) fun x => admitted_keepsRanges (h x)
  · exact .refl s

end checks

/-! ### What the requests share -/

theorem keepsRanges_reserveSlot {s t : State} (h : reserveSlot s = some t) : KeepsRanges s t :=
  .of_fixed (fixed_reserveSlot h) (standing_reserveSlot h)

theorem keepsRanges_dropQuote (c : CompNo) (s : State) : KeepsRanges s (dropQuote c s) :=
  .of_fixed (fixed_dropQuote c s) (standing_dropQuote c s)

theorem keepsRanges_allocate {s t : State} {cls : SizeClass} {upsize deposit : Bool} {c : CompNo}
    (h : allocate s cls upsize deposit = some (t, c)) : KeepsRanges s t :=
  .of_ranged (by rw [allocate_frame h]; rfl)

theorem keepsRanges_generation {s t : State} {code : Option Nat} (h : generation s = (t, code)) : KeepsRanges s t := by
  have : KeepsRanges s (generation s).1 := .of_ranged rfl
  rwa [h] at this

theorem keepsRanges_grantCollection (c : CompNo) (k : KioskNo) (s : State) : KeepsRanges s (grantCollection c k s) :=
  .of_fixed (fixed_grantCollection c k s) (by simp [grantCollection])

theorem keepsRanges_queueStrike (c : CompNo) (p : Purpose) (s : State) : KeepsRanges s (queueStrike c p s) :=
  .of_fixed (fixed_queueStrike c p s) (standing_queueStrike c p s)

theorem keepsRanges_setSession (k : KioskNo) (x : Option Session) (s : State) : KeepsRanges s (setSession k x s) :=
  .of_fixed (fixed_setSession k x s) (standing_setSession k x s)

/-! ### Customers -/

theorem keepsRanges_chargeCollect (k : KioskNo) (now : Nat) (c : CompNo) (s : State) :
    KeepsRanges s (chargeCollect k now c s).state := by
  unfold chargeCollect; dsimp only
  split
  · split
    · exact .of_ranged rfl
    · split
      · exact .refl s
      · split
        next => exact .refl s
        next t ht => exact (keepsRanges_reserveSlot ht).trans (keepsRanges_grantCollection c k t)
  · exact .refl s

theorem keepsRanges_ownCollect (k : KioskNo) (code now : Nat) {s : State} (free : (s.kiosk k).lockout = none) :
    KeepsRanges s (ownCollect k code now s).state := by
  have success := keepsRanges_countSuccess free
  unfold ownCollect; dsimp only
  split
  · exact keepsRanges_countFailure k s
  · split
    · exact .refl s
    · split
      · split
        · exact success.trans ((keepsRanges_dropQuote _ _).trans (keepsRanges_chargeCollect ..))
        · split
          · exact success.trans (keepsRanges_chargeCollect ..)
          · exact success
      · exact success.trans (keepsRanges_chargeCollect ..)

theorem execCollect_rangesKept (r : Request) : RangesKept (execCollect r) :=
  request_rangesKept fun s => customer_holds (.refl s) fun k code free =>
    withClock_holds (.refl s) fun now => keepsRanges_ownCollect k code now free

theorem keepsRanges_acceptCollectionPay (k : KioskNo) (p : PayFields) (c : CompNo) (s : State) :
    KeepsRanges s (acceptCollectionPay k p c s).state := by
  unfold acceptCollectionPay; dsimp only
  refine KeepsRanges.trans (.of_ranged ?_) (keepsRanges_grantCollection c k _)
  simp only [State.ranged, standing_setLastPayment]; rfl

theorem keepsRanges_acceptPostagePay (k : KioskNo) (p : PayFields) (c : CompNo) (s : State) :
    KeepsRanges s (acceptPostagePay k p c s).state := by
  unfold acceptPostagePay; dsimp only
  refine KeepsRanges.trans (.of_ranged ?_) (keepsRanges_queueStrike c .drop _)
  simp only [State.ranged, standing_setQuote, standing_setLastPayment]; rfl

theorem keepsRanges_payWithoutQuote (k : KioskNo) (p : PayFields) (s : State) :
    KeepsRanges s (payWithoutQuote k p s).state := by
  unfold payWithoutQuote
  split
  · split <;> exact .refl s
  · exact .refl s

theorem keepsRanges_payQuote (k : KioskNo) (p : PayFields) (c : CompNo) (q : Quote) (s : State) :
    KeepsRanges s (payQuote k p c q s).state := by
  unfold payQuote
  split; · exact .refl s
  split; · exact keepsRanges_dropQuote c s
  split; · exact .refl s
  split; · exact .refl s
  split
  · exact keepsRanges_acceptPostagePay ..
  · split
    · exact .refl s
    · split
      next t ht => exact (keepsRanges_reserveSlot ht).trans (keepsRanges_acceptCollectionPay k p c t)
      next => exact .refl s

theorem keepsRanges_ownPay (k : KioskNo) (p : PayFields) (s : State) : KeepsRanges s (ownPay k p s).state := by
  unfold ownPay
  split
  · split
    · split
      · exact keepsRanges_payQuote ..
      · exact keepsRanges_payWithoutQuote ..
    · exact keepsRanges_payWithoutQuote ..
  · exact keepsRanges_payWithoutQuote ..

theorem execPay_rangesKept (r : Request) : RangesKept (execPay r) :=
  request_rangesKept fun s => by
    rw [echoPay_state]
    exact customer_holds (.refl s) fun k p _ => keepsRanges_ownPay k p s

theorem keepsRanges_admitDrop (k : KioskNo) (now : Nat) (e : ReturnEntry) (c : CompNo) (s : State) :
    KeepsRanges s (admitDrop k now e c s).state := by
  unfold admitDrop; dsimp only
  split
  · exact .of_fixed (by simp) (by simp)
  · refine KeepsRanges.trans (t := setDoorResult k none _) (.of_fixed (by simp) (by simp)) (.of_ranged rfl)

theorem keepsRanges_ownReturnDrop (k : KioskNo) (reference now : Nat) {s : State} (free : (s.kiosk k).lockout = none) :
    KeepsRanges s (ownReturnDrop k reference now s).state := by
  have success := keepsRanges_countSuccess free
  unfold ownReturnDrop; dsimp only
  split; · exact keepsRanges_countFailure k s
  split; · exact success
  split; · exact success
  split; · exact success
  next t ht =>
    have reserved := success.trans (keepsRanges_reserveSlot ht)
    split; · exact reserved.trans (.of_ranged rfl)
    next u c hu =>
      have allocated := reserved.trans (keepsRanges_allocate hu)
      split
      · exact allocated.trans (keepsRanges_admitDrop k now _ c u)
      · exact allocated.trans (.of_ranged rfl)

theorem execReturnDrop_rangesKept (r : Request) : RangesKept (execReturnDrop r) :=
  request_rangesKept fun s => customer_holds (.refl s) fun k reference free =>
    withClock_holds (.refl s) fun now => keepsRanges_ownReturnDrop k reference now free

theorem execDoorStatus_rangesKept (r : Request) : RangesKept (execDoorStatus r) :=
  request_rangesKept fun s => customer_holds (.refl s) fun _ _ _ => by split <;> exact .refl s

/-! ### Couriers -/

theorem keepsRanges_ownSignOn (k : KioskNo) (id : Nat) (credential : BitVec 32) {s : State}
    (free : (s.kiosk k).lockout = none) : KeepsRanges s (ownSignOn k id credential s).state := by
  unfold ownSignOn
  split; · exact .refl s
  split
  · split
    · split
      · exact .refl s
      · exact (keepsRanges_countSuccess free).trans ((keepsRanges_setSession k _ _).trans (.of_ranged rfl))
    · exact keepsRanges_countFailure k s
  · exact keepsRanges_countFailure k s

theorem execSignOn_rangesKept (r : Request) : RangesKept (execSignOn r) :=
  request_rangesKept fun _ => courierRequest_keepsRanges fun k ⟨id, credential⟩ s =>
    courierConcourse_holds (.refl s) (notLockedOut_holds (.refl s) (keepsRanges_ownSignOn k id credential))

theorem execSignOff_rangesKept (r : Request) : RangesKept (execSignOff r) :=
  request_rangesKept fun _ => courierRequest_keepsRanges fun k _ s =>
    withSession_holds (.refl s) fun _ => keepsRanges_setSession k none s

theorem keepsRanges_placeDeclare (k : KioskNo) (x : Session) (f : DeclareFields) (cls : SizeClass) (s : State) :
    KeepsRanges s (placeDeclare k x f cls s).state := by
  unfold placeDeclare
  split; · exact .refl s
  next t ht =>
    have reserved := keepsRanges_reserveSlot ht
    split; · exact reserved.trans (.of_ranged rfl)
    next u c hu =>
      have allocated := reserved.trans (keepsRanges_allocate hu)
      have placed : KeepsRanges s (reserveDeposit k x f c u) := allocated.trans (.of_ranged rfl)
      split; · exact allocated.trans (.of_ranged rfl)
      split
      next v code hv =>
        exact (placed.trans (keepsRanges_generation hv)).trans
          (.of_fixed (fixed_acceptDeclare k x f c code v) (by simp [acceptDeclare]))
      next v hv => exact (placed.trans (keepsRanges_generation hv)).trans (.of_ranged rfl)

theorem keepsRanges_rangeDeclare (k : KioskNo) (x : Session) (e : Courier) (f : DeclareFields) (s : State) :
    KeepsRanges s (rangeDeclare k x e f s).state := by
  refine withClock_holds (.refl s) fun _ => ?_
  split; · exact .refl s
  split; · exact .refl s
  split; · exact .refl s
  split; · exact .refl s
  split; · exact .refl s
  exact keepsRanges_placeDeclare ..

theorem execDeclare_rangesKept (r : Request) : RangesKept (execDeclare r) :=
  request_rangesKept fun _ => courierRequest_keepsRanges fun k f s => withSession_holds (.refl s) fun x => by
    split
    · split
      · exact courierConcourse_holds (.refl s) (keepsRanges_rangeDeclare k x _ f s)
      · exact .refl s
    · exact .refl s

theorem execSessionStatus_rangesKept (r : Request) : RangesKept (execSessionStatus r) :=
  request_rangesKept fun _ => courierRequest_keepsRanges fun _ _ s => withSession_holds (.refl s) fun _ => .refl s

theorem keepsRanges_startCourierSweep (k : KioskNo) (x : Session) (returns recover : Bool) (s : State) :
    KeepsRanges s (startCourierSweep k x returns recover s).state := by
  unfold startCourierSweep; dsimp only
  split; · exact .refl s
  split; · exact .refl s
  exact .of_fixed (by simp) (by simp)

theorem execSweep_rangesKept (r : Request) : RangesKept (execSweep r) :=
  request_rangesKept fun _ => courierRequest_keepsRanges fun k ⟨returns, recover⟩ s =>
    withSession_holds (.refl s) fun x => by
      split; · exact .refl s
      split
      · split
        · exact .refl s
        · exact courierConcourse_holds (.refl s) (keepsRanges_startCourierSweep k x returns recover s)
      · exact .refl s

theorem execSweepEnd_rangesKept (r : Request) : RangesKept (execSweepEnd r) :=
  request_rangesKept fun _ => courierRequest_keepsRanges fun k _ s => withSession_holds (.refl s) fun _ => by
    split
    · exact .refl s
    · exact keepsRanges_setSession k _ s

/-! ### The backend and the staff -/

theorem execFetchNotice_rangesKept (r : Request) : RangesKept (execFetchNotice r) :=
  request_rangesKept fun s => backendRequest_keepsRanges fun _ => by
    split
    · exact .of_ranged rfl
    · exact .refl s

theorem execRevoke_rangesKept (r : Request) : RangesKept (execRevoke r) :=
  request_rangesKept fun s => backendRequest_keepsRanges fun _ => by
    split; · exact .refl s
    split
    · exact .of_ranged rfl
    · split <;> exact .refl s

theorem execReissue_rangesKept (r : Request) : RangesKept (execReissue r) :=
  request_rangesKept fun s => backendRequest_keepsRanges fun _ => by
    split; · exact .refl s
    split; · exact .refl s
    split; · exact .refl s
    split
    next t ht => exact keepsRanges_generation ht
    next t code ht => exact (keepsRanges_generation ht).trans (.of_ranged rfl)

/-- The courier table is loaded, and the end of a courier's sessions leaves failure counts and lockouts alone. -/
theorem keepsRanges_loadCouriers (id : Nat) (couriers : List Courier) (s : State) :
    KeepsRanges s (endSessionsOf id { s with ret := { s.ret with couriers } }) := by
  have loaded : KeepsRanges s { s with ret := { s.ret with couriers } } := .of_ranged rfl
  refine loaded.trans (.of_fixed rfl (standing_mapKiosks fun x => ?_))
  split <;> exact ⟨rfl, rfl⟩

theorem execLoadCourier_rangesKept (r : Request) : RangesKept (execLoadCourier r) :=
  request_rangesKept fun s => backendRequest_keepsRanges fun _ => by
    split; · exact .refl s
    dsimp only
    split
    · exact .refl s
    · exact keepsRanges_loadCouriers _ _ s

theorem execRemoveCourier_rangesKept (r : Request) : RangesKept (execRemoveCourier r) :=
  request_rangesKept fun s => backendRequest_keepsRanges fun _ => by
    split; · exact .refl s
    split
    · exact .refl s
    · exact keepsRanges_loadCouriers _ _ s

theorem execLoadReturn_rangesKept (r : Request) : RangesKept (execLoadReturn r) :=
  request_rangesKept fun s => backendRequest_keepsRanges fun _ => by
    split; · exact .refl s
    split; · exact .refl s
    split; · exact .refl s
    split
    · exact .refl s
    · exact .of_ranged rfl

theorem execRemoveReturn_rangesKept (r : Request) : RangesKept (execRemoveReturn r) :=
  request_rangesKept fun s => backendRequest_keepsRanges fun _ => by
    split; · exact .refl s
    split; · exact .refl s
    split
    · exact .refl s
    · exact .of_ranged rfl

theorem execSettle_rangesKept (r : Request) : RangesKept (execSettle r) :=
  request_rangesKept fun s => backendRequest_keepsRanges fun _ => by
    split
    · split
      · exact .refl s
      · exact .of_ranged rfl
    · exact .of_ranged rfl

theorem execQueryCompartment_rangesKept (r : Request) : RangesKept (execQueryCompartment r) :=
  request_rangesKept fun _ => staffRequest_keepsRanges fun _ t => by split <;> exact .refl t

theorem keepsRanges_clearEmpty (c : CompNo) (s : State) : KeepsRanges s (clearEmpty c s).state := by
  unfold clearEmpty; dsimp only
  split
  · split
    · split
      next => exact .refl s
      next t ht => exact (keepsRanges_reserveSlot ht).trans (.of_ranged rfl)
    · exact .of_ranged rfl
  · exact .of_ranged rfl

theorem keepsRanges_clearOccupied (c : CompNo) (s : State) : KeepsRanges s (clearOccupied c s).state := by
  unfold clearOccupied; dsimp only
  split; · exact .refl s
  refine .of_ranged ?_
  dsimp only
  rw [apply_ite State.ranged]
  exact ite_self _

theorem execClear_rangesKept (r : Request) : RangesKept (execClear r) :=
  request_rangesKept fun _ => staffRequest_keepsRanges fun _ t => by
    split; · exact .refl t
    split; · exact .refl t
    split
    · exact keepsRanges_clearEmpty _ t
    · exact keepsRanges_clearOccupied _ t
    · exact .refl t

theorem execFetchAlarm_rangesKept (r : Request) : RangesKept (execFetchAlarm r) :=
  request_rangesKept fun _ => staffRequest_keepsRanges fun _ t => by
    split
    · exact .refl t
    · exact .of_ranged rfl

/-! ### The station -/

theorem keepsRanges_takeBoundary (now : Nat) (s : State) : KeepsRanges s (takeBoundary now s) :=
  .of_fixed (fixed_takeBoundary now s) (standing_takeBoundary now s)

theorem keepsRanges_stepClock (v t : Nat) (s : State) : KeepsRanges s (stepClock v t s) := by
  have set : KeepsRanges s { s with clock := some t } := .of_ranged rfl
  have expired : KeepsRanges s (forEach expireQuote { s with clock := some t }) :=
    set.trans (.of_fixed (fixed_forEach _ fixed_expireQuote _) (standing_forEach _ standing_expireQuote _))
  unfold stepClock; dsimp only
  split
  · split
    · exact expired.trans (keepsRanges_takeBoundary t _)
    · exact expired
  · exact set

theorem keepsRanges_applyTime (t : Nat) (s : State) : KeepsRanges s (applyTime t s) := by
  unfold applyTime
  split
  · exact .of_ranged rfl
  · split
    · exact .refl s
    · exact keepsRanges_stepClock ..

theorem keepsRanges_adopt (state : Concourse) (s : State) : KeepsRanges s (adopt state s) := by
  have adopted : KeepsRanges s { s with ret := { s.ret with concourse := state } } := .of_ranged rfl
  have issue (t : State) : KeepsRanges t (forEach applyIssue t) :=
    .of_fixed (fixed_forEach _ fixed_applyIssue t) (standing_forEach _ standing_applyIssue t)
  unfold adopt; dsimp only
  split
  · exact adopted.trans (KeepsRanges.trans (.of_fixed (fixed_evacuate _) (standing_evacuate _)) (issue _))
  · exact adopted.trans (issue _)

theorem keepsRanges_applyCode (code : Nat) (s : State) : KeepsRanges s (applyCode code s) := by
  have noted : KeepsRanges s { s with history := appendCode s.history code } := .of_ranged rfl
  unfold applyCode; dsimp only
  split
  · split
    · exact noted
    · exact noted.trans (keepsRanges_adopt ..)
  · exact noted

theorem execBroadcast_rangesKept (r : Request) : RangesKept (execBroadcast r) :=
  request_rangesKept fun s => by
    split
    · exact withBody_holds (.refl s) fun ⟨code, time⟩ =>
        (keepsRanges_applyTime time s).trans (keepsRanges_applyCode code _)
    · exact .refl s

/-! ### The service terminal -/

theorem execUnlockKey_rangesKept (r : Request) : RangesKept (execUnlockKey r) :=
  request_rangesKept fun s => by
    split
    · exact withBody_holds (.refl s) fun ⟨index, word⟩ => keepsRanges_unlockWith index word s
    · exact .refl s

theorem execEndService_rangesKept (r : Request) : RangesKept (execEndService r) :=
  request_rangesKept fun s => by
    split
    · exact withBody_holds (.refl s) fun _ => keepsRanges_endService s
    · exact .refl s

theorem execLoadMap_rangesKept (r : Request) : RangesKept (execLoadMap r) :=
  request_rangesKept fun _ => maintenance_keepsRanges fun ⟨_, _⟩ t => by
    have stored (c : CompNo) (m : Option MapEntry) : KeepsRanges t (storeMap c m t).state := .of_ranged rfl
    dsimp only
    split
    · exact .refl t
    · split
      · exact stored ..
      · exact .refl t
    · split; · exact .refl t
      split; · exact .refl t
      split
      · exact .refl t
      · exact stored ..

theorem execLoadTariff_rangesKept (r : Request) : RangesKept (execLoadTariff r) :=
  request_rangesKept fun _ => maintenance_keepsRanges fun ⟨_, _⟩ t => by
    dsimp only
    split; · exact .refl t
    split
    · exact .refl t
    next row => exact keepsRanges_storeRow _ (clampRow_in_range row) t

theorem execLoadSlot_rangesKept (r : Request) : RangesKept (execLoadSlot r) :=
  request_rangesKept fun _ => maintenance_keepsRanges fun ⟨_, _, _⟩ t => by
    dsimp only
    split
    next g slot _ _ => exact keepsRanges_storeSlot g slot none t
    next g slot _ _ _ _ =>
      split; · exact .refl t
      next x _ =>
        split; · exact .refl t
        split; · exact .refl t
        exact keepsRanges_storeSlot g slot (some x) t
    · exact .refl t

theorem execSetBudget_rangesKept (r : Request) : RangesKept (execSetBudget r) :=
  request_rangesKept fun _ => maintenance_keepsRanges fun ⟨_, v⟩ t => by
    dsimp only
    split
    · exact .refl t
    next g _ => exact (keepsRanges_setBudget g v t).trans (.of_fixed (fixed_applyIssue g _) (standing_applyIssue g _))

theorem execSetHold_rangesKept (r : Request) : RangesKept (execSetHold r) :=
  request_rangesKept fun _ => maintenance_keepsRanges fun v t => keepsRanges_setHold v t

theorem execSetEnables_rangesKept (r : Request) : RangesKept (execSetEnables r) :=
  request_rangesKept fun _ => maintenance_keepsRanges fun given t => keepsRanges_setEnables given t

theorem execSeedGenerator_rangesKept (r : Request) : RangesKept (execSeedGenerator r) :=
  request_rangesKept fun _ => maintenance_keepsRanges fun _ _ => .of_ranged rfl

theorem execSetKeys_rangesKept (r : Request) : RangesKept (execSetKeys r) :=
  request_rangesKept fun _ => maintenance_keepsRanges fun keys t => by
    split
    · exact .refl t
    next words => exact keepsRanges_storeKeys words t

theorem execWithdraw_rangesKept (r : Request) : RangesKept (execWithdraw r) :=
  request_rangesKept fun _ => maintenance_keepsRanges fun _ t => by
    split; · exact .refl t
    split; · exact .refl t
    split
    · exact .refl t
    · exact keepsRanges_withdrawBoard _ t

theorem execReinstate_rangesKept (r : Request) : RangesKept (execReinstate r) :=
  request_rangesKept fun _ => maintenance_keepsRanges fun _ t => by
    split; · exact .refl t
    split
    · exact .refl t
    · exact keepsRanges_reinstateBoard _ t

theorem execRestart_rangesKept (r : Request) : RangesKept (execRestart r) :=
  request_rangesKept fun _ => maintenance_keepsRanges fun _ _ => .of_ranged rfl

theorem execBlank_rangesKept (r : Request) : RangesKept (execBlank r) :=
  request_rangesKept fun _ => maintenance_keepsRanges fun _ t => by
    split
    · exact .of_ranged rfl
    · exact .refl t

/-! ### The trunk -/

theorem execFrameReceive_rangesKept (bytes : List Byte) : RangesKept (execFrameReceive bytes) :=
  event_rangesKept fun s t ht => by
    split at ht
    · exact keepsRanges_of_due ht (.of_ranged rfl)
    · cases ht

theorem execReplyTransmitted_rangesKept : RangesKept execReplyTransmitted :=
  event_rangesKept fun s t ht => by
    split at ht
    · cases ht; exact .of_ranged rfl
    · cases ht

theorem execUnknownKind_rangesKept (kind : Byte) (r : Request) : RangesKept (execUnknownKind kind r) := by
  intro s t run
  unfold execUnknownKind at run
  split at run
  · exact request_rangesKept (fun u => .refl u) s t run
  · cases run; exact .refl s

/-! ### Resets and power -/

theorem execReset_rangesKept (cause : ResetCause) (straps : BankId) : RangesKept (execReset cause straps) := by
  intro s t run
  cases run
  split
  · exact keepsRanges_resetPart straps s
  · exact .refl s

theorem execBlankStart_rangesKept (straps : BankId) : RangesKept (execBlankStart straps) := by
  intro s t run
  cases run
  split
  · exact keepsRanges_blankPart straps s
  · exact .refl s

theorem execLossOfMainPower_rangesKept (interrupted : Bool) : RangesKept (execLossOfMainPower interrupted) := by
  intro s t run
  cases run
  split
  · exact .refl s
  · split <;> exact .of_ranged rfl

/-! ### The clock and the deadlines -/

theorem execClockTick_rangesKept : RangesKept execClockTick :=
  event_rangesKept fun s t ht => by
    dsimp only at ht
    split at ht
    · split at ht <;> (cases ht; exact .of_ranged rfl)
    · cases ht; exact .of_ranged rfl

/-- Stated for any state, since deciding it by computation for a boundary taken would unroll the scan. -/
theorem keepsRanges_boundariesDue (s : State) (n : Nat) : KeepsRanges s { s with boundariesDue := n } := .of_ranged rfl

theorem execMinuteBoundary_rangesKept : RangesKept execMinuteBoundary :=
  event_rangesKept fun s t ht => by
    split at ht
    · exact keepsRanges_of_due ht ((keepsRanges_takeBoundary _ s).trans (keepsRanges_boundariesDue ..))
    · cases ht

theorem execQuoteExpiry_rangesKept (c : CompNo) : RangesKept (execQuoteExpiry c) :=
  event_rangesKept fun s t ht => by
    split at ht
    · exact keepsRanges_of_due ht (keepsRanges_dropQuote c s)
    · cases ht

theorem execLockoutDeadline_rangesKept (k : KioskNo) : RangesKept (execLockoutDeadline k) :=
  event_rangesKept fun s t ht => by
    split at ht
    · exact keepsRanges_of_due ht (keepsRanges_setKiosk fun _ => ⟨Nat.zero_le 5, by simp⟩)
    · cases ht

theorem execInactivityDeadline_rangesKept (k : KioskNo) : RangesKept (execInactivityDeadline k) :=
  event_rangesKept fun s t ht => by
    split at ht
    · exact keepsRanges_of_due ht (keepsRanges_setSession k none s)
    · cases ht

theorem execEnergiseDeadline_rangesKept (c : CompNo) : RangesKept (execEnergiseDeadline c) :=
  event_rangesKept fun s t ht => by
    split at ht
    next g a _ =>
      split at ht
      · exact keepsRanges_of_due ht (.of_fixed (fixed_energiseEnds g a s) (standing_energiseEnds g a s))
      · cases ht
    next => cases ht

theorem execConfirmDeadline_rangesKept (c : CompNo) : RangesKept (execConfirmDeadline c) :=
  event_rangesKept fun s t ht => by
    split at ht
    next g a _ =>
      split at ht
      · exact keepsRanges_of_due ht (.of_fixed (fixed_attemptFails g a s) (standing_attemptFails g a s))
      · cases ht
    next => cases ht

theorem execStrikeAgeing_rangesKept (c : CompNo) : RangesKept (execStrikeAgeing c) :=
  event_rangesKept fun s t ht => by
    split at ht
    · exact keepsRanges_of_due ht (.of_fixed (by simp) (by simp))
    · cases ht

theorem execAjarDeadline_rangesKept (c : CompNo) : RangesKept (execAjarDeadline c) :=
  event_rangesKept fun s t ht => by
    split at ht
    · exact keepsRanges_of_due ht (.of_fixed (by simp) (by simp))
    · cases ht
    · cases ht

theorem execKioskIdleDeadline_rangesKept : RangesKept execKioskIdleDeadline :=
  event_rangesKept fun s t ht => by
    split at ht
    · exact keepsRanges_of_due ht (.of_ranged rfl)
    · cases ht

theorem execUnlockDeadline_rangesKept : RangesKept execUnlockDeadline :=
  event_rangesKept fun s t ht => by
    split at ht
    · exact keepsRanges_of_due ht (keepsRanges_lapsed s)
    · cases ht

/-! ### Sweeps and polls -/

theorem execQuietSweepStart_rangesKept (g : SegNo) : RangesKept (execQuietSweepStart g) :=
  event_rangesKept fun s _ ht => keepsRanges_of_due ht (.of_fixed (fixed_startSweep g s) (standing_startSweep g s))

theorem execPollOutcome_rangesKept (g : SegNo) (heard : Option (List Byte)) : RangesKept (execPollOutcome g heard) :=
  event_rangesKept fun s t ht => by
    split at ht
    next slot b strike _ =>
      cases ht
      refine (keepsRanges_takeOutcome b strike heard s).trans ?_
      exact .of_fixed (by simp) (by simp)
    next => cases ht
    next => cases ht

theorem execSweepIssue_rangesKept (k : KioskNo) : RangesKept (execSweepIssue k) :=
  event_rangesKept fun s t ht => by
    obtain ⟨-, -, rfl⟩ := Option.map_eq_some_iff.mp ht
    exact .of_fixed (fixed_applyPickup k s) (standing_applyPickup k s)

theorem execSweepThatPollsNoSlotEnds_rangesKept (g : SegNo) : RangesKept (execSweepThatPollsNoSlotEnds g) :=
  event_rangesKept fun s _ ht => keepsRanges_of_due ht (.of_fixed (fixed_endSweep g s) (standing_endSweep g s))

/-! ### Every command -/

theorem exec_rangesKept (c : Instr) : RangesKept (exec c) := by
  cases c with
  | frameReceive bytes => exact execFrameReceive_rangesKept bytes
  | replyTransmitted => exact execReplyTransmitted_rangesKept
  | unknownKind kind r => exact execUnknownKind_rangesKept kind r
  | collect r => exact execCollect_rangesKept r
  | pay r => exact execPay_rangesKept r
  | returnDrop r => exact execReturnDrop_rangesKept r
  | doorStatus r => exact execDoorStatus_rangesKept r
  | signOn r => exact execSignOn_rangesKept r
  | signOff r => exact execSignOff_rangesKept r
  | declare r => exact execDeclare_rangesKept r
  | sessionStatus r => exact execSessionStatus_rangesKept r
  | sweep r => exact execSweep_rangesKept r
  | sweepEnd r => exact execSweepEnd_rangesKept r
  | fetchNotice r => exact execFetchNotice_rangesKept r
  | revoke r => exact execRevoke_rangesKept r
  | reissue r => exact execReissue_rangesKept r
  | loadCourier r => exact execLoadCourier_rangesKept r
  | removeCourier r => exact execRemoveCourier_rangesKept r
  | loadReturn r => exact execLoadReturn_rangesKept r
  | removeReturn r => exact execRemoveReturn_rangesKept r
  | settle r => exact execSettle_rangesKept r
  | queryCompartment r => exact execQueryCompartment_rangesKept r
  | clear r => exact execClear_rangesKept r
  | fetchAlarm r => exact execFetchAlarm_rangesKept r
  | broadcast r => exact execBroadcast_rangesKept r
  | unlockKey r => exact execUnlockKey_rangesKept r
  | endService r => exact execEndService_rangesKept r
  | loadMap r => exact execLoadMap_rangesKept r
  | loadTariff r => exact execLoadTariff_rangesKept r
  | loadSlot r => exact execLoadSlot_rangesKept r
  | setBudget r => exact execSetBudget_rangesKept r
  | setHold r => exact execSetHold_rangesKept r
  | setEnables r => exact execSetEnables_rangesKept r
  | seedGenerator r => exact execSeedGenerator_rangesKept r
  | setKeys r => exact execSetKeys_rangesKept r
  | withdraw r => exact execWithdraw_rangesKept r
  | reinstate r => exact execReinstate_rangesKept r
  | restart r => exact execRestart_rangesKept r
  | blank r => exact execBlank_rangesKept r
  | reset cause straps => exact execReset_rangesKept cause straps
  | blankStart straps => exact execBlankStart_rangesKept straps
  | clockTick => exact execClockTick_rangesKept
  | minuteBoundary => exact execMinuteBoundary_rangesKept
  | quoteExpiry c => exact execQuoteExpiry_rangesKept c
  | lockoutDeadline k => exact execLockoutDeadline_rangesKept k
  | inactivityDeadline k => exact execInactivityDeadline_rangesKept k
  | energiseDeadline c => exact execEnergiseDeadline_rangesKept c
  | confirmDeadline c => exact execConfirmDeadline_rangesKept c
  | strikeAgeing c => exact execStrikeAgeing_rangesKept c
  | ajarDeadline c => exact execAjarDeadline_rangesKept c
  | kioskIdleDeadline => exact execKioskIdleDeadline_rangesKept
  | unlockDeadline => exact execUnlockDeadline_rangesKept
  | quietSweepStart g => exact execQuietSweepStart_rangesKept g
  | pollOutcome g heard => exact execPollOutcome_rangesKept g heard
  | sweepIssue k => exact execSweepIssue_rangesKept k
  | sweepThatPollsNoSlotEnds g => exact execSweepThatPollsNoSlotEnds_rangesKept g
  | lossOfMainPower interrupted => exact execLossOfMainPower_rangesKept interrupted

/-- Settles O59: a step runs the front command, or idles. -/
theorem rangesAreKept : Obligations.RangesAreKept := by
  intro s t run
  have kept : KeepsRanges s t := by
    unfold step at run
    split at run
    next c rest _ =>
      have front : KeepsRanges s { s with pending := rest } := .of_ranged rfl
      exact front.trans (exec_rangesKept c _ t run)
    next => cases run; exact .refl s
  exact ⟨kept.loads, kept.skc, kept.withdrawn, kept.lockouts, kept.images, kept.declared⟩

end Sys2Proof.Machine

/-! Access codes: the Collect of an unknown code (R40 to R42), Revoke and Reissue (R25, R44, R46, R47), and the seed of
the generator (R38). -/

namespace Sys2Proof.Machine

/-! ### Collect of an unknown code -/

/-- Settles O11: every check before the lookup passes, and the lookup refuses with a failure. -/
theorem collectOfUnknownCodeIsFailure : Obligations.CollectOfUnknownCodeIsFailure := by
  intro r s k code now ready source body serves free clock unknown few
  unfold exec execCollect
  refine request_failed (kind := 1) ready _ few free ?_
  have lookup : lookupCode (taken r s) code = none := unknown
  have served (own : Answer) : customerConcourse (taken r s) own = own := by
    have concourse : (taken r s).ret.concourse = s.ret.concourse := rfl
    unfold customerConcourse
    obtain h | h := serves <;> rw [concourse, h]
  have unlocked : ((taken r s).kiosk k).lockout = none := free
  have set : (taken r s).clock = some now := clock
  simp [customer, fromKiosk, source, withBody, body, served, notLockedOut, unlocked, withClock, set, ownCollect, lookup]

/-! ### The backend's requests -/

section backend

variable {kind : Nat} {r : Request} {s : State} {own : State → Answer} {status : Status} {body : List Byte}

theorem not_kiosk_of_backend (source : r.source = .backend) (k : KioskNo) : r.source ≠ .kiosk k := by
  rw [source]; nofun

/-- A well-formed request of the backend reaches its owner, whatever has been done to the state (R211). -/
theorem fromBackend_body {α : Type} {parsed : Option α} {x : α} (source : r.source = .backend)
    (body : parsed = some x) (own : α → Answer) : fromBackend r s (withBody parsed s own) = own x := by
  subst body
  exact if_pos source

/-- A backend's request whose owner changes the retained state, beside the concourse and the enables, and quotes. -/
theorem backend_changes_records {ret : Retained} {quotes : Vector (Option Quote) 768} (ready : Ready kind r s)
    (source : r.source = .backend) (settled : Settled s)
    (answer : own { s with receive := s.receive.tail } =
      { state := { s with receive := s.receive.tail, ret, quotes }, status, body })
    (enables : ret.enables = s.ret.enables) (concourse : ret.concourse = s.ret.concourse) :
    request (BitVec.ofNat 8 kind) r s own = .next (resealed { answered kind r status body s with ret, quotes }) := by
  have not_kiosk := not_kiosk_of_backend source
  rw [request_untouched ready not_kiosk settled own answer enables concourse rfl rfl rfl rfl]
  simp only [resealed, answered, idleAfter_not_kiosk not_kiosk]
  rfl

/-- A backend's request that is refused. -/
theorem backend_refused (ready : Ready kind r s) (source : r.source = .backend) (settled : Settled s)
    (answer : own { s with receive := s.receive.tail } = refuse { s with receive := s.receive.tail } status) :
    request (BitVec.ofNat 8 kind) r s own = .next (answered kind r status [] s) :=
  request_changes_deadline (deadline := s.unlockDeadline) ready (not_kiosk_of_backend source) settled answer

end backend

theorem heldDelivery_held {x : Compartment} {d : Delivery} (state : x.state = .held)
    (parcel : x.parcel = some (.delivery d)) : heldDelivery x = some d := by
  simp [heldDelivery, state, parcel]

/-- A compartment whose collection is granted is not HELD any more, and a HELD one's is not granted. -/
theorem not_granted_of_held {x : Compartment} (state : x.state = .held) : collectionGranted x = false := by
  simp [collectionGranted, state]

theorem heldDelivery_granted {x : Compartment} (granted : collectionGranted x = true) : heldDelivery x = none := by
  unfold heldDelivery
  split
  next state _ => rw [not_granted_of_held state] at granted; cases granted
  next => rfl

/-! ### Revoke -/

/-- Revoke's answer for a compartment (R44). -/
def revokeAnswer (c : CompNo) (s : State) : Answer :=
  match heldDelivery (s.comp c) with
  | some d => { state := withdrawCode c d (removeEntry c s), status := .accepted, body := [] }
  | none => if collectionGranted (s.comp c) then refuse s .tooLate else refuse s .badState

/-- A well-formed Revoke from the backend comes to its compartment. -/
theorem execRevoke_own {r : Request} {c : CompNo} (source : r.source = .backend)
    (body : bodyNat 2 r.body = some c.val) (s : State) :
    ∃ own, exec (.revoke r) s = request 12 r s own ∧ ∀ t, own t = revokeAnswer c t := by
  unfold exec execRevoke
  refine ⟨_, rfl, fun t => ?_⟩
  rw [fromBackend_body source body]
  simp only [compNo?_val]
  rfl

/-- Settles O24: one case for each row of R44. -/
theorem revokeWithdrawsCode : Obligations.RevokeWithdrawsCode := by
  intro r s c ready source body settled
  obtain ⟨own, run, answer⟩ := execRevoke_own source body s
  have comp : State.comp { s with receive := s.receive.tail } c = s.comp c := rfl
  rw [run]
  refine ⟨fun d state parcel => ?_, fun granted => ?_, fun ungranted unheld => ?_⟩
  · refine backend_changes_records (kind := 12) ready source settled ((answer _).trans ?_) rfl rfl
    rw [revokeAnswer, comp, heldDelivery_held state parcel]
    rfl
  · refine backend_refused (kind := 12) ready source settled ((answer _).trans ?_)
    rw [revokeAnswer, comp, heldDelivery_granted granted, granted]
    rfl
  · refine backend_refused (kind := 12) ready source settled ((answer _).trans ?_)
    rw [revokeAnswer, comp, unheld, ungranted]
    rfl

/-! ### Reissue -/

/-- Reissue's answer for a HELD delivery: by what the generation finds (R46, R47). -/
def reissueAnswer (c : CompNo) (d : Delivery) (s : State) : Answer :=
  match generation s with
  | (s, none) => refuse s .noCode
  | (s, some code) =>
    let s := addEntry code c .live (removeEntry c s)
    { state := s.setComp c { s.comp c with parcel := some (.delivery { d with code := some code }) }
      status := .accepted
      body := compField c ++ be 4 code }

/-- A well-formed Reissue from the backend for a HELD delivery comes to the generation. -/
theorem execReissue_own {r : Request} {s : State} {c : CompNo} {d : Delivery} (source : r.source = .backend)
    (body : bodyNat 2 r.body = some c.val) (state : (s.comp c).state = .held)
    (parcel : (s.comp c).parcel = some (.delivery d)) :
    ∃ own, exec (.reissue r) s = request 13 r s own
      ∧ own { s with receive := s.receive.tail } = reissueAnswer c d { s with receive := s.receive.tail } := by
  have comp : State.comp { s with receive := s.receive.tail } c = s.comp c := rfl
  unfold exec execReissue
  refine ⟨_, rfl, ?_⟩
  rw [fromBackend_body source body]
  simp only [compNo?_val, comp, not_granted_of_held state, heldDelivery_held state parcel]
  rfl

theorem generation_eq {s : State} {g : BitVec 32} {code : Option Nat}
    (run : generateCode s.ret.directory 8 s.ret.generator = (g, code)) :
    generation s = ({ s with ret := { s.ret with generator := g } }, code) := by
  simp only [generation, run]

/-- The retained state once Reissue has given a delivery its new code (R46). -/
def reissued (c : CompNo) (d : Delivery) (code : Nat) (g : BitVec 32) (s : State) : Retained :=
  { s.ret with
    generator := g
    directory := (addEntry code c .live (removeEntry c s)).ret.directory
    compartments := put s.ret.compartments c { s.comp c with parcel := some (.delivery { d with code := some code }) } }

theorem reissueAnswer_found {s : State} {c : CompNo} {d : Delivery} {g : BitVec 32} {code : Nat}
    (found : generateCode s.ret.directory 8 s.ret.generator = (g, some code)) :
    reissueAnswer c d s =
      { state := { s with ret := reissued c d code g s }, status := .accepted, body := compField c ++ be 4 code } := by
  unfold reissueAnswer
  rw [generation_eq found]
  rfl

theorem reissueAnswer_failed {s : State} {c : CompNo} {d : Delivery} {g : BitVec 32}
    (failed : generateCode s.ret.directory 8 s.ret.generator = (g, none)) :
    reissueAnswer c d s =
      { state := { s with ret := { s.ret with generator := g } }, status := .noCode, body := [] } := by
  unfold reissueAnswer
  rw [generation_eq failed]
  rfl

/-- Settles O25: by what the generation finds. -/
theorem reissueReplacesCode : Obligations.ReissueReplacesCode := by
  intro r s c d g ready source body settled state parcel
  obtain ⟨own, run, answer⟩ := execReissue_own source body state parcel
  have not_kiosk := not_kiosk_of_backend source
  rw [run]
  refine ⟨fun code found => ?_, fun failed => ?_⟩
  · exact request_changes_ret (deadline := s.unlockDeadline) (ret := reissued c d code g s) ready not_kiosk settled
      (answer.trans (reissueAnswer_found found)) rfl rfl
  · exact request_changes_ret (deadline := s.unlockDeadline) ready not_kiosk settled
      (answer.trans (reissueAnswer_failed failed)) rfl rfl

/-! ### Seed Generator -/

/-- Settles O39: of the retained state only the generator is replaced. -/
theorem seedReplacesGenerator : Obligations.SeedReplacesGenerator := by
  intro r s seed ready source skc settled body
  have not_kiosk (k : KioskNo) : r.source ≠ .kiosk k := by rw [source]; nofun
  have taken : BitVec.ofNat 32 (if seed = 0 then 1 else seed) = if seed = 0 then 1 else BitVec.ofNat 32 seed := by
    split <;> rfl
  rw [admittedState_eq]
  unfold exec execSeedGenerator
  refine request_changes_ret (kind := 31) ready not_kiosk settled ?_ rfl rfl
  rw [maintenance_taken source body skc, ← taken]

end Sys2Proof.Machine

/-! The deadlines of lockouts, sessions, ajar doors, the kiosks' idle time and the unlock (R43, R99, R100, R172, R178,
R216). -/

namespace Sys2Proof.Machine

/-- What stands in step in a settled state while there is main power (R29, R178, R205). -/
theorem Settled.powered {s : State} (h : Settled s) (power : s.run ≠ .unpowered) :
    s.checkWord = Config.retentionCheck s.ret ∧ s.attention = attentionLevel s ∧ RatesFollow s := by
  obtain ⟨check, line, rates⟩ := h power
  exact ⟨check, Bool.eq_iff_iff.mpr (line.trans (attentionLevel_iff s).symm), rates⟩

/-- Where an event leaves the retained state, the alarms, the segments and the kiosk idle deadline alone, all is still
in step at its end. -/
theorem settle_still {s t : State} (settled : Settled s) (power : s.run ≠ .unpowered) (ret : t.ret = s.ret)
    (check : t.checkWord = s.checkWord) (alarms : t.alarms = s.alarms) (line : t.attention = s.attention)
    (segments : t.segments = s.segments) (idle : t.kioskIdle = s.kioskIdle) : settle t = t := by
  obtain ⟨word, attention, rates⟩ := settled.powered power
  have seg (g : SegNo) : t.seg g = s.seg g := by simp only [State.seg, segments]
  rw [settle_of_steady (fun g => ?_) ?_, resealed_eq]
  · rw [check, ret, word]
  · rw [line, attention]; simp only [attentionLevel, enabled, alarms, ret]
  · rw [seg, quietHolds_congr (by rw [ret]) idle (by rw [seg]) (by rw [seg]), rates g]

/-- An event that leaves all of that alone ends where its effect does. -/
theorem event_still {s t : State} {effect : State → Option State} (settled : Settled s) (power : s.run ≠ .unpowered)
    (done : effect s = some t) (ret : t.ret = s.ret) (check : t.checkWord = s.checkWord) (alarms : t.alarms = s.alarms)
    (line : t.attention = s.attention) (segments : t.segments = s.segments) (idle : t.kioskIdle = s.kioskIdle) :
    event s effect = .next t := by
  rw [event_some power done, settle_still settled power ret check alarms line segments idle]

theorem postAlarm_pending (k : AlarmKind) (n : Nat) (s : State) :
    ∃ a ∈ (postAlarm k n s).alarms, a.kind = k ∧ a.object = n := by
  unfold postAlarm
  split
  next there => simpa using there
  next => exact ⟨_, List.mem_append_right _ (List.mem_singleton_self _), rfl, rfl⟩

section deadlines

variable {s : State} {d : Nat} (power : s.run ≠ .unpowered) (settled : Settled s) (passed : d ≤ s.elapsed)
include power settled passed

theorem lockoutDeadline_passes {k : KioskNo} (lockout : (s.kiosk k).lockout = some d) :
    exec (.lockoutDeadline k) s = .next { s with
      kiosks := put s.kiosks k { s.kiosk k with lockout := none, failures := 0 } } := by
  unfold exec execLockoutDeadline
  exact event_still (t := s.setKiosk k { s.kiosk k with lockout := none, failures := 0 }) settled power
    (by simp [lockout, due, passed]) rfl rfl rfl rfl rfl rfl

theorem inactivityDeadline_passes {k : KioskNo} {x : Session} (session : (s.kiosk k).session = some x)
    (deadline : x.deadline = d) :
    exec (.inactivityDeadline k) s = .next { s with kiosks := put s.kiosks k { s.kiosk k with session := none } } := by
  unfold exec execInactivityDeadline
  exact event_still (t := setSession k none s) settled power
    (by simp [sessionOf, session, due, deadline, passed]) rfl rfl rfl rfl rfl rfl

theorem ajarDeadline_passes {c : CompNo} (watch : look s.ajar c = some (.running d)) :
    Completes (exec (.ajarDeadline c) s) fun t =>
      (∃ a ∈ t.alarms, a.kind = .ajar ∧ a.object = c.val) ∧ (∀ a ∈ s.alarms, a ∈ t.alarms)
        ∧ t = { s with ajar := put s.ajar c (some .passed), alarms := t.alarms, attention := t.attention } := by
  obtain ⟨check, -, rates⟩ := settled.powered power
  have follow : RatesFollow (postAlarm .ajar c.val (s.setAjar c (some .passed))) := by
    rw [postAlarm_eq]; exact rates
  unfold exec execAjarDeadline
  refine ⟨_, event_some (t := postAlarm .ajar c.val (s.setAjar c (some .passed))) power
    (by simp [watch, due, passed]), ?_⟩
  rw [settle_of_follow follow]
  refine ⟨postAlarm_pending .ajar c.val _, postAlarm_keeps .ajar c.val (s.setAjar c (some .passed)), ?_⟩
  rw [postAlarm_eq]
  simp only [State.setAjar, ← check]

theorem kioskIdleDeadline_passes (idle : s.kioskIdle = some d) :
    Completes (exec .kioskIdleDeadline s) fun t =>
      t = { s with kioskIdle := none, segments := t.segments } ∧ KeepsStrikes s t
        ∧ ∀ g, (t.seg g).rate =
            if s.ret.concourse = .closed ∧ (s.seg g).queue = [] ∧ (s.seg g).active = [] then .quiet else .full := by
  obtain ⟨check, line, -⟩ := settled.powered power
  have level : attentionLevel { s with kioskIdle := none } = s.attention := line.symm
  unfold exec execKioskIdleDeadline
  refine ⟨_, event_some (t := { s with kioskIdle := none }) power (by simp [idle, due, passed]), ?_,
    keepsStrikes_settle _, fun g => ?_⟩
  · rw [settle_eq, level, ← check]
  · have rate : ((settle { s with kioskIdle := none }).seg g).rate = _ := ratesFollow_setRates _ g
    obtain ⟨-, -, -, quiet, -⟩ := setRates_frame { s with kioskIdle := none }
    rw [rate, quiet g]
    exact if_congr (by simp [quietHolds, State.seg, and_assoc]) rfl rfl

theorem unlockDeadline_passes (deadline : s.unlockDeadline = some d)
    (held : s.skc = .collected1 ∨ s.skc = .collected2 ∨ s.skc = .collected3 ∨ s.skc = .unlocked) :
    exec .unlockDeadline s = .next { s with skc := .idle, unlockDeadline := none } := by
  have lapsed : s.skc.lapsed = .idle := by obtain h | h | h | h := held <;> rw [h] <;> rfl
  unfold exec execUnlockDeadline
  exact event_still (t := { s with skc := .idle, unlockDeadline := none }) settled power
    (by simp [deadline, due, passed, lapsed]) rfl rfl rfl rfl rfl rfl

end deadlines

/-- Settles O46: the five deadlines. -/
theorem deadlinesPass : Obligations.DeadlinesPass :=
  ⟨fun _ _ _ power settled lockout passed => lockoutDeadline_passes power settled passed lockout,
    fun _ _ _ power settled session passed => inactivityDeadline_passes power settled passed session rfl,
    fun _ _ _ power settled watch passed => ajarDeadline_passes power settled passed watch,
    fun _ _ power settled idle passed => kioskIdleDeadline_passes power settled passed idle,
    fun _ _ power settled deadline passed held => unlockDeadline_passes power settled passed deadline held⟩

end Sys2Proof.Machine

/-! The tariff and the small loads of a maintenance session: the charge (R57 to R61), Load Tariff (R50, R51), Set Hold
(R54) and Set Enables (R203, R205). -/

namespace Sys2Proof.Machine

theorem not_kiosk_of_service {r : Request} (source : r.source = .service) (k : KioskNo) : r.source ≠ .kiosk k := by
  rw [source]; nofun

/-! ### The charge -/

theorem divUp_mono {m n : Nat} (le : m ≤ n) (b : Nat) : divUp m b ≤ divUp n b :=
  Nat.div_le_div_right (Nat.sub_le_sub_right (Nat.add_le_add_right le b) 1)

theorem minutesBegun_mono (deposited : Nat) {now later : Nat} (le : now ≤ later) :
    minutesBegun deposited now ≤ minutesBegun deposited later :=
  divUp_mono (Nat.sub_le_sub_right le deposited) 60

/-- A stay of `m` whole minutes has begun no more than `m` of them. -/
theorem minutesBegun_le {deposited now m : Nat} (le : now ≤ deposited + 60 * m) : minutesBegun deposited now ≤ m := by
  unfold minutesBegun divUp; omega

theorem partCharge_mono (t : TariffRow) {m n : Nat} (le : m ≤ n) : partCharge t m ≤ partCharge t n := by
  unfold partCharge
  split
  next => exact Nat.zero_le _
  next begun =>
    rw [if_neg (show n ≠ 0 by omega)]
    exact min_le_min_left _ (Nat.mul_le_mul_left _ (divUp_mono le _))

/-- A day is charged as its 1440 minutes are. -/
theorem partCharge_day (t : TariffRow) : partCharge t 1440 = dayCharge t := rfl

theorem partCharge_le_dayCharge (t : TariffRow) {m : Nat} (le : m ≤ 1440) : partCharge t m ≤ dayCharge t :=
  partCharge_mono t le

/-- Within the free period no minute counts, so one formula serves on both sides of its end (R58). -/
theorem grossCharge_eq (t : TariffRow) (m : Nat) :
    grossCharge t m =
      (m - t.freePeriod) / 1440 * dayCharge t + partCharge t ((m - t.freePeriod) % 1440) := by
  unfold grossCharge
  split
  next free => rw [Nat.sub_eq_zero_of_le free]; simp [partCharge]
  next => rfl

theorem grossCharge_free {t : TariffRow} {m : Nat} (free : m ≤ t.freePeriod) : grossCharge t m = 0 := if_pos free

/-- Within a day the part charge grows; a day begun later has been paid for by a whole day charge (R61). -/
theorem grossCharge_mono (t : TariffRow) {m n : Nat} (le : m ≤ n) : grossCharge t m ≤ grossCharge t n := by
  rw [grossCharge_eq, grossCharge_eq]
  have counted : m - t.freePeriod ≤ n - t.freePeriod := Nat.sub_le_sub_right le _
  generalize m - t.freePeriod = u at counted ⊢
  generalize n - t.freePeriod = v at counted ⊢
  obtain same | more : u / 1440 = v / 1440 ∨ u / 1440 < v / 1440 := (Nat.div_le_div_right counted).eq_or_lt
  · rw [same]
    exact Nat.add_le_add_left (partCharge_mono t (by omega)) _
  · calc
      u / 1440 * dayCharge t + partCharge t (u % 1440)
        ≤ u / 1440 * dayCharge t + dayCharge t :=
          Nat.add_le_add_left (partCharge_le_dayCharge t (Nat.mod_lt u (by decide)).le) _
      _ = (u / 1440 + 1) * dayCharge t := (Nat.succ_mul ..).symm
      _ ≤ v / 1440 * dayCharge t := Nat.mul_le_mul_right _ more
      _ ≤ v / 1440 * dayCharge t + partCharge t (v % 1440) := Nat.le_add_right ..

theorem cappedAt_mono (d : Delivery) (deposited : Nat) {now later : Nat} (le : now ≤ later) :
    cappedAt d deposited now ≤ cappedAt d deposited later :=
  min_le_min_right _ (grossCharge_mono _ (minutesBegun_mono deposited le))

theorem cappedAt_le_ceiling (d : Delivery) (deposited now : Nat) : cappedAt d deposited now ≤ d.snapshot.ceiling :=
  Nat.min_le_right ..

theorem cappedAt_free {d : Delivery} {deposited now : Nat} (free : now ≤ deposited + 60 * d.snapshot.freePeriod) :
    cappedAt d deposited now = 0 := by
  unfold cappedAt cappedCharge
  rw [grossCharge_free (minutesBegun_le free), Nat.zero_min]

/-- Settles O53: what was prepaid and paid is netted off the capped charge, which grows, is capped, and is 0 in the free
period. -/
theorem chargeGrowsWithinCeiling : Obligations.ChargeGrowsWithinCeiling :=
  ⟨fun t _ _ within => partCharge_le_dayCharge t within.le,
    fun t _ _ _ le => grossCharge_mono t le,
    fun d deposited _ _ _ le => Nat.sub_le_sub_right (cappedAt_mono d deposited le) _,
    fun d deposited now => Nat.sub_le_sub_right (cappedAt_le_ceiling d deposited now) _,
    fun _ _ _ free => (congrArg (· - _) (cappedAt_free free)).trans (Nat.zero_sub _)⟩

/-! ### Load Tariff -/

theorem clamp_eq {low high : Nat} (order : low ≤ high) (v : Nat) :
    clamp low high v = if v < low then low else if high < v then high else v := by
  unfold clamp; split
  · omega
  · split <;> omega

theorem clamp_zero (high v : Nat) : clamp 0 high v = if high < v then high else v := clamp_eq (Nat.zero_le high) v

theorem ofBytes_lt (bs : List Byte) : ofBytes bs < 256 ^ bs.length := by
  induction bs with
  | nil => decide
  | cons b bs ih =>
    rw [ofBytes_cons, List.length_cons, pow_succ]
    have byte : b.toNat + 1 ≤ 256 := b.isLt
    calc
      b.toNat * 256 ^ bs.length + ofBytes bs < (b.toNat + 1) * 256 ^ bs.length := by rw [Nat.succ_mul]; omega
      _ ≤ 256 * 256 ^ bs.length := Nat.mul_le_mul_right _ byte
      _ = 256 ^ bs.length * 256 := Nat.mul_comm ..

/-- A number read from a field is one that the field's bytes can hold (R225). -/
theorem readNat_lt {w v : Nat} {bs rest : List Byte} (read : readNat w bs = some (v, rest)) : v < 256 ^ w := by
  unfold readNat at read
  split at read
  next long =>
    cases read
    have bound := ofBytes_lt (bs.take w)
    rwa [List.length_take_of_le long] at bound
  next => cases read

/-- A rate as carried is never out of range: its field has two bytes (R51). -/
theorem bodyLoadTariff_rate {bs : List Byte} {n : Nat} {row : TariffRow} (body : bodyLoadTariff bs = some (n, row)) :
    row.rate ≤ 65535 := by
  simp only [bodyLoadTariff, Option.bind_eq_bind, Option.bind_eq_some_iff, Prod.exists, ended] at body
  obtain ⟨_, _, -, _, _, -, _, _, -, rate, _, read, _, _, -, _, _, -, _, _, -, last⟩ := body
  split at last
  · cases last
    exact Nat.le_of_lt_succ (readNat_lt read)
  · cases last

/-- Load Tariff's answer for a class and a row as carried (R50, R51). -/
def tariffAnswer (n : Nat) (row : TariffRow) (s : State) : Answer :=
  match classOf? n with
  | none => refuse s .outOfRange
  | some cls =>
    if 20160 < row.freePeriod ∨ row.period = 0 ∨ 1440 < row.period ∨ 65535 < row.rate then refuse s .outOfRange
    else { state := storeRow cls (clampRow row) s, status := .accepted, body := tariffField (clampRow row) }

theorem execLoadTariff_own {r : Request} {s : State} {n : Nat} {row : TariffRow} (source : r.source = .service)
    (skc : ServiceOpen s) (body : bodyLoadTariff r.body = some (n, row)) :
    ∃ own, exec (.loadTariff r) s = request 26 r s own
      ∧ own { s with receive := s.receive.tail } =
        tariffAnswer n row { s with receive := s.receive.tail, unlockDeadline := (admittedState s).unlockDeadline } := by
  unfold exec execLoadTariff
  refine ⟨_, rfl, ?_⟩
  rw [maintenance_taken source body skc]
  rfl

theorem tariffAnswer_refused {n : Nat} {row : TariffRow} {s : State}
    (refused : classOf? n = none ∨ 20160 < row.freePeriod ∨ row.period = 0 ∨ 1440 < row.period) :
    tariffAnswer n row s = refuse s .outOfRange := by
  unfold tariffAnswer
  split
  next => rfl
  next cls named =>
    obtain unnamed | free | zero | long := refused
    · rw [named] at unnamed; cases unnamed
    · exact if_pos (.inl free)
    · exact if_pos (.inr (.inl zero))
    · exact if_pos (.inr (.inr (.inl long)))

theorem tariffAnswer_stored {n : Nat} {cls : SizeClass} {row : TariffRow} {s : State} (named : classOf? n = some cls)
    (free : row.freePeriod ≤ 20160) (period : 1 ≤ row.period ∧ row.period ≤ 1440) (rate : row.rate ≤ 65535) :
    tariffAnswer n row s =
      { state := storeRow cls (clampRow row) s, status := .accepted, body := tariffField (clampRow row) } := by
  unfold tariffAnswer
  rw [named]
  exact if_neg (by omega)

/-- The clamps of a stored row, case by case (R51). -/
theorem clampRow_eq (row : TariffRow) :
    clampRow row = { row with
      cap := if row.cap < 1 then 1 else if 999999 < row.cap then 999999 else row.cap
      ceiling := if 999999 < row.ceiling then 999999 else row.ceiling
      allowance := if row.allowance < 1 then 1 else if 43200 < row.allowance then 43200 else row.allowance } := by
  unfold clampRow
  rw [clamp_eq (by decide), clamp_zero, clamp_eq (by decide)]

/-- Settles O35: the range check of the fields, then the clamped row. -/
theorem loadTariffStoresRow : Obligations.LoadTariffStoresRow := by
  intro r s n row ready source skc settled body
  have not_kiosk := not_kiosk_of_service source
  obtain ⟨own, run, answer⟩ := execLoadTariff_own source skc body
  rw [run, admittedState_eq]
  refine ⟨fun refused => ?_, fun cls named free some_period period => ?_⟩
  · exact request_changes_deadline ready not_kiosk settled (answer.trans (tariffAnswer_refused refused))
  · rw [← clampRow_eq]
    exact request_changes_ret ready not_kiosk settled
      (answer.trans (tariffAnswer_stored named free ⟨some_period, period⟩ (bodyLoadTariff_rate body))) rfl rfl

/-! ### Set Hold and Set Enables -/

theorem setHold_stores {r : Request} {s : State} {v : Nat} (ready : Ready 29 r s) (source : r.source = .service)
    (skc : ServiceOpen s) (settled : Settled s) (body : bodyNat 2 r.body = some v) :
    exec (.setHold r) s = .next (resealed { answered 29 r .accepted (be 2 (clamp 60 600 v)) (admittedState s) with
      ret := { s.ret with hold := clamp 60 600 v } }) := by
  have not_kiosk := not_kiosk_of_service source
  rw [admittedState_eq]
  unfold exec execSetHold
  refine request_changes_ret (kind := 29) ready not_kiosk settled ?_ rfl rfl
  rw [maintenance_taken source body skc]

theorem storedEnables_eq (given : Vector Bool 8) : storedEnables given.toList = put given (alarmCode .forced) true := by
  refine vector_ext_look fun i => ?_
  rw [storedEnables, look_ofFn, look_put]
  simp [look]

/-- A request that is not a kiosk's, whose owner changes at most the unlock deadline and the retained state beside the
concourse: where the enables change, the attention line follows the pending alarms under the new ones, since the end of
the event leaves it in step (R205). -/
theorem request_changes_enables {kind : Nat} {r : Request} {s : State} {own : State → Answer} {status : Status}
    {body : List Byte} {ret : Retained} {deadline : Option Nat} (ready : Ready kind r s)
    (source : ∀ k, r.source ≠ .kiosk k) (settled : Settled s)
    (answer : own { s with receive := s.receive.tail } =
      { state := { s with receive := s.receive.tail, unlockDeadline := deadline, ret }, status, body })
    (concourse : ret.concourse = s.ret.concourse) :
    request (BitVec.ofNat 8 kind) r s own =
      .next { resealed { answered kind r status body { s with unlockDeadline := deadline } with ret } with
        attention := s.alarms.any fun a => look ret.enables (alarmCode a.kind) } := by
  obtain ⟨t, run, changed⟩ := request_changes_alarms (alarms := s.alarms) ready source settled answer concourse
  have running : t.run = .running := (congrArg State.run changed).trans ready.1
  have alarms : t.alarms = s.alarms := (congrArg State.alarms changed).trans rfl
  have retained : t.ret = ret := (congrArg State.ret changed).trans rfl
  obtain ⟨-, line, -⟩ := (request_keepsSettled _ r own s t settled run).running running
  have level : t.attention = s.alarms.any fun a => look ret.enables (alarmCode a.kind) := by
    rw [line]; simp only [attentionLevel, enabled, alarms, retained]
  rw [run, ← level]
  exact congrArg _ changed

theorem setEnables_stores {r : Request} {s : State} {given enables : Vector Bool 8} (ready : Ready 30 r s)
    (source : r.source = .service) (skc : ServiceOpen s) (settled : Settled s)
    (body : bodySetEnables r.body = some given.toList) (stored : storedEnables given.toList = enables) :
    exec (.setEnables r) s =
      .next { resealed { answered 30 r .accepted (enables.toList.flatMap flag) (admittedState s) with
          ret := { s.ret with enables } } with
        attention := s.alarms.any fun a => look enables (alarmCode a.kind) } := by
  have not_kiosk := not_kiosk_of_service source
  subst stored
  rw [admittedState_eq]
  unfold exec execSetEnables
  refine request_changes_enables (kind := 30) (ret := { s.ret with enables := storedEnables given.toList }) ready
    not_kiosk settled ?_ rfl
  rw [maintenance_taken source body skc]

/-- Settles O38: the clamp case by case, and the enables as stored. -/
theorem setHoldAndEnables : Obligations.SetHoldAndEnables := by
  refine ⟨fun r s v hold ready source skc settled body clamped => ?_,
    fun r s given enables ready source skc settled body stored => ?_⟩
  · rw [clamped, ← clamp_eq (by decide)]
    exact setHold_stores ready source skc settled body
  · exact setEnables_stores ready source skc settled body ((storedEnables_eq given).trans stored.symm)

end Sys2Proof.Machine

/-! Takings and quotes: Settle (R87, R88), and how a quote leaves its compartment (R14, R72). -/

namespace Sys2Proof.Machine

/-! ### Settle -/

/-- Settle's answer for a settlement number (R87, R88). -/
def settleAnswer (number : Nat) (s : State) : Answer :=
  match s.ret.lastSettlement with
  | some x =>
    if x.number = number then { state := s, status := .accepted, body := settleBody true x }
    else newSettlement number s
  | none => newSettlement number s

/-- A well-formed Settle from the backend comes to its number. -/
theorem execSettle_own {r : Request} {number : Nat} (source : r.source = .backend)
    (body : bodyNat 2 r.body = some number) (s : State) :
    ∃ own, exec (.settle r) s = request 18 r s own ∧ ∀ t, own t = settleAnswer number t := by
  unfold exec execSettle
  refine ⟨_, rfl, fun t => ?_⟩
  rw [fromBackend_body source body]
  rfl

theorem settleAnswer_repeated {s : State} {x : Settlement} (last : s.ret.lastSettlement = some x) :
    settleAnswer x.number s = { state := s, status := .accepted, body := settleBody true x } := by
  simp [settleAnswer, last]

theorem settleAnswer_new {number : Nat} {s : State}
    (new : ∀ x, s.ret.lastSettlement = some x → x.number ≠ number) : settleAnswer number s = newSettlement number s := by
  unfold settleAnswer
  split
  next x last => exact if_neg (new x last)
  next => rfl

/-- Settles O28: by whether the number is that of the last settlement. -/
theorem settleTakesTakings : Obligations.SettleTakesTakings := by
  intro r s number ready source body settled
  have not_kiosk := not_kiosk_of_backend source
  obtain ⟨own, run, answer⟩ := execSettle_own source body s
  rw [run]
  refine ⟨fun x last same => ?_, fun new => ?_⟩
  · subst same
    exact request_changes_deadline (kind := 18) (deadline := s.unlockDeadline) ready not_kiosk settled
      ((answer _).trans (settleAnswer_repeated last))
  · exact request_changes_ret (kind := 18) (deadline := s.unlockDeadline)
      (ret := { s.ret with
        takings := Vector.replicate 4 zeroTakings, lastSettlement := some { number, figures := s.ret.takings } })
      ready not_kiosk settled ((answer _).trans (settleAnswer_new new)) rfl rfl

/-! ### How a quote leaves its compartment -/

theorem dropQuote_collection {c : CompNo} {q : Quote} {s : State} (quote : s.quoteOf c = some q)
    (purpose : q.purpose = .collection) : dropQuote c s = s.setQuote c none := by
  simp [dropQuote, quote, purpose]

/-- Where the compartment has no transaction, a quote of either purpose leaves alone (R71, R72). -/
theorem dropQuote_idle {c : CompNo} {q : Quote} {s : State} (quote : s.quoteOf c = some q)
    (idle : (s.comp c).transient = none) : dropQuote c s = s.setQuote c none := by
  unfold dropQuote
  rw [quote]; dsimp only
  split
  · rfl
  · simp [endTransaction, idle]

/-- The state after an unpaid drop has lost its POSTAGE quote: its compartment is VACANT, its entry not in use and its slot
released, and its kiosk's last door result is CANCELLED (R14, R72, R129, R135). -/
def dropLapsed (c : CompNo) (reference : Nat) (k : KioskNo) (s : State) : State :=
  { s with
    ret := { s.ret with
      compartments := put s.ret.compartments c { s.comp c with state := .vacant, transient := none }
      returns := s.ret.returns.map fun e =>
        if e.reference = reference then { e with inUse := false, paidMark := none } else e
      reservations := s.ret.reservations - 1 }
    quotes := put s.quotes c none
    kiosks := put s.kiosks k { s.kiosk k with
      doorResult := some { compartment := c, purpose := .drop, outcome := .cancelled } } }

theorem dropQuote_postage {c : CompNo} {q : Quote} {s : State} {n courier reference : Nat} {k : KioskNo} {mark : Bool}
    (quote : s.quoteOf c = some q) (purpose : q.purpose = .postage n) (state : (s.comp c).state = .reserved)
    (drop : (s.comp c).transient =
      some { particulars := .drop courier reference 0, kiosk := k, strikeIssued := mark, prior := none }) :
    dropQuote c s = dropLapsed c reference k s := by
  have freed (t : State) : freeReturn reference 0 t = { t with ret := { t.ret with
      returns := freedReturns reference 0 t } } := by
    rw [← freeReturn_returns]; rfl
  unfold dropQuote
  rw [quote]; dsimp only
  rw [purpose]; dsimp only
  unfold endTransaction; dsimp only
  rw [State.comp_setQuote, drop]; dsimp only
  rw [noteDoor, if_neg (by simp [state]), freed]
  simp [dropLapsed, setDoorResult, freedReturns, State.setKiosk, State.setQuote, State.setComp, releaseSlot, State.kiosk,
    Ending.state, Ending.doorOutcome, Particulars.purpose]

/-- Where an event leaves the enables, the alarms, the segments and the conditions of the rate modes alone, its end only
renews the check word. -/
theorem event_reseals {s t : State} {effect : State → Option State} (settled : Settled s) (power : s.run ≠ .unpowered)
    (done : effect s = some t) (enables : t.ret.enables = s.ret.enables) (concourse : t.ret.concourse = s.ret.concourse)
    (alarms : t.alarms = s.alarms) (line : t.attention = s.attention) (segments : t.segments = s.segments)
    (idle : t.kioskIdle = s.kioskIdle) : event s effect = .next (resealed t) := by
  obtain ⟨-, attention, rates⟩ := settled.powered power
  have seg (g : SegNo) : t.seg g = s.seg g := by simp only [State.seg, segments]
  rw [event_some power done, settle_of_steady (fun g => ?_) ?_]
  · rw [line, attention]; simp only [attentionLevel, enabled, alarms, enables]
  · rw [seg, quietHolds_congr concourse idle (by rw [seg]) (by rw [seg]), rates g]

/-! ### The expiry of a quote -/

theorem quotePassed_set {s : State} {now : Nat} (clock : s.clock = some now) (q : Quote) :
    quotePassed s q = decide (q.expiry < now) := by
  simp [quotePassed, clock]

/-- Settles O47: by the time, and then by the purpose of the quote. -/
theorem quoteExpiryRemovesQuote : Obligations.QuoteExpiryRemovesQuote := by
  intro c q now s power settled quote clock
  have passed := quotePassed_set clock q
  unfold exec execQuoteExpiry
  refine ⟨fun early => ?_, fun late purpose => ?_, fun courier reference k mark late purpose state drop => ?_⟩
  · exact event_none (by simp [quote, passed, early])
  · exact event_still (t := s.setQuote c none) settled power
      (by simp [quote, passed, late, dropQuote_collection quote purpose]) rfl rfl rfl rfl rfl rfl
  · exact event_reseals (t := dropLapsed c reference k s) settled power
      (by simp [quote, passed, late, dropQuote_postage quote purpose state drop]) rfl rfl rfl rfl rfl rfl

end Sys2Proof.Machine

/-! What Collect asks for (R40, R69 to R72, R119, R120). -/

namespace Sys2Proof.Machine

/-! ### Customer requests -/

/-- A well-formed customer request that passes the class checks reaches its owner (R73, R116, R211). -/
theorem customer_taken {α : Type} {r : Request} {s : State} {k : KioskNo} {parsed : Option α} {x : α}
    (source : r.source = .kiosk k) (body : parsed = some x) (serves : ConcourseServes s)
    (free : (s.kiosk k).lockout = none) (own : KioskNo → α → Answer) :
    customer r parsed (taken r s) own = own k x := by
  have concourse : (taken r s).ret.concourse = s.ret.concourse := rfl
  have unlocked : ((taken r s).kiosk k).lockout = none := free
  have served (own : Answer) : customerConcourse (taken r s) own = own := by
    unfold customerConcourse
    obtain h | h := serves <;> rw [concourse, h]
  simp [customer, fromKiosk, source, withBody, body, served, notLockedOut, unlocked]

theorem idleAfter_kiosk {r : Request} {k : KioskNo} (source : r.source = .kiosk k) (s : State) :
    idleAfter s r = some (s.elapsed + 120) := by
  simp [idleAfter, source]

section answers

variable {kind : Nat} {r : Request} {s : State} {own : State → Answer} {status : Status} {body : List Byte}
  {ret : Retained} {quotes : Vector (Option Quote) 768} {kiosks : Vector Kiosk 4}

/-- A ready request whose owner changes the retained state beside the enables, the quotes and the kiosks. -/
theorem request_changes_records (ready : Ready kind r s) (settled : Settled s)
    (answer : own (taken r s) = { state := { taken r s with ret, quotes, kiosks }, status, body })
    (enables : ret.enables = s.ret.enables) :
    Completes (request (BitVec.ofNat 8 kind) r s own) fun t =>
      KeepsStrikes s t
        ∧ t = { answered kind r status body s with
            ret, checkWord := Config.retentionCheck ret, quotes, kiosks, segments := t.segments } := by
  obtain ⟨t, run, strikes, same⟩ := request_answered ready own answer
  obtain ⟨-, line, -⟩ := settled.running ready.1
  have level : attentionLevel { taken r s with ret, quotes, kiosks } = s.attention := by
    rw [line]
    unfold attentionLevel enabled
    dsimp only
    rw [enables]; rfl
  rw [level] at same
  exact ⟨t, run, strikes, same⟩

/-- A ready request whose owner changes at most the quotes and the kiosks. -/
theorem request_changes_quotes (ready : Ready kind r s) (settled : Settled s)
    (answer : own (taken r s) = { state := { taken r s with quotes, kiosks }, status, body }) :
    Completes (request (BitVec.ofNat 8 kind) r s own) fun t =>
      KeepsStrikes s t ∧ t = { answered kind r status body s with quotes, kiosks, segments := t.segments } := by
  obtain ⟨check, -, -⟩ := settled.running ready.1
  have done := request_changes_records (ret := s.ret) ready settled answer rfl
  rwa [← check] at done

end answers

/-! ### Collect -/

/-- A well-formed Collect that passes the class checks, with the clock set, comes to its own steps (R116, R117). -/
theorem execCollect_own {r : Request} {s : State} {k : KioskNo} {code now : Nat} (source : r.source = .kiosk k)
    (body : bodyNat 4 r.body = some code) (serves : ConcourseServes s) (free : (s.kiosk k).lockout = none)
    (clock : s.clock = some now) :
    ∃ own, exec (.collect r) s = request 1 r s own ∧ own (taken r s) = ownCollect k code now (taken r s) := by
  have set : (taken r s).clock = some now := clock
  unfold exec execCollect
  refine ⟨_, rfl, ?_⟩
  rw [customer_taken source body serves free]
  simp only [withClock, set]

theorem ownCollect_not_live {k : KioskNo} {code now : Nat} {e : DirEntry} {s : State}
    (lookup : lookupCode s code = some e) (status : e.status ≠ .live) :
    ownCollect k code now s = refuse s .busy := by
  simp [ownCollect, lookup, status]

/-- The quotes once the expiry of a compartment's quote has been taken, where its time has been passed (R72). -/
def quotesInTime (c : CompNo) (s : State) : Vector (Option Quote) 768 :=
  match s.quoteOf c with
  | some y => if quotePassed s y then put s.quotes c none else s.quotes
  | none => s.quotes

theorem put_quotesInTime (c : CompNo) (s : State) (q : Option Quote) :
    put (quotesInTime c s) c q = put s.quotes c q := by
  unfold quotesInTime
  split
  · split
    · exact put_put ..
    · rfl
  · rfl

/-- The state in which a Collect of a kiosk comes to the charge (R41, R72, R117). -/
def chargingState (k : KioskNo) (c : CompNo) (s : State) : State :=
  { countSuccess k s with quotes := quotesInTime c s }

section live

variable {k : KioskNo} {code now : Nat} {e : DirEntry} {s : State} (lookup : lookupCode s code = some e)
  (live : e.status = .live)
include lookup live

/-- The quote of another kiosk holds a collection up until its time has been passed (R71). -/
theorem ownCollect_quoted_elsewhere {y : Quote} (quote : s.quoteOf e.compartment = some y) (foreign : y.kiosk ≠ k)
    (standing : quotePassed s y = false) : ownCollect k code now s = refuse (countSuccess k s) .busy := by
  have quote' : (countSuccess k s).quoteOf e.compartment = some y := quote
  have standing' : quotePassed (countSuccess k s) y = false := standing
  simp [ownCollect, lookup, live, quote', standing', foreign]

/-- Otherwise a collection comes to its charge, with a quote whose time has been passed removed (R71, R72, R117). -/
theorem ownCollect_charges (idle : (s.comp e.compartment).transient = none)
    (own : ∀ y, s.quoteOf e.compartment = some y → y.kiosk = k ∨ quotePassed s y = true) :
    ownCollect k code now s = chargeCollect k now e.compartment (chargingState k e.compartment s) := by
  have passed (y : Quote) : quotePassed (countSuccess k s) y = quotePassed s y := rfl
  have counted : (countSuccess k s).quoteOf e.compartment = s.quoteOf e.compartment := rfl
  simp only [ownCollect, lookup, live, ne_eq, not_true_eq_false, if_false, counted, passed, chargingState, quotesInTime]
  cases quote : s.quoteOf e.compartment with
  | none => rfl
  | some y =>
    dsimp only
    by_cases late : quotePassed s y = true
    · rw [if_pos late, if_pos late, dropQuote_idle (counted.trans quote) idle]; rfl
    · rw [if_neg late, if_neg late, if_pos ((own y quote).resolve_right late)]; rfl

end live

section charge

variable {k : KioskNo} {now deposited : Nat} {c : CompNo} {d : Delivery} {s : State} (state : (s.comp c).state = .held)
  (parcel : (s.comp c).parcel = some (.delivery d)) (time : d.depositTime = some deposited)
include state parcel time

theorem chargeCollect_quotes (charge : 0 < netCharge d deposited now) :
    chargeCollect k now c s =
      { state := (issueQuote c k (netCharge d deposited now) now .collection s).1, status := .quote
        body := quoteBody c (issueQuote c k (netCharge d deposited now) now .collection s).2 } := by
  simp [chargeCollect, state, parcel, time, charge, issueQuote]

/-- With nothing to pay, the strike queue is asked for room before the outbox (R120). -/
theorem chargeCollect_full (free : netCharge d deposited now = 0)
    (full : compHasRoom s c = false ∨ outboxHasRoom s = false) :
    chargeCollect k now c s = refuse s (if compHasRoom s c = false then .retryLater else .backlog) := by
  by_cases room : compHasRoom s c = false
  · simp [chargeCollect, state, parcel, time, free, room]
  · have slot := full.resolve_left room
    simp [chargeCollect, state, parcel, time, free, room, reserveSlot, slot]

end charge

/-- Settles O10: a charge is quoted; another kiosk's quote, a full queue or outbox, and a code that is not LIVE turn the
Collect away. -/
theorem collectQuotesCharge : Obligations.CollectQuotesCharge := by
  refine ⟨fun r s k code now deposited e d q ready source body serves settled free clock lookup live state parcel time
      charge idle standing eq => ?_,
    fun r s k code now e y ready source body serves settled free clock lookup live quote foreign standing => ?_,
    fun r s k code now deposited e d ready source body serves settled free clock lookup live state parcel time nothing
      idle standing full => ?_,
    fun r s k code now e ready source body serves settled free clock lookup status => ?_⟩ <;>
  obtain ⟨own, run, answer⟩ := execCollect_own source body serves free clock <;>
  rw [run]
  · have quoted := answer.trans ((ownCollect_charges (s := taken r s) lookup live idle standing).trans
      (chargeCollect_quotes state parcel time charge))
    subst eq
    rw [← idleAfter_kiosk source, ← put_quotesInTime]
    exact request_changes_records (kind := 1) ready settled quoted rfl
  · exact request_replied (kind := 1) ready settled own
      (answer.trans (ownCollect_quoted_elsewhere lookup live quote foreign standing))
  · have refused := answer.trans ((ownCollect_charges (s := taken r s) lookup live idle standing).trans
      (chargeCollect_full state parcel time nothing full))
    exact request_changes_quotes (kind := 1) ready settled refused
  · exact request_replied (kind := 1) ready settled own (answer.trans (ownCollect_not_live lookup status))

end Sys2Proof.Machine

/-! Pay (R73 to R78, R85): its checks in their order, and what an accepted Pay grants. -/

namespace Sys2Proof.Machine

/-! ### A request that ends by queueing a strike -/

theorem transient_butMark {s t : State} {c : CompNo} {x : Transient} (keeps : KeepsComp s t c)
    (own : (s.comp c).transient = some x) : ∃ mark, (t.comp c).transient = some { x with strikeIssued := mark } := by
  obtain ⟨-, -, -, same, -⟩ := keeps
  rw [own] at same
  cases h : (t.comp c).transient with
  | none => rw [h] at same; cases same
  | some y =>
    rw [h] at same
    simp only [sameButMark, decide_eq_true_eq, Transient.mk.injEq, true_and] at same
    obtain ⟨particulars, kiosk, prior, resolved⟩ := same
    exact ⟨y.strikeIssued, by rw [← particulars, ← kiosk, ← prior, ← resolved]⟩

theorem segOf_of_room {s : State} {c : CompNo} (room : compHasRoom s c = true) : (segOf s c).isSome = true := by
  unfold compHasRoom at room
  split at room
  next g seg => rw [seg]; rfl
  next => cases room

theorem striking_of_queues {s t : State} {c : CompNo}
    (same : ∀ g, (t.seg g).queue = (s.seg g).queue ∧ (t.seg g).active = (s.seg g).active)
    (struck : striking s c = true) : striking t c = true := by
  rw [striking_iff] at struck ⊢
  obtain ⟨g, struck⟩ := struck
  obtain ⟨queue, active⟩ := same g
  exact ⟨g, by rwa [queue, active]⟩

/-- A ready request whose owner changes the retained state, the quotes, the kiosks and the alarms, and then queues a
strike where there is room: the strike is queued or struck, and beyond it only marks, segments and hand-off lists have
changed (R156). -/
theorem request_queues_strike {kind : Nat} {r : Request} {s v : State} {own : State → Answer} {status : Status}
    {body : List Byte} {c : CompNo} {purpose : Purpose} (ready : Ready kind r s)
    (answer : own (taken r s) = { state := queueStrike c purpose v, status, body })
    (frame : v = { taken r s with ret := v.ret, quotes := v.quotes, kiosks := v.kiosks, alarms := v.alarms })
    (room : compHasRoom v c = true) :
    Completes (request (BitVec.ofNat 8 kind) r s own) fun t =>
      striking t c = true ∧ (∀ d, KeepsComp v t d)
        ∧ t.ret = { v.ret with compartments := t.ret.compartments }
        ∧ t = { answered kind r status body s with
            ret := t.ret, checkWord := t.checkWord, segments := t.segments, boards := t.boards
            quotes := v.quotes, kiosks := v.kiosks, alarms := v.alarms, attention := t.attention } := by
  obtain ⟨t, run, strikes, same⟩ := request_answered ready own answer
  have queued := onlyStrikes_queueStrike c purpose v
  have struck := striking_queued purpose (segOf_of_room room)
  dsimp only at strikes same
  generalize queueStrike c purpose v = u at strikes same queued struck
  have ret : t.ret = u.ret := by rw [same]
  have quotes : t.quotes = u.quotes := by rw [same]
  refine ⟨t, run, striking_of_queues (fun g => ⟨(strikes g).1, (strikes g).2.1⟩) struck, fun d => ?_, ?_, ?_⟩
  · exact (queued.comps d).trans (keepsComp_of_eq (comp_of_ret ret d) (quoteOf_of_quotes quotes d))
  · rw [ret]; exact queued.ret
  · have rest : u = { taken r s with
        ret := u.ret, segments := u.segments, boards := u.boards
        quotes := v.quotes, kiosks := v.kiosks, alarms := v.alarms } := queued.rest.trans (by rw [frame])
    have boards : t.boards = u.boards := by rw [same]
    have word : t.checkWord = Config.retentionCheck u.ret := by rw [same]
    have line : t.attention = attentionLevel u := by rw [same]
    rw [ret, boards, word, line]
    refine same.trans ?_
    generalize attentionLevel u = level
    generalize t.segments = segments
    rw [rest]
    rfl

/-- Where one compartment's record and quote have been replaced and then only strike issued marks set, every other
compartment is as it was. -/
theorem keepsOtherComps_replaced {c : CompNo} {y : Compartment} {q : Option Quote} {s v t : State}
    (comps : v.ret.compartments = put s.ret.compartments c y) (quotes : v.quotes = put s.quotes c q)
    (keeps : ∀ d, KeepsComp v t d) : KeepsOtherComps c s t := by
  obtain ⟨-, others⟩ := replaced comps fun d other => (by
    rw [State.quoteOf, quotes, look_put_other _ _ other]; rfl : v.quoteOf d = s.quoteOf d)
  exact others.trans fun d _ => keeps d

/-- Room for a strike depends on the compartment's map entry and the segments alone (R155, R157). -/
theorem compHasRoom_of_map {s t : State} {c : CompNo} (map : (t.comp c).map = (s.comp c).map)
    (segments : t.segments = s.segments) : compHasRoom t c = compHasRoom s c := by
  unfold compHasRoom segOf boardOf queueHasRoom State.seg
  rw [map, segments]

/-- A ready request whose owner replaces one compartment's record and quote, changes the kiosks, the alarms and the rest of
the retained state, and then queues the compartment's strike (R11, R156). -/
theorem request_grants_strike {kind : Nat} {r : Request} {s v : State} {own : State → Answer} {status : Status}
    {body : List Byte} {c : CompNo} {purpose : Purpose} {y : Compartment} {x : Transient} {q : Option Quote}
    (ready : Ready kind r s) (answer : own (taken r s) = { state := queueStrike c purpose v, status, body })
    (room : compHasRoom s c = true) (comps : v.ret.compartments = put s.ret.compartments c y)
    (quotes : v.quotes = put s.quotes c q)
    (frame : v = { taken r s with ret := v.ret, quotes := v.quotes, kiosks := v.kiosks, alarms := v.alarms })
    (map : y.map = (s.comp c).map) (transient : y.transient = some x) :
    Completes (request (BitVec.ofNat 8 kind) r s own) fun t =>
      (t.comp c).state = y.state ∧ (∃ mark, (t.comp c).transient = some { x with strikeIssued := mark })
        ∧ (t.comp c).map = (s.comp c).map ∧ (t.comp c).parcel = y.parcel ∧ striking t c = true ∧ KeepsOtherComps c s t
        ∧ t.ret = { v.ret with compartments := t.ret.compartments }
        ∧ t = { answered kind r status body s with
            ret := t.ret, checkWord := t.checkWord, segments := t.segments, boards := t.boards
            quotes := v.quotes, kiosks := v.kiosks, alarms := v.alarms, attention := t.attention } := by
  have comp : v.comp c = y := by rw [State.comp, comps, look_put_same]
  have room' : compHasRoom v c = true := by
    rwa [compHasRoom_of_map (s := s) (by rw [comp, map]) (by rw [frame]; rfl)]
  obtain ⟨t, run, struck, keeps, ret, rest⟩ := request_queues_strike ready answer frame room'
  have marked := transient_butMark (keeps c) (by rw [comp, transient])
  obtain ⟨own_map, state, parcel, -, -⟩ := keeps c
  rw [comp] at own_map state parcel
  exact ⟨t, run, state, marked, own_map.trans map, parcel, struck, keepsOtherComps_replaced comps quotes keeps, ret, rest⟩

/-! ### The checks of a Pay -/

theorem be_ne_nil (width v : Nat) : be (width + 1) v ≠ [] := List.cons_ne_nil _ _

theorem payEcho_ne_nil (p : PayFields) : payEcho p ≠ [] := by simp [payEcho, be_ne_nil]

theorem payAccepted_ne_nil (again : Bool) (p : PayFields) (paid : Option Nat) : payAccepted again p paid ≠ [] := by
  simp [payAccepted, flag]

theorem payWithoutQuote_body (k : KioskNo) (p : PayFields) (s : State) : (payWithoutQuote k p s).body ≠ [] := by
  unfold payWithoutQuote
  split
  · split
    · exact payAccepted_ne_nil true p _
    · exact payEcho_ne_nil p
  · exact payEcho_ne_nil p

theorem payQuote_body (k : KioskNo) (p : PayFields) (c : CompNo) (q : Quote) (s : State) :
    (payQuote k p c q s).body ≠ [] := by
  unfold payQuote
  split; · exact payEcho_ne_nil p
  split; · exact payEcho_ne_nil p
  split; · exact payEcho_ne_nil p
  split; · exact payEcho_ne_nil p
  split
  · exact payAccepted_ne_nil false p none
  · split; · exact payEcho_ne_nil p
    split
    · dsimp only [acceptCollectionPay]; exact payAccepted_ne_nil false p _
    · exact payEcho_ne_nil p

/-- Every reply of a Pay's own checks carries fields (R73, R76 to R78). -/
theorem ownPay_body (k : KioskNo) (p : PayFields) (s : State) : (ownPay k p s).body ≠ [] := by
  unfold ownPay
  split
  · split
    · split
      · exact payQuote_body k p _ _ s
      · exact payWithoutQuote_body k p s
    · exact payWithoutQuote_body k p s
  · exact payWithoutQuote_body k p s

theorem echoPay_of_fields {parsed : Option PayFields} {a : Answer} (fields : a.body ≠ []) : echoPay parsed a = a := by
  unfold echoPay
  split
  next empty => exact absurd empty fields
  next => rfl

/-- A well-formed Pay that passes the class checks comes to its own checks (R73, R74). -/
theorem execPay_own {r : Request} {s : State} {k : KioskNo} {p : PayFields} (source : r.source = .kiosk k)
    (body : bodyPay r.body = some p) (serves : ConcourseServes s) (free : (s.kiosk k).lockout = none) :
    ∃ own, exec (.pay r) s = request 2 r s own ∧ own (taken r s) = ownPay k p (taken r s) := by
  unfold exec execPay
  refine ⟨_, rfl, ?_⟩
  rw [customer_taken source body serves free]
  exact echoPay_of_fields (ownPay_body k p _)

theorem LastPayment.repeats_iff {l : LastPayment} {p : PayFields} :
    l.repeats p = true ↔ l.compartment.val = p.compartment ∧ l.number = p.number ∧ l.amount = p.amount
      ∧ l.reference = p.reference := by
  simp [LastPayment.repeats, and_assoc]

theorem ownPay_unfound {k : KioskNo} {p : PayFields} {s : State}
    (unfound : ∀ c q, p.compartment = c.val → s.quoteOf c = some q → q.number ≠ p.number) :
    ownPay k p s = payWithoutQuote k p s := by
  unfold ownPay
  split
  next c named =>
    have number : p.compartment = c.val := by
      unfold compNo? at named
      split at named
      · cases named; rfl
      · cases named
    split
    next q quote => exact if_neg (unfound c q number quote)
    next => rfl
  next => rfl

theorem ownPay_found {k : KioskNo} {p : PayFields} {c : CompNo} {q : Quote} {s : State} (named : p.compartment = c.val)
    (quote : s.quoteOf c = some q) (number : q.number = p.number) : ownPay k p s = payQuote k p c q s := by
  unfold ownPay
  rw [named, compNo?_val]; dsimp only
  rw [quote]
  exact if_pos number

/-- A Pay that finds its quote comes to the checks against it (R74). -/
theorem execPay_found {r : Request} {s : State} {k : KioskNo} {p : PayFields} {c : CompNo} {q : Quote}
    (source : r.source = .kiosk k) (body : bodyPay r.body = some p) (serves : ConcourseServes s)
    (free : (s.kiosk k).lockout = none) (named : p.compartment = c.val) (quote : s.quoteOf c = some q)
    (number : q.number = p.number) :
    ∃ own, exec (.pay r) s = request 2 r s own ∧ own (taken r s) = payQuote k p c q (taken r s) := by
  obtain ⟨own, run, answer⟩ := execPay_own source body serves free
  exact ⟨own, run, answer.trans (ownPay_found (s := taken r s) named quote number)⟩

theorem payWithoutQuote_repeated {k : KioskNo} {p : PayFields} {l : LastPayment} {s : State}
    (last : (s.kiosk k).lastPayment = some l) (repeats : l.repeats p = true) :
    payWithoutQuote k p s = { state := s, status := .accepted, body := payAccepted true p l.paid } := by
  simp [payWithoutQuote, last, repeats]

theorem payWithoutQuote_new {k : KioskNo} {p : PayFields} {s : State}
    (new : ∀ l, (s.kiosk k).lastPayment = some l → ¬ l.repeats p = true) :
    payWithoutQuote k p s = refusePay p s .noQuote := by
  unfold payWithoutQuote
  split
  next l last => exact if_neg (new l last)
  next => rfl

section quote

variable {k : KioskNo} {p : PayFields} {c : CompNo} {q : Quote} {s : State}

theorem payQuote_foreign (foreign : q.kiosk ≠ k) : payQuote k p c q s = refusePay p s .notPermitted := if_pos foreign

variable (own : q.kiosk = k)
include own

theorem payQuote_stale (passed : quotePassed s q = true) :
    payQuote k p c q s = refusePay p (dropQuote c s) .stale := by
  simp [payQuote, own, passed]

variable (standing : quotePassed s q = false)
include standing

theorem payQuote_mismatch (amount : p.amount ≠ q.amount) : payQuote k p c q s = refusePay p s .mismatch := by
  simp [payQuote, own, standing, amount]

variable (amount : p.amount = q.amount)
include amount

theorem payQuote_crowded (full : compHasRoom s c = false) : payQuote k p c q s = refusePay p s .retryLater := by
  simp [payQuote, own, standing, amount, full]

variable (room : compHasRoom s c = true)
include room

theorem payQuote_postage {reference : Nat} (purpose : q.purpose = .postage reference) :
    payQuote k p c q s = acceptPostagePay k p c s := by
  simp [payQuote, own, standing, amount, room, purpose]

variable (purpose : q.purpose = .collection) (held : (s.comp c).state = .held)
include purpose held

theorem payQuote_backlog (full : outboxHasRoom s = false) : payQuote k p c q s = refusePay p s .backlog := by
  simp [payQuote, own, standing, amount, room, purpose, held, reserveSlot, full]

theorem payQuote_collection (slot : outboxHasRoom s = true) :
    payQuote k p c q s = acceptCollectionPay k p c (takeSlot s) := by
  simp [payQuote, own, standing, amount, room, purpose, held, reserveSlot, slot]

end quote

/-! ### What an accepted Pay grants -/

/-- The state in which a collection that has been paid for queues its strike (R11, R76, R78, R85). -/
def paidCollection (k : KioskNo) (p : PayFields) (c : CompNo) (d : Delivery) (s : State) : State :=
  { s with
    ret := { s.ret with
      compartments := put s.ret.compartments c { s.comp c with
        state := .releasing
        transient := some { particulars := .collect, kiosk := k, strikeIssued := false, prior := none }
        parcel := some (.delivery { d with paid := d.paid + p.amount }) }
      directory := (setEntryStatus c .suspended s).ret.directory
      takings := put s.ret.takings k ((look s.ret.takings k).addCollection p.amount)
      reservations := s.ret.reservations + 1 }
    quotes := put s.quotes c none
    kiosks := put s.kiosks k { s.kiosk k with
      doorResult := none
      lastPayment := some { compartment := c, number := p.number, amount := p.amount, reference := p.reference,
                            paid := some (d.paid + p.amount) } }
    alarms := (takeSlot s).alarms }

theorem acceptCollectionPay_eq {k : KioskNo} {p : PayFields} {c : CompNo} {d : Delivery} {s : State}
    (parcel : (s.comp c).parcel = some (.delivery d)) :
    acceptCollectionPay k p c (takeSlot s) =
      { state := queueStrike c .collect (paidCollection k p c d s), status := .accepted
        body := payAccepted false p (some (d.paid + p.amount)) } := by
  have comp : (addTakings k (·.addCollection p.amount) (takeSlot s)).comp c = s.comp c := comp_takeSlot s c
  unfold acceptCollectionPay
  simp only [comp, parcel, Option.map_some, addPaid, State.comp_setComp_same, paidTotal]
  rw [takeSlot_eq]
  simp [grantCollection, paidCollection, addTakings, setLastPayment, setDoorResult, State.setKiosk, State.setQuote,
    State.setComp, State.comp, State.kiosk, setEntryStatus, changeEntry]

/-- The state in which a drop whose postage has been paid queues its strike (R77, R78, R85). -/
def paidPostage (k : KioskNo) (p : PayFields) (c : CompNo) (x : Transient) (s : State) : State :=
  { s with
    ret := { s.ret with
      compartments := put s.ret.compartments c { s.comp c with
        transient := some { x with particulars := x.particulars.withPostage p.amount } }
      takings := put s.ret.takings k ((look s.ret.takings k).addPostage p.amount) }
    quotes := put s.quotes c none
    kiosks := put s.kiosks k { s.kiosk k with
      lastPayment := some { compartment := c, number := p.number, amount := p.amount, reference := p.reference,
                            paid := none } } }

theorem acceptPostagePay_eq {k : KioskNo} {p : PayFields} {c : CompNo} {x : Transient} {s : State}
    (drop : (s.comp c).transient = some x) :
    acceptPostagePay k p c s =
      { state := queueStrike c .drop (paidPostage k p c x s), status := .accepted, body := payAccepted false p none } := by
  have comp : ((addTakings k (·.addPostage p.amount) s).comp c) = s.comp c := rfl
  unfold acceptPostagePay
  simp only [comp, drop, Option.map_some]
  rfl

theorem payAccepted_none (again : Bool) (p : PayFields) :
    payAccepted again p none =
      flag again ++ be 2 p.compartment ++ be 2 p.number ++ be 3 p.amount ++ be 4 p.reference := List.append_nil _

/-- Settles O13: the payment is booked, and the strike queued where there is room. -/
theorem payAcceptsPostage : Obligations.PayAcceptsPostage := by
  intro r s k p c q courier reference paid ready source body serves free named quote purpose number own standing amount
    room state drop
  obtain ⟨owner, run, answer⟩ := execPay_found source body serves free named quote number
  have accepted := answer.trans ((payQuote_postage (s := taken r s) own standing amount room purpose).trans
    (acceptPostagePay_eq drop))
  rw [run, ← payAccepted_none, ← state]
  exact request_grants_strike (kind := 2) ready accepted room rfl rfl rfl rfl rfl

section pay

variable {r : Request} {s : State} {k : KioskNo} {p : PayFields} (ready : Ready 2 r s) (source : r.source = .kiosk k)
  (body : bodyPay r.body = some p) (serves : ConcourseServes s) (free : (s.kiosk k).lockout = none)
  (settled : Settled s)
include ready source body serves free settled

/-- A Pay whose own checks change nothing is answered, and nothing else changes. -/
theorem pay_replied {status : Status} {fields : List Byte}
    (answer : ownPay k p (taken r s) = { state := taken r s, status, body := fields }) :
    Completes (exec (.pay r) s) (Replied 2 r status fields s.kiosks s) := by
  obtain ⟨own, run, own_checks⟩ := execPay_own source body serves free
  rw [run]
  exact request_replied (kind := 2) ready settled own (own_checks.trans answer)

/-- A Pay that comes too late removes a COLLECTION quote alone (R72, R75). -/
theorem pay_stale_collection {c : CompNo} {q : Quote} (quote : s.quoteOf c = some q) (purpose : q.purpose = .collection)
    (answer : ownPay k p (taken r s) = refusePay p (dropQuote c (taken r s)) .stale) :
    Completes (exec (.pay r) s) fun t =>
      KeepsStrikes s t
        ∧ t = { answered 2 r .stale (payEcho p) s with quotes := put s.quotes c none, segments := t.segments } := by
  obtain ⟨own, run, own_checks⟩ := execPay_own source body serves free
  rw [dropQuote_collection (s := taken r s) quote purpose] at answer
  rw [run]
  exact request_changes_quotes (kind := 2) ready settled (own_checks.trans answer)

/-- With a POSTAGE quote it ends the unpaid drop as well (R14, R72, R75). -/
theorem pay_stale_postage {c : CompNo} {q : Quote} {n courier reference : Nat} {j : KioskNo} {mark : Bool}
    (quote : s.quoteOf c = some q) (purpose : q.purpose = .postage n) (state : (s.comp c).state = .reserved)
    (drop : (s.comp c).transient =
      some { particulars := .drop courier reference 0, kiosk := j, strikeIssued := mark, prior := none })
    (answer : ownPay k p (taken r s) = refusePay p (dropQuote c (taken r s)) .stale) :
    Completes (exec (.pay r) s) fun t =>
      KeepsStrikes s t
        ∧ t = { answered 2 r .stale (payEcho p) s with
            ret := (dropLapsed c reference j s).ret, checkWord := t.checkWord, segments := t.segments
            quotes := (dropLapsed c reference j s).quotes, kiosks := (dropLapsed c reference j s).kiosks } := by
  obtain ⟨own, run, own_checks⟩ := execPay_own source body serves free
  rw [dropQuote_postage (s := taken r s) quote purpose state drop] at answer
  obtain ⟨t, done, strikes, same⟩ := request_changes_records (kind := 2) ready settled (own_checks.trans answer) rfl
  have word : t.checkWord = Config.retentionCheck (dropLapsed c reference j s).ret := by rw [same]; rfl
  refine ⟨t, run.trans done, strikes, ?_⟩
  rw [word]
  exact same

end pay

/-- Settles O12: an accepted Pay grants the collection; one that finds no quote is a repeat or not; and one that finds its
quote ends at the first check of R74 that it fails. -/
theorem payAcceptsCollection : Obligations.PayAcceptsCollection := by
  refine ⟨fun r s k p c q d ready source body serves free named quote purpose number own standing amount held parcel room
      slot => ?_, fun r s k p ready source body serves settled free => ?_⟩
  · obtain ⟨owner, run, answer⟩ := execPay_found source body serves free named quote number
    have accepted := answer.trans ((payQuote_collection (s := taken r s) own standing amount room purpose held slot).trans
      (acceptCollectionPay_eq parcel))
    rw [run, ← takeSlot_alarms_congr (s := s) (t := taken r s) rfl rfl rfl]
    exact request_grants_strike (kind := 2) ready accepted room rfl rfl rfl rfl rfl
  have replied := @pay_replied r s k p ready source body serves free settled
  refine ⟨fun unfound => ?_, fun c q named quote number => ?_⟩
  · have checks := ownPay_unfound (k := k) (s := taken r s) unfound
    exact ⟨fun l last again => replied (checks.trans (payWithoutQuote_repeated last (LastPayment.repeats_iff.mpr again))),
      fun new => replied (checks.trans
        (payWithoutQuote_new fun l last again => new l last (LastPayment.repeats_iff.mp again)))⟩
  · have checks := ownPay_found (k := k) (s := taken r s) named quote number
    refine ⟨fun foreign => ?_, fun own passed => ?_, fun own standing => ?_⟩
    · exact replied (checks.trans (payQuote_foreign foreign))
    · have late := checks.trans (payQuote_stale own passed)
      exact ⟨fun purpose => pay_stale_collection ready source body serves free settled quote purpose late,
        fun courier reference j mark purpose state drop =>
          pay_stale_postage ready source body serves free settled quote purpose state drop late⟩
    · exact ⟨fun amount => replied (checks.trans (payQuote_mismatch own standing amount)),
        fun amount full => replied (checks.trans (payQuote_crowded own standing amount full)),
        fun amount room purpose held full =>
          replied (checks.trans (payQuote_backlog own standing amount room purpose held full))⟩

end Sys2Proof.Machine

/-! Courier requests (R96 to R109): the checks that Sign On and Declare share, Sign On, Sign Off and Session Status. -/

namespace Sys2Proof.Machine

/-! ### The state in which a courier request is answered -/

/-- The state in which the owner of a courier request answers it: the frame is taken and the session's activity noted
(R99, R210). -/
def noted (k : KioskNo) (r : Request) (s : State) : State := { taken r s with kiosks := touchedKiosks k s }

/-- A courier request from a kiosk with a well-formed body comes to its owner in that state (R99, R211). -/
theorem courierRequest_noted {α : Type} {r : Request} {k : KioskNo} {s : State} {parsed : Option α} {x : α}
    (source : r.source = .kiosk k) (body : parsed = some x) (own : KioskNo → α → State → Answer) :
    courierRequest r parsed (taken r s) own = own k x (noted k r s) := courierRequest_taken source body own

/-- From a source that is no kiosk it is refused (R211). -/
theorem courierRequest_not_kiosk {α : Type} {r : Request} (source : ∀ k, r.source ≠ .kiosk k) (parsed : Option α)
    (s : State) (own : KioskNo → α → State → Answer) : courierRequest r parsed s own = refuse s .notPermitted := by
  unfold courierRequest fromKiosk
  split
  next k kiosk => exact absurd kiosk (source k)
  next => rfl

theorem kiosk_noted (k : KioskNo) (r : Request) (s : State) :
    (noted k r s).kiosk k = { s.kiosk k with
      session := (s.kiosk k).session.map fun x => { x with deadline := s.elapsed + 120 } } := touchedKiosks_own k s

theorem sessionOf_noted_some {k : KioskNo} {r : Request} {s : State} {x : Session}
    (session : (s.kiosk k).session = some x) :
    sessionOf (noted k r s) k = some { x with deadline := s.elapsed + 120 } := by
  rw [sessionOf, kiosk_noted, session]; rfl

theorem sessionOf_noted_none {k : KioskNo} {r : Request} {s : State} (session : (s.kiosk k).session = none) :
    sessionOf (noted k r s) k = none := by
  rw [sessionOf, kiosk_noted, session]; rfl

theorem touchedKiosks_signedOff {k : KioskNo} {s : State} (session : (s.kiosk k).session = none) :
    touchedKiosks k s = s.kiosks := by
  unfold touchedKiosks; rw [session]

/-- Where the kiosk has no session there is no activity to note. -/
theorem noted_signedOff {k : KioskNo} {r : Request} {s : State} (session : (s.kiosk k).session = none) :
    noted k r s = taken r s := by
  unfold noted; rw [touchedKiosks_signedOff session]; rfl

/-- A session written to the kiosk's slot replaces whatever the activity noted there. -/
theorem put_touchedKiosks (k : KioskNo) (s : State) (x : Option Session) :
    put (touchedKiosks k s) k { look (touchedKiosks k s) k with session := x }
      = put s.kiosks k { s.kiosk k with session := x } := by
  rw [touchedKiosks_own]
  unfold touchedKiosks
  split
  · exact put_put ..
  · rfl

theorem setSession_noted (k : KioskNo) (r : Request) (s : State) (x : Option Session) :
    setSession k x (noted k r s) = { taken r s with kiosks := put s.kiosks k { s.kiosk k with session := x } } := by
  rw [← put_touchedKiosks]; rfl

/-- A courier request that its owner refuses, changing nothing: only the session's deadline has moved (R2, R99). -/
theorem courier_refused {kind : Nat} {r : Request} {s : State} {k : KioskNo} {own : State → Answer} {status : Status}
    (ready : Ready kind r s) (settled : Settled s) (answer : own (taken r s) = refuse (noted k r s) status) :
    Completes (request (BitVec.ofNat 8 kind) r s own) (Replied kind r status [] (touchedKiosks k s) s) :=
  request_replied ready settled own answer

/-! ### The checks of the concourse, the lockout and the session -/

section checks

variable {s : State} {k : KioskNo} (own : Answer)

theorem courierConcourse_serves (serves : ConcourseServesCouriers s) : courierConcourse s own = own := by
  unfold courierConcourse
  obtain h | h | h := serves <;> rw [h]

theorem courierConcourse_evacuate (evacuate : s.ret.concourse = .evacuate) :
    courierConcourse s own = refuse s .closed := by
  unfold courierConcourse; rw [evacuate]

theorem courierConcourse_lockdown (lockdown : s.ret.concourse = .lockdown) :
    courierConcourse s own = refuse s .lockdown := by
  unfold courierConcourse; rw [lockdown]

theorem notLockedOut_free (free : (s.kiosk k).lockout = none) : notLockedOut k s own = own := by
  simp [notLockedOut, free]

theorem notLockedOut_locked (locked : (s.kiosk k).lockout ≠ none) :
    notLockedOut k s own = refuse s .lockedOut := if_pos (Option.isSome_iff_ne_none.mpr locked)

end checks

theorem withSession_some {s : State} {k : KioskNo} {x : Session} (session : sessionOf s k = some x)
    (own : Session → Answer) : withSession k s own = own x := by
  unfold withSession; rw [session]

theorem withSession_none {s : State} {k : KioskNo} (session : sessionOf s k = none)
    (own : Session → Answer) : withSession k s own = refuse s .notSignedOn := by
  unfold withSession; rw [session]

/-! ### Sign On -/

/-- The checks of a Sign On that follow the source and the body (R96). -/
def signOnChecks (k : KioskNo) (id : Nat) (credential : BitVec 32) (s : State) : Answer :=
  courierConcourse s (notLockedOut k s (ownSignOn k id credential s))

/-- A well-formed Sign On comes to those checks once the session's activity has been noted (R96, R99). -/
theorem execSignOn_own {r : Request} {k : KioskNo} {id : Nat} {credential : BitVec 32} (source : r.source = .kiosk k)
    (body : bodySignOn r.body = some (id, credential)) (s : State) :
    ∃ own, exec (.signOn r) s = request 5 r s own ∧ own (taken r s) = signOnChecks k id credential (noted k r s) := by
  unfold exec execSignOn
  refine ⟨_, rfl, ?_⟩
  rw [courierRequest_noted source body]
  rfl

/-- The lockout is not the session's to move, so the check of R43 reads what stood before the request. -/
theorem lockout_noted (k : KioskNo) (r : Request) (s : State) :
    ((noted k r s).kiosk k).lockout = (s.kiosk k).lockout := by rw [kiosk_noted]

section signOnChecks

variable {k : KioskNo} {id : Nat} {credential : BitVec 32} {r : Request} {s : State}
  (serves : ConcourseServesCouriers s)
include serves

theorem signOnChecks_locked (locked : (s.kiosk k).lockout ≠ none) :
    signOnChecks k id credential (noted k r s) = refuse (noted k r s) .lockedOut := by
  rw [← lockout_noted k r s] at locked
  exact (courierConcourse_serves (s := noted k r s) _ serves).trans (notLockedOut_locked _ locked)

theorem signOnChecks_passes (free : (s.kiosk k).lockout = none) :
    signOnChecks k id credential (noted k r s) = ownSignOn k id credential (noted k r s) := by
  rw [← lockout_noted k r s] at free
  exact (courierConcourse_serves (s := noted k r s) _ serves).trans (notLockedOut_free _ free)

/-- With no session at the kiosk its checks read the state as it was taken. -/
theorem signOnChecks_signedOff (free : (s.kiosk k).lockout = none) (closed : (s.kiosk k).session = none) :
    signOnChecks k id credential (noted k r s) = ownSignOn k id credential (taken r s) := by
  rw [signOnChecks_passes serves free, noted_signedOff closed]

end signOnChecks

theorem courierOf_id {s : State} {id : Nat} {e : Courier} (entry : courierOf s id = some e) : e.id = id := by
  simpa using List.find?_some entry

section ownSignOn

variable {k : KioskNo} {id : Nat} {credential : BitVec 32} {s : State}

theorem ownSignOn_occupied (occupied : sessionOf s k ≠ none) : ownSignOn k id credential s = refuse s .busy :=
  if_pos (Option.isSome_iff_ne_none.mpr occupied)

variable (closed : sessionOf s k = none)
include closed

/-- A credential that fits no active entry is a failure (R41, R96). -/
theorem ownSignOn_unfit (unfit : ∀ e, courierOf s id = some e → e.credential ≠ credential ∨ e.active = false) :
    ownSignOn k id credential s = refuse (countFailure k s) .notPermitted := by
  unfold ownSignOn
  rw [closed, if_neg (by decide)]
  split
  next e entry =>
    refine if_neg fun ⟨fits, active⟩ => ?_
    obtain h | h := unfit e entry
    · exact h fits
    · rw [h] at active; cases active
  next => rfl

variable {e : Courier} (entry : courierOf s id = some e) (fits : e.credential = credential) (active : e.active = true)
include entry fits active

theorem ownSignOn_elsewhere (elsewhere : hasSession s id = true) : ownSignOn k id credential s = refuse s .busy := by
  simp [ownSignOn, closed, entry, fits, active, elsewhere]

theorem ownSignOn_accepts (nowhere : hasSession s id = false) : ownSignOn k id credential s = acceptSignOn k e s := by
  simp [ownSignOn, closed, entry, fits, active, nowhere]

end ownSignOn

/-- Of the kiosk's record an accepted Sign On writes the failure count and the session (R41, R97). -/
theorem acceptSignOn_eq (k : KioskNo) (e : Courier) (s : State) :
    acceptSignOn k e s =
      { state := { s with
          nextSerial := (s.nextSerial + 1) % 65536
          kiosks := put s.kiosks k { s.kiosk k with failures := 0, session := some (openSession s e.id) } }
        status := .accepted
        body := be 2 s.nextSerial ++ flag e.deposit ++ flag e.returns ++ flag e.recover ++ be 2 e.quota
          ++ be 2 (heldCount s e.id) } := by
  simp [acceptSignOn, setSession, countSuccess, State.setKiosk, State.kiosk]

/-- A ready request whose owner changes at most the serial counter and the kiosks. -/
theorem request_changes_serial {kind : Nat} {r : Request} {s : State} {own : State → Answer} {status : Status}
    {body : List Byte} {serial : Nat} {kiosks : Vector Kiosk 4} (ready : Ready kind r s) (settled : Settled s)
    (answer : own (taken r s) = { state := { taken r s with nextSerial := serial, kiosks }, status, body }) :
    Completes (request (BitVec.ofNat 8 kind) r s own) fun t =>
      KeepsStrikes s t
        ∧ t = { answered kind r status body s with nextSerial := serial, kiosks, segments := t.segments } := by
  obtain ⟨t, run, strikes, same⟩ := request_answered ready own answer
  obtain ⟨check, line, -⟩ := settled.running ready.1
  have level : attentionLevel { taken r s with nextSerial := serial, kiosks } = s.attention := line.symm
  have word : Config.retentionCheck ({ taken r s with nextSerial := serial, kiosks } : State).ret = s.checkWord :=
    check.symm
  refine ⟨t, run, strikes, same.trans ?_⟩
  dsimp only at level word ⊢
  rw [level, word]; rfl

/-- A Sign On whose checks refuse it, changing nothing: only the session's deadline has moved (R99). -/
theorem signOn_refused {r : Request} {s : State} {k : KioskNo} {id : Nat} {credential : BitVec 32} {status : Status}
    (ready : Ready 5 r s) (source : r.source = .kiosk k) (body : bodySignOn r.body = some (id, credential))
    (settled : Settled s) (answer : signOnChecks k id credential (noted k r s) = refuse (noted k r s) status) :
    Completes (exec (.signOn r) s) (Replied 5 r status [] (touchedKiosks k s) s) := by
  obtain ⟨own, run, checks⟩ := execSignOn_own source body s
  rw [run]
  exact courier_refused (kind := 5) ready settled (checks.trans answer)

/-- Settles O17: a Sign On that fits an active entry opens a session; the others end at the first check of R96 that they
fail. -/
theorem signOnOpensSession : Obligations.SignOnOpensSession := by
  refine ⟨fun r s k id credential e ready source body serves settled free closed entry fits active nowhere => ?_,
    fun r s k id credential ready source body settled => ?_⟩
  · obtain ⟨own, run, checks⟩ := execSignOn_own source body s
    have accepted := checks.trans (signOnChecks_signedOff serves free closed)
    rw [ownSignOn_accepts (s := taken r s) closed entry fits active nowhere, acceptSignOn_eq, courierOf_id entry]
      at accepted
    rw [run]
    exact request_changes_serial (kind := 5) ready settled accepted
  have refused {status} := @signOn_refused r s k id credential status ready source body settled
  refine ⟨fun evacuate => refused (courierConcourse_evacuate _ evacuate),
    fun lockdown => refused (courierConcourse_lockdown _ lockdown),
    fun serves locked => refused (signOnChecks_locked serves locked), fun serves free occupied => ?_,
    fun serves free closed => ⟨fun few unfit => ?_, fun e entry fits active elsewhere => ?_⟩⟩
  · obtain ⟨x, session⟩ := Option.ne_none_iff_exists'.mp occupied
    have occupied' : sessionOf (noted k r s) k ≠ none := by
      rw [sessionOf_noted_some session]
      exact Option.some_ne_none _
    exact refused ((signOnChecks_passes serves free).trans (ownSignOn_occupied occupied'))
  · obtain ⟨own, run, checks⟩ := execSignOn_own source body s
    have failed := checks.trans (signOnChecks_signedOff serves free closed)
    rw [ownSignOn_unfit (s := taken r s) closed unfit] at failed
    rw [run]
    exact request_failed (kind := 5) ready own few free failed
  · have refuses := ownSignOn_elsewhere (s := taken r s) closed entry fits active elsewhere
    rw [← noted_signedOff closed] at refuses
    exact refused ((signOnChecks_passes serves free).trans refuses)

/-! ### Sign Off -/

/-- Sign Off's answer: by what stands in the kiosk's slot (R98). -/
def signOffAnswer (k : KioskNo) (s : State) : Answer :=
  withSession k s fun x => { state := setSession k none s, status := .accepted, body := be 1 x.pipeline.length }

/-- A Sign Off from a kiosk comes to the kiosk's slot (R98). -/
theorem execSignOff_own {r : Request} {k : KioskNo} (source : r.source = .kiosk k) (body : r.body = []) (s : State) :
    ∃ own, exec (.signOff r) s = request 6 r s own ∧ own (taken r s) = signOffAnswer k (noted k r s) := by
  have parsed : bodyEmpty r.body = some () := by rw [body]; rfl
  unfold exec execSignOff
  refine ⟨_, rfl, ?_⟩
  rw [courierRequest_noted source parsed]
  rfl

/-- Settles O18: by the source, and then by what stands in the kiosk's slot. -/
theorem signOffEndsSession : Obligations.SignOffEndsSession := by
  refine ⟨fun r s ready source settled => ?_, fun r s k ready source body settled => ?_⟩
  · unfold exec execSignOff
    refine request_changes_deadline (kind := 6) (deadline := s.unlockDeadline) ready source settled ?_
    exact courierRequest_not_kiosk source _ _ _
  · obtain ⟨own, run, answer⟩ := execSignOff_own source body s
    cases session : (s.kiosk k).session with
    | none =>
      obtain ⟨t, done, strikes, same⟩ := courier_refused (kind := 6) ready settled
        (answer.trans (withSession_none (sessionOf_noted_none session) _))
      rw [touchedKiosks_signedOff session] at same
      exact ⟨t, run.trans done, strikes, nofun, fun _ => same⟩
    | some x =>
      have ends := answer.trans (withSession_some (sessionOf_noted_some session) _)
      rw [setSession_noted] at ends
      obtain ⟨t, done, strikes, same⟩ := request_replied (kind := 6) ready settled own ends
      exact ⟨t, run.trans done, strikes, fun y eq => by cases eq; exact same, nofun⟩

/-! ### Session Status -/

/-- The figures of a session do not depend on its deadline, nor on what the taking of the request moves (R109). -/
theorem sessionBody_noted (k : KioskNo) (r : Request) (s : State) (x : Session) (deadline : Nat) (named : Option Nat) :
    sessionBody (noted k r s) { x with deadline } named = sessionBody s x named := rfl

/-- A well-formed Session Status with a session open comes to its figures (R109). -/
theorem execSessionStatus_own {r : Request} {s : State} {k : KioskNo} {named : Option Nat} {x : Session}
    (source : r.source = .kiosk k) (body : bodySessionStatus r.body = some named)
    (session : (s.kiosk k).session = some x) :
    ∃ own, exec (.sessionStatus r) s = request 8 r s own
      ∧ own (taken r s) = { state := noted k r s, status := .accepted, body := sessionBody s x named } := by
  unfold exec execSessionStatus
  refine ⟨_, rfl, ?_⟩
  rw [courierRequest_noted source body, withSession_some (sessionOf_noted_some session), sessionBody_noted]

/-- Settles O20: the session is there, and its owner only reads. -/
theorem sessionStatusReports : Obligations.SessionStatusReports := by
  intro r s k named x ready source body settled session
  obtain ⟨own, run, answer⟩ := execSessionStatus_own source body session
  have touched : touchedKiosks k s =
      put s.kiosks k { s.kiosk k with session := some { x with deadline := s.elapsed + 120 } } := by
    rw [touchedKiosks, session]
  rw [run, ← touched]
  exact request_replied (kind := 8) ready settled own answer

end Sys2Proof.Machine

/-! The courier table (R91 to R93): Load Courier and Remove Courier. -/

namespace Sys2Proof.Machine

/-- A backend's request whose owner changes the kiosks and, beside the concourse and the enables, the retained state. -/
theorem backend_changes_kiosks {kind : Nat} {r : Request} {s : State} {own : State → Answer} {status : Status}
    {body : List Byte} {ret : Retained} {kiosks : Vector Kiosk 4} (ready : Ready kind r s)
    (source : r.source = .backend) (settled : Settled s)
    (answer : own { s with receive := s.receive.tail } =
      { state := { s with receive := s.receive.tail, ret, kiosks }, status, body })
    (enables : ret.enables = s.ret.enables) (concourse : ret.concourse = s.ret.concourse) :
    request (BitVec.ofNat 8 kind) r s own = .next (resealed { answered kind r status body s with ret, kiosks }) := by
  have not_kiosk := not_kiosk_of_backend source
  rw [request_untouched ready not_kiosk settled own answer enables concourse rfl rfl rfl rfl]
  simp only [resealed, answered, idleAfter_not_kiosk not_kiosk]
  rfl

/-- The courier table with an entry loaded: in the place of the one of its id, or at the end (R92). -/
def loadedCouriers (e : Courier) (s : State) : List Courier :=
  if (courierOf s e.id).isSome then s.ret.couriers.map fun d => if d.id = e.id then e else d else s.ret.couriers ++ [e]

/-- A well-formed Load Courier in range, for an id present or with an entry free, loads its entry (R92). -/
theorem execLoadCourier_own {r : Request} {s : State} {e : Courier} (source : r.source = .backend)
    (body : bodyLoadCourier r.body = some e) (low : 1 ≤ e.id) (high : e.id ≤ 65535) (quota : e.quota ≤ 768)
    (room : (courierOf s e.id).isSome = true ∨ s.ret.couriers.length < 64) :
    ∃ own, exec (.loadCourier r) s = request 14 r s own
      ∧ own { s with receive := s.receive.tail } =
        { state := endSessionsOf e.id { s with
            receive := s.receive.tail, ret := { s.ret with couriers := loadedCouriers e s } }
          status := .accepted, body := [] } := by
  have inRange : ¬ (e.id = 0 ∨ 65535 < e.id ∨ 768 < e.quota) := by omega
  have free : (!(courierOf s e.id).isSome && decide (64 ≤ s.ret.couriers.length)) = false := by
    obtain present | below := room
    · rw [present]; rfl
    · rw [decide_eq_false (by omega), Bool.and_false]
  unfold exec execLoadCourier
  refine ⟨_, rfl, ?_⟩
  rw [fromBackend_body source body, if_neg inRange]
  exact if_neg (Bool.eq_false_iff.mp free)

/-- A well-formed Remove Courier in range, for an id present, removes its entry (R93). -/
theorem execRemoveCourier_own {r : Request} {s : State} {id : Nat} {e : Courier} (source : r.source = .backend)
    (body : bodyNat 2 r.body = some id) (low : 1 ≤ id) (high : id ≤ 65535) (entry : courierOf s id = some e) :
    ∃ own, exec (.removeCourier r) s = request 15 r s own
      ∧ own { s with receive := s.receive.tail } =
        { state := endSessionsOf id { s with
            receive := s.receive.tail, ret := { s.ret with couriers := s.ret.couriers.filter (·.id ≠ id) } }
          status := .accepted, body := [] } := by
  have inRange : ¬ (id = 0 ∨ 65535 < id) := by omega
  have present : (courierOf { s with receive := s.receive.tail } id).isNone = false := by
    rw [show courierOf { s with receive := s.receive.tail } id = some e from entry]; rfl
  unfold exec execRemoveCourier
  refine ⟨_, rfl, ?_⟩
  rw [fromBackend_body source body, if_neg inRange]
  exact if_neg (Bool.eq_false_iff.mp present)

/-- Settles O26: the table changes, and the courier's sessions end. -/
theorem courierTableLoads : Obligations.CourierTableLoads := by
  refine ⟨fun r s e ready source body settled low high quota room => ?_,
    fun r s id e ready source body settled low high entry => ?_⟩
  · obtain ⟨own, run, answer⟩ := execLoadCourier_own source body low high quota room
    rw [run]
    exact backend_changes_kiosks (kind := 14) ready source settled answer rfl rfl
  · obtain ⟨own, run, answer⟩ := execRemoveCourier_own source body low high entry
    rw [run]
    exact backend_changes_kiosks (kind := 15) ready source settled answer rfl rfl

end Sys2Proof.Machine

/-! Declare (R101 to R104): its ten checks in their order, and the deposit that it declares. -/

namespace Sys2Proof.Machine

/-! ### Checks 1 to 7 -/

/-- The checks of a Declare that follow the source and the body (R102). -/
def ownDeclare (k : KioskNo) (f : DeclareFields) (s : State) : Answer :=
  withSession k s fun x =>
    match courierOf s x.courier with
    | some e => if e.deposit then courierConcourse s (rangeDeclare k x e f s) else refuse s .notPermitted
    | none => refuse s .notPermitted

/-- A well-formed Declare comes to those checks once the session's activity has been noted (R99, R102). -/
theorem execDeclare_own {r : Request} {k : KioskNo} {f : DeclareFields} (source : r.source = .kiosk k)
    (body : bodyDeclare r.body = some f) (s : State) :
    ∃ own, exec (.declare r) s = request 7 r s own ∧ own (taken r s) = ownDeclare k f (noted k r s) := by
  unfold exec execDeclare
  refine ⟨_, rfl, ?_⟩
  rw [courierRequest_noted source body]
  rfl

section signedOn

variable {k : KioskNo} {f : DeclareFields} {s : State} {x : Session} {e : Courier} (session : sessionOf s k = some x)
  (entry : courierOf s x.courier = some e)
include session entry

theorem ownDeclare_forbidden (forbidden : e.deposit = false) : ownDeclare k f s = refuse s .notPermitted := by
  simp [ownDeclare, withSession_some session, entry, forbidden]

theorem ownDeclare_permitted (permitted : e.deposit = true) :
    ownDeclare k f s = courierConcourse s (rangeDeclare k x e f s) := by
  simp [ownDeclare, withSession_some session, entry, permitted]

end signedOn

section checks

variable {k : KioskNo} {x : Session} {e : Courier} {f : DeclareFields} {s : State}

theorem rangeDeclare_unset (unset : s.clock = none) : rangeDeclare k x e f s = refuse s .noTime := by
  simp [rangeDeclare, withClock, unset]

variable (clock : s.clock ≠ none)
include clock

theorem withClock_set (own : Answer) : withClock s (fun _ => own) = own := by
  obtain ⟨now, set⟩ := Option.ne_none_iff_exists'.mp clock
  simp [withClock, set]

theorem rangeDeclare_outOfRange
    (outside : classOf? f.cls = none ∨ 999999999999 < f.reference ∨ 999999 < f.prepaid) :
    rangeDeclare k x e f s = refuse s .outOfRange := by
  rw [rangeDeclare, withClock_set clock]
  cases cls : classOf? f.cls with
  | none => rfl
  | some c => exact if_pos (outside.resolve_left (by simp [cls]))

variable {cls : SizeClass} (named : classOf? f.cls = some cls) (reference : f.reference ≤ 999999999999)
  (prepaid : f.prepaid ≤ 999999)
include named reference prepaid

/-- With the clock set and the fields in range the tariff, the session and the quota are asked (R103). -/
theorem rangeDeclare_inRange :
    rangeDeclare k x e f s =
      if (look s.ret.tariff cls.index).isNone then refuse s .unconfigured
      else if 2 ≤ x.pipeline.length ∨ x.sweep.isSome then refuse s .busy
      else if e.quota ≤ heldCount s x.courier then refuse s .quota
      else placeDeclare k x f cls s := by
  have inside : ¬ (maxConsignment < f.reference ∨ 999999 < f.prepaid) := by unfold maxConsignment; omega
  rw [rangeDeclare, withClock_set clock, named]
  exact if_neg inside

theorem rangeDeclare_unconfigured (absent : look s.ret.tariff cls.index = none) :
    rangeDeclare k x e f s = refuse s .unconfigured := by
  rw [rangeDeclare_inRange clock named reference prepaid, absent]; rfl

variable (row : look s.ret.tariff cls.index ≠ none)
include row

theorem rangeDeclare_busy (busy : 2 ≤ x.pipeline.length ∨ x.sweep ≠ none) :
    rangeDeclare k x e f s = refuse s .busy := by
  rw [rangeDeclare_inRange clock named reference prepaid, if_neg (by simpa using row),
    if_pos (by simpa [Option.isSome_iff_ne_none] using busy)]

variable (pipeline : x.pipeline.length < 2) (idle : x.sweep = none)
include pipeline idle

theorem rangeDeclare_quota (quota : e.quota ≤ heldCount s x.courier) : rangeDeclare k x e f s = refuse s .quota := by
  rw [rangeDeclare_inRange clock named reference prepaid, if_neg (by simpa using row),
    if_neg (by simpa [idle] using pipeline), if_pos quota]

theorem rangeDeclare_places (quota : heldCount s x.courier < e.quota) :
    rangeDeclare k x e f s = placeDeclare k x f cls s := by
  rw [rangeDeclare_inRange clock named reference prepaid, if_neg (by simpa using row),
    if_neg (by simpa [idle] using pipeline), if_neg (by omega)]

end checks

/-! ### Checks 8 to 10 -/

/-- What the allocation finds is the same in every state with the same compartments, cursors, tariff, boards and strikes,
and of that state too it moves the cursors alone (R9). -/
theorem allocate_transfer {s t u : State} {cls : SizeClass} {upsize deposit : Bool} {c : CompNo}
    (compartments : t.ret.compartments = s.ret.compartments) (cursors : t.ret.cursors = s.ret.cursors)
    (tariff : t.ret.tariff = s.ret.tariff) (boards : t.boards = s.boards) (segments : t.segments = s.segments)
    (found : allocate s cls upsize deposit = some (u, c)) :
    allocate t cls upsize deposit = some ({ t with ret := { t.ret with cursors := u.ret.cursors } }, c) := by
  have same := allocate_congr compartments cursors tariff boards segments cls upsize deposit
  rw [found, Option.map_some] at same
  obtain ⟨⟨v, d⟩, here, eq⟩ := Option.map_eq_some_iff.mp same
  obtain ⟨cursors, rfl⟩ := Prod.mk.inj eq
  rw [here, allocate_frame here, cursors]

theorem allocate_fails {s t : State} {cls : SizeClass} {upsize deposit : Bool}
    (compartments : t.ret.compartments = s.ret.compartments) (cursors : t.ret.cursors = s.ret.cursors)
    (tariff : t.ret.tariff = s.ret.tariff) (boards : t.boards = s.boards) (segments : t.segments = s.segments)
    (failed : allocate s cls upsize deposit = none) : allocate t cls upsize deposit = none := by
  have same := allocate_congr compartments cursors tariff boards segments cls upsize deposit
  rwa [failed, Option.map_none, Option.map_eq_none_iff] at same

/-- The state of a Declare behind its allocation: a slot is taken and the cursor moved (R9, R212). -/
def allotted (cursors : Vector CompNo 4) (s : State) : State :=
  { s with
    ret := { s.ret with cursors, reservations := s.ret.reservations + 1 }
    alarms := (takeSlot s).alarms }

/-- Check 10 of a Declare, whose compartment is reserved, and its acceptance (R103, R104). -/
def codeDeclare (k : KioskNo) (x : Session) (f : DeclareFields) (c : CompNo) (s : State) : Answer :=
  match generation s with
  | (s, some code) => acceptDeclare k x f c code s
  | (s, none) => refuse (releaseSlot (undoReservation c s)) .noCode

theorem codeDeclare_some {k : KioskNo} {x : Session} {f : DeclareFields} {c : CompNo} {s v : State} {code : Nat}
    (generated : generation s = (v, some code)) : codeDeclare k x f c s = acceptDeclare k x f c code v := by
  unfold codeDeclare
  rw [generated]

theorem codeDeclare_none {k : KioskNo} {x : Session} {f : DeclareFields} {c : CompNo} {s v : State}
    (failed : generation s = (v, none)) :
    codeDeclare k x f c s = refuse (releaseSlot (undoReservation c v)) .noCode := by
  unfold codeDeclare
  rw [failed]

/-- The session once a deposit in a compartment of a class has been declared (R104). -/
def Session.declared (x : Session) (c : CompNo) (cls : SizeClass) (reference deadline : Nat) : Session :=
  { x with
    pipeline := x.pipeline ++ [{ number := x.nextDeclaration, compartment := c, cls, reference, state := .waitingDoor }]
    outcomes := put x.outcomes (Fin.ofNat 256 x.nextDeclaration) none
    nextDeclaration := (x.nextDeclaration + 1) % 256
    deadline }

/-- The transient part of a declared deposit (R5, R10). -/
def depositTransient (k : KioskNo) (x : Session) (f : DeclareFields) : Transient :=
  { particulars := .deposit x.serial x.nextDeclaration x.courier f.reference f.prepaid, kiosk := k, strikeIssued := false,
    prior := none }

/-- The retained state once a deposit has been declared in a compartment, with its PENDING code (R10, R39, R104). -/
def declaredRetained (k : KioskNo) (x : Session) (f : DeclareFields) (c : CompNo) (cursors : Vector CompNo 4)
    (g : BitVec 32) (code : Nat) (s : State) : Retained :=
  { s.ret with
    compartments := put s.ret.compartments c
      { s.comp c with state := .reserved, transient := some (depositTransient k x f) }
    cursors
    generator := g
    directory := put s.ret.directory (codeSet code)
      (look s.ret.directory (codeSet code) ++ [{ tag := codeTag code, compartment := c, status := .pending }])
    reservations := s.ret.reservations + 1 }

/-- The reservation leaves the compartment's class alone (R3, R10). -/
theorem classAt_reserveDeposit (k : KioskNo) (x : Session) (f : DeclareFields) (c : CompNo) (s : State) :
    classAt (reserveDeposit k x f c s) c = classAt s c := by
  simp [classAt, reserveDeposit]

/-- The state before a declared deposit's strike is queued, once its compartment is reserved and its code found (R104). -/
theorem acceptDeclare_eq (k : KioskNo) (x : Session) (f : DeclareFields) (c : CompNo) (cursors : Vector CompNo 4)
    (g : BitVec 32) (code : Nat) (s : State) :
    let v := reserveDeposit k x f c (allotted cursors s)
    acceptDeclare k x f c code { v with ret := { v.ret with generator := g } } =
      { state := queueStrike c .deposit { s with
          ret := declaredRetained k x f c cursors g code s
          kiosks := put s.kiosks k { s.kiosk k with
            session := some (x.declared c (classAt s c) f.reference (s.elapsed + 120)) }
          alarms := (takeSlot s).alarms }
        status := .accepted
        body := compField c ++ be 1 x.nextDeclaration ++ classField (classAt s c) } := by
  have cls : classAt s c = classAt (reserveDeposit k x f c (allotted cursors s)) c :=
    (classAt_reserveDeposit k x f c (allotted cursors s)).symm
  rw [cls]; rfl

section place

variable {k : KioskNo} {x : Session} {f : DeclareFields} {cls : SizeClass} {s u : State} {c : CompNo} {g : BitVec 32}

theorem placeDeclare_backlog (full : outboxHasRoom s = false) : placeDeclare k x f cls s = refuse s .backlog := by
  simp [placeDeclare, reserveSlot, full]

/-- The slot taken for a Declare that finds no compartment is released again; BACKLOG stays posted (R212; log 13). -/
theorem placeDeclare_noRoom (slot : outboxHasRoom s = true) (failed : allocate s cls f.upsize true = none) :
    placeDeclare k x f cls s = refuse { s with alarms := (takeSlot s).alarms } .noRoom := by
  have failed' : allocate (takeSlot s) cls f.upsize true = none := by
    refine allocate_fails ?_ ?_ ?_ ?_ ?_ failed <;> rw [takeSlot_eq]
  simp only [placeDeclare, reserveSlot, slot, if_true, failed']
  rw [takeSlot_eq]; rfl

theorem allocate_allotted (found : allocate s cls f.upsize true = some (u, c)) :
    allocate (takeSlot s) cls f.upsize true = some (allotted u.ret.cursors s, c) := by
  have here := allocate_transfer (t := takeSlot s) (by rw [takeSlot_eq]) (by rw [takeSlot_eq]) (by rw [takeSlot_eq])
    (by rw [takeSlot_eq]) (by rw [takeSlot_eq]) found
  rw [here, takeSlot_eq]; rfl

variable (slot : outboxHasRoom s = true) (found : allocate s cls f.upsize true = some (u, c))
include slot found

/-- Once a compartment is found, the strike queue is asked for room and then the generator for a code (R103). -/
theorem placeDeclare_found :
    placeDeclare k x f cls s =
      if !compHasRoom s c then refuse (releaseSlot (allotted u.ret.cursors s)) .retryLater
      else codeDeclare k x f c (reserveDeposit k x f c (allotted u.ret.cursors s)) := by
  simp only [placeDeclare, reserveSlot, slot, if_true, allocate_allotted found]
  rfl

theorem placeDeclare_retryLater (full : compHasRoom s c = false) :
    placeDeclare k x f cls s =
      refuse { s with ret := { s.ret with cursors := u.ret.cursors }, alarms := (takeSlot s).alarms } .retryLater := by
  rw [placeDeclare_found slot found, full]; rfl

variable (room : compHasRoom s c = true)
include room

/-- The reservation is undone with the slot, and the generator stays where the failed generation left it (R10, R37). -/
theorem placeDeclare_noCode (failed : generateCode s.ret.directory 8 s.ret.generator = (g, none)) :
    placeDeclare k x f cls s =
      refuse { s with
        ret := { s.ret with
          compartments := put s.ret.compartments c { s.comp c with state := .vacant, transient := none }
          cursors := u.ret.cursors, generator := g }
        alarms := (takeSlot s).alarms } .noCode := by
  have generated := generation_eq (s := reserveDeposit k x f c (allotted u.ret.cursors s)) failed
  rw [placeDeclare_found slot found, room, codeDeclare_none generated]
  simp [undoReservation, reserveDeposit, allotted, releaseSlot, State.setComp, State.comp]

theorem placeDeclare_accepts {code : Nat}
    (generated : generateCode s.ret.directory 8 s.ret.generator = (g, some code)) :
    placeDeclare k x f cls s =
      { state := queueStrike c .deposit { s with
          ret := declaredRetained k x f c u.ret.cursors g code s
          kiosks := put s.kiosks k { s.kiosk k with
            session := some (x.declared c (classAt s c) f.reference (s.elapsed + 120)) }
          alarms := (takeSlot s).alarms }
        status := .accepted
        body := compField c ++ be 1 x.nextDeclaration ++ classField (classAt s c) } := by
  have generated' := generation_eq (s := reserveDeposit k x f c (allotted u.ret.cursors s)) generated
  rw [placeDeclare_found slot found, room, codeDeclare_some generated']
  exact acceptDeclare_eq ..

end place

/-! ### How a Declare ends -/

section ends

variable {r : Request} {s : State} {k : KioskNo} {f : DeclareFields} {status : Status} (ready : Ready 7 r s)
  (source : r.source = .kiosk k) (body : bodyDeclare r.body = some f)
include ready source body

/-- A Declare whose own checks change nothing: only the session's deadline has moved (R99). -/
theorem declare_refused (settled : Settled s) (answer : ownDeclare k f (noted k r s) = refuse (noted k r s) status) :
    Completes (exec (.declare r) s) (Replied 7 r status [] (touchedKiosks k s) s) := by
  obtain ⟨own, run, checks⟩ := execDeclare_own source body s
  rw [run]
  exact courier_refused (kind := 7) ready settled (checks.trans answer)

/-- One refused after it has taken a slot and released it again, with what the allocation and the generation have moved of
the retained state (R9, R37, R212). -/
theorem declare_refused_late {ret : Retained}
    (answer : ownDeclare k f (noted k r s) =
      refuse { noted k r s with ret, alarms := (takeSlot (noted k r s)).alarms } status) :
    Completes (exec (.declare r) s) fun t =>
      KeepsStrikes s t ∧ t.checkWord = Config.retentionCheck ret
        ∧ t = { answered 7 r status [] s with
            ret, checkWord := t.checkWord, kiosks := touchedKiosks k s, segments := t.segments
            alarms := (takeSlot s).alarms, attention := t.attention } := by
  obtain ⟨own, run, checks⟩ := execDeclare_own source body s
  rw [takeSlot_alarms_congr (s := s) (t := noted k r s) rfl rfl rfl] at answer
  obtain ⟨t, done, strikes, same⟩ := request_refused (kind := 7) ready own (checks.trans answer) rfl
  have word : t.checkWord = Config.retentionCheck ret := by rw [same]
  refine ⟨t, run.trans done, strikes, word, ?_⟩
  rw [word]
  exact same

end ends

section signedOn

variable {r : Request} {s : State} {k : KioskNo} {f : DeclareFields} {x : Session} {e : Courier}
  (session : (s.kiosk k).session = some x) (entry : courierOf s x.courier = some e) (permitted : e.deposit = true)
include session entry permitted

/-- The checks read the session and the courier as they stood before the request, but for the deadline (R99, R102). -/
theorem ownDeclare_noted :
    ownDeclare k f (noted k r s) =
      courierConcourse (noted k r s) (rangeDeclare k { x with deadline := s.elapsed + 120 } e f (noted k r s)) :=
  ownDeclare_permitted (sessionOf_noted_some session) entry permitted

variable (serves : ConcourseServesCouriers s)
include serves

theorem ownDeclare_served :
    ownDeclare k f (noted k r s) = rangeDeclare k { x with deadline := s.elapsed + 120 } e f (noted k r s) :=
  (ownDeclare_noted session entry permitted).trans (courierConcourse_serves (s := noted k r s) _ serves)

variable (clock : s.clock ≠ none) {cls : SizeClass} (named : classOf? f.cls = some cls)
  (reference : f.reference ≤ 999999999999) (prepaid : f.prepaid ≤ 999999) (row : look s.ret.tariff cls.index ≠ none)
  (pipeline : x.pipeline.length < 2) (idle : x.sweep = none) (quota : heldCount s x.courier < e.quota)
include clock named reference prepaid row pipeline idle quota

theorem ownDeclare_places :
    ownDeclare k f (noted k r s) = placeDeclare k { x with deadline := s.elapsed + 120 } f cls (noted k r s) :=
  (ownDeclare_served session entry permitted serves).trans
    (rangeDeclare_places (s := noted k r s) clock named reference prepaid row pipeline idle quota)

end signedOn

theorem allocate_noted {k : KioskNo} {r : Request} {s u : State} {cls : SizeClass} {upsize deposit : Bool} {c : CompNo}
    (found : allocate s cls upsize deposit = some (u, c)) :
    allocate (noted k r s) cls upsize deposit =
      some ({ noted k r s with ret := { (noted k r s).ret with cursors := u.ret.cursors } }, c) :=
  allocate_transfer (s := s) rfl rfl rfl rfl rfl found

/-- The state of an accepted Declare before its strike is queued (R104). -/
def declaredState (k : KioskNo) (r : Request) (x : Session) (f : DeclareFields) (c : CompNo) (cursors : Vector CompNo 4)
    (g : BitVec 32) (code : Nat) (s : State) : State :=
  { taken r s with
    ret := declaredRetained k x f c cursors g code s
    kiosks := put s.kiosks k { s.kiosk k with
      session := some (x.declared c (classAt s c) f.reference (s.elapsed + 120)) }
    alarms := (takeSlot s).alarms }

/-- A Declare that passes every check before the allocation is accepted where a compartment, room for its strike and a code
are found (R103, R104). -/
theorem placeDeclare_noted {r : Request} {s u : State} {k : KioskNo} {f : DeclareFields} {x : Session}
    {cls : SizeClass} {c : CompNo} {g : BitVec 32} {code : Nat} (slot : outboxHasRoom s = true)
    (found : allocate s cls f.upsize true = some (u, c)) (room : compHasRoom s c = true)
    (generated : generateCode s.ret.directory 8 s.ret.generator = (g, some code)) :
    placeDeclare k { x with deadline := s.elapsed + 120 } f cls (noted k r s) =
      { state := queueStrike c .deposit (declaredState k r x f c u.ret.cursors g code s), status := .accepted
        body := compField c ++ be 1 x.nextDeclaration ++ classField (classAt s c) } := by
  have accepted := placeDeclare_accepts (k := k) (x := { x with deadline := s.elapsed + 120 }) (s := noted k r s) slot
    (allocate_noted found) room generated
  have kiosks := put_touchedKiosks k s (some (x.declared c (classAt s c) f.reference (s.elapsed + 120)))
  rw [declaredState, ← kiosks, ← takeSlot_alarms_congr (s := s) (t := noted k r s) rfl rfl rfl]
  exact accepted

section placed

variable {r : Request} {s : State} {k : KioskNo} {f : DeclareFields} {x : Session} {cls : SizeClass}
  (ready : Ready 7 r s) (source : r.source = .kiosk k) (body : bodyDeclare r.body = some f)
  (slot : outboxHasRoom s = true)
  (places : ownDeclare k f (noted k r s) = placeDeclare k x f cls (noted k r s))
include ready source body slot places

/-- Without a compartment the retained state ends as it was (R9, R103). -/
theorem declare_noRoom (settled : Settled s) (failed : allocate s cls f.upsize true = none) :
    Completes (exec (.declare r) s) fun t =>
      KeepsStrikes s t
        ∧ t = { answered 7 r .noRoom [] s with
            kiosks := touchedKiosks k s, segments := t.segments
            alarms := (takeSlot s).alarms, attention := t.attention } := by
  have failed' := allocate_fails (s := s) (t := noted k r s) rfl rfl rfl rfl rfl failed
  obtain ⟨t, done, strikes, word, same⟩ := declare_refused_late ready source body
    (places.trans (placeDeclare_noRoom (s := noted k r s) slot failed'))
  obtain ⟨check, -, -⟩ := settled.running ready.1
  have kept : t.checkWord = s.checkWord := word.trans check.symm
  rw [kept] at same
  exact ⟨t, done, strikes, same⟩

variable {u : State} {c : CompNo} (found : allocate s cls f.upsize true = some (u, c))
include found

/-- Without room for its strike the cursor stays where the allocation moved it (R9, R103). -/
theorem declare_retryLater (full : compHasRoom s c = false) :
    Completes (exec (.declare r) s) fun t =>
      KeepsStrikes s t
        ∧ t = { answered 7 r .retryLater [] s with
            ret := { s.ret with cursors := u.ret.cursors }, checkWord := t.checkWord
            kiosks := touchedKiosks k s, segments := t.segments
            alarms := (takeSlot s).alarms, attention := t.attention } := by
  obtain ⟨t, done, strikes, -, same⟩ := declare_refused_late ready source body
    (places.trans (placeDeclare_retryLater (s := noted k r s) slot (allocate_noted found) full))
  exact ⟨t, done, strikes, same⟩

/-- Without a code the generator stays advanced too, and the compartment is VACANT (R9, R10, R37). -/
theorem declare_noCode {g : BitVec 32} (room : compHasRoom s c = true)
    (failed : generateCode s.ret.directory 8 s.ret.generator = (g, none)) :
    Completes (exec (.declare r) s) fun t =>
      KeepsStrikes s t ∧ (∀ d, d ≠ c → t.comp d = s.comp d)
        ∧ t.comp c = { s.comp c with state := .vacant, transient := none }
        ∧ t = { answered 7 r .noCode [] s with
            ret := { s.ret with compartments := t.ret.compartments, cursors := u.ret.cursors, generator := g }
            checkWord := t.checkWord, kiosks := touchedKiosks k s, segments := t.segments
            alarms := (takeSlot s).alarms, attention := t.attention } := by
  obtain ⟨t, done, strikes, -, same⟩ := declare_refused_late ready source body
    (places.trans (placeDeclare_noCode (s := noted k r s) slot (allocate_noted found) room failed))
  have comps : t.ret.compartments = put s.ret.compartments c { s.comp c with state := .vacant, transient := none } := by
    rw [same]; rfl
  refine ⟨t, done, strikes, fun d other => ?_, ?_, ?_⟩
  · rw [State.comp, comps, look_put_other _ _ other]; rfl
  · rw [State.comp, comps, look_put_same]
  · rw [comps]; exact same

end placed

/-- Settles O19: a Declare that passes its ten checks reserves its compartment and queues its strike; the others end at the
first check of R102 and R103 that they fail. -/
theorem declareReservesCompartment : Obligations.DeclareReservesCompartment := by
  refine ⟨fun r s u k f x e now cls row c g code ready source body session entry permitted serves clock named reference
      prepaid tariff pipeline idle quota slot found room generated => ?_,
    fun r s k f ready source body settled => ?_⟩
  · obtain ⟨own, run, checks⟩ := execDeclare_own source body s
    have places := ownDeclare_places (r := r) session entry permitted serves (Option.ne_none_iff_exists'.mpr ⟨now, clock⟩)
      named reference prepaid (Option.ne_none_iff_exists'.mpr ⟨row, tariff⟩) pipeline idle quota
    have accepted := (checks.trans places).trans (placeDeclare_noted slot found room generated)
    rw [run]
    exact request_grants_strike (kind := 7) (q := s.quoteOf c) ready accepted room rfl (put_look ..).symm rfl rfl rfl
  have refused {status} := @declare_refused r s k f status ready source body settled
  refine ⟨fun session => refused (withSession_none (sessionOf_noted_none session) _), fun x e session entry =>
    ⟨fun forbidden => refused (ownDeclare_forbidden (sessionOf_noted_some session) entry forbidden),
      fun permitted evacuate =>
        refused ((ownDeclare_noted session entry permitted).trans (courierConcourse_evacuate _ evacuate)),
      fun permitted lockdown =>
        refused ((ownDeclare_noted session entry permitted).trans (courierConcourse_lockdown _ lockdown)),
      fun permitted serves => ?_⟩⟩
  have served := ownDeclare_served (r := r) (f := f) session entry permitted serves
  refine ⟨fun unset => refused (served.trans (rangeDeclare_unset (s := noted k r s) unset)), fun clock =>
    ⟨fun outside => refused (served.trans (rangeDeclare_outOfRange (s := noted k r s) clock outside)),
      fun cls named reference prepaid => ?_⟩⟩
  refine ⟨fun absent => refused (served.trans
      (rangeDeclare_unconfigured (s := noted k r s) clock named reference prepaid absent)), fun row =>
    ⟨fun busy => refused (served.trans (rangeDeclare_busy (s := noted k r s) clock named reference prepaid row busy)),
      fun pipeline idle => ?_⟩⟩
  have places := ownDeclare_places (r := r) session entry permitted serves clock named reference prepaid row pipeline idle
  exact ⟨fun spent => refused (served.trans
      (rangeDeclare_quota (s := noted k r s) clock named reference prepaid row pipeline idle spent)),
    fun quota full => refused ((places quota).trans (placeDeclare_backlog (s := noted k r s) full)),
    fun quota slot => ⟨declare_noRoom ready source body slot (places quota) settled, fun u c found =>
      ⟨declare_retryLater ready source body slot (places quota) found,
        fun g => declare_noCode ready source body slot (places quota) found⟩⟩⟩

end Sys2Proof.Machine

/-! A collection granted with nothing to pay (R117, R118), and Door Status (R130). -/

namespace Sys2Proof.Machine

/-! ### A collection granted with nothing to pay -/

/-- With nothing to pay, room for the strike and a slot to reserve, the collection is granted (R118). -/
theorem chargeCollect_grants {k : KioskNo} {now deposited : Nat} {c : CompNo} {d : Delivery} {s : State}
    (state : (s.comp c).state = .held) (parcel : (s.comp c).parcel = some (.delivery d))
    (time : d.depositTime = some deposited) (nothing : netCharge d deposited now = 0)
    (room : compHasRoom s c = true) (slot : outboxHasRoom s = true) :
    chargeCollect k now c s =
      { state := grantCollection c k (takeSlot s), status := .accepted
        body := compField c ++ classField (classAt s c) ++ be 3 d.paid ++ be 3 d.prepaid
          ++ be 3 (cappedAt d deposited now) ++ be 1 (if onlineComp s c then 0 else 1) } := by
  simp [chargeCollect, state, parcel, time, nothing, room, reserveSlot, slot]

/-- The state in which a collection without charge queues its strike (R11, R41, R118). -/
def grantedCollection (k : KioskNo) (c : CompNo) (s : State) : State :=
  { s with
    ret := { s.ret with
      compartments := put s.ret.compartments c { s.comp c with
        state := .releasing
        transient := some { particulars := .collect, kiosk := k, strikeIssued := false, prior := none } }
      directory := (setEntryStatus c .suspended s).ret.directory
      reservations := s.ret.reservations + 1 }
    quotes := put s.quotes c none
    kiosks := put s.kiosks k { s.kiosk k with failures := 0, doorResult := none }
    alarms := (takeSlot s).alarms }

/-- The grant removes the quote that has let the Collect through, and zeroes the failure count (R41, R71, R72). -/
theorem grantCollection_charging (k : KioskNo) (c : CompNo) (s : State) :
    grantCollection c k (takeSlot (chargingState k c s)) = queueStrike c .collect (grantedCollection k c s) := by
  have alarms : (takeSlot (chargingState k c s)).alarms = (takeSlot s).alarms := takeSlot_alarms_congr rfl rfl rfl
  rw [takeSlot_eq, alarms]
  simp [grantCollection, grantedCollection, chargingState, countSuccess, put_quotesInTime, setDoorResult, State.setKiosk,
    State.setQuote, State.setComp, State.comp, State.kiosk, setEntryStatus, changeEntry]

/-- Settles O9: a Collect of a LIVE code with nothing to pay comes to the charge, is granted there, and queues its strike. -/
theorem collectGrantsFreeCollection : Obligations.CollectGrantsFreeCollection := by
  intro r s k code now deposited e d ready source body serves free clock lookup live state parcel time nothing idle
    standing room slot
  obtain ⟨own, run, answer⟩ := execCollect_own source body serves free clock
  have charged := ownCollect_charges (k := k) (now := now) (s := taken r s) lookup live idle standing
  have granted := chargeCollect_grants (k := k) (s := chargingState k e.compartment (taken r s)) state parcel time nothing
    room slot
  rw [grantCollection_charging] at granted
  rw [run, ← takeSlot_alarms_congr (s := s) (t := taken r s) rfl rfl rfl]
  exact request_grants_strike (kind := 1) ready (answer.trans (charged.trans granted)) room rfl rfl rfl rfl rfl

/-! ### Door Status -/

/-- A Door Status that passes the class checks is answered with the phase of the compartment it names (R130). -/
theorem execDoorStatus_own {r : Request} {s : State} {k : KioskNo} {c : CompNo} (source : r.source = .kiosk k)
    (body : bodyNat 2 r.body = some c.val) (serves : ConcourseServes s) (free : (s.kiosk k).lockout = none) :
    ∃ own, exec (.doorStatus r) s = request 4 r s own
      ∧ own (taken r s) = { state := taken r s, status := .accepted, body := phaseBody (doorPhase s k c) } := by
  unfold exec execDoorStatus
  refine ⟨_, rfl, ?_⟩
  rw [customer_taken source body serves free, compNo?_val]
  rfl

/-- While the kiosk idle deadline runs, every segment is in FULL mode (R178). -/
theorem rate_full_of_active {s : State} (rates : RatesFollow s) (active : s.kioskIdle ≠ none) (g : SegNo) :
    (s.seg g).rate = .full := by
  have loud : quietHolds s g = false := by simp [quietHolds, active]
  rw [rates g, loud]; rfl

/-- Settles O16: the request is answered with the phase; its end sets the rate modes, and the kiosk idle deadline that it
has moved keeps them FULL. -/
theorem doorStatusReports : Obligations.DoorStatusReports := by
  intro r s k c ready source body serves settled free
  obtain ⟨own, run, answer⟩ := execDoorStatus_own source body serves free
  obtain ⟨t, done, strikes, same⟩ := request_replied (kind := 4) (kiosks := s.kiosks) ready settled own answer
  have completes : exec (.doorStatus r) s = .next t := run.trans done
  have running : t.run = .running := by rw [same]; exact ready.1
  have active : t.kioskIdle = some (s.elapsed + 120) := by rw [same]; exact idleAfter_kiosk source s
  obtain ⟨-, -, rates⟩ := (exec_keepsSettled (.doorStatus r) s t settled completes).running running
  exact ⟨t, completes, same, strikes, rate_full_of_active rates (by simp [active])⟩

end Sys2Proof.Machine

/-! What the capacities of the part read, and how little of it an operation can write: the queues of the trunk, the
broadcast history, the generator, the loaded lists, the directory, the strike queues, the pending alarms and the pickup
lists. The rules are for an operation that follows others, so a meaning made of several is taken in the order in which
they run. -/

namespace Sys2Proof.Machine

/-! ### Pickup lists -/

/-- A pickup list in its order: each compartment once, and the IN_FLIGHT entries before the UNISSUED ones (R144, R146). -/
def InOrder (l : List PickupEntry) : Prop :=
  (l.map (·.compartment)).Nodup ∧ ∃ A B, l = A ++ B ∧ (∀ e ∈ A, e.inFlight = true) ∧ ∀ e ∈ B, e.inFlight = false

theorem InOrder.filter {l : List PickupEntry} (h : InOrder l) (p : PickupEntry → Bool) : InOrder (l.filter p) := by
  obtain ⟨distinct, A, B, rfl, flying, resting⟩ := h
  exact ⟨distinct.sublist (List.filter_sublist.map _), A.filter p, B.filter p, List.filter_append ..,
    fun e mem => flying e (List.mem_filter.mp mem).1, fun e mem => resting e (List.mem_filter.mp mem).1⟩

/-- The first UNISSUED entry stands right after the IN_FLIGHT ones. -/
theorem firstUnissued_split {w : CourierSweep} {e : PickupEntry} (ordered : InOrder w.entries)
    (first : w.firstUnissued = some e) :
    ∃ A B, w.entries = A ++ e :: B ∧ (∀ f ∈ A, f.inFlight = true) ∧ ∀ f ∈ B, f.inFlight = false := by
  obtain ⟨-, A, B, split, flying, resting⟩ := ordered
  have whole : w = { w with entries := A ++ B } := by rw [← split]
  cases B with
  | nil =>
    rw [whole, List.append_nil, firstUnissued_none flying] at first
    cases first
  | cons b B =>
    rw [whole, firstUnissued_some flying (resting b List.mem_cons_self)] at first
    cases first
    exact ⟨A, B, split, flying, fun f mem => resting f (List.mem_cons_of_mem _ mem)⟩

/-- The issue of the first UNISSUED entry keeps a list in order (R146). -/
theorem InOrder.issue {w : CourierSweep} {e : PickupEntry} (h : InOrder w.entries) (first : w.firstUnissued = some e) :
    InOrder (w.entries.map fun f => if f.compartment = e.compartment then { f with inFlight := true } else f) := by
  obtain ⟨A, B, split, flying, resting⟩ := firstUnissued_split h first
  have distinct := h.1
  rw [split] at distinct ⊢
  rw [map_issue distinct]
  refine ⟨?_, A ++ [e.issued], B, by rw [List.append_assoc, List.singleton_append], fun f mem => ?_, resting⟩
  · rwa [List.map_append, List.map_cons] at distinct ⊢
  · obtain here | here := List.mem_append.mp mem
    · exact flying f here
    · rw [List.mem_singleton.mp here]; rfl

/-- A list whose entries all wait is in order where each compartment stands on it once. -/
theorem InOrder.of_resting {l : List PickupEntry} (distinct : (l.map (·.compartment)).Nodup)
    (resting : ∀ e ∈ l, e.inFlight = false) : InOrder l :=
  ⟨distinct, [], l, rfl, fun _ mem => absurd mem List.not_mem_nil, resting⟩

/-- The pickup list of a Sweep names each compartment once (R144). -/
theorem pickupList_distinct (s : State) (k : KioskNo) (courier : Nat) (returns recover : Bool) :
    ((pickupList s k courier returns recover).map (·.compartment)).Nodup := by
  unfold pickupList
  refine List.Nodup.sublist ((List.take_sublist _ _).map _) ?_
  rw [List.map_filterMap]
  refine List.Nodup.filterMap (fun c d e hc hd => ?_) (List.nodup_finRange 768)
  simp only [Option.map_map, Option.mem_def, Option.map_eq_some_iff, Function.comp_apply] at hc hd
  obtain ⟨-, -, rfl⟩ := hc
  obtain ⟨-, -, same⟩ := hd
  exact same.symm

/-- It is built with every entry UNISSUED (R145). -/
theorem pickupList_resting {s : State} {k : KioskNo} {courier : Nat} {returns recover : Bool} {e : PickupEntry}
    (mem : e ∈ pickupList s k courier returns recover) : e.inFlight = false := by
  obtain ⟨c, -, made⟩ := List.mem_filterMap.mp (List.mem_of_mem_take mem)
  obtain ⟨kind, -, rfl⟩ := Option.map_eq_some_iff.mp made
  rfl

/-! ### What the capacities read -/

/-- The part of the state that the capacities read. -/
structure Capacities where
  receive   : List Frame
  transmit  : List Reply
  history   : List Nat
  generator : BitVec 32
  couriers  : List Courier
  directory : Vector (List DirEntry) 256
  returns   : List ReturnEntry
  queues    : SegNo → List StrikeEntry
  alarms    : List Alarm
  sessions  : KioskNo → Option Session

/-- The part of a state that the capacities read. -/
def State.capacities (s : State) : Capacities where
  receive := s.receive
  transmit := s.transmit
  history := s.history
  generator := s.ret.generator
  couriers := s.ret.couriers
  directory := s.ret.directory
  returns := s.ret.returns
  queues g := (s.seg g).queue
  alarms := s.alarms
  sessions k := (s.kiosk k).session

/-- No set of the directory holds more than its ways (R34). -/
def SetsBounded (s : State) : Prop := ∀ i, (look s.ret.directory i).length ≤ 4

/-- Each capacity that is kept in one state is kept in another, and no reply has joined the transmit queue. -/
structure KeepsCapacities (s t : State) : Prop where
  receive   : s.receive.length ≤ 4 → t.receive.length ≤ 4
  transmit  : t.transmit.length ≤ s.transmit.length
  history   : s.history.length ≤ 5 → t.history.length ≤ 5
  generator : s.ret.generator ≠ 0 → t.ret.generator ≠ 0
  couriers  : s.ret.couriers.length ≤ 64 → t.ret.couriers.length ≤ 64
  sets      : SetsBounded s → SetsBounded t
  returns   : s.ret.returns.length ≤ 256 → t.ret.returns.length ≤ 256
  queues    : QueuesBounded s → QueuesBounded t
  alarms    : AlarmsDistinct s → AlarmsDistinct t
  pickups   : PickupsInOrder s → PickupsInOrder t

namespace KeepsCapacities

variable {s t u : State}

theorem refl (s : State) : KeepsCapacities s s := ⟨id, le_refl _, id, id, id, id, id, id, id, id⟩

theorem trans (h : KeepsCapacities s t) (k : KeepsCapacities t u) : KeepsCapacities s u where
  receive i := k.receive (h.receive i)
  transmit := k.transmit.trans h.transmit
  history i := k.history (h.history i)
  generator i := k.generator (h.generator i)
  couriers i := k.couriers (h.couriers i)
  sets i := k.sets (h.sets i)
  returns i := k.returns (h.returns i)
  queues i := k.queues (h.queues i)
  alarms i := k.alarms (h.alarms i)
  pickups i := k.pickups (h.pickups i)

/-- An operation that writes nothing of what the capacities read. -/
theorem same (h : KeepsCapacities s t) (eq : u.capacities = t.capacities) : KeepsCapacities s u := by
  have receive : u.receive = t.receive := congrArg Capacities.receive eq
  have transmit : u.transmit = t.transmit := congrArg Capacities.transmit eq
  have history : u.history = t.history := congrArg Capacities.history eq
  have generator : u.ret.generator = t.ret.generator := congrArg Capacities.generator eq
  have couriers : u.ret.couriers = t.ret.couriers := congrArg Capacities.couriers eq
  have directory : u.ret.directory = t.ret.directory := congrArg Capacities.directory eq
  have returns : u.ret.returns = t.ret.returns := congrArg Capacities.returns eq
  have queue (g : SegNo) : (u.seg g).queue = (t.seg g).queue := congrArg (Capacities.queues · g) eq
  have alarms : u.alarms = t.alarms := congrArg Capacities.alarms eq
  have session (k : KioskNo) : (u.kiosk k).session = (t.kiosk k).session := congrArg (Capacities.sessions · k) eq
  refine h.trans ⟨?_, by rw [transmit], ?_, ?_, ?_, fun i n => ?_, ?_, fun i g => ?_, fun i => ?_, fun i k x w => ?_⟩
  · rw [receive]; exact id
  · rw [history]; exact id
  · rw [generator]; exact id
  · rw [couriers]; exact id
  · rw [directory]; exact i n
  · rw [returns]; exact id
  · rw [queue]; exact i g
  · unfold AlarmsDistinct; rw [alarms]; exact i
  · rw [session]; exact i k x w

theorem foldl {α : Type} {f : State → α → State} (hf : ∀ s a, KeepsCapacities s (f s a)) (l : List α)
    (h : KeepsCapacities s t) : KeepsCapacities s (l.foldl f t) := by
  induction l generalizing t with
  | nil => exact h
  | cons a l ih => exact ih (h.trans (hf t a))

theorem forEach {n : Nat} {f : Fin n → State → State} (h : KeepsCapacities s t)
    (hf : ∀ i s, KeepsCapacities s (f i s)) : KeepsCapacities s (Machine.forEach f t) := foldl (fun s i => hf i s) _ h

variable (h : KeepsCapacities s t)
include h

/-! ### The tables -/

theorem setComp {c : CompNo} {x : Compartment} : KeepsCapacities s (t.setComp c x) := h.same rfl

theorem setQuote {c : CompNo} {q : Option Quote} : KeepsCapacities s (t.setQuote c q) := h.same rfl

theorem setBoard {b : BoardNo} {x : Board} : KeepsCapacities s (t.setBoard b x) := h.same rfl

theorem setAjar {c : CompNo} {w : Option AjarWatch} : KeepsCapacities s (t.setAjar c w) := h.same rfl

/-- Where no other queue is changed, and this one stays within its bound (R155). -/
theorem setSeg {g : SegNo} {x : Segment} (bounded : (t.seg g).queue.length ≤ 16 → x.queue.length ≤ 16 := by exact id) :
    KeepsCapacities s (t.setSeg g x) :=
  h.trans { refl t with
    queues := fun i f => by
      rw [State.seg_setSeg]
      split
      · exact bounded (i g)
      · exact i f }

/-- Where no other kiosk is changed, and the pickup list of this one stays in order. -/
theorem setKiosk {k : KioskNo} {x : Kiosk}
    (ordered : PickupsInOrder t → ∀ y w, x.session = some y → y.sweep = some w → InOrder w.entries) :
    KeepsCapacities s (t.setKiosk k x) :=
  h.trans { refl t with
    pickups := fun i j => by
      rw [State.kiosk_setKiosk]
      split
      · exact ordered i
      · exact i j }

/-- A kiosk's record beside its session. -/
theorem setKiosk_record {k : KioskNo} {x : Kiosk} (session : x.session = (t.kiosk k).session := by rfl) :
    KeepsCapacities s (t.setKiosk k x) :=
  h.setKiosk fun i y w hy => i k y w (session ▸ hy)

/-- Every kiosk's record may change, where its session at most ends. -/
theorem mapKiosks {f : Kiosk → Kiosk} (sessions : ∀ x, (f x).session = x.session ∨ (f x).session = none) :
    KeepsCapacities s { t with kiosks := t.kiosks.map f } :=
  h.trans { refl t with
    pickups := fun i k x w signedOn => by
      have mapped : (f (t.kiosk k)).session = some x := by
        rw [← signedOn]; exact congrArg Kiosk.session (look_map ..).symm
      obtain kept | ended := sessions (t.kiosk k)
      · exact i k x w (kept.symm.trans mapped)
      · rw [ended] at mapped; cases mapped }

theorem setSession {k : KioskNo} {x : Option Session}
    (ordered : PickupsInOrder t → ∀ y w, x = some y → y.sweep = some w → InOrder w.entries) :
    KeepsCapacities s (setSession k x t) := h.setKiosk ordered

theorem endSession {k : KioskNo} : KeepsCapacities s (Machine.setSession k none t) := h.setSession nofun

/-- A session changes beside its sweep. -/
theorem renewSession {k : KioskNo} {x y : Session} (session : sessionOf t k = some x)
    (sweep : y.sweep = x.sweep := by rfl) :
    KeepsCapacities s (Machine.setSession k (some y) t) :=
  h.setSession fun i z w hz hw => by
    cases hz
    exact i k x w session (sweep ▸ hw)

theorem setDoorResult {k : KioskNo} {r : Option DoorResult} : KeepsCapacities s (setDoorResult k r t) :=
  h.setKiosk_record

theorem setLastPayment {k : KioskNo} {p : LastPayment} : KeepsCapacities s (setLastPayment k p t) :=
  h.setKiosk_record

theorem countSuccess {k : KioskNo} : KeepsCapacities s (countSuccess k t) := h.setKiosk_record

theorem touchSession {k : KioskNo} : KeepsCapacities s (touchSession k t) := by
  unfold Machine.touchSession
  split
  next session => exact h.renewSession session
  next => exact h

/-! ### Alarms and the outbox -/

/-- A posting merges with the alarm of its kind and object (R202). -/
theorem postAlarm {kind : AlarmKind} {object : Nat} : KeepsCapacities s (postAlarm kind object t) := by
  unfold Machine.postAlarm
  split
  · exact h
  next absent =>
    refine h.trans { refl t with alarms := fun i => ?_ }
    unfold AlarmsDistinct
    rw [List.map_append]
    refine List.Nodup.append i (List.nodup_singleton _) fun a old new => absent ?_
    obtain ⟨b, mem, rfl⟩ := List.mem_map.mp old
    obtain ⟨kind, object⟩ := Prod.mk.inj (List.mem_singleton.mp new)
    exact List.any_eq_true.mpr ⟨b, mem, by simp [kind, object]⟩

theorem countFailure {k : KioskNo} : KeepsCapacities s (countFailure k t) := by
  unfold Machine.countFailure; dsimp only
  split; · exact h.setKiosk_record
  split; · exact h.setKiosk_record.postAlarm
  exact h

theorem takeSlot : KeepsCapacities s (takeSlot t) := by
  have reserved : KeepsCapacities s { t with ret := { t.ret with reservations := t.ret.reservations + 1 } } := h.same rfl
  unfold Machine.takeSlot; dsimp only
  split
  · exact reserved.postAlarm
  · exact reserved

theorem reserveSlot (slot : reserveSlot t = some u) : KeepsCapacities s u := by
  unfold Machine.reserveSlot at slot
  split at slot
  · cases slot; exact h.takeSlot
  · cases slot

theorem releaseSlot : KeepsCapacities s (releaseSlot t) := h.same rfl

theorem fillSlot {n : Notice} : KeepsCapacities s (fillSlot n t) := h.same rfl

/-! ### The directory, the generator and the returns list -/

theorem changeEntry {c : CompNo} {change : DirEntry → Option DirEntry} : KeepsCapacities s (changeEntry c change t) :=
  h.trans { refl t with
    sets := fun i n => by
      refine (congrArg List.length (look_map ..)).trans_le ?_
      exact (List.length_filterMap_le ..).trans (i n) }

theorem setEntryStatus {c : CompNo} {x : CodeStatus} : KeepsCapacities s (setEntryStatus c x t) := h.changeEntry

theorem removeEntry {c : CompNo} : KeepsCapacities s (removeEntry c t) := h.changeEntry

/-- A code's entry takes a free way of its set (R34, R39). -/
theorem addEntry {code : Nat} {c : CompNo} {x : CodeStatus} (way : (look t.ret.directory (codeSet code)).length < 4) :
    KeepsCapacities s (addEntry code c x t) :=
  h.trans { refl t with
    sets := fun i n => by
      refine (congrArg List.length (look_put ..)).trans_le ?_
      split
      · rw [List.length_append]; exact way
      · exact i n }

theorem allocate {cls : SizeClass} {upsize deposit : Bool} {c : CompNo}
    (found : allocate t cls upsize deposit = some (u, c)) : KeepsCapacities s u :=
  h.same (by rw [allocate_frame found]; rfl)

theorem changeReturn {n : Nat} {change : ReturnEntry → Option ReturnEntry} : KeepsCapacities s (changeReturn n change t) :=
  h.trans { refl t with returns := (List.length_filterMap_le ..).trans }

theorem freeReturn {n paid : Nat} : KeepsCapacities s (freeReturn n paid t) := h.changeReturn

theorem lapseReturns {now : Nat} : KeepsCapacities s (lapseReturns now t) :=
  h.trans { refl t with returns := (List.length_filter_le ..).trans }

/-! ### Strikes -/

/-- Where only marks, segments and boards differ, and no strike queue has outgrown its bound. -/
theorem strikes (only : OnlyStrikes t u) (bounded : ∀ g, (t.seg g).queue.length ≤ 16 → (u.seg g).queue.length ≤ 16) :
    KeepsCapacities s u := by
  obtain ⟨ret, rest, -⟩ := only
  refine h.trans ⟨?_, by rw [rest], ?_, ?_, ?_, ?_, ?_, fun i g => bounded g (i g), ?_, ?_⟩
  · rw [rest]; exact id
  · rw [rest]; exact id
  · rw [ret]; exact id
  · rw [ret]; exact id
  · unfold SetsBounded; rw [ret]; exact id
  · rw [ret]; exact id
  · unfold AlarmsDistinct; rw [rest]; exact id
  · unfold PickupsInOrder State.kiosk; rw [rest]; exact id

theorem setMark {c : CompNo} {mark : Bool} : KeepsCapacities s (setMark c mark t) := h.same rfl

theorem applyIssue {g : SegNo} : KeepsCapacities s (applyIssue g t) :=
  h.strikes (onlyStrikes_applyIssue g t) fun f => (applyIssue_queue_length g f t).trans

/-- A strike is queued where its segment's queue has room (R157). -/
theorem queueStrike {c : CompNo} {p : Purpose} (room : ∀ g, segOf t c = some g → queueHasRoom t g = true) :
    KeepsCapacities s (queueStrike c p t) := by
  unfold Machine.queueStrike
  split
  next g seg =>
    have free : (t.seg g).queue.length < 16 := of_decide_eq_true (room g seg)
    exact (h.setSeg fun _ => by rw [List.length_append]; exact free).applyIssue
  next => exact h

theorem dropQueued {g : SegNo} {c : CompNo} : KeepsCapacities s (dropQueued g c t) :=
  h.setSeg (List.length_filter_le ..).trans

theorem withdrawStrike {c : CompNo} : KeepsCapacities s (withdrawStrike c t) := h.forEach fun _ s => (refl s).dropQueued

theorem setActive {g : SegNo} {a : ActiveStrike} : KeepsCapacities s (setActive g a t) := h.setSeg

theorem disownPoll {g : SegNo} {b : BoardNo} {l : LineNo} : KeepsCapacities s (disownPoll g b l t) := by
  unfold Machine.disownPoll
  split
  · split
    · exact h.setSeg
    · exact h
  · exact h

theorem endStrike {g : SegNo} {a : ActiveStrike} : KeepsCapacities s (endStrike g a t) :=
  h.setSeg.setBoard.disownPoll

end KeepsCapacities

end Sys2Proof.Machine

/-! The operations on courier sweeps, doors and polls, the scans and the adoption of EVACUATE keep every capacity. -/

namespace Sys2Proof.Machine

/-- The strike queue of a compartment's segment has room (R157). -/
theorem queueHasRoom_of_comp {s : State} {c : CompNo} (room : compHasRoom s c = true) (g : SegNo)
    (seg : segOf s c = some g) : queueHasRoom s g = true := by
  simpa [compHasRoom, seg] using room

/-- Room depends on the compartment's map entry and the queues alone. -/
theorem queueHasRoom_congr {s t : State} {c : CompNo} (map : (t.comp c).map = (s.comp c).map)
    (segments : t.segments = s.segments) (room : ∀ g, segOf s c = some g → queueHasRoom s g = true) (g : SegNo)
    (seg : segOf t c = some g) : queueHasRoom t g = true := by
  have same : segOf t c = segOf s c := by simp only [segOf, boardOf, map]
  rw [queueHasRoom, State.seg, segments]
  exact room g (same ▸ seg)

/-- No queue holds up an entry that is not held up (R146). -/
theorem queueHasRoom_of_free {s : State} {e : PickupEntry} (free : issueHeldUp s e = false) (g : SegNo)
    (seg : segOf s e.compartment = some g) : queueHasRoom s g = true := by
  simp only [issueHeldUp, seg, Bool.or_eq_false_iff, Bool.not_eq_false'] at free
  exact free.2

theorem CourierSweep.eq_of_orEnded {w v : CourierSweep} (more : w.orEnded = some v) : w = v :=
  Option.some.inj (Option.ite_none_left_eq_some.mp more).2

namespace KeepsCapacities

variable {s t u : State} (h : KeepsCapacities s t)
include h

/-! ### Courier sweeps -/

theorem grantRetrieval {k : KioskNo} {serial courier : Nat} {c : CompNo}
    (room : ∀ g, segOf t c = some g → queueHasRoom t g = true) :
    KeepsCapacities s (grantRetrieval k serial courier c t) :=
  h.setComp.setQuote.queueStrike (queueHasRoom_congr (by simp) (by simp) room)

/-- One application of the issue rule: its grant finds room in the strike queue, and the list stays in order (R146). -/
theorem issuePickup {k : KioskNo} (issued : issuePickup k t = some u) : KeepsCapacities s u := by
  simp only [Machine.issuePickup, Option.bind_eq_bind, Option.bind_eq_some_iff] at issued
  obtain ⟨x, session, w, sweep, e, first, issued⟩ := issued
  split at issued
  · cases issued
  next due =>
    have free : issueHeldUp t e = false := by
      simp only [Bool.or_eq_true, not_or, Bool.not_eq_true] at due
      exact due.2
    split at issued
    · cases issued
      refine (h.takeSlot.setSession fun i y v hy hv => ?_).grantRetrieval
        (queueHasRoom_congr (by simp) (by simp) (queueHasRoom_of_free free))
      cases hy; cases hv
      exact InOrder.issue (i k x w (kiosk_takeSlot t k ▸ session) sweep) first
    · cases issued
      refine h.setSession fun i y v hy hv => ?_
      cases hy
      cases CourierSweep.eq_of_orEnded hv
      exact InOrder.filter (i k x w session sweep) _

theorem issuePickups {k : KioskNo} {n : Nat} : KeepsCapacities s (issuePickups k n t) := by
  induction n generalizing t with
  | zero => exact h
  | succ n ih =>
    unfold Machine.issuePickups
    split
    next issued => exact ih (h.issuePickup issued)
    next => exact h

theorem applyPickup {k : KioskNo} : KeepsCapacities s (applyPickup k t) := h.issuePickups

/-! ### Reports to the session -/

theorem reportOutcome {c : CompNo} {k : KioskNo} {serial declaration : Nat} {outcome : DeclOutcome} :
    KeepsCapacities s (reportOutcome c k serial declaration outcome t) := by
  unfold Machine.reportOutcome
  split
  next session =>
    split
    · split
      · exact h.renewSession session rfl
      · exact h
    · exact h
  next => exact h

theorem reportRetrieval {c : CompNo} {k : KioskNo} {serial : Nat} {retrieved : Bool} :
    KeepsCapacities s (reportRetrieval c k serial retrieved t) := by
  unfold Machine.reportRetrieval
  split
  next x session =>
    split
    next w sweep =>
      split
      · refine (h.setSession fun i y v hy hv => ?_).applyPickup
        cases hy
        cases CourierSweep.eq_of_orEnded hv
        exact InOrder.filter (i k x w session sweep) _
      · exact h
    next => exact h
  next => exact h

theorem reportOpening {c : CompNo} {x : Transient} : KeepsCapacities s (reportOpening c x t) := by
  unfold Machine.reportOpening
  split
  next session _ =>
    split
    · exact h.renewSession session rfl
    · exact h
  next session _ =>
    split
    · split
      · exact h.renewSession session rfl
      · exact h
    · exact h
  next => exact h

/-! ### The ends of transactions -/

theorem noteDoor {x : CompState} {c : CompNo} {y : Transient} {outcome : DoorOutcome} :
    KeepsCapacities s (noteDoor x c y outcome t) := by
  unfold Machine.noteDoor
  split
  · exact h
  · exact h.setDoorResult

theorem endTransaction {e : Ending} {c : CompNo} : KeepsCapacities s (endTransaction e c t) := by
  unfold Machine.endTransaction; dsimp only
  split
  · exact h
  · split
    · exact h.setComp.setQuote.releaseSlot.removeEntry.reportOutcome
    · exact h.setComp.setQuote.releaseSlot.freeReturn.noteDoor
    · split
      · exact h.setComp.setQuote.releaseSlot.setEntryStatus.noteDoor
      · exact h.setComp.setQuote.releaseSlot.noteDoor
    · exact h.setComp.setQuote.releaseSlot.reportRetrieval

theorem cancelTransaction {c : CompNo} : KeepsCapacities s (cancelTransaction c t) := h.endTransaction

theorem dropQuote {c : CompNo} : KeepsCapacities s (dropQuote c t) := by
  unfold Machine.dropQuote
  split
  · split
    · exact h.setQuote
    · exact h.setQuote.endTransaction
  · exact h

theorem noticeCollected {c : CompNo} {p : Option Parcel} : KeepsCapacities s (noticeCollected c p t) := by
  unfold Machine.noticeCollected
  split
  · exact h.fillSlot
  · exact h.releaseSlot

theorem noticeRetrieved {c : CompNo} {courier : Nat} {p : Option Parcel} :
    KeepsCapacities s (noticeRetrieved c courier p t) := by
  unfold Machine.noticeRetrieved
  split
  · exact h.fillSlot
  · exact h.releaseSlot

theorem closeHandling {c : CompNo} {occupied : Bool} : KeepsCapacities s (closeHandling c occupied t) := by
  unfold Machine.closeHandling; dsimp only
  split
  · exact h.setAjar
  · split
    · exact h.setAjar.setComp.setEntryStatus.fillSlot.reportOutcome
    · exact h.setAjar.setComp.removeEntry.releaseSlot.reportOutcome
    · exact h.setAjar.setComp.changeReturn.fillSlot.noteDoor
    · exact h.setAjar.setComp.freeReturn.releaseSlot.noteDoor
    · exact h.setAjar.setComp.noticeCollected.removeEntry.noteDoor
    · exact h.setAjar.setComp.setEntryStatus.releaseSlot.noteDoor
    · exact h.setAjar.setComp.noticeRetrieved.reportRetrieval
    · exact h.setAjar.setComp.releaseSlot.reportRetrieval

/-! ### Doors and strikes -/

theorem confirmedClose {c : CompNo} {occupied : Bool} : KeepsCapacities s (confirmedClose c occupied t) := by
  unfold Machine.confirmedClose
  split
  case h_1 | h_2 | h_3 => exact h.closeHandling
  case h_4 => exact h

theorem occupancyConfirmed {c : CompNo} {occupied : Bool} : KeepsCapacities s (occupancyConfirmed c occupied t) := by
  unfold Machine.occupancyConfirmed
  split
  case h_1 => exact h.setComp.postAlarm
  case h_2 | h_3 => exact h.postAlarm
  case h_4 => exact h

theorem forceDoor {c : CompNo} : KeepsCapacities s (forceDoor c t) := by
  unfold Machine.forceDoor; dsimp only
  split
  case h_1 => exact h.setComp.setQuote.setEntryStatus.postAlarm
  case h_2 | h_3 | h_4 => exact h.withdrawStrike.endTransaction.postAlarm
  case h_5 => exact h.setComp.postAlarm

theorem startWatch {c : CompNo} : KeepsCapacities s (startWatch c t) := h.setAjar

theorem resumeOpen {c : CompNo} {x : CompState} : KeepsCapacities s (resumeOpen c x t) := h.setComp.startWatch

theorem doorOpenUnstruck {c : CompNo} : KeepsCapacities s (doorOpenUnstruck c t) := by
  unfold Machine.doorOpenUnstruck; dsimp only
  split
  case h_1 | h_2 | h_3 => exact h.forceDoor
  case h_4 | h_5 =>
    split
    · exact h
    · exact h.forceDoor
  case h_6 =>
    split
    case h_1 | h_2 | h_3 | h_4 => exact h.resumeOpen
    case h_5 | h_6 => exact h.forceDoor
    case h_7 => exact h
  case h_7 => exact h

theorem enterDoorPhase {c : CompNo} : KeepsCapacities s (enterDoorPhase c t) := by
  unfold Machine.enterDoorPhase; dsimp only
  split
  · exact h.setComp.reportOpening
  · exact h.setComp

theorem strikeSucceeds {g : SegNo} {a : ActiveStrike} : KeepsCapacities s (strikeSucceeds g a t) := by
  unfold Machine.strikeSucceeds; dsimp only
  split
  · exact h.endStrike.enterDoorPhase.closeHandling
  · exact h.endStrike.enterDoorPhase.startWatch

/-- A requeue replaces the tail of a full queue (R166). -/
theorem requeue {g : SegNo} {a : ActiveStrike} : KeepsCapacities s (requeue g a t) := by
  have queued (e : StrikeEntry) : KeepsCapacities s (Machine.setMark a.compartment false (t.setSeg g { t.seg g with
      queue := e :: if 16 ≤ (t.seg g).queue.length then (t.seg g).queue.dropLast else (t.seg g).queue })) := by
    refine (h.setSeg fun bounded => ?_).setMark
    rw [List.length_cons]
    split
    · rw [List.length_dropLast]; omega
    · omega
  have cancelled (u : State) (k : KeepsCapacities s u) : KeepsCapacities s
      (if u.ret.concourse = .evacuate then Machine.cancelTransaction a.compartment (Machine.dropQueued g a.compartment u)
        else u) := by
    split
    · exact k.dropQueued.cancelTransaction
    · exact k
  unfold Machine.requeue; dsimp only
  split
  · exact cancelled _ (queued _).cancelTransaction
  · exact cancelled _ (queued _)

theorem attemptFails {g : SegNo} {a : ActiveStrike} : KeepsCapacities s (attemptFails g a t) := by
  unfold Machine.attemptFails; dsimp only
  split
  · exact h.endStrike.requeue.applyIssue
  · exact h.endStrike.endTransaction.postAlarm.applyIssue

theorem energiseEnds {g : SegNo} {a : ActiveStrike} : KeepsCapacities s (energiseEnds g a t) := by
  unfold Machine.energiseEnds
  split
  · exact h.strikeSucceeds.applyIssue
  · exact h.attemptFails

theorem strikeDone {g : SegNo} {a : ActiveStrike} : KeepsCapacities s (strikeDone g a t) := by
  unfold Machine.strikeDone
  split
  · exact h.strikeSucceeds.applyIssue
  · exact h.setActive.applyIssue

theorem doorOpened {c : CompNo} : KeepsCapacities s (doorOpened c t) := by
  unfold Machine.doorOpened
  split
  · split
    · exact h.setActive
    · exact h.strikeSucceeds
  · exact h.doorOpenUnstruck

/-! ### Sweeps and polls -/

theorem sendPoll {g : SegNo} {i : SlotNo} {b : BoardNo} : KeepsCapacities s (sendPoll g i b t) := h.setSeg

theorem startSweep {g : SegNo} : KeepsCapacities s (startSweep g t) := by
  unfold Machine.startSweep; dsimp only
  split
  · exact h.setSeg.sendPoll
  · exact h.setSeg

theorem endSweep {g : SegNo} : KeepsCapacities s (endSweep g t) := by
  unfold Machine.endSweep; dsimp only
  split
  · exact h.setSeg.startSweep
  · exact h.setSeg

theorem advanceSweep {g : SegNo} {i : SlotNo} : KeepsCapacities s (advanceSweep g i t) := by
  unfold Machine.advanceSweep
  split
  · exact h.sendPoll
  · exact h.endSweep

theorem setRates : KeepsCapacities s (setRates t) := by
  obtain ⟨-, -, -, -, kept⟩ := setRates_frame t
  have only : OnlyStrikes t (Machine.setRates t) := by
    rw [setRates_segments]
    exact ⟨rfl, rfl, fun c => .refl t c⟩
  exact h.strikes only fun g bounded => by rw [(kept g).1]; exact bounded

theorem setLine {b : BoardNo} {l : LineNo} {x : Line} : KeepsCapacities s (t.setLine b l x) := h.setBoard

theorem lineClosed {b : BoardNo} {l : LineNo} {x : Reading} : KeepsCapacities s (lineClosed b l x t) := by
  unfold Machine.lineClosed; dsimp only
  split
  · exact h.setLine.confirmedClose
  · exact h.setLine

theorem closeOccupancy {b : BoardNo} {l : LineNo} : KeepsCapacities s (closeOccupancy b l t) := by
  unfold Machine.closeOccupancy
  split
  · split
    · exact h.occupancyConfirmed
    · exact h
  · exact h

theorem lineOpened {b : BoardNo} {l : LineNo} : KeepsCapacities s (lineOpened b l t) := by
  unfold Machine.lineOpened; dsimp only
  split
  · exact h.setLine.doorOpened
  · exact h.setLine

theorem confirmDoor {b : BoardNo} {l : LineNo} : KeepsCapacities s (confirmDoor b l t) := by
  unfold Machine.confirmDoor; dsimp only
  split
  · split
    · split
      · exact h.lineOpened
      · exact h.lineClosed
    · exact h
  · exact h

theorem confirmOccupancy {b : BoardNo} {l : LineNo} : KeepsCapacities s (confirmOccupancy b l t) := by
  unfold Machine.confirmOccupancy; dsimp only
  split
  · split
    · split
      · exact h.setLine.occupancyConfirmed
      · exact h.setLine
    · exact h
  · exact h

theorem confirmOccupancies {before : Vector Line 12} {b : BoardNo} {l : LineNo} :
    KeepsCapacities s (confirmOccupancies before b l t) := by
  unfold Machine.confirmOccupancies
  split
  · exact h.closeOccupancy
  · exact h.confirmOccupancy

theorem confirmFresh {b : BoardNo} {l : LineNo} : KeepsCapacities s (confirmFresh b l t) := by
  unfold Machine.confirmFresh; dsimp only
  split
  · exact h.confirmDoor.closeOccupancy
  · exact h.confirmDoor

theorem declareLost {b : BoardNo} : KeepsCapacities s (declareLost b t) :=
  foldl (fun u _ => (refl u).energiseEnds) _ h.setBoard.postAlarm

/-- The model's own field of a declaration under way is none of what the capacities read (log 49). -/
theorem setDeclaring {b : Option BoardNo} : KeepsCapacities s { t with declaring := b } := h.same rfl

theorem confirmLines {b : BoardNo} : KeepsCapacities s (confirmLines b t) :=
  (h.setDeclaring.forEach fun _ u => (refl u).confirmFresh).setDeclaring

theorem serveBoard {b : BoardNo} : KeepsCapacities s (serveBoard b t) := h.same rfl

theorem declareOnline {b : BoardNo} : KeepsCapacities s (declareOnline b t) :=
  h.setBoard.serveBoard.confirmLines.applyIssue

theorem supervise {b : BoardNo} {good : Bool} : KeepsCapacities s (supervise b good t) := by
  unfold Machine.supervise; dsimp only
  split
  case h_1 =>
    split
    · exact h.setBoard.declareLost
    · exact h.setBoard
  case h_2 | h_3 =>
    split
    · split
      · exact h.declareOnline
      · exact h.setBoard
    · exact h.setBoard
  case h_4 => exact h

theorem strikeTaken {b : BoardNo} {carried taken : Option LineNo} :
    KeepsCapacities s (strikeTaken b carried taken t) := by
  unfold Machine.strikeTaken
  split
  · split
    · exact h.setBoard
    · exact h
  · exact h

theorem reportStrike {b : BoardNo} {l : LineNo} {fault : Bool} : KeepsCapacities s (reportStrike b l fault t) := by
  unfold Machine.reportStrike; dsimp only
  split
  · split
    · exact h.energiseEnds
    · exact h.strikeDone
  · exact h

theorem takeReport {b : BoardNo} {report : Option (LineNo × Bool × Bool)} :
    KeepsCapacities s (takeReport b report t) := by
  unfold Machine.takeReport; dsimp only
  split
  · split
    · split
      · exact h.setBoard.reportStrike
      · exact h.setBoard
    · exact h
  · exact h

theorem takeReadings {b : BoardNo} {readings : Vector Reading 12} : KeepsCapacities s (takeReadings b readings t) :=
  h.setBoard

theorem takeReply {b : BoardNo} {carried : Option LineNo} {r : BoardReply} :
    KeepsCapacities s (takeReply b carried r t) := by
  have read : KeepsCapacities s (if (t.board b).link = .withdrawn then t else Machine.takeReadings b r.readings t) := by
    split
    · exact h
    · exact h.takeReadings
  unfold Machine.takeReply
  exact ((read.supervise.strikeTaken.forEach fun _ u => (refl u).confirmDoor).forEach
    fun _ u => (refl u).confirmOccupancies).takeReport

theorem takeOutcome {b : BoardNo} {carried : Option LineNo} {heard : Option (List Byte)} :
    KeepsCapacities s (takeOutcome b carried heard t) := by
  unfold Machine.takeOutcome
  split
  · exact h.takeReply
  · exact h.supervise

/-! ### Boundaries, expiries and adoptions -/

theorem expireHeld {c : CompNo} : KeepsCapacities s (expireHeld c t) := by
  unfold Machine.expireHeld
  split
  · split
    · exact h.dropQuote
    · exact h
  · exact h

theorem scanComp {now : Nat} {c : CompNo} : KeepsCapacities s (scanComp now c t) := by
  rw [scanComp_eq]
  split
  · split
    next slot => exact (h.expireHeld.reserveSlot slot).removeEntry.setComp.fillSlot
    next => exact h.expireHeld
  · exact h.expireHeld

theorem takeBoundary {now : Nat} : KeepsCapacities s (takeBoundary now t) :=
  (h.forEach fun _ u => (refl u).scanComp).lapseReturns

theorem expireQuote {c : CompNo} : KeepsCapacities s (expireQuote c t) := by
  unfold Machine.expireQuote
  split
  · split
    · exact h.dropQuote
    · exact h
  · exact h

theorem setClock {now : Option Nat} : KeepsCapacities s { t with clock := now } := h.same rfl

theorem stepClock {v now : Nat} : KeepsCapacities s (stepClock v now t) := by
  have expired : KeepsCapacities s (Machine.forEach Machine.expireQuote { t with clock := some now }) :=
    h.setClock.forEach fun _ u => (refl u).expireQuote
  unfold Machine.stepClock; dsimp only
  split
  · split
    · exact expired.takeBoundary
    · exact expired
  · exact h.setClock

theorem applyTime {now : Nat} : KeepsCapacities s (applyTime now t) := by
  unfold Machine.applyTime
  split
  · exact h.same rfl
  · split
    · exact h
    · exact h.stepClock

theorem cancelQueue {g : SegNo} {n : Nat} : KeepsCapacities s (cancelQueue g n t) := by
  induction n generalizing t with
  | zero => exact h
  | succ n ih =>
    unfold Machine.cancelQueue
    split
    · exact ih h.dropQueued.cancelTransaction
    · exact h

theorem evacuate : KeepsCapacities s (evacuate t) :=
  ((h.mapKiosks fun _ => .inr rfl).forEach fun _ u => (refl u).cancelQueue).forEach fun _ u => (refl u).dropQuote

theorem setConcourse {x : Concourse} : KeepsCapacities s { t with ret := { t.ret with concourse := x } } := h.same rfl

theorem adopt {x : Concourse} : KeepsCapacities s (adopt x t) := by
  unfold Machine.adopt; dsimp only
  split
  · exact h.setConcourse.evacuate.forEach fun _ u => (refl u).applyIssue
  · exact h.setConcourse.forEach fun _ u => (refl u).applyIssue

/-- The history holds the latest five codes (R194). -/
theorem noteCode {code : Nat} : KeepsCapacities s { t with history := appendCode t.history code } :=
  h.trans { refl t with
    history := fun bounded => by
      dsimp only [appendCode]
      rw [List.length_append, List.length_singleton]
      split
      · rw [List.length_drop]; omega
      · omega }

theorem applyCode {code : Nat} : KeepsCapacities s (applyCode code t) := by
  unfold Machine.applyCode; dsimp only
  split
  · split
    · exact h.noteCode
    · exact h.noteCode.adopt
  · exact h.noteCode

end KeepsCapacities

end Sys2Proof.Machine

/-! Every step keeps the capacities (R34, R36, R91, R132, R155, R194, R202, R208, R210) and the order of the pickup lists
(R144, R146): each command, in the order of their files, is made of operations that do. -/

namespace Sys2Proof.Machine

/-! ### Events and requests -/

/-- Every capacity that is kept in one state is kept in another: the claim of O58 between two states. -/
structure StaysWithin (s t : State) : Prop where
  trunk   : TrunkBounded s → TrunkBounded t
  queues  : QueuesBounded s → QueuesBounded t
  tables  : TablesBounded s → TablesBounded t
  alarms  : AlarmsDistinct s → AlarmsDistinct t
  pickups : PickupsInOrder s → PickupsInOrder t

theorem KeepsCapacities.staysWithin {s t : State} (h : KeepsCapacities s t) : StaysWithin s t where
  trunk := fun ⟨receive, transmit, history⟩ => ⟨h.receive receive, h.transmit.trans transmit, h.history history⟩
  queues := h.queues
  tables := fun ⟨generator, sets, couriers, returns⟩ =>
    ⟨h.generator generator, h.sets sets, h.couriers couriers, h.returns returns⟩
  alarms := h.alarms
  pickups := h.pickups

theorem StaysWithin.trans {s t u : State} (h : StaysWithin s t) (k : StaysWithin t u) : StaysWithin s u where
  trunk i := k.trunk (h.trunk i)
  queues i := k.queues (h.queues i)
  tables i := k.tables (h.tables i)
  alarms i := k.alarms (h.alarms i)
  pickups i := k.pickups (h.pickups i)

/-- A command's meaning keeps the capacities. -/
def CapacitiesKept (run : State → Result) : Prop := ∀ s t, run s = .next t → StaysWithin s t

theorem KeepsCapacities.settle {s t : State} (h : KeepsCapacities s t) : KeepsCapacities s (settle t) := by
  rw [show Machine.settle t = { Machine.setRates t with
    attention := attentionLevel (Machine.setRates t)
    checkWord := Config.retentionCheck (Machine.setRates t).ret } from rfl]
  exact h.setRates.same rfl

theorem event_capacitiesKept {effect : State → Option State} (h : ∀ s, ∀ t ∈ effect s, KeepsCapacities s t) :
    CapacitiesKept fun s => event s effect := by
  intro s t run
  obtain ⟨-, u, some, rfl⟩ | rfl := event_cases run
  · exact (h s u some).settle.staysWithin
  · exact (KeepsCapacities.refl t).staysWithin

/-- The reply joins a transmit queue that has room for it (R210). -/
theorem staysWithin_sendReply {kind : Byte} {r : Request} {s : State} {a : Answer} (kept : KeepsCapacities s a.state)
    (room : s.transmit.length < 4) : StaysWithin s (sendReply kind r a) := by
  have short : (sendReply kind r a).transmit.length ≤ 4 := by
    have left := kept.transmit
    unfold sendReply
    split
    · omega
    · rw [List.length_append, List.length_singleton]; omega
  have same : sendReply kind r a = { a.state with transmit := (sendReply kind r a).transmit } := by
    unfold sendReply; split <;> rfl
  have whole := kept.staysWithin
  generalize (sendReply kind r a).transmit = transmit at short same
  rw [same]
  exact ⟨fun i => ⟨(whole.trunk i).1, short, (whole.trunk i).2.2⟩, whole.queues, whole.tables, whole.alarms, whole.pickups⟩

/-- A request keeps the capacities where its owner does: its frame leaves the receive queue, and there is room for its
reply (R210). -/
theorem request_capacitiesKept {kind : Byte} {r : Request} {own : State → Answer}
    (h : ∀ s, KeepsCapacities s (own s).state) : CapacitiesKept fun s => request kind r s own := by
  intro s t run
  obtain ⟨-, u, some, rfl⟩ | rfl := event_cases run
  · obtain ⟨v, frame, rfl⟩ := Option.map_eq_some_iff.mp some
    obtain ⟨-, room, -, rfl⟩ := takeFrame_some frame
    have taken : KeepsCapacities s { s with receive := s.receive.tail } :=
      { KeepsCapacities.refl s with receive := fun i => by rw [List.length_tail]; omega }
    have idle := taken.same (u := touchIdle r { s with receive := s.receive.tail }) (by rw [touchIdle_eq]; rfl)
    exact (staysWithin_sendReply (idle.trans (h _)) room).trans (KeepsCapacities.refl _).settle.staysWithin
  · exact (KeepsCapacities.refl t).staysWithin

/-- An effect that has a condition keeps the capacities where it does so under the condition. -/
theorem keepsCapacities_of_due {p : Prop} [Decidable p] {s t u : State} (h : t ∈ if p then some u else none)
    (kept : KeepsCapacities s u) : KeepsCapacities s t := by
  obtain ⟨-, h⟩ := Option.ite_none_right_eq_some.mp h
  rwa [← Option.some.inj h]

/-! ### The checks of a request -/

section checks

variable {α : Type} {r : Request} {parsed : Option α} {s : State}

theorem courierRequest_keepsCapacities {own : KioskNo → α → State → Answer}
    (h : ∀ k x t, KeepsCapacities t (own k x t).state) : KeepsCapacities s (courierRequest r parsed s own).state := by
  refine fromKiosk_holds (.refl s) fun k => ?_
  have touched := (KeepsCapacities.refl s).touchSession (k := k)
  exact withBody_holds touched fun x => touched.trans (h k x _)

theorem backendRequest_keepsCapacities {own : α → Answer} (h : ∀ x, KeepsCapacities s (own x).state) :
    KeepsCapacities s (fromBackend r s (withBody parsed s own)).state :=
  fromBackend_holds (.refl s) (withBody_holds (.refl s) h)

theorem admitted_keepsCapacities {own : State → Answer} (h : ∀ t, KeepsCapacities t (own t).state) :
    KeepsCapacities s (admitted s own).state := by
  unfold admitted
  split
  case h_1 => exact h s
  case h_2 => exact ((KeepsCapacities.refl s).same (u := extendUnlock s) rfl).trans (h _)
  case h_3 | h_4 => exact .refl s
  case h_5 | h_6 | h_7 => exact (KeepsCapacities.refl s).same rfl

theorem maintenance_keepsCapacities_of_parsed {own : α → State → Answer}
    (h : ∀ x, parsed = some x → ∀ t, KeepsCapacities t (own x t).state) :
    KeepsCapacities s (maintenance r parsed s own).state := by
  unfold maintenance
  split
  · cases parsed with
    | some x => exact admitted_keepsCapacities (h x rfl)
    | none => exact .refl s
  · exact .refl s

theorem maintenance_keepsCapacities {own : α → State → Answer} (h : ∀ x t, KeepsCapacities t (own x t).state) :
    KeepsCapacities s (maintenance r parsed s own).state :=
  maintenance_keepsCapacities_of_parsed fun x _ => h x

theorem staffRequest_keepsCapacities {own : α → State → Answer} (h : ∀ x t, KeepsCapacities t (own x t).state) :
    KeepsCapacities s (staffRequest r parsed s own).state := by
  unfold staffRequest
  split
  · exact withBody_holds (.refl s) fun x => h x s
  · exact withBody_holds (.refl s) fun x => admitted_keepsCapacities (h x)
  · exact .refl s

end checks

/-! ### Codes (R36, R37) -/

/-- The code that a generation finds has a free way in its set (R37). -/
theorem generation_way {s t : State} {code : Nat} (run : generation s = (t, some code)) :
    (look t.ret.directory (codeSet code)).length < 4 := by
  have found : generateCode s.ret.directory 8 s.ret.generator = (t.ret.generator, some code) := by
    obtain ⟨rfl, code⟩ := Prod.mk.inj run
    exact Prod.ext rfl code
  have directory : t.ret.directory = s.ret.directory := by
    obtain ⟨rfl, -⟩ := Prod.mk.inj run; rfl
  rw [directory]
  exact (not_rejected (generateCode_some found).2).2.2

theorem generateCode_ne_zero {directory : Vector (List DirEntry) 256} {n : Nat} {g : BitVec 32} (h : g ≠ 0) :
    (generateCode directory n g).1 ≠ 0 := by
  induction n generalizing g with
  | zero => exact h
  | succ n ih =>
    unfold generateCode; dsimp only
    split
    · exact ih (generatorAdvance_ne_zero 32 h)
    · exact generatorAdvance_ne_zero 32 h

theorem reserveSlot_eq {s t : State} (slot : reserveSlot s = some t) : t = takeSlot s :=
  (Option.some.inj (Option.ite_none_right_eq_some.mp slot).2).symm

theorem compHasRoom_setComp {s : State} {c : CompNo} {x : Compartment} (map : x.map = (s.comp c).map) :
    compHasRoom (s.setComp c x) c = compHasRoom s c :=
  compHasRoom_of_map (by rw [State.comp_setComp_same, map]) rfl

namespace KeepsCapacities

variable {s t u : State}

theorem generation {code : Option Nat} (h : KeepsCapacities s t) (run : generation t = (u, code)) :
    KeepsCapacities s u := by
  cases drawn : generateCode t.ret.directory 8 t.ret.generator with
  | mk g found =>
    rw [generation_eq drawn] at run
    cases run
    refine h.trans { refl t with generator := fun seeded => ?_ }
    have kept := generateCode_ne_zero (directory := t.ret.directory) (n := 8) seeded
    rwa [drawn] at kept

/-! ### Customers -/

theorem issueQuote {c : CompNo} {k : KioskNo} {amount now : Nat} {p : QuotePurpose} (h : KeepsCapacities s t) :
    KeepsCapacities s (issueQuote c k amount now p t).1 := h.same rfl

theorem grantCollection {c : CompNo} {k : KioskNo} (h : KeepsCapacities s t) (room : compHasRoom t c = true) :
    KeepsCapacities s (grantCollection c k t) :=
  h.setComp.setQuote.setEntryStatus.setDoorResult.queueStrike
    (queueHasRoom_congr (s := t) (by simp) (by simp) (queueHasRoom_of_comp room))

theorem chargeCollect {k : KioskNo} {now : Nat} {c : CompNo} (h : KeepsCapacities s t) :
    KeepsCapacities s (chargeCollect k now c t).state := by
  unfold Machine.chargeCollect; dsimp only
  split
  · split
    · exact h.issueQuote
    · split
      · exact h
      next room =>
        split
        next => exact h
        next slot =>
          refine (h.reserveSlot slot).grantCollection ?_
          rw [reserveSlot_eq slot, compHasRoom_of_map (s := t) (by simp) (by simp)]
          simpa using room
  · exact h

theorem ownCollect {k : KioskNo} {code now : Nat} (h : KeepsCapacities s t) :
    KeepsCapacities s (ownCollect k code now t).state := by
  unfold Machine.ownCollect; dsimp only
  split
  · exact h.countFailure
  · split
    · exact h
    · split
      · split
        · exact h.countSuccess.dropQuote.chargeCollect
        · split
          · exact h.countSuccess.chargeCollect
          · exact h.countSuccess
      · exact h.countSuccess.chargeCollect

theorem acceptCollectionPay {k : KioskNo} {p : PayFields} {c : CompNo} (h : KeepsCapacities s t)
    (room : compHasRoom t c = true) : KeepsCapacities s (acceptCollectionPay k p c t).state := by
  have taken : KeepsCapacities s (addTakings k (·.addCollection p.amount) t) := h.same rfl
  exact taken.setComp.setLastPayment.grantCollection ((compHasRoom_setComp (by rfl)).trans room)

theorem acceptPostagePay {k : KioskNo} {p : PayFields} {c : CompNo} (h : KeepsCapacities s t)
    (room : compHasRoom t c = true) : KeepsCapacities s (acceptPostagePay k p c t).state := by
  have taken : KeepsCapacities s (addTakings k (·.addPostage p.amount) t) := h.same rfl
  exact taken.setComp.setLastPayment.setQuote.queueStrike
    (queueHasRoom_of_comp ((compHasRoom_setComp (by rfl)).trans room))

theorem payWithoutQuote {k : KioskNo} {p : PayFields} (h : KeepsCapacities s t) :
    KeepsCapacities s (payWithoutQuote k p t).state := by
  unfold Machine.payWithoutQuote
  split
  · split <;> exact h
  · exact h

theorem payQuote {k : KioskNo} {p : PayFields} {c : CompNo} {q : Quote} (h : KeepsCapacities s t) :
    KeepsCapacities s (payQuote k p c q t).state := by
  unfold Machine.payQuote
  split; · exact h
  split; · exact h.dropQuote
  split; · exact h
  split; · exact h
  next full =>
    have room : compHasRoom t c = true := by simpa using full
    split
    · exact h.acceptPostagePay room
    · split
      · exact h
      · split
        next slot =>
          refine (h.reserveSlot slot).acceptCollectionPay ?_
          rwa [reserveSlot_eq slot, compHasRoom_of_map (s := t) (by simp) (by simp)]
        next => exact h

theorem ownPay {k : KioskNo} {p : PayFields} (h : KeepsCapacities s t) : KeepsCapacities s (ownPay k p t).state := by
  unfold Machine.ownPay
  split
  · split
    · split
      · exact h.payQuote
      · exact h.payWithoutQuote
    · exact h.payWithoutQuote
  · exact h.payWithoutQuote

theorem admitDrop {k : KioskNo} {now : Nat} {e : ReturnEntry} {c : CompNo} (h : KeepsCapacities s t)
    (room : compHasRoom t c = true) : KeepsCapacities s (admitDrop k now e c t).state := by
  unfold Machine.admitDrop; dsimp only
  split
  · exact h.changeReturn.setComp.setDoorResult.queueStrike
      (queueHasRoom_congr (s := t) (by simp) (by simp) (queueHasRoom_of_comp room))
  · exact h.changeReturn.setComp.setDoorResult.issueQuote

theorem ownReturnDrop {k : KioskNo} {reference now : Nat} (h : KeepsCapacities s t) :
    KeepsCapacities s (ownReturnDrop k reference now t).state := by
  unfold Machine.ownReturnDrop; dsimp only
  split; · exact h.countFailure
  split; · exact h.countSuccess
  split; · exact h.countSuccess
  split; · exact h.countSuccess
  next slot =>
    have reserved := h.countSuccess.reserveSlot slot
    split; · exact reserved.releaseSlot
    next found =>
      have allocated := reserved.allocate found
      split
      next room => exact allocated.admitDrop room
      next => exact allocated.releaseSlot

/-! ### Couriers -/

theorem acceptSignOn {k : KioskNo} {e : Courier} (h : KeepsCapacities s t) :
    KeepsCapacities s (acceptSignOn k e t).state :=
  KeepsCapacities.same (t := Machine.setSession k (some (openSession t e.id)) (Machine.countSuccess k t))
    (h.countSuccess.setSession fun _ y w hy hw => by cases hy; cases hw) rfl

theorem ownSignOn {k : KioskNo} {id : Nat} {credential : BitVec 32} (h : KeepsCapacities s t) :
    KeepsCapacities s (ownSignOn k id credential t).state := by
  unfold Machine.ownSignOn
  split; · exact h
  split
  · split
    · split
      · exact h
      · exact h.acceptSignOn
    · exact h.countFailure
  · exact h.countFailure

theorem acceptDeclare {k : KioskNo} {x : Session} {f : DeclareFields} {c : CompNo} {code : Nat}
    (h : KeepsCapacities s t) (session : sessionOf t k = some x)
    (way : (look t.ret.directory (codeSet code)).length < 4) (room : compHasRoom t c = true) :
    KeepsCapacities s (acceptDeclare k x f c code t).state := by
  unfold Machine.acceptDeclare; dsimp only
  exact ((h.addEntry way).renewSession session).queueStrike
    (queueHasRoom_congr (s := t) rfl rfl (queueHasRoom_of_comp room))

theorem placeDeclare {k : KioskNo} {x : Session} {f : DeclareFields} {cls : SizeClass} (h : KeepsCapacities s t)
    (session : sessionOf t k = some x) : KeepsCapacities s (placeDeclare k x f cls t).state := by
  unfold Machine.placeDeclare
  split; · exact h
  next u slot =>
    have reserved := h.reserveSlot slot
    split; · exact reserved.releaseSlot
    next v c found =>
      have allocated := reserved.allocate found
      split; · exact allocated.releaseSlot
      next full =>
        have placed : KeepsCapacities s (reserveDeposit k x f c v) := allocated.setComp
        have room : compHasRoom (reserveDeposit k x f c v) c = true := by
          rw [show compHasRoom (reserveDeposit k x f c v) c = compHasRoom v c from compHasRoom_setComp rfl]
          simpa using full
        have session' : sessionOf (reserveDeposit k x f c v) k = some x := by
          rw [← session]
          show (v.kiosk k).session = _
          rw [allocate_frame found, reserveSlot_eq slot]
          exact congrArg Kiosk.session (kiosk_takeSlot t k)
        split
        next w code run =>
          have frame : w = { reserveDeposit k x f c v with ret := { (reserveDeposit k x f c v).ret with
              generator := w.ret.generator } } := by
            obtain ⟨rfl, -⟩ := Prod.mk.inj run; rfl
          have way := generation_way run
          have made := placed.generation run
          rw [frame] at made way ⊢
          exact made.acceptDeclare session' way room
        next run => exact (placed.generation run).setComp.releaseSlot

theorem rangeDeclare {k : KioskNo} {x : Session} {e : Courier} {f : DeclareFields} (h : KeepsCapacities s t)
    (session : sessionOf t k = some x) : KeepsCapacities s (rangeDeclare k x e f t).state := by
  refine withClock_holds h fun _ => ?_
  split; · exact h
  split; · exact h
  split; · exact h
  split; · exact h
  split; · exact h
  exact h.placeDeclare session

theorem startSweeping {k : KioskNo} {x : Session} {w : CourierSweep} (h : KeepsCapacities s t)
    (ordered : InOrder w.entries) :
    KeepsCapacities s (Machine.setSession k (some { x with sweep := some w }) t) :=
  h.setSession fun _ _ _ hy hv => by cases hy; cases hv; exact ordered

/-- A sweep begins with a list that names each compartment once, every entry UNISSUED (R144, R145). -/
theorem startCourierSweep {k : KioskNo} {x : Session} {returns recover : Bool} (h : KeepsCapacities s t) :
    KeepsCapacities s (startCourierSweep k x returns recover t).state := by
  have ordered : InOrder (pickupList t k x.courier returns recover) :=
    .of_resting (pickupList_distinct ..) fun _ => pickupList_resting
  unfold Machine.startCourierSweep; dsimp only
  split; · exact h
  split; · exact h
  refine (h.startSweeping ?_).applyPickup
  dsimp only; exact ordered

end KeepsCapacities

end Sys2Proof.Machine

/-! Every command keeps the capacities, and so does every step. -/

namespace Sys2Proof.Machine

/-! ### Customers and couriers -/

theorem execCollect_capacitiesKept (r : Request) : CapacitiesKept (execCollect r) :=
  request_capacitiesKept fun s => customer_holds (.refl s) fun _ _ _ =>
    withClock_holds (.refl s) fun _ => (KeepsCapacities.refl s).ownCollect

theorem execPay_capacitiesKept (r : Request) : CapacitiesKept (execPay r) :=
  request_capacitiesKept fun s => by
    rw [echoPay_state]
    exact customer_holds (.refl s) fun _ _ _ => (KeepsCapacities.refl s).ownPay

theorem execReturnDrop_capacitiesKept (r : Request) : CapacitiesKept (execReturnDrop r) :=
  request_capacitiesKept fun s => customer_holds (.refl s) fun _ _ _ =>
    withClock_holds (.refl s) fun _ => (KeepsCapacities.refl s).ownReturnDrop

theorem execDoorStatus_capacitiesKept (r : Request) : CapacitiesKept (execDoorStatus r) :=
  request_capacitiesKept fun s => customer_holds (.refl s) fun _ _ _ => by split <;> exact .refl s

theorem withSession_keepsCapacities {k : KioskNo} {s : State} {own : Session → Answer}
    (h : ∀ x, sessionOf s k = some x → KeepsCapacities s (own x).state) :
    KeepsCapacities s (withSession k s own).state := by
  unfold withSession
  split
  next x session => exact h x session
  next => exact .refl s

theorem execSignOn_capacitiesKept (r : Request) : CapacitiesKept (execSignOn r) :=
  request_capacitiesKept fun _ => courierRequest_keepsCapacities fun _ _ s =>
    courierConcourse_holds (.refl s) (notLockedOut_holds (.refl s) fun _ => (KeepsCapacities.refl s).ownSignOn)

theorem execSignOff_capacitiesKept (r : Request) : CapacitiesKept (execSignOff r) :=
  request_capacitiesKept fun _ => courierRequest_keepsCapacities fun _ _ s =>
    withSession_keepsCapacities fun _ _ => (KeepsCapacities.refl s).endSession

theorem execDeclare_capacitiesKept (r : Request) : CapacitiesKept (execDeclare r) :=
  request_capacitiesKept fun _ => courierRequest_keepsCapacities fun _ _ s =>
    withSession_keepsCapacities fun _ session => by
      split
      · split
        · exact courierConcourse_holds (.refl s) ((KeepsCapacities.refl s).rangeDeclare session)
        · exact .refl s
      · exact .refl s

theorem execSessionStatus_capacitiesKept (r : Request) : CapacitiesKept (execSessionStatus r) :=
  request_capacitiesKept fun _ => courierRequest_keepsCapacities fun _ _ s =>
    withSession_keepsCapacities fun _ _ => .refl s

theorem execSweep_capacitiesKept (r : Request) : CapacitiesKept (execSweep r) :=
  request_capacitiesKept fun _ => courierRequest_keepsCapacities fun _ _ s =>
    withSession_keepsCapacities fun _ _ => by
      split; · exact .refl s
      split
      · split
        · exact .refl s
        · exact courierConcourse_holds (.refl s) (KeepsCapacities.refl s).startCourierSweep
      · exact .refl s

theorem InOrder.drain {w : CourierSweep} (h : InOrder w.entries) : InOrder w.drain.entries := by
  unfold CourierSweep.drain
  split
  · exact h
  · exact h.filter _

theorem execSweepEnd_capacitiesKept (r : Request) : CapacitiesKept (execSweepEnd r) :=
  request_capacitiesKept fun _ => courierRequest_keepsCapacities fun k _ s =>
    withSession_keepsCapacities fun x session => by
      split
      · exact .refl s
      next w sweep =>
        refine (KeepsCapacities.refl s).setSession fun i y v hy more => ?_
        cases hy
        rw [← CourierSweep.eq_of_orEnded more]
        exact InOrder.drain (i k x w session sweep)

/-! ### The backend and the staff -/

theorem execFetchNotice_capacitiesKept (r : Request) : CapacitiesKept (execFetchNotice r) :=
  request_capacitiesKept fun s => backendRequest_keepsCapacities fun _ => by
    split
    · exact (KeepsCapacities.refl s).same rfl
    · exact .refl s

theorem execRevoke_capacitiesKept (r : Request) : CapacitiesKept (execRevoke r) :=
  request_capacitiesKept fun s => backendRequest_keepsCapacities fun _ => by
    split; · exact .refl s
    split
    · exact (KeepsCapacities.refl s).removeEntry.setComp.setQuote
    · split <;> exact .refl s

/-- The removal of an entry leaves a free way free (R39). -/
theorem removeEntry_way {s : State} {c : CompNo} {i : Fin 256} (way : (look s.ret.directory i).length < 4) :
    (look (removeEntry c s).ret.directory i).length < 4 := by
  refine lt_of_le_of_lt ?_ way
  refine (congrArg List.length (look_map ..)).trans_le ?_
  exact List.length_filterMap_le ..

theorem execReissue_capacitiesKept (r : Request) : CapacitiesKept (execReissue r) :=
  request_capacitiesKept fun s => backendRequest_keepsCapacities fun _ => by
    split; · exact .refl s
    split; · exact .refl s
    split; · exact .refl s
    split
    next run => exact (KeepsCapacities.refl s).generation run
    next run =>
      have drawn := (KeepsCapacities.refl s).generation run
      exact (drawn.removeEntry.addEntry (removeEntry_way (generation_way run))).setComp

/-- The courier table is replaced by one that it can hold, and the sessions of a courier end (R91 to R93). -/
theorem keepsCapacities_loadCouriers {s : State} {id : Nat} {couriers : List Courier}
    (bounded : s.ret.couriers.length ≤ 64 → couriers.length ≤ 64) :
    KeepsCapacities s (endSessionsOf id { s with ret := { s.ret with couriers } }) := by
  have loaded : KeepsCapacities s { s with ret := { s.ret with couriers } } :=
    { KeepsCapacities.refl s with couriers := bounded }
  refine loaded.mapKiosks fun x => ?_
  split
  · exact .inr rfl
  · exact .inl rfl

theorem execLoadCourier_capacitiesKept (r : Request) : CapacitiesKept (execLoadCourier r) :=
  request_capacitiesKept fun s => backendRequest_keepsCapacities fun e => by
    split; · exact .refl s
    dsimp only
    split
    · exact .refl s
    next fits =>
      refine keepsCapacities_loadCouriers fun bounded => ?_
      split
      · rwa [List.length_map]
      next absent =>
        have room : s.ret.couriers.length < 64 := by simpa [absent] using fits
        rw [List.length_append]; exact room

theorem execRemoveCourier_capacitiesKept (r : Request) : CapacitiesKept (execRemoveCourier r) :=
  request_capacitiesKept fun s => backendRequest_keepsCapacities fun _ => by
    split; · exact .refl s
    split
    · exact .refl s
    · exact keepsCapacities_loadCouriers (List.length_filter_le ..).trans

theorem execLoadReturn_capacitiesKept (r : Request) : CapacitiesKept (execLoadReturn r) :=
  request_capacitiesKept fun s => backendRequest_keepsCapacities fun _ => by
    split; · exact .refl s
    split; · exact .refl s
    split; · exact .refl s
    split
    · exact .refl s
    next full =>
      have room : s.ret.returns.length < 256 := by omega
      exact { KeepsCapacities.refl s with returns := fun _ => by rw [List.length_append]; exact room }

theorem execRemoveReturn_capacitiesKept (r : Request) : CapacitiesKept (execRemoveReturn r) :=
  request_capacitiesKept fun s => backendRequest_keepsCapacities fun _ => by
    split; · exact .refl s
    split; · exact .refl s
    split
    · exact .refl s
    · exact (KeepsCapacities.refl s).changeReturn

theorem execSettle_capacitiesKept (r : Request) : CapacitiesKept (execSettle r) :=
  request_capacitiesKept fun s => backendRequest_keepsCapacities fun _ => by
    split
    · split
      · exact .refl s
      · exact (KeepsCapacities.refl s).same rfl
    · exact (KeepsCapacities.refl s).same rfl

theorem execQueryCompartment_capacitiesKept (r : Request) : CapacitiesKept (execQueryCompartment r) :=
  request_capacitiesKept fun _ => staffRequest_keepsCapacities fun _ t => by split <;> exact .refl t

theorem keepsCapacities_clearEmpty (c : CompNo) (s : State) : KeepsCapacities s (clearEmpty c s).state := by
  have kept := KeepsCapacities.refl s
  unfold clearEmpty; dsimp only
  split
  · split
    · split
      next => exact kept
      next slot => exact (kept.reserveSlot slot).setComp.fillSlot.removeEntry
    · exact kept.setComp
  · exact kept.setComp

theorem keepsCapacities_clearOccupied (c : CompNo) (s : State) : KeepsCapacities s (clearOccupied c s).state := by
  have kept := KeepsCapacities.refl s
  unfold clearOccupied; dsimp only
  split; · exact kept
  dsimp only
  split
  · split
    · exact kept.setComp.setEntryStatus
    · exact kept.setComp
  · exact kept.setComp

theorem execClear_capacitiesKept (r : Request) : CapacitiesKept (execClear r) :=
  request_capacitiesKept fun _ => staffRequest_keepsCapacities fun _ t => by
    split; · exact .refl t
    split; · exact .refl t
    split
    · exact keepsCapacities_clearEmpty _ t
    · exact keepsCapacities_clearOccupied _ t
    · exact .refl t

theorem execFetchAlarm_capacitiesKept (r : Request) : CapacitiesKept (execFetchAlarm r) :=
  request_capacitiesKept fun _ => staffRequest_keepsCapacities fun _ t => by
    split
    · exact .refl t
    · exact { KeepsCapacities.refl t with alarms := fun distinct => distinct.sublist (List.filter_sublist.map _) }

theorem execBroadcast_capacitiesKept (r : Request) : CapacitiesKept (execBroadcast r) :=
  request_capacitiesKept fun s => by
    split
    · exact withBody_holds (.refl s) fun _ => (KeepsCapacities.refl s).applyTime.applyCode
    · exact .refl s

/-! ### The service terminal -/

theorem keepsCapacities_moveSkc (x : SkcState) (deadline : Option Nat) (s : State) :
    KeepsCapacities s (moveSkc x deadline s) := (KeepsCapacities.refl s).same rfl

theorem execUnlockKey_capacitiesKept (r : Request) : CapacitiesKept (execUnlockKey r) :=
  request_capacitiesKept fun s => by
    split
    · refine withBody_holds (.refl s) fun ⟨index, word⟩ => ?_
      dsimp only
      unfold unlockWith
      split
      · split
        · unfold collectWord; split <;> exact keepsCapacities_moveSkc ..
        · exact keepsCapacities_moveSkc ..
      · split; · exact .refl s
        split
        · exact (KeepsCapacities.refl s).same rfl
        · exact keepsCapacities_moveSkc ..
    · exact .refl s

theorem execEndService_capacitiesKept (r : Request) : CapacitiesKept (execEndService r) :=
  request_capacitiesKept fun s => by
    split
    · refine withBody_holds (.refl s) fun _ => ?_
      unfold endService
      split
      case h_1 | h_2 => exact .refl s
      all_goals exact keepsCapacities_moveSkc ..
    · exact .refl s

theorem execLoadMap_capacitiesKept (r : Request) : CapacitiesKept (execLoadMap r) :=
  request_capacitiesKept fun _ => maintenance_keepsCapacities fun ⟨_, _⟩ t => by
    have stored (c : CompNo) (m : Option MapEntry) : KeepsCapacities t (storeMap c m t).state :=
      (KeepsCapacities.refl t).setComp
    dsimp only
    split
    · exact .refl t
    · split
      · exact stored ..
      · exact .refl t
    · split; · exact .refl t
      split; · exact .refl t
      split
      · exact .refl t
      · exact stored ..

theorem execLoadTariff_capacitiesKept (r : Request) : CapacitiesKept (execLoadTariff r) :=
  request_capacitiesKept fun _ => maintenance_keepsCapacities fun ⟨_, _⟩ t => by
    dsimp only
    split; · exact .refl t
    split
    · exact .refl t
    · exact (KeepsCapacities.refl t).same rfl

namespace KeepsCapacities

variable {s t : State} (h : KeepsCapacities s t)
include h

theorem unnameBoard {b : BoardNo} : KeepsCapacities s (unnameBoard b t) := by
  unfold Machine.unnameBoard
  split
  · exact h.declareLost
  · exact h.setBoard
  · exact h.setBoard
  · exact h

theorem nameBoard {b : BoardNo} : KeepsCapacities s (nameBoard b t) := by
  unfold Machine.nameBoard
  split
  · exact h.setBoard
  · exact h.setBoard
  · exact h
  · exact h

theorem storeSlot {g : SegNo} {slot : SlotNo} {content : Option SlotContent} :
    KeepsCapacities s (storeSlot g slot content t) := by
  have stored : KeepsCapacities s { t with ret := { t.ret with
      slots := put t.ret.slots g (put (look t.ret.slots g) slot content) } } := h.same rfl
  unfold Machine.storeSlot; dsimp only
  generalize ({ t with ret := { t.ret with
      slots := put t.ret.slots g (put (look t.ret.slots g) slot content) } } : State) = u at stored
  have left (former : Option SlotContent) : KeepsCapacities s (match former with
      | some x => if slotted u g x.board then u else Machine.unnameBoard x.board u
      | none => u) := by
    cases former with
    | none => exact stored
    | some x =>
      dsimp only
      split
      · exact stored
      · exact stored.unnameBoard
  cases content with
  | none => exact left _
  | some x =>
    dsimp only
    split
    · exact left _
    · exact (left _).nameBoard

end KeepsCapacities

theorem execLoadSlot_capacitiesKept (r : Request) : CapacitiesKept (execLoadSlot r) :=
  request_capacitiesKept fun _ => maintenance_keepsCapacities fun ⟨_, _, _⟩ t => by
    have stored (g : SegNo) (slot : SlotNo) (content : Option SlotContent) :
        KeepsCapacities t (acceptSlot g slot content t).state := (KeepsCapacities.refl t).storeSlot
    dsimp only
    split
    · exact stored ..
    · split; · exact .refl t
      split; · exact .refl t
      split; · exact .refl t
      exact stored ..
    · exact .refl t

theorem execSetBudget_capacitiesKept (r : Request) : CapacitiesKept (execSetBudget r) :=
  request_capacitiesKept fun _ => maintenance_keepsCapacities fun ⟨_, v⟩ t => by
    dsimp only
    split
    · exact .refl t
    next g _ =>
      exact KeepsCapacities.applyIssue
        (t := { t with ret := { t.ret with budgets := put t.ret.budgets g (clamp 1 3 v) } })
        ((KeepsCapacities.refl t).same rfl)

theorem execSetHold_capacitiesKept (r : Request) : CapacitiesKept (execSetHold r) :=
  request_capacitiesKept fun _ => maintenance_keepsCapacities fun _ t => (KeepsCapacities.refl t).same rfl

theorem execSetEnables_capacitiesKept (r : Request) : CapacitiesKept (execSetEnables r) :=
  request_capacitiesKept fun _ => maintenance_keepsCapacities fun _ t => (KeepsCapacities.refl t).same rfl

/-- A seed fits the generator's 32 bits, and one of 0 is taken as 1 (R36, R38). -/
theorem seed_ne_zero {bs : List Byte} {seed : Nat} (body : bodyNat 4 bs = some seed) :
    BitVec.ofNat 32 (if seed = 0 then 1 else seed) ≠ 0 := by
  have fits : seed < 256 ^ 4 := by
    simp only [bodyNat, Option.bind_eq_bind, Option.bind_eq_some_iff, Prod.exists, ended] at body
    obtain ⟨v, rest, read, last⟩ := body
    split at last
    · cases last; exact readNat_lt read
    · cases last
  have small : (if seed = 0 then 1 else seed) < 2 ^ 32 := by split <;> omega
  have positive : (if seed = 0 then 1 else seed) ≠ 0 := by split <;> omega
  generalize (if seed = 0 then 1 else seed) = v at small positive
  intro zero
  have := congrArg BitVec.toNat zero
  rw [BitVec.toNat_ofNat, Nat.mod_eq_of_lt small] at this
  exact positive this

theorem execSeedGenerator_capacitiesKept (r : Request) : CapacitiesKept (execSeedGenerator r) :=
  request_capacitiesKept fun _ => maintenance_keepsCapacities_of_parsed fun _ body t =>
    { KeepsCapacities.refl t with generator := fun _ => seed_ne_zero body }

theorem execSetKeys_capacitiesKept (r : Request) : CapacitiesKept (execSetKeys r) :=
  request_capacitiesKept fun _ => maintenance_keepsCapacities fun _ t => by
    split
    · exact .refl t
    · refine (KeepsCapacities.refl t).same ?_
      unfold storeKeys; dsimp only
      split <;> rfl

theorem execWithdraw_capacitiesKept (r : Request) : CapacitiesKept (execWithdraw r) :=
  request_capacitiesKept fun _ => maintenance_keepsCapacities fun _ t => by
    split; · exact .refl t
    split; · exact .refl t
    split
    · exact .refl t
    · exact (KeepsCapacities.refl t).same rfl

theorem execReinstate_capacitiesKept (r : Request) : CapacitiesKept (execReinstate r) :=
  request_capacitiesKept fun _ => maintenance_keepsCapacities fun _ t => by
    split; · exact .refl t
    split
    · exact .refl t
    · exact (KeepsCapacities.refl t).same rfl

theorem execRestart_capacitiesKept (r : Request) : CapacitiesKept (execRestart r) :=
  request_capacitiesKept fun _ => maintenance_keepsCapacities fun _ t => (KeepsCapacities.refl t).same rfl

theorem execBlank_capacitiesKept (r : Request) : CapacitiesKept (execBlank r) :=
  request_capacitiesKept fun _ => maintenance_keepsCapacities fun _ t => by
    split
    · exact (KeepsCapacities.refl t).same rfl
    · exact .refl t

/-! ### The trunk -/

/-- A frame joins a receive queue that has room for it (R208). -/
theorem execFrameReceive_capacitiesKept (bytes : List Byte) : CapacitiesKept (execFrameReceive bytes) :=
  event_capacitiesKept fun s t ht => by
    split at ht
    · obtain ⟨⟨-, room⟩, some⟩ := Option.ite_none_right_eq_some.mp ht
      cases some
      exact { KeepsCapacities.refl s with receive := fun _ => by rw [List.length_append]; exact room }
    · cases ht

theorem execReplyTransmitted_capacitiesKept : CapacitiesKept execReplyTransmitted :=
  event_capacitiesKept fun s t ht => by
    split at ht
    next waiting =>
      cases ht
      exact { KeepsCapacities.refl s with transmit := by rw [waiting]; exact Nat.le_succ _ }
    · cases ht

theorem execUnknownKind_capacitiesKept (kind : Byte) (r : Request) : CapacitiesKept (execUnknownKind kind r) := by
  intro s t run
  unfold execUnknownKind at run
  split at run
  · exact request_capacitiesKept (fun u => .refl u) s t run
  · cases run; exact (KeepsCapacities.refl s).staysWithin

/-! ### Resets and power -/

/-- A start leaves every queue empty and no session, with the retained tables it is given (R31). -/
theorem staysWithin_coldStart {r : Retained} {s : State} (straps : BankId) {alarms : List Alarm}
    (tables : TablesBounded s → TablesBounded { s with ret := r })
    (distinct : (alarms.map fun a => (a.kind, a.object)).Nodup) : StaysWithin s (coldStart r straps alarms s) := by
  unfold coldStart
  refine StaysWithin.trans ?_
    ((KeepsCapacities.refl _).forEach fun _ t => (KeepsCapacities.refl t).startSweep).staysWithin
  refine ⟨fun _ => ⟨Nat.zero_le _, Nat.zero_le _, Nat.zero_le _⟩, fun _ g => ?_, tables, fun _ => distinct,
    fun _ k x w signedOn => ?_⟩
  · simp [State.seg, freshSegment]
  · simp [State.kiosk, freshKiosk] at signedOn

theorem staysWithin_restartPart (straps : BankId) (s : State) : StaysWithin s (restartPart straps s) :=
  staysWithin_coldStart straps id List.nodup_nil

theorem staysWithin_blankPart (straps : BankId) (s : State) : StaysWithin s (blankPart straps s) :=
  staysWithin_coldStart straps (fun _ => tablesBounded_reset) (List.nodup_singleton _)

theorem execReset_capacitiesKept (cause : ResetCause) (straps : BankId) : CapacitiesKept (execReset cause straps) := by
  intro s t run
  cases run
  split
  · unfold resetPart
    split
    · exact staysWithin_restartPart straps s
    · exact staysWithin_blankPart straps s
  · exact (KeepsCapacities.refl s).staysWithin

theorem execBlankStart_capacitiesKept (straps : BankId) : CapacitiesKept (execBlankStart straps) := by
  intro s t run
  cases run
  split
  · exact staysWithin_blankPart straps s
  · exact (KeepsCapacities.refl s).staysWithin

theorem execLossOfMainPower_capacitiesKept (interrupted : Bool) : CapacitiesKept (execLossOfMainPower interrupted) := by
  intro s t run
  cases run
  refine KeepsCapacities.staysWithin ?_
  split
  · exact .refl s
  · split <;> exact (KeepsCapacities.refl s).same rfl

/-! ### The clock and the deadlines -/

theorem execClockTick_capacitiesKept : CapacitiesKept execClockTick :=
  event_capacitiesKept fun s t ht => by
    dsimp only at ht
    split at ht
    · split at ht <;> (cases ht; exact (KeepsCapacities.refl s).same rfl)
    · cases ht; exact (KeepsCapacities.refl s).same rfl

theorem KeepsCapacities.setBoundariesDue {s t : State} {n : Nat} (h : KeepsCapacities s t) :
    KeepsCapacities s { t with boundariesDue := n } := h.same rfl

theorem execMinuteBoundary_capacitiesKept : CapacitiesKept execMinuteBoundary :=
  event_capacitiesKept fun s t ht => by
    split at ht
    · exact keepsCapacities_of_due ht (KeepsCapacities.refl s).takeBoundary.setBoundariesDue
    · cases ht

theorem execQuoteExpiry_capacitiesKept (c : CompNo) : CapacitiesKept (execQuoteExpiry c) :=
  event_capacitiesKept fun s t ht => by
    split at ht
    · exact keepsCapacities_of_due ht (KeepsCapacities.refl s).dropQuote
    · cases ht

theorem execLockoutDeadline_capacitiesKept (k : KioskNo) : CapacitiesKept (execLockoutDeadline k) :=
  event_capacitiesKept fun s t ht => by
    split at ht
    · exact keepsCapacities_of_due ht (KeepsCapacities.refl s).setKiosk_record
    · cases ht

theorem execInactivityDeadline_capacitiesKept (k : KioskNo) : CapacitiesKept (execInactivityDeadline k) :=
  event_capacitiesKept fun s t ht => by
    split at ht
    · exact keepsCapacities_of_due ht (KeepsCapacities.refl s).endSession
    · cases ht

theorem execEnergiseDeadline_capacitiesKept (c : CompNo) : CapacitiesKept (execEnergiseDeadline c) :=
  event_capacitiesKept fun s t ht => by
    split at ht
    · split at ht
      · exact keepsCapacities_of_due ht (KeepsCapacities.refl s).energiseEnds
      · cases ht
    · cases ht

theorem execConfirmDeadline_capacitiesKept (c : CompNo) : CapacitiesKept (execConfirmDeadline c) :=
  event_capacitiesKept fun s t ht => by
    split at ht
    · split at ht
      · exact keepsCapacities_of_due ht (KeepsCapacities.refl s).attemptFails
      · cases ht
    · cases ht

theorem execStrikeAgeing_capacitiesKept (c : CompNo) : CapacitiesKept (execStrikeAgeing c) :=
  event_capacitiesKept fun s t ht => by
    split at ht
    · exact keepsCapacities_of_due ht (KeepsCapacities.refl s).dropQueued.cancelTransaction.applyIssue
    · cases ht

theorem execAjarDeadline_capacitiesKept (c : CompNo) : CapacitiesKept (execAjarDeadline c) :=
  event_capacitiesKept fun s t ht => by
    split at ht
    · exact keepsCapacities_of_due ht (KeepsCapacities.refl s).setAjar.postAlarm
    · cases ht
    · cases ht

theorem execKioskIdleDeadline_capacitiesKept : CapacitiesKept execKioskIdleDeadline :=
  event_capacitiesKept fun s t ht => by
    split at ht
    · exact keepsCapacities_of_due ht ((KeepsCapacities.refl s).same rfl)
    · cases ht

theorem execUnlockDeadline_capacitiesKept : CapacitiesKept execUnlockDeadline :=
  event_capacitiesKept fun s t ht => by
    split at ht
    · exact keepsCapacities_of_due ht ((KeepsCapacities.refl s).same rfl)
    · cases ht

/-! ### Sweeps and polls -/

theorem execQuietSweepStart_capacitiesKept (g : SegNo) : CapacitiesKept (execQuietSweepStart g) :=
  event_capacitiesKept fun s _ ht => keepsCapacities_of_due ht (KeepsCapacities.refl s).startSweep

theorem execPollOutcome_capacitiesKept (g : SegNo) (heard : Option (List Byte)) :
    CapacitiesKept (execPollOutcome g heard) :=
  event_capacitiesKept fun s t ht => by
    split at ht
    · cases ht; exact (KeepsCapacities.refl s).takeOutcome.setRates.advanceSweep
    · cases ht
    · cases ht

theorem execSweepIssue_capacitiesKept (k : KioskNo) : CapacitiesKept (execSweepIssue k) :=
  event_capacitiesKept fun s t ht => by
    obtain ⟨-, -, rfl⟩ := Option.map_eq_some_iff.mp ht
    exact (KeepsCapacities.refl s).applyPickup

theorem execSweepThatPollsNoSlotEnds_capacitiesKept (g : SegNo) : CapacitiesKept (execSweepThatPollsNoSlotEnds g) :=
  event_capacitiesKept fun s _ ht => keepsCapacities_of_due ht (KeepsCapacities.refl s).endSweep

/-! ### Every command -/

theorem exec_capacitiesKept (c : Instr) : CapacitiesKept (exec c) := by
  cases c with
  | frameReceive bytes => exact execFrameReceive_capacitiesKept bytes
  | replyTransmitted => exact execReplyTransmitted_capacitiesKept
  | unknownKind kind r => exact execUnknownKind_capacitiesKept kind r
  | collect r => exact execCollect_capacitiesKept r
  | pay r => exact execPay_capacitiesKept r
  | returnDrop r => exact execReturnDrop_capacitiesKept r
  | doorStatus r => exact execDoorStatus_capacitiesKept r
  | signOn r => exact execSignOn_capacitiesKept r
  | signOff r => exact execSignOff_capacitiesKept r
  | declare r => exact execDeclare_capacitiesKept r
  | sessionStatus r => exact execSessionStatus_capacitiesKept r
  | sweep r => exact execSweep_capacitiesKept r
  | sweepEnd r => exact execSweepEnd_capacitiesKept r
  | fetchNotice r => exact execFetchNotice_capacitiesKept r
  | revoke r => exact execRevoke_capacitiesKept r
  | reissue r => exact execReissue_capacitiesKept r
  | loadCourier r => exact execLoadCourier_capacitiesKept r
  | removeCourier r => exact execRemoveCourier_capacitiesKept r
  | loadReturn r => exact execLoadReturn_capacitiesKept r
  | removeReturn r => exact execRemoveReturn_capacitiesKept r
  | settle r => exact execSettle_capacitiesKept r
  | queryCompartment r => exact execQueryCompartment_capacitiesKept r
  | clear r => exact execClear_capacitiesKept r
  | fetchAlarm r => exact execFetchAlarm_capacitiesKept r
  | broadcast r => exact execBroadcast_capacitiesKept r
  | unlockKey r => exact execUnlockKey_capacitiesKept r
  | endService r => exact execEndService_capacitiesKept r
  | loadMap r => exact execLoadMap_capacitiesKept r
  | loadTariff r => exact execLoadTariff_capacitiesKept r
  | loadSlot r => exact execLoadSlot_capacitiesKept r
  | setBudget r => exact execSetBudget_capacitiesKept r
  | setHold r => exact execSetHold_capacitiesKept r
  | setEnables r => exact execSetEnables_capacitiesKept r
  | seedGenerator r => exact execSeedGenerator_capacitiesKept r
  | setKeys r => exact execSetKeys_capacitiesKept r
  | withdraw r => exact execWithdraw_capacitiesKept r
  | reinstate r => exact execReinstate_capacitiesKept r
  | restart r => exact execRestart_capacitiesKept r
  | blank r => exact execBlank_capacitiesKept r
  | reset cause straps => exact execReset_capacitiesKept cause straps
  | blankStart straps => exact execBlankStart_capacitiesKept straps
  | clockTick => exact execClockTick_capacitiesKept
  | minuteBoundary => exact execMinuteBoundary_capacitiesKept
  | quoteExpiry c => exact execQuoteExpiry_capacitiesKept c
  | lockoutDeadline k => exact execLockoutDeadline_capacitiesKept k
  | inactivityDeadline k => exact execInactivityDeadline_capacitiesKept k
  | energiseDeadline c => exact execEnergiseDeadline_capacitiesKept c
  | confirmDeadline c => exact execConfirmDeadline_capacitiesKept c
  | strikeAgeing c => exact execStrikeAgeing_capacitiesKept c
  | ajarDeadline c => exact execAjarDeadline_capacitiesKept c
  | kioskIdleDeadline => exact execKioskIdleDeadline_capacitiesKept
  | unlockDeadline => exact execUnlockDeadline_capacitiesKept
  | quietSweepStart g => exact execQuietSweepStart_capacitiesKept g
  | pollOutcome g heard => exact execPollOutcome_capacitiesKept g heard
  | sweepIssue k => exact execSweepIssue_capacitiesKept k
  | sweepThatPollsNoSlotEnds g => exact execSweepThatPollsNoSlotEnds_capacitiesKept g
  | lossOfMainPower interrupted => exact execLossOfMainPower_capacitiesKept interrupted

/-- Settles O58: a step runs the front command, or idles. -/
theorem capacitiesAreKept : Obligations.CapacitiesAreKept := by
  intro s t run
  have within : StaysWithin s t := by
    unfold step at run
    split at run
    next c rest _ =>
      have front : KeepsCapacities s { s with pending := rest } := (KeepsCapacities.refl s).same rfl
      exact front.staysWithin.trans (exec_capacitiesKept c _ t run)
    next => cases run; exact (KeepsCapacities.refl s).staysWithin
  exact ⟨within.trunk, within.queues, within.tables, within.alarms, within.pickups⟩

end Sys2Proof.Machine

/-! Load Return and Remove Return (R132 to R134). -/

namespace Sys2Proof.Machine

/-- A well-formed Load Return in range, of a new reference and with an entry free, appends its entry (R133). -/
theorem execLoadReturn_own {r : Request} {s : State} {f : LoadReturnFields} {cls : SizeClass}
    (source : r.source = .backend) (body : bodyLoadReturn r.body = some f) (named : classOf? f.cls = some cls)
    (reference : f.reference ≤ maxReturnReference) (courier : 1 ≤ f.courier ∧ f.courier ≤ 65535)
    (postage : f.postage ≤ 999999) (new : returnOf s f.reference = none) (room : s.ret.returns.length < 256) :
    ∃ own, exec (.loadReturn r) s = request 16 r s own
      ∧ own { s with receive := s.receive.tail } =
        { state := { s with
            receive := s.receive.tail, ret := { s.ret with returns := s.ret.returns ++ [newReturn f cls] } }
          status := .accepted, body := [] } := by
  have inRange : ¬ (maxReturnReference < f.reference ∨ f.courier = 0 ∨ 65535 < f.courier ∨ 999999 < f.postage) := by
    omega
  have absent : ¬ s.ret.returns.any (·.reference = f.reference) = true := fun listed => by
    obtain ⟨e, mem, same⟩ := List.any_eq_true.mp listed
    exact List.find?_eq_none.mp new e mem same
  unfold exec execLoadReturn
  refine ⟨_, rfl, ?_⟩
  rw [fromBackend_body source body]
  simp only [named, if_neg inRange, if_neg absent, if_neg room.not_ge]

theorem changeReturn_removes (reference : Nat) (s : State) :
    changeReturn reference (fun _ => none) s =
      { s with ret := { s.ret with returns := s.ret.returns.filter (·.reference ≠ reference) } } := by
  have left : (s.ret.returns.filterMap fun e => if e.reference = reference then none else some e)
      = s.ret.returns.filter (·.reference ≠ reference) := by
    rw [← List.filterMap_eq_filter]
    refine List.filterMap_congr fun e _ => ?_
    by_cases named : e.reference = reference <;> simp [named, Option.guard]
  unfold changeReturn
  rw [left]

/-- A well-formed Remove Return in range, of a reference on the list: an entry in use answers BUSY, another leaves the
list (R134). -/
theorem execRemoveReturn_own {r : Request} {s : State} {reference : Nat} {e : ReturnEntry}
    (source : r.source = .backend) (body : bodyNat 5 r.body = some reference) (inRange : reference ≤ maxReturnReference)
    (entry : returnOf s reference = some e) :
    ∃ own, exec (.removeReturn r) s = request 17 r s own
      ∧ own { s with receive := s.receive.tail } =
        if e.inUse then refuse { s with receive := s.receive.tail } .busy
        else
          { state := { s with
              receive := s.receive.tail
              ret := { s.ret with returns := s.ret.returns.filter (·.reference ≠ reference) } }
            status := .accepted, body := returnField e } := by
  have found : s.ret.returns.find? (·.reference = reference) = some e := entry
  unfold exec execRemoveReturn
  refine ⟨_, rfl, ?_⟩
  rw [fromBackend_body source body]
  simp only [if_neg inRange.not_gt, found, changeReturn_removes]

/-- Settles O27: the list changes, or an entry in use stays. -/
theorem returnsListLoads : Obligations.ReturnsListLoads := by
  refine ⟨fun r s f cls ready source body settled named reference low high postage new room => ?_,
    fun r s reference e ready source body settled inRange entry => ?_⟩
  · obtain ⟨own, run, answer⟩ :=
      execLoadReturn_own source body named reference ⟨low, high⟩ postage new room
    rw [run]
    exact backend_changes_records (kind := 16) ready source settled answer rfl rfl
  · obtain ⟨own, run, answer⟩ := execRemoveReturn_own source body inRange entry
    rw [run]
    split at answer
    next inUse => rw [if_pos inUse]; exact backend_refused (kind := 17) ready source settled answer
    next free => rw [if_neg free]; exact backend_changes_records (kind := 17) ready source settled answer rfl rfl

end Sys2Proof.Machine

/-! Sweep End (R149). -/

namespace Sys2Proof.Machine

/-- Sweep End's answer: by the kiosk's slot, and by the session's sweep (R149). -/
def sweepEndAnswer (k : KioskNo) (s : State) : Answer :=
  withSession k s fun x =>
    match x.sweep with
    | none => refuse s .badState
    | some w =>
      { state := setSession k (some { x with sweep := w.drain.orEnded }) s, status := .accepted
        body := sweepEndBody w.drain }

/-- A Sweep End from a kiosk comes to the kiosk's slot (R149). -/
theorem execSweepEnd_own {r : Request} {k : KioskNo} (source : r.source = .kiosk k) (body : r.body = []) (s : State) :
    ∃ own, exec (.sweepEnd r) s = request 10 r s own ∧ own (taken r s) = sweepEndAnswer k (noted k r s) := by
  have parsed : bodyEmpty r.body = some () := by rw [body]; rfl
  unfold exec execSweepEnd
  refine ⟨_, rfl, ?_⟩
  rw [courierRequest_noted source parsed]
  rfl

theorem touchedKiosks_signedOn {k : KioskNo} {s : State} {x : Session} (session : (s.kiosk k).session = some x) :
    touchedKiosks k s = put s.kiosks k { s.kiosk k with session := some { x with deadline := s.elapsed + 120 } } := by
  unfold touchedKiosks; rw [session]

/-- A session without a pickup list is answered BAD_STATE. -/
theorem sweepEndAnswer_none {k : KioskNo} {r : Request} {s : State} {x : Session}
    (session : (s.kiosk k).session = some x) (sweep : x.sweep = none) :
    sweepEndAnswer k (noted k r s) = refuse (noted k r s) .badState := by
  unfold sweepEndAnswer
  rw [withSession_some (sessionOf_noted_some session)]
  simp only [sweep]

/-- One with a list keeps what is left of the sweep, and is answered with its figures. -/
theorem sweepEndAnswer_some {k : KioskNo} {r : Request} {s : State} {x : Session} {w : CourierSweep}
    (session : (s.kiosk k).session = some x) (sweep : x.sweep = some w) :
    sweepEndAnswer k (noted k r s) =
      { state := { taken r s with kiosks := put s.kiosks k { s.kiosk k with session := some { x with
          deadline := s.elapsed + 120, sweep := w.drain.orEnded } } }
        status := .accepted, body := sweepEndBody w.drain } := by
  unfold sweepEndAnswer
  rw [withSession_some (sessionOf_noted_some session)]
  simp only [sweep, setSession_noted]

/-- The figures of a sweep that Sweep End finds in ISSUING: what is left of it is all IN_FLIGHT (R149). -/
theorem sweepEndBody_issuing {w : CourierSweep} (issuing : w.draining = false) :
    sweepEndBody w.drain =
      be 1 w.retrieved ++ be 1 w.skipped ++ be 1 (w.dropped + (w.entries.filter (!·.inFlight)).length)
        ++ be 1 (w.entries.filter (·.inFlight)).length := by
  have drained : w.drain = _ := if_neg (Bool.eq_false_iff.mp issuing)
  rw [drained, sweepEndBody, CourierSweep.inFlight, List.filter_filter]
  simp only [Bool.and_self]

/-- Settles O22: by the kiosk's slot, by the session's sweep, and by the state of the sweep. -/
theorem sweepEndDrains : Obligations.SweepEndDrains := by
  intro r s k ready source body settled
  obtain ⟨own, run, answer⟩ := execSweepEnd_own source body s
  cases session : (s.kiosk k).session with
  | none =>
    obtain ⟨t, done, strikes, same⟩ := courier_refused (kind := 10) ready settled
      (answer.trans (withSession_none (sessionOf_noted_none session) _))
    rw [touchedKiosks_signedOff session] at same
    exact ⟨t, run.trans done, strikes, fun _ => same, nofun, nofun, nofun⟩
  | some x =>
    cases sweep : x.sweep with
    | none =>
      obtain ⟨t, done, strikes, same⟩ := courier_refused (kind := 10) ready settled
        (answer.trans (sweepEndAnswer_none session sweep))
      rw [touchedKiosks_signedOn session] at same
      refine ⟨t, run.trans done, strikes, nofun, fun y eq _ => ?_, fun y w eq h => ?_, fun y w eq h => ?_⟩
      · cases eq; exact same
      · cases eq; rw [sweep] at h; cases h
      · cases eq; rw [sweep] at h; cases h
    | some w =>
      obtain ⟨t, done, strikes, same⟩ := request_replied (kind := 10) ready settled own
        (answer.trans (sweepEndAnswer_some session sweep))
      refine ⟨t, run.trans done, strikes, nofun, fun y eq h => ?_, fun y v eq h issuing => ?_,
        fun y v eq h draining listed => ?_⟩
      · cases eq; rw [sweep] at h; cases h
      · cases eq; rw [sweep] at h; cases h
        have drained : w.drain = _ := if_neg (Bool.eq_false_iff.mp issuing)
        rw [sweepEndBody_issuing issuing, drained] at same
        exact same
      · cases eq; rw [sweep] at h; cases h
        have drained : w.drain = w := if_pos draining
        have more : w.orEnded = some w := if_neg listed
        rw [drained, more, ← sweep] at same
        exact same

end Sys2Proof.Machine

/-! The issue of a waiting courier sweep's entries (R146, R147). -/

namespace Sys2Proof.Machine

/-! ### The end of the event that applies the issue rule -/

/-- What holds an entry up depends on the retained state and the strike queues alone (R146). -/
theorem issueHeldUp_congr {s t : State} (ret : t.ret = s.ret) (queues : ∀ g, (t.seg g).queue = (s.seg g).queue)
    (e : PickupEntry) : issueHeldUp t e = issueHeldUp s e := by
  have room (g : SegNo) : queueHasRoom t g = queueHasRoom s g := by unfold queueHasRoom; rw [queues]
  have seg : segOf t e.compartment = segOf s e.compartment := by unfold segOf boardOf State.comp; rw [ret]
  unfold issueHeldUp outboxHasRoom
  rw [ret, seg]
  simp only [room]

/-- What an application of the issue rule from one state has left in another: `PickupsRun` for the end of its event, where
rate modes, the attention line and the check word have followed. -/
structure PickupsEnd (k : KioskNo) (x : Session) (w : CourierSweep) (A B : List PickupEntry) (s t : State) (n : Nat)
    (taken : List PickupEntry) : Prop where
  gone         : n ≤ B.length
  listed       : taken = (B.take n).filter (asListed s x.courier)
  few          : taken = [] ∨ A.length + taken.length ≤ 4
  kiosk        : t.kiosk k = { s.kiosk k with session := some { x with sweep := ({ w with
                   entries := A ++ (taken.map PickupEntry.issued ++ B.drop n)
                   skipped := w.skipped + (n - taken.length) } : CourierSweep).orEnded } }
  granted      : ∀ f ∈ taken, Granted k x s t f.compartment
  others       : ∀ d, d ∉ taken.map (·.compartment) → KeepsComp s t d
  stop         : 4 ≤ A.length + taken.length ∨ n = B.length ∨ ∃ f, (B.drop n).head? = some f ∧ issueHeldUp t f = true
  reservations : t.ret.reservations = s.ret.reservations + taken.length
  kiosks       : KeepsOtherKiosks k s t

theorem PickupsRun.ends {k : KioskNo} {x : Session} {w : CourierSweep} {A B : List PickupEntry} {s u t : State}
    (run : PickupsRun k x w A B s u) (ret : t.ret = u.ret) (quotes : t.quotes = u.quotes) (kiosks : t.kiosks = u.kiosks)
    (strikes : ∀ g, (t.seg g).queue = (u.seg g).queue ∧ (t.seg g).active = (u.seg g).active) :
    ∃ n taken, (n = 0 → u = s) ∧ PickupsEnd k x w A B s t n taken := by
  obtain ⟨n, taken, still, gone, listed, few, kiosk, granted, others, stop, reservations, elsewhere, -, -⟩ := run
  have comp (d : CompNo) : KeepsComp u t d := keepsComp_of_eq (comp_of_ret ret d) (quoteOf_of_quotes quotes d)
  have kiosk' (j : KioskNo) : t.kiosk j = u.kiosk j := congrArg (fun v => look v j) kiosks
  refine ⟨n, taken, still, gone, listed, few, (kiosk' k).trans kiosk, fun f mem => ?_, fun d off => ?_, ?_, ?_,
    fun j other => ?_⟩
  · have own := granted f mem
    exact own.keep (comp _) (striking_of_queues strikes own.struck)
  · exact (others d off).trans (comp d)
  · refine stop.imp_right (Or.imp_right fun ⟨f, first, held⟩ => ⟨f, first, ?_⟩)
    rwa [issueHeldUp_congr ret fun g => (strikes g).1]
  · rw [ret, reservations]
  · exact (kiosk' j).trans (elsewhere j other)

/-- Where the first waiting entry is not held up, the rule goes through at least that one. -/
theorem PickupsEnd.progress {k : KioskNo} {x : Session} {w : CourierSweep} {A B taken : List PickupEntry} {s t : State}
    {n : Nat} {e : PickupEntry} (ends : PickupsEnd k x w A B s t n taken) (few : A.length < 4) (head : B.head? = some e)
    (free : issueHeldUp s e = false)
    (still : n = 0 → t.ret = s.ret ∧ ∀ g, (t.seg g).queue = (s.seg g).queue) : 0 < n := by
  refine Nat.pos_of_ne_zero fun zero => ?_
  have none : taken = [] := by rw [ends.listed, zero]; rfl
  obtain four | all | ⟨f, first, held⟩ := ends.stop
  · rw [none] at four; exact absurd few (Nat.not_lt.mpr four)
  · rw [zero] at all; rw [List.length_eq_zero_iff.mp all.symm] at head; cases head
  · obtain ⟨ret, queues⟩ := still zero
    rw [zero, List.drop_zero, head] at first
    cases first
    rw [issueHeldUp_congr ret queues, free] at held
    cases held

/-- The end of the event adds to what the rule has changed only the check word, the attention line and the rate modes. -/
theorem Picked.settled {k : KioskNo} {s u : State} (picked : Picked k s u) {t : State} (ends : t = settle u) :
    t = { s with
      ret := { s.ret with compartments := t.ret.compartments, reservations := t.ret.reservations }
      checkWord := t.checkWord, quotes := t.quotes, kiosks := t.kiosks, segments := t.segments
      boards := t.boards, alarms := t.alarms, attention := t.attention } := by
  have same : t = { u with segments := t.segments, attention := t.attention, checkWord := t.checkWord } := by
    rw [ends]; exact settle_rest u
  have ret : t.ret = u.ret := by rw [same]
  have quotes : t.quotes = u.quotes := by rw [same]
  have kiosks : t.kiosks = u.kiosks := by rw [same]
  have boards : t.boards = u.boards := by rw [same]
  have alarms : t.alarms = u.alarms := by rw [same]
  rw [ret, ← picked.ret, quotes, kiosks, boards, alarms]
  refine same.trans ?_
  generalize t.segments = segments, t.attention = attention, t.checkWord = word
  rw [picked.rest]

/-! ### SWEEP_ISSUE -/

/-- The rule issues nothing in DRAINING (R146). -/
theorem issuePickup_draining {k : KioskNo} {x : Session} {w : CourierSweep} {s : State}
    (session : (s.kiosk k).session = some x) (sweep : x.sweep = some w) (draining : w.draining = true) :
    issuePickup k s = none := by
  unfold issuePickup sessionOf
  rw [session]
  simp [sweep, draining]

section sweepIssue

variable {k : KioskNo} {x : Session} {w : CourierSweep} {A B : List PickupEntry} {s : State}
  (session : (s.kiosk k).session = some x) (sweep : x.sweep = some w) (entries : w.entries = A ++ B)
  (flying : ∀ e ∈ A, e.inFlight = true) (resting : ∀ e ∈ B, e.inFlight = false)
include session sweep entries flying resting

/-- The rule issues or removes nothing exactly where one of its conditions fails (R146). -/
theorem issuePickup_idle
    (idle : w.draining = true ∨ 4 ≤ A.length ∨ ∀ e, B.head? = some e → issueHeldUp s e = true) :
    issuePickup k s = none := by
  cases issuing : w.draining with
  | true => exact issuePickup_draining session sweep issuing
  | false =>
    have whole : w = { w with entries := A ++ B } := by rw [← entries]
    rw [issuePickup_eq session sweep issuing]
    cases B with
    | nil => rw [whole, List.append_nil, firstUnissued_none flying]; rfl
    | cons e B =>
      have count : w.inFlight = A.length := by rw [whole]; exact inFlight_split flying resting
      have first : w.firstUnissued = some e := by rw [whole]; exact firstUnissued_some flying (resting e List.mem_cons_self)
      rw [first, Option.bind_some, count]
      refine if_pos ?_
      obtain draining | four | held := idle
      · rw [issuing] at draining; cases draining
      · exact .inl four
      · exact .inr (held e rfl)

theorem issuePickup_due {e : PickupEntry} (issuing : w.draining = false) (few : A.length < 4) (head : B.head? = some e)
    (free : issueHeldUp s e = false) : (issuePickup k s).isSome = true := by
  obtain ⟨B, rfl⟩ := List.head?_eq_some_iff.mp head
  have whole : w = { w with entries := A ++ e :: B } := by rw [← entries]
  have count : w.inFlight = A.length := by rw [whole]; exact inFlight_split flying resting
  have first : w.firstUnissued = some e := by rw [whole]; exact firstUnissued_some flying (resting e List.mem_cons_self)
  rw [issuePickup_eq session sweep issuing, first, Option.bind_some, count, if_neg (by simp [free, few])]
  split <;> rfl

end sweepIssue

theorem exec_sweepIssue_idle {k : KioskNo} {s : State} (idle : issuePickup k s = none) :
    exec (.sweepIssue k) s = .next s :=
  event_none (effect := fun s => (issuePickup k s).map fun _ => applyPickup k s) (by rw [idle]; rfl)

theorem exec_sweepIssue_due {k : KioskNo} {s : State} (power : s.run ≠ .unpowered)
    (due : (issuePickup k s).isSome = true) : exec (.sweepIssue k) s = .next (settle (applyPickup k s)) := by
  obtain ⟨v, due⟩ := Option.isSome_iff_exists.mp due
  exact event_some (effect := fun s => (issuePickup k s).map fun _ => applyPickup k s) power (by rw [due]; rfl)

/-- Settles O52: where the rule's conditions hold it is applied as far as they do. -/
theorem sweepIssueGrants : Obligations.SweepIssueGrants := by
  intro k x w A B s power session sweep entries flying resting distinct
  refine ⟨fun idle => exec_sweepIssue_idle (issuePickup_idle session sweep entries flying resting idle),
    fun e issuing few head free => ?_⟩
  rw [exec_sweepIssue_due power (issuePickup_due session sweep entries flying resting issuing few head free)]
  have listed : A ++ B ≠ [] := by
    obtain ⟨B, rfl⟩ := List.head?_eq_some_iff.mp head
    simp
  have open' : (s.kiosk k).session = some { x with sweep := ({ w with entries := A ++ B } : CourierSweep).orEnded } := by
    rw [session, CourierSweep.orEnded, if_neg listed, ← entries, ← sweep]
  have length : listLength s k = A.length + B.length := by
    rw [listLength, sessionOf, session, Option.bind_some, sweep, ← List.length_append, ← entries]
  have issued := issuePickups_run k x (listLength s k) w A B s open' issuing flying resting (entries ▸ distinct) (by omega)
  have frame := (picked_applyPickup k s).settled rfl
  change PickupsRun k x w A B s (applyPickup k s) at issued
  generalize applyPickup k s = u at issued frame ⊢
  have same := settle_eq u
  have queues (g : SegNo) := keepsStrikes_settle u g
  generalize settle u = t at same queues frame ⊢
  have ret : t.ret = u.ret := by rw [same]
  obtain ⟨n, taken, still, ends⟩ := issued.ends ret (by rw [same]) (by rw [same]) fun g => ⟨(queues g).1, (queues g).2.1⟩
  refine ⟨t, rfl, ⟨n, taken, ?_, ends.gone, ends.listed, ?_, ?_, ends.kiosks, ends.reservations, fun f mem => ?_,
    ends.others, ends.stop⟩, ?_⟩
  · exact ends.progress few head free fun zero =>
      ⟨ret.trans (congrArg State.ret (still zero)), fun g => (queues g).1.trans (by rw [still zero])⟩
  · obtain none | within := ends.few
    · rw [none]; exact few.le
    · exact within
  · rw [List.append_assoc]
    exact ends.kiosk
  · obtain ⟨state, transient, map, parcel, quote, struck⟩ := ends.granted f mem
    exact ⟨state, transient, map, parcel, quote, struck⟩
  · exact frame

end Sys2Proof.Machine

/-! Sweep (R143 to R146): the pickup list and the grants from its front. -/

namespace Sys2Proof.Machine

/-! ### The pickup list -/

/-- Every entry of a new list stands as listed (R144, R146). -/
theorem asListed_of_mem {s : State} {k : KioskNo} {courier : Nat} {returns recover : Bool} {e : PickupEntry}
    (mem : e ∈ pickupList s k courier returns recover) : asListed s courier e = true := by
  obtain ⟨c, -, made⟩ := List.mem_filterMap.mp (List.mem_of_mem_take mem)
  obtain ⟨kind, listed, rfl⟩ := Option.map_eq_some_iff.mp made
  unfold listedKind at listed; dsimp only at listed
  split at listed; · cases listed
  split at listed
  next own => cases listed; exact (Bool.and_eq_true_iff.mp own).2
  next =>
    split at listed
    next own => cases listed; exact (Bool.and_eq_true_iff.mp own).2
    next => cases listed

theorem kiosk_noted_other {j k : KioskNo} (other : j ≠ k) (r : Request) (s : State) :
    (noted k r s).kiosk j = s.kiosk j := by
  show look (touchedKiosks k s) j = look s.kiosks j
  unfold touchedKiosks
  split
  · exact look_put_other _ _ other
  · rfl

/-- The list is built from the compartments and from what the other kiosks' sweeps list (R144). -/
theorem pickupList_noted (k : KioskNo) (r : Request) (s : State) (courier : Nat) (returns recover : Bool) :
    pickupList (noted k r s) k courier returns recover = pickupList s k courier returns recover := by
  have elsewhere (c : CompNo) (j : KioskNo) :
      (decide (j ≠ k) && onList (noted k r s) j c) = (decide (j ≠ k) && onList s j c) := by
    by_cases own : j = k
    · simp [own]
    · unfold onList sessionOf
      rw [kiosk_noted_other own]
  have kind (c : CompNo) :
      listedKind (noted k r s) k courier returns recover c = listedKind s k courier returns recover c := by
    unfold listedKind
    simp only [elsewhere]
    rfl
  unfold pickupList
  simp only [kind]

/-! ### A request that ends with the issue rule -/

/-- A ready request whose owner changes at most the kiosks, and then applies the issue rule to one's sweep (R146). -/
theorem request_issues_pickups {kind : Nat} {r : Request} {s v : State} {own : State → Answer} {status : Status}
    {body : List Byte} {k : KioskNo} (ready : Ready kind r s)
    (answer : own (taken r s) = { state := applyPickup k v, status, body })
    (frame : v = { taken r s with kiosks := v.kiosks }) :
    Completes (request (BitVec.ofNat 8 kind) r s own) fun t =>
      (t.ret = (applyPickup k v).ret ∧ t.quotes = (applyPickup k v).quotes ∧ t.kiosks = (applyPickup k v).kiosks
        ∧ ∀ g, (t.seg g).queue = ((applyPickup k v).seg g).queue ∧ (t.seg g).active = ((applyPickup k v).seg g).active)
      ∧ t = { answered kind r status body s with
          ret := { s.ret with compartments := t.ret.compartments, reservations := t.ret.reservations }
          checkWord := t.checkWord, quotes := t.quotes, kiosks := t.kiosks, segments := t.segments
          boards := t.boards, alarms := t.alarms, attention := t.attention } := by
  obtain ⟨t, run, strikes, same⟩ := request_answered ready own answer
  have picked := picked_applyPickup k v
  dsimp only at strikes same
  generalize applyPickup k v = u at strikes same picked ⊢
  have ret : t.ret = u.ret := by rw [same]
  have quotes : t.quotes = u.quotes := by rw [same]
  have kiosks : t.kiosks = u.kiosks := by rw [same]
  have boards : t.boards = u.boards := by rw [same]
  have alarms : t.alarms = u.alarms := by rw [same]
  have word : t.checkWord = Config.retentionCheck u.ret := by rw [same]
  have line : t.attention = attentionLevel u := by rw [same]
  have tables : u.ret = { s.ret with compartments := u.ret.compartments, reservations := u.ret.reservations } :=
    picked.ret.trans (by rw [frame]; rfl)
  have rest : u = { taken r s with
      ret := u.ret, quotes := u.quotes, kiosks := u.kiosks, segments := u.segments, boards := u.boards
      alarms := u.alarms } := picked.rest.trans (by rw [frame])
  refine ⟨t, run, ⟨ret, quotes, kiosks, fun g => ⟨(strikes g).1, (strikes g).2.1⟩⟩, ?_⟩
  rw [ret, ← tables, quotes, kiosks, boards, alarms, word, line]
  refine same.trans ?_
  generalize attentionLevel u = level, t.segments = segments
  rw [rest]
  rfl

/-! ### SWEEP -/

/-- The state in which a Sweep begins to issue: its list stands in the session, every entry UNISSUED (R145). -/
def sweeping (k : KioskNo) (r : Request) (x : Session) (w : CourierSweep) (s : State) : State :=
  { taken r s with kiosks := put s.kiosks k { s.kiosk k with session := some { x with
      deadline := s.elapsed + 120, sweep := some w } } }

/-- A sweep over a list, before anything of it is issued (R145). -/
def newSweep (returns recover : Bool) (entries : List PickupEntry) : CourierSweep :=
  { entries, returns, recover, draining := false, retrieved := 0, skipped := 0, dropped := 0 }

theorem startCourierSweep_opens {k : KioskNo} {x : Session} {returns recover : Bool} {s : State} (idle : x.pipeline = [])
    (closed : x.sweep = none) (listed : pickupList s k x.courier returns recover ≠ []) :
    startCourierSweep k x returns recover s =
      { state := applyPickup k (setSession k (some { x with
          sweep := some (newSweep returns recover (pickupList s k x.courier returns recover)) }) s)
        status := .accepted, body := sweepReply (pickupList s k x.courier returns recover) } := by
  have free : ¬ (x.pipeline ≠ [] ∨ x.sweep.isSome = true) := by rw [idle, closed]; simp
  exact (if_neg free).trans (if_neg listed)

theorem refuses_eq_false {asked may : Bool} (permits : asked = true → may = true) : (asked && !may) = false := by
  cases asked with
  | false => rfl
  | true => rw [permits rfl]; rfl

/-- A well-formed Sweep that passes the checks of R143 begins to issue its list. -/
theorem execSweep_own {r : Request} {s : State} {k : KioskNo} {returns recover : Bool} {x : Session} {e : Courier}
    (source : r.source = .kiosk k) (body : bodySweep r.body = some (returns, recover))
    (session : (s.kiosk k).session = some x) (asks : returns = true ∨ recover = true)
    (courier : courierOf s x.courier = some e) (mayReturn : returns = true → e.returns = true)
    (mayRecover : recover = true → e.recover = true) (serves : ConcourseServesCouriers s) (idle : x.pipeline = [])
    (closed : x.sweep = none) (listed : pickupList s k x.courier returns recover ≠ []) :
    ∃ own, exec (.sweep r) s = request 9 r s own
      ∧ own (taken r s) =
        { state := applyPickup k
            (sweeping k r x (newSweep returns recover (pickupList s k x.courier returns recover)) s)
          status := .accepted, body := sweepReply (pickupList s k x.courier returns recover) } := by
  have asked : (!returns && !recover) = false := by
    obtain h | h := asks <;> simp [h]
  have permitted : ((returns && !e.returns) || (recover && !e.recover)) = false := by
    rw [refuses_eq_false mayReturn, refuses_eq_false mayRecover]; rfl
  have entry : courierOf (noted k r s) x.courier = some e := courier
  unfold exec execSweep
  refine ⟨_, rfl, ?_⟩
  rw [courierRequest_noted source body]
  dsimp only
  rw [withSession_some (sessionOf_noted_some session)]
  simp only [asked, entry, permitted, Bool.false_eq_true, if_false]
  rw [courierConcourse_serves (s := noted k r s) _ serves,
    startCourierSweep_opens (x := { x with deadline := s.elapsed + 120 }) idle closed, pickupList_noted, setSession_noted]
  · rfl
  · rwa [pickupList_noted]

theorem kiosk_sweeping (k : KioskNo) (r : Request) (x : Session) (w : CourierSweep) (s : State) :
    (sweeping k r x w s).kiosk k = { s.kiosk k with session := some { x with
      deadline := s.elapsed + 120, sweep := some w } } := look_put_same ..

theorem sweeping_listLength (k : KioskNo) (r : Request) (x : Session) (w : CourierSweep) (s : State) :
    listLength (sweeping k r x w s) k = w.entries.length := by
  rw [listLength, sessionOf, kiosk_sweeping]; rfl

/-- The issue rule goes through a new list from its front (R145, R146). -/
theorem sweeping_run {k : KioskNo} {r : Request} {x : Session} {returns recover : Bool} {listed : List PickupEntry}
    {s : State} (nonempty : listed ≠ []) (resting : ∀ f ∈ listed, f.inFlight = false)
    (distinct : (listed.map (·.compartment)).Nodup) :
    PickupsRun k { x with deadline := s.elapsed + 120 } (newSweep returns recover listed) [] listed
      (sweeping k r x (newSweep returns recover listed) s)
      (applyPickup k (sweeping k r x (newSweep returns recover listed) s)) := by
  have opened : (newSweep returns recover listed).orEnded = some (newSweep returns recover listed) := if_neg nonempty
  unfold applyPickup
  rw [sweeping_listLength]
  refine issuePickups_run k _ _ _ [] listed _ ?_ rfl nofun resting distinct le_rfl
  rw [kiosk_sweeping]
  exact congrArg (fun sweep => some { x with deadline := s.elapsed + 120, sweep }) opened.symm

/-- Where every entry of the list stands as listed, the rule grants the entries that it goes through: none is skipped. -/
theorem PickupsEnd.all_granted {k : KioskNo} {x : Session} {w : CourierSweep} {A B taken : List PickupEntry} {s t : State}
    {n : Nat} (ends : PickupsEnd k x w A B s t n taken) (standing : ∀ e ∈ B, asListed s x.courier e = true) :
    taken = B.take n ∧ taken.length = n := by
  have all : taken = B.take n :=
    ends.listed.trans (List.filter_eq_self.mpr fun e mem => standing e (List.mem_of_mem_take mem))
  exact ⟨all, by rw [all, List.length_take, Nat.min_eq_left ends.gone]⟩

theorem issued_ne_nil {l : List PickupEntry} (nonempty : l ≠ []) (n : Nat) :
    (l.take n).map PickupEntry.issued ++ l.drop n ≠ [] := fun empty => by
  obtain ⟨front, back⟩ := List.append_eq_nil_iff.mp empty
  rw [← List.take_append_drop n l, List.map_eq_nil_iff.mp front, back] at nonempty
  exact nonempty rfl

/-- Settles O21: the list is built, and the issue rule goes through it from its front. -/
theorem sweepStartsPickup : Obligations.SweepStartsPickup := by
  intro r s k returns recover x e listed ready source body session asks courier mayReturn mayRecover serves idle closed
    made nonempty
  obtain ⟨own, run, answer⟩ :=
    execSweep_own source body session asks courier mayReturn mayRecover serves idle closed (made ▸ nonempty)
  rw [← made] at answer
  rw [run]
  obtain ⟨t, done, ⟨ret, quotes, kiosks, strikes⟩, frame⟩ := request_issues_pickups (kind := 9) ready answer rfl
  have standing (f : PickupEntry) (mem : f ∈ listed) : asListed s x.courier f = true := asListed_of_mem (made ▸ mem)
  have resting (f : PickupEntry) (mem : f ∈ listed) : f.inFlight = false := pickupList_resting (made ▸ mem)
  have distinct : (listed.map (·.compartment)).Nodup := made ▸ pickupList_distinct ..
  obtain ⟨n, taken, -, ends⟩ := (sweeping_run nonempty resting distinct).ends ret quotes kiosks strikes
  obtain ⟨all, count⟩ := ends.all_granted standing
  have four : n ≤ 4 := by
    obtain none | within := ends.few
    · rw [← count, none]; exact Nat.zero_le 4
    · rwa [List.length_nil, Nat.zero_add, count] at within
  refine ⟨t, done, frame, fun j other => (ends.kiosks j other).trans (look_put_other _ _ other), n, four, ends.gone, ?_,
    count ▸ ends.reservations, fun f mem => ?_, all ▸ ends.others, ?_⟩
  · have own := ends.kiosk
    rw [kiosk_sweeping, count, Nat.sub_self, all, List.nil_append] at own
    exact own.trans (congrArg (fun sweep => { s.kiosk k with session := some { x with
      deadline := s.elapsed + 120, sweep } }) (if_neg (issued_ne_nil nonempty n)))
  · obtain ⟨state, transient, map, parcel, quote, struck⟩ := ends.granted f (all ▸ mem)
    exact ⟨state, transient, map, parcel, quote, struck⟩
  · refine ends.stop.imp_left fun many => ?_
    rw [List.length_nil, Nat.zero_add, count] at many
    exact Nat.le_antisymm four many

end Sys2Proof.Machine

/-! Return Drop (R137 to R140): its checks in their order, and its admission without and with a quote. -/

namespace Sys2Proof.Machine

/-! ### The checks of a Return Drop -/

/-- A well-formed Return Drop that passes the class checks, with the clock set, comes to its own steps (R137, R138). -/
theorem execReturnDrop_own {r : Request} {s : State} {k : KioskNo} {reference now : Nat} (source : r.source = .kiosk k)
    (body : bodyNat 5 r.body = some reference) (serves : ConcourseServes s) (free : (s.kiosk k).lockout = none)
    (clock : s.clock = some now) :
    ∃ own, exec (.returnDrop r) s = request 3 r s own
      ∧ own (taken r s) = ownReturnDrop k reference now (taken r s) := by
  have set : (taken r s).clock = some now := clock
  unfold exec execReturnDrop
  refine ⟨_, rfl, ?_⟩
  rw [customer_taken source body serves free]
  simp only [withClock, set]

theorem returnOf_reference {s : State} {reference : Nat} {e : ReturnEntry} (entry : returnOf s reference = some e) :
    e.reference = reference := by
  simpa using List.find?_some entry

section checks

variable {k : KioskNo} {reference now : Nat} {e : ReturnEntry} {s u : State} {c : CompNo}

theorem ownReturnDrop_unknown (unknown : returnOf s reference = none) :
    ownReturnDrop k reference now s = refuse (countFailure k s) .noSuchCode := by
  simp [ownReturnDrop, unknown]

variable (entry : returnOf s reference = some e)
include entry

theorem ownReturnDrop_busy (busy : e.inUse = true) : ownReturnDrop k reference now s = refuse (countSuccess k s) .busy := by
  simp [ownReturnDrop, entry, busy]

variable (idle : e.inUse = false)
include idle

theorem ownReturnDrop_expired (late : e.expiry < now) :
    ownReturnDrop k reference now s = refuse (countSuccess k s) .expired := by
  simp [ownReturnDrop, entry, idle, late]

variable (inTime : now ≤ e.expiry)
include inTime

theorem ownReturnDrop_backlog (full : outboxHasRoom s = false) :
    ownReturnDrop k reference now s = refuse (countSuccess k s) .backlog := by
  have full' : outboxHasRoom (countSuccess k s) = false := full
  simp [ownReturnDrop, entry, idle, inTime.not_gt, reserveSlot, full']

variable (slot : outboxHasRoom s = true)
include slot

/-- The slot taken for a Return Drop that finds no compartment is released again; BACKLOG stays posted (R212; log 13). -/
theorem ownReturnDrop_noRoom (failed : allocate s e.cls true false = none) :
    ownReturnDrop k reference now s = refuse { countSuccess k s with alarms := (takeSlot s).alarms } .noRoom := by
  have slot' : outboxHasRoom (countSuccess k s) = true := slot
  have failed' : allocate (takeSlot (countSuccess k s)) e.cls true false = none := by
    refine allocate_fails (s := s) ?_ ?_ ?_ ?_ ?_ failed <;> rw [takeSlot_eq] <;> rfl
  have alarms : (takeSlot (countSuccess k s)).alarms = (takeSlot s).alarms := takeSlot_alarms_congr rfl rfl rfl
  simp only [ownReturnDrop, entry, idle, inTime.not_gt, reserveSlot, slot', failed', if_true, if_false,
    Bool.false_eq_true]
  rw [takeSlot_eq, alarms]
  rfl

variable (found : allocate s e.cls true false = some (u, c))
include found

/-- Once a compartment is found, the strike queue is asked for room (R138). -/
theorem ownReturnDrop_found :
    ownReturnDrop k reference now s =
      if compHasRoom s c then admitDrop k now e c (allotted u.ret.cursors (countSuccess k s))
      else refuse (releaseSlot (allotted u.ret.cursors (countSuccess k s))) .retryLater := by
  have slot' : outboxHasRoom (countSuccess k s) = true := slot
  have found' : allocate (takeSlot (countSuccess k s)) e.cls true false
      = some (allotted u.ret.cursors (countSuccess k s), c) := by
    rw [allocate_transfer (s := s) (t := takeSlot (countSuccess k s)) (by rw [takeSlot_eq]; rfl) (by rw [takeSlot_eq]; rfl)
      (by rw [takeSlot_eq]; rfl) (by rw [takeSlot_eq]; rfl) (by rw [takeSlot_eq]; rfl) found, takeSlot_eq]
    rfl
  simp only [ownReturnDrop, entry, idle, inTime.not_gt, reserveSlot, slot', found', if_true, if_false,
    Bool.false_eq_true]
  rfl

theorem ownReturnDrop_retryLater (full : compHasRoom s c = false) :
    ownReturnDrop k reference now s =
      refuse { countSuccess k s with
        ret := { s.ret with cursors := u.ret.cursors }, alarms := (takeSlot s).alarms } .retryLater := by
  have alarms : (takeSlot (countSuccess k s)).alarms = (takeSlot s).alarms := takeSlot_alarms_congr rfl rfl rfl
  rw [ownReturnDrop_found entry idle inTime slot found, full, ← alarms]
  rfl

end checks

/-! ### The admission -/

/-- The transient part of an admitted return drop (R5, R10). -/
def dropTransient (k : KioskNo) (e : ReturnEntry) : Transient :=
  { particulars := .drop e.courier e.reference (e.paidMark.getD 0), kiosk := k, strikeIssued := false, prior := none }

/-- The retained state once a return drop has been admitted to a compartment: its entry is in use (R10, R139). -/
def droppedRetained (k : KioskNo) (e : ReturnEntry) (c : CompNo) (cursors : Vector CompNo 4) (s : State) : Retained :=
  { s.ret with
    compartments := put s.ret.compartments c
      { s.comp c with state := .reserved, transient := some (dropTransient k e) }
    cursors
    returns := s.ret.returns.map fun x => if x.reference = e.reference then { x with inUse := true } else x
    reservations := s.ret.reservations + 1 }

/-- The state of an admitted return drop before its strike is queued, or its quote issued (R139, R140). -/
def dropped (k : KioskNo) (e : ReturnEntry) (c : CompNo) (cursors : Vector CompNo 4) (s : State) : State :=
  { s with
    ret := droppedRetained k e c cursors s
    kiosks := put s.kiosks k { s.kiosk k with failures := 0, doorResult := none }
    alarms := (takeSlot s).alarms }

theorem changeReturn_maps (reference : Nat) (change : ReturnEntry → ReturnEntry) (s : State) :
    changeReturn reference (fun e => some (change e)) s =
      { s with ret := { s.ret with
          returns := s.ret.returns.map fun e => if e.reference = reference then change e else e } } := by
  have same : (s.ret.returns.filterMap fun e => if e.reference = reference then some (change e) else some e)
      = s.ret.returns.map fun e => if e.reference = reference then change e else e := by
    rw [← List.filterMap_eq_map]
    refine List.filterMap_congr fun e _ => ?_
    simp only [Function.comp_apply, apply_ite some]
  unfold changeReturn
  rw [same]

theorem admitDrop_state (k : KioskNo) (e : ReturnEntry) (c : CompNo) (cursors : Vector CompNo 4) (s : State) :
    (let v := changeReturn e.reference (fun e => some { e with inUse := true }) (allotted cursors (countSuccess k s))
     setDoorResult k none (v.setComp c { v.comp c with state := .reserved, transient := some (dropTransient k e) }))
      = dropped k e c cursors s := by
  dsimp only
  have alarms : (takeSlot (countSuccess k s)).alarms = (takeSlot s).alarms := takeSlot_alarms_congr rfl rfl rfl
  rw [changeReturn_maps, allotted, alarms]
  simp [dropped, droppedRetained, countSuccess, setDoorResult, State.setKiosk, State.setComp, State.comp, State.kiosk]

theorem classAt_dropped (k : KioskNo) (e : ReturnEntry) (c : CompNo) (cursors : Vector CompNo 4) (s : State) :
    classAt (dropped k e c cursors s) c = classAt s c := by
  simp [classAt, dropped, droppedRetained, State.comp]

/-- What an admitted drop waits for: its strike, or the payment of its quote (R139, R140). -/
def awaitDrop (k : KioskNo) (now : Nat) (e : ReturnEntry) (c : CompNo) (s : State) : Answer :=
  let head := compField c ++ classField (classAt s c)
  if e.postage = 0 ∨ e.paidMark.isSome then
    { state := queueStrike c .drop s, status := .accepted, body := head }
  else
    let (s, q) := issueQuote c k e.postage now (.postage e.reference) s
    { state := s, status := .quote, body := head ++ be 2 q.number ++ be 3 q.amount ++ timeField q.expiry }

theorem admitDrop_eq (k : KioskNo) (now : Nat) (e : ReturnEntry) (c : CompNo) (cursors : Vector CompNo 4) (s : State) :
    admitDrop k now e c (allotted cursors (countSuccess k s)) = awaitDrop k now e c (dropped k e c cursors s) := by
  rw [← admitDrop_state]; rfl

/-- With no postage due, or with the postage paid mark, the strike is queued (R139). -/
theorem admitDrop_free {k : KioskNo} {now : Nat} {e : ReturnEntry} {c : CompNo} {cursors : Vector CompNo 4} {s : State}
    (free : e.postage = 0 ∨ e.paidMark.isSome = true) :
    admitDrop k now e c (allotted cursors (countSuccess k s)) =
      { state := queueStrike c .drop (dropped k e c cursors s), status := .accepted
        body := compField c ++ classField (classAt s c) } := by
  rw [← classAt_dropped k e c cursors s, admitDrop_eq]
  exact if_pos free

/-- Otherwise a POSTAGE quote is issued (R70, R140). -/
theorem admitDrop_quotes {k : KioskNo} {now : Nat} {e : ReturnEntry} {c : CompNo} {cursors : Vector CompNo 4} {s : State}
    {q : Quote} (postage : 0 < e.postage) (unpaid : e.paidMark = none)
    (quote : q = { number := s.ret.quoteCounter, amount := e.postage, kiosk := k, expiry := now + s.ret.hold
                   purpose := .postage e.reference }) :
    admitDrop k now e c (allotted cursors (countSuccess k s)) =
      { state := { dropped k e c cursors s with
          ret := { droppedRetained k e c cursors s with quoteCounter := (s.ret.quoteCounter + 1) % 65536 }
          quotes := put s.quotes c (some q) }
        status := .quote
        body := compField c ++ classField (classAt s c) ++ be 2 q.number ++ be 3 q.amount ++ timeField q.expiry } := by
  have due : ¬ (e.postage = 0 ∨ e.paidMark.isSome = true) := by simp [unpaid, postage.ne']
  subst quote
  rw [← classAt_dropped k e c cursors s, admitDrop_eq]
  exact if_neg due

/-! ### How a Return Drop ends -/

section admitted

variable {r : Request} {s u : State} {k : KioskNo} {reference now : Nat} {e : ReturnEntry} {c : CompNo}
  (source : r.source = .kiosk k) (body : bodyNat 5 r.body = some reference) (serves : ConcourseServes s)
  (free : (s.kiosk k).lockout = none) (clock : s.clock = some now) (entry : returnOf s reference = some e)
  (idle : e.inUse = false) (inTime : now ≤ e.expiry) (slot : outboxHasRoom s = true)
  (found : allocate s e.cls true false = some (u, c)) (room : compHasRoom s c = true)
include source body serves free clock entry idle inTime slot found room

/-- A Return Drop that passes its checks comes to its admission (R138). -/
theorem execReturnDrop_admits :
    ∃ own, exec (.returnDrop r) s = request 3 r s own
      ∧ own (taken r s) = admitDrop k now e c (allotted u.ret.cursors (countSuccess k (taken r s))) := by
  obtain ⟨own, run, answer⟩ := execReturnDrop_own source body serves free clock
  have found' : allocate (taken r s) e.cls true false = _ := allocate_transfer (s := s) rfl rfl rfl rfl rfl found
  refine ⟨own, run, answer.trans ?_⟩
  rw [ownReturnDrop_found (s := taken r s) entry idle inTime slot found']
  exact if_pos room

end admitted

/-- A ready request whose owner changes the retained state, the quotes, the kiosks and the alarms: of its end only the
attention line is left open. -/
theorem request_changes_tables {kind : Nat} {r : Request} {s : State} {own : State → Answer} {status : Status}
    {body : List Byte} {ret : Retained} {quotes : Vector (Option Quote) 768} {kiosks : Vector Kiosk 4}
    {alarms : List Alarm} (ready : Ready kind r s)
    (answer : own (taken r s) = { state := { taken r s with ret, quotes, kiosks, alarms }, status, body }) :
    Completes (request (BitVec.ofNat 8 kind) r s own) fun t =>
      KeepsStrikes s t ∧ t.ret = ret
        ∧ t = { answered kind r status body s with
            ret, checkWord := t.checkWord, segments := t.segments, quotes, kiosks, alarms, attention := t.attention } := by
  obtain ⟨t, run, strikes, same⟩ := request_answered ready own answer
  have word : t.checkWord = Config.retentionCheck ret := by rw [same]
  have line : t.attention = attentionLevel { taken r s with ret, quotes, kiosks, alarms } := by rw [same]
  refine ⟨t, run, strikes, by rw [same], ?_⟩
  rw [word, line]
  exact same

/-- Settles O15: the drop is admitted, and its quote issued. -/
theorem returnDropQuoted : Obligations.ReturnDropQuoted := by
  intro r s u k reference now e c q ready source body serves free clock entry idle inTime postage unpaid slot found room
    quote
  obtain ⟨own, run, answer⟩ :=
    execReturnDrop_admits source body serves free clock entry idle inTime slot found room
  have named := returnOf_reference entry
  subst named
  have quoted := answer.trans (admitDrop_quotes (s := taken r s) postage unpaid quote)
  obtain ⟨t, done, strikes, ret, same⟩ := request_changes_tables (kind := 3) ready quoted
  have comps : t.ret.compartments = put s.ret.compartments c
      { s.comp c with state := .reserved, transient := some (dropTransient k e) } := by rw [ret]; rfl
  have quotes : t.quotes = put s.quotes c (some q) := by rw [same]; rfl
  rw [run]
  refine ⟨t, done, ?_, keepsOtherComps_replaced comps quotes fun d => .refl t d, strikes, by rw [ret]; rfl, ?_⟩
  · rw [State.comp, comps, look_put_same, dropTransient, unpaid]; rfl
  · rw [ret, ← takeSlot_alarms_congr (s := s) (t := taken r s) rfl rfl rfl]
    exact same

section refused

variable {r : Request} {s : State} {k : KioskNo} {reference now : Nat} {status : Status} (ready : Ready 3 r s)
  (source : r.source = .kiosk k) (body : bodyNat 5 r.body = some reference) (serves : ConcourseServes s)
  (free : (s.kiosk k).lockout = none) (clock : s.clock = some now)
include ready source body serves free clock

/-- A Return Drop of an entry, refused by a check that comes before the allocation (R138): only the failure count is 0. -/
theorem returnDrop_refused (settled : Settled s)
    (answer : ownReturnDrop k reference now (taken r s) = refuse (countSuccess k (taken r s)) status) :
    Completes (exec (.returnDrop r) s) (Replied 3 r status [] (zeroedKiosks k s) s) := by
  obtain ⟨own, run, own_answer⟩ := execReturnDrop_own source body serves free clock
  rw [run]
  exact request_replied (kind := 3) ready settled own (own_answer.trans answer)

/-- One refused by the allocation or behind it: its slot is released again, and a cursor may have moved (R9, R212). -/
theorem returnDrop_refused_late {ret : Retained}
    (answer : ownReturnDrop k reference now (taken r s) =
      refuse { countSuccess k (taken r s) with ret, alarms := (takeSlot (taken r s)).alarms } status) :
    Completes (exec (.returnDrop r) s) fun t =>
      KeepsStrikes s t ∧ t.checkWord = Config.retentionCheck ret
        ∧ t = { answered 3 r status [] s with
            ret, checkWord := t.checkWord, kiosks := zeroedKiosks k s, segments := t.segments
            alarms := (takeSlot s).alarms, attention := t.attention } := by
  obtain ⟨own, run, own_answer⟩ := execReturnDrop_own source body serves free clock
  rw [takeSlot_alarms_congr (s := s) (t := taken r s) rfl rfl rfl] at answer
  obtain ⟨t, done, strikes, same⟩ :=
    request_refused (kind := 3) (kiosks := zeroedKiosks k s) ready own (own_answer.trans answer) rfl
  have word : t.checkWord = Config.retentionCheck ret := by rw [same]
  refine ⟨t, run.trans done, strikes, word, ?_⟩
  rw [word]
  exact same

end refused

/-- Settles O14: the admission queues the drop's strike; the others end at the first check of R138 that they fail. -/
theorem returnDropAdmitted : Obligations.ReturnDropAdmitted := by
  refine ⟨fun r s u k reference now e c ready source body serves free clock entry idle inTime unpaid slot found room => ?_,
    fun r s k reference now ready source body serves settled free clock => ?_⟩
  · obtain ⟨own, run, answer⟩ :=
      execReturnDrop_admits source body serves free clock entry idle inTime slot found room
    rw [run, ← takeSlot_alarms_congr (s := s) (t := taken r s) rfl rfl rfl]
    have named := returnOf_reference entry
    subst named
    exact request_grants_strike (kind := 3) (q := s.quoteOf c) ready (answer.trans (admitDrop_free unpaid)) room rfl
      (put_look ..).symm rfl rfl rfl
  have refused {status} := @returnDrop_refused r s k reference now status ready source body serves free clock settled
  have late {status ret} := @returnDrop_refused_late r s k reference now status ready source body serves free clock ret
  refine ⟨fun unknown few => ?_, fun e entry => ⟨fun busy => refused (ownReturnDrop_busy (s := taken r s) entry busy),
    fun idle expired => refused (ownReturnDrop_expired (s := taken r s) entry idle expired),
    fun idle inTime full => refused (ownReturnDrop_backlog (s := taken r s) entry idle inTime full),
    fun idle inTime slot => ⟨fun failed => ?_, fun u c found full => ?_⟩⟩⟩
  · obtain ⟨own, run, answer⟩ := execReturnDrop_own source body serves free clock
    rw [run]
    exact request_failed (kind := 3) ready own few free (answer.trans (ownReturnDrop_unknown (s := taken r s) unknown))
  · have failed' := allocate_fails (s := s) (t := taken r s) rfl rfl rfl rfl rfl failed
    obtain ⟨t, done, strikes, word, same⟩ :=
      late (ownReturnDrop_noRoom (s := taken r s) entry idle inTime slot failed')
    obtain ⟨check, -, -⟩ := settled.running ready.1
    have kept : t.checkWord = s.checkWord := word.trans check.symm
    rw [kept] at same
    exact ⟨t, done, strikes, same⟩
  · have found' := allocate_transfer (s := s) (t := taken r s) rfl rfl rfl rfl rfl found
    obtain ⟨t, done, strikes, -, same⟩ :=
      late (ownReturnDrop_retryLater (s := taken r s) entry idle inTime slot found' full)
    exact ⟨t, done, strikes, same⟩

end Sys2Proof.Machine

/-! The deadlines of the strike scheduler (R162 to R169): the two that end an active strike, and the ageing of a queued
one. Each event ends with issue on the segment, so what the operations leave has to be carried through the end of the
event, which brings only the rate modes, the attention line and the check word in step. -/

namespace Sys2Proof.Machine

/-! ### Strikes through the end of an event -/

theorem settle_comp (s : State) (c : CompNo) : (settle s).comp c = s.comp c := comp_of_ret (settle_frame s).1 c

theorem striking_settle {s : State} {c : CompNo} (struck : striking s c = true) : striking (settle s) c = true :=
  striking_of_queues (fun g => ⟨(keepsStrikes_settle s g).1, (keepsStrikes_settle s g).2.1⟩) struck

theorem noNewStrike_settle (c : CompNo) (s : State) : NoNewStrike c s (settle s) := fun g unqueued => by
  obtain ⟨queue, active, -⟩ := keepsStrikes_settle s g
  rw [queue, active]
  exact ⟨unqueued, id⟩

section settled

variable {g : SegNo} {a : ActiveStrike} {s u : State}

theorem SecondAttempt.settled (second : SecondAttempt g a s u) : SecondAttempt g a s (settle u) := by
  obtain ⟨queue, active, -⟩ := keepsStrikes_settle u g
  unfold SecondAttempt
  rw [queue, active, settle_comp]
  exact second

theorem Requeued.settled (requeued : Requeued g a s u) : Requeued g a s (settle u) := by
  obtain ⟨comps, only, kiosks, alarms, others, second⟩ := requeued
  have after := onlyMarks_settle u
  refine ⟨fun c => (comps c).trans (after.comps c), only.around (.refl s) after, after.kiosks.trans kiosks,
    after.alarms.trans alarms, fun b mem other => ?_, second.settled⟩
  rw [(keepsStrikes_settle u g).2.1]
  exact others b mem other

theorem StrikeGone.settled {c : CompNo} (gone : StrikeGone g c s u) : StrikeGone g c s (settle u) := by
  intro unqueued
  rw [(keepsStrikes_settle u g).2.1]
  exact gone unqueued

/-- What the failure of an attempt leaves stands at the end of its event. -/
theorem AttemptFailed.settled (failed : AttemptFailed g a s u) : AttemptFailed g a s (settle u) := by
  obtain ⟨requeued, displaced, evacuated, jammed⟩ := failed
  have after := onlyMarks_settle u
  refine ⟨fun first stays room => (requeued first stays room).settled,
    fun e x first stays full last own => ?_, fun x first evacuate room own => ?_, fun x second own => ?_⟩
  · obtain ⟨reverted, struck, again⟩ := displaced e x first stays full last own
    exact ⟨reverted.around (.refl s) after rfl rfl rfl, striking_settle struck,
      fun direct other => (again direct other).settled⟩
  · obtain ⟨reverted, unqueued, inactive⟩ := evacuated x first evacuate room own
    obtain ⟨queue, active, -⟩ := keepsStrikes_settle u g
    rw [queue, active]
    exact ⟨reverted.around (.refl s) after rfl rfl rfl, unqueued, inactive⟩
  · obtain ⟨⟨reverted, alarm⟩, gone⟩ := jammed x second own
    exact ⟨⟨reverted.around (.refl s) after rfl rfl rfl, alarm.around after⟩, gone.settled⟩

/-- A success stands at the end of its event, where issue has followed it (R164; log 39). -/
theorem succeeded_settled {x : Transient} (own : (s.comp a.compartment).transient = some x)
    (busy : (s.comp a.compartment).state = .reserved ∨ (s.comp a.compartment).state = .releasing) :
    Succeeded g a x s (settle (applyIssue g (strikeSucceeds g a s))) := by
  obtain ⟨-, closed, opened⟩ := succeeded_strikeSucceeds (g := g) own busy
  have after := (onlyStrikes_applyIssue g (strikeSucceeds g a s)).marks.trans (onlyMarks_settle _)
  have quiet := (noNewStrike_applyIssue a.compartment g (strikeSucceeds g a s)).trans (noNewStrike_settle _ _)
  exact ⟨strikeGone ((quiet_strikeSucceeds g a s).trans quiet),
    fun seen shut occupied reading => (closed seen shut occupied reading).around (.refl s) after rfl rfl rfl,
    fun notShut => (opened notShut).around (.refl s) after⟩

/-- An event that ends with issue on a segment, after operations that leave the fixed part of the state (R160). -/
theorem issue_ends_event (fixed : u.fixed = s.fixed) :
    nextIssue (settle (applyIssue g u)) g = none ∧ KeepsStation s (settle (applyIssue g u))
      ∧ KeepsTables s (settle (applyIssue g u)) := by
  have issued : (applyIssue g u).fixed = s.fixed := (fixed_applyIssue g u).trans fixed
  obtain ⟨ended, -⟩ := issued_applyIssue g u
  exact ⟨(nextIssue_settle g _).trans ended, keepsStation_settle issued, keepsTables_settle issued⟩

end settled

/-! ### The energise and the confirm deadline -/

/-- An attempt that fails ends with issue on its segment (R166, R167; log 47). -/
theorem attemptFails_issues (g : SegNo) (a : ActiveStrike) (s : State) :
    ∃ u, attemptFails g a s = applyIssue g u ∧ u.fixed = s.fixed := by
  unfold attemptFails
  refine ⟨_, rfl, ?_⟩
  split <;> simp

section deadlines

variable {c : CompNo} {g : SegNo} {a : ActiveStrike} {d : Nat} {i : Instr} {s : State} (power : s.run ≠ .unpowered)
  (active : activeOf s c = some (g, a)) (passed : d ≤ s.elapsed)
include power active passed

theorem exec_energiseDeadline_due (issued : a.phase = .issued d) :
    exec (.energiseDeadline c) s = .next (settle (energiseEnds g a s)) := by
  unfold exec execEnergiseDeadline
  exact event_some power (by simp [active, issued, due, passed])

theorem exec_confirmDeadline_due (confirming : a.phase = .confirming d) :
    exec (.confirmDeadline c) s = .next (settle (attemptFails g a s)) := by
  unfold exec execConfirmDeadline
  exact event_some power (by simp [active, confirming, due, passed])

/-- A strike whose door was seen succeeds at its energise deadline, and issue follows (R162; log 39). -/
theorem exec_deadline_succeeds (seen : a.doorSeen = true) (issued : a.phase = .issued d) :
    exec (.energiseDeadline c) s = .next (settle (applyIssue g (strikeSucceeds g a s))) := by
  rw [exec_energiseDeadline_due power active passed issued, energiseEnds, if_pos seen]

/-- The attempt fails at an energise deadline before which the door was not seen, and at every confirm deadline (R162,
R165). -/
theorem exec_deadline_fails
    (which : (i = .energiseDeadline c ∧ a.phase = .issued d) ∨ (i = .confirmDeadline c ∧ a.phase = .confirming d))
    (unseen : a.doorSeen = false ∨ i = .confirmDeadline c) : exec i s = .next (settle (attemptFails g a s)) := by
  obtain ⟨rfl, issued⟩ | ⟨rfl, confirming⟩ := which
  · have unseen : a.doorSeen = false := unseen.resolve_right nofun
    rw [exec_energiseDeadline_due power active passed issued, energiseEnds, unseen, if_neg Bool.false_ne_true]
  · exact exec_confirmDeadline_due power active passed confirming

end deadlines

/-- Settles O48: success at the energise deadline of a door that was seen, and the four ways in which an attempt fails. -/
theorem strikeDeadlines : Obligations.StrikeDeadlines := by
  intro c g a d i s power active passed which
  obtain ⟨rfl, -⟩ := activeOf_some active
  have fails := exec_deadline_fails power active passed which
  obtain ⟨requeued, displaced, evacuated, jammed⟩ := (attemptFailed g a s).settled
  have ends : nextIssue (settle (attemptFails g a s)) g = none ∧ KeepsStation s (settle (attemptFails g a s))
      ∧ KeepsTables s (settle (attemptFails g a s)) := by
    obtain ⟨u, eq, fixed⟩ := attemptFails_issues g a s
    rw [eq]
    exact issue_ends_event fixed
  refine ⟨fun seen energise busy x own => ?_, fun unseen first stays room => ?_,
    fun unseen first stays full e x last own => ?_, fun unseen first evacuate room x own => ?_,
    fun unseen second x own => ?_⟩
  · subst energise
    obtain ⟨-, issued⟩ | ⟨confirm, -⟩ := which
    · exact ⟨_, exec_deadline_succeeds power active passed seen issued, succeeded_settled own busy,
        issue_ends_event (fixed_strikeSucceeds g a s)⟩
    · cases confirm
  · exact ⟨_, fails unseen, requeued first stays room, ends⟩
  · obtain ⟨reverted, struck, second⟩ := displaced e x first stays full last own
    exact ⟨_, fails unseen, reverted, struck, second, ends⟩
  · obtain ⟨reverted, unqueued, inactive⟩ := evacuated x first evacuate room own
    exact ⟨_, fails unseen, reverted, unqueued, inactive, ends⟩
  · obtain ⟨jam, gone⟩ := jammed x second own
    exact ⟨_, fails unseen, jam, gone, ends⟩

/-! ### The ageing of a queued strike -/

section ageing

variable {c : CompNo} {g : SegNo} {e : StrikeEntry} {s : State} (queued : queuedOf s c = some (g, e))
include queued

theorem exec_strikeAgeing_early (early : s.elapsed < e.enqueued + 60) : exec (.strikeAgeing c) s = .next s := by
  unfold exec execStrikeAgeing
  exact event_none (by simp [queued, due, early])

theorem exec_strikeAgeing_due (power : s.run ≠ .unpowered) (passed : e.enqueued + 60 ≤ s.elapsed) :
    exec (.strikeAgeing c) s = .next (settle (applyIssue g (cancelTransaction c (dropQueued g c s)))) := by
  unfold exec execStrikeAgeing
  exact event_some power (by simp [queued, due, passed])

end ageing

theorem dropQueued_unqueued (g : SegNo) (c : CompNo) (s : State) :
    ∀ e ∈ ((dropQueued g c s).seg g).queue, e.compartment ≠ c := by
  intro e mem
  simp only [dropQueued, State.seg_setSeg_same] at mem
  simpa using (List.mem_filter.mp mem).2

/-- Settles O49: the entry leaves its queue first, and neither the end of its transaction nor issue queues it again. -/
theorem strikeAgeingCancels : Obligations.StrikeAgeingCancels := by
  intro c g e s power queued
  refine ⟨exec_strikeAgeing_early queued, fun x passed own => ?_⟩
  refine ⟨_, exec_strikeAgeing_due queued power passed, ?_, ?_, issue_ends_event (by simp)⟩
  · have reverted := reverted_endTransaction .cancelled c x (dropQueued g c s) own
    exact reverted.around (onlyStrikes_setSeg g _ s).marks
      ((onlyStrikes_applyIssue ..).marks.trans (onlyMarks_settle _)) rfl rfl rfl
  · have cancelled := (aside_endTransaction .cancelled c (dropQueued g c s)).quiet
    have quiet := cancelled.trans ((noNewStrike_applyIssue c g _).trans (noNewStrike_settle c _))
    exact (quiet g (dropQueued_unqueued g c s)).1

end Sys2Proof.Machine

/-! Set Budget (R158 to R161). -/

namespace Sys2Proof.Machine

theorem segNo?_val (g : SegNo) : segNo? g.val = some g := dif_pos g.isLt

/-! ### Issue and the rate modes -/

theorem quietHolds_of_strike {s : State} {g : SegNo} (strike : (s.seg g).queue ≠ [] ∨ (s.seg g).active ≠ []) :
    quietHolds s g = false := by
  unfold quietHolds
  obtain queued | struck := strike
  · simp [queued]
  · simp [struck]

/-- The issue of an entry leaves the conditions of QUIET mode: its segment has a strike before and after (R178). -/
theorem quietHolds_issueEntry {g : SegNo} {e : StrikeEntry} {s : State} (m : MapEntry) (mem : e ∈ (s.seg g).queue)
    (h : SegNo) : quietHolds (issueEntry g e m s) h = quietHolds s h := by
  by_cases own : h = g
  · subst own
    rw [quietHolds_of_strike (.inl (List.ne_nil_of_mem mem)), quietHolds_of_strike (.inr (by simp))]
  · exact quietHolds_congr rfl rfl (by rw [issueEntry_seg_other own]) (by rw [issueEntry_seg_other own])

theorem issueEntry_rate (g h : SegNo) (e : StrikeEntry) (m : MapEntry) (s : State) :
    ((issueEntry g e m s).seg h).rate = (s.seg h).rate := by
  by_cases own : h = g
  · subst own; simp [issueEntry, setMark]
  · rw [issueEntry_seg_other own]

/-- Rate modes that follow their conditions still do after issue. -/
theorem ratesFollow_applyIssue (g : SegNo) {s : State} (rates : RatesFollow s) : RatesFollow (applyIssue g s) := by
  have repeated (n : Nat) : RatesFollow (issueUpTo g n s) := by
    induction n generalizing s with
    | zero => exact rates
    | succ n ih =>
      unfold issueUpTo
      split
      next e m next =>
        obtain ⟨mem, -⟩ := nextIssue_some next
        refine ih fun h => ?_
        rw [issueEntry_rate, quietHolds_issueEntry m mem, rates h]
      next => exact rates
  exact repeated _

/-- At the end of an event whose last operation is issue, a state in step before it needs a new check word alone. -/
theorem settle_issued (g : SegNo) {s : State} (rates : RatesFollow s) (line : s.attention = attentionLevel s)
    {transmit : List Reply} :
    settle { applyIssue g s with transmit } = resealed { applyIssue g s with transmit } := by
  refine settle_of_steady (ratesFollow_applyIssue g rates) ?_
  have strikes := onlyStrikes_applyIssue g s
  calc (applyIssue g s).attention
      = s.attention := by rw [strikes.rest]
    _ = attentionLevel s := line
    _ = attentionLevel (applyIssue g s) := by
      simp only [attentionLevel, enabled]
      rw [strikes.rest, strikes.ret]

/-! ### A request that ends with issue -/

/-- A service request whose owner changes the unlock deadline and the retained state beside the concourse and the enables,
and then applies issue to a segment. -/
theorem request_issues {kind : Nat} {r : Request} {s : State} {own : State → Answer} {status : Status}
    {body : List Byte} {ret : Retained} {deadline : Option Nat} {g : SegNo} (ready : Ready kind r s)
    (source : r.source = .service) (settled : Settled s)
    (answer : own { s with receive := s.receive.tail } =
      { state := applyIssue g { s with receive := s.receive.tail, unlockDeadline := deadline, ret }, status, body })
    (enables : ret.enables = s.ret.enables) (concourse : ret.concourse = s.ret.concourse) :
    Completes (request (BitVec.ofNat 8 kind) r s own) fun t =>
      Issued g { s with ret } t ∧ (∀ c, KeepsComp { s with ret } t c)
        ∧ t = resealed { answered kind r status body { s with unlockDeadline := deadline } with
            ret := { ret with compartments := t.ret.compartments }, segments := t.segments, boards := t.boards }
        ∧ ∀ h, h ≠ g → t.seg h = s.seg h := by
  obtain ⟨-, line, rates⟩ := settled.running ready.1
  generalize start : ({ s with receive := s.receive.tail, unlockDeadline := deadline, ret } : State) = v at answer
  have follow : RatesFollow v := fun h => by
    have same := rates h
    rw [← quietHolds_congr (t := { s with ret }) concourse rfl rfl rfl] at same
    subst start
    exact same
  have level : v.attention = attentionLevel v := by
    rw [← start]
    exact line.trans (by simp only [attentionLevel, enabled, enables])
  refine ⟨_, request_ready ready own, ?_⟩
  rw [touchIdle_service source, answer, sendReply_eq, settle_issued g follow level]
  have strikes := onlyStrikes_applyIssue g v
  have issued := issued_applyIssue g v
  have others (h : SegNo) (other : h ≠ g) := applyIssue_seg_other other v
  generalize applyIssue g v = u at *
  subst start
  refine ⟨issued, strikes.comps, congrArg resealed ?_, others⟩
  calc ({ u with transmit := u.transmit ++ replyTo u kind r status body } : State)
      = { answered kind r status body { s with unlockDeadline := deadline } with
          ret := u.ret, segments := u.segments, boards := u.boards } := by
        rw [strikes.rest]
        simp only [answered, idleAfter_not_kiosk (not_kiosk_of_service source)]
        rfl
    _ = { answered kind r status body { s with unlockDeadline := deadline } with
          ret := { ret with compartments := u.ret.compartments }, segments := u.segments, boards := u.boards } :=
        congrArg (fun retained => { answered kind r status body { s with unlockDeadline := deadline } with
          ret := retained, segments := u.segments, boards := u.boards }) strikes.ret

/-! ### SET_BUDGET -/

theorem execSetBudget_own {r : Request} {s : State} {g : SegNo} {v stored : Nat} (source : r.source = .service)
    (skc : ServiceOpen s) (body : bodySetBudget r.body = some (g.val, v)) (clamped : clamp 1 3 v = stored) :
    ∃ own, exec (.setBudget r) s = request 28 r s own
      ∧ own { s with receive := s.receive.tail } = {
          state := applyIssue g { s with
            receive := s.receive.tail, unlockDeadline := (admittedState s).unlockDeadline
            ret := { s.ret with budgets := put s.ret.budgets g stored } }
          status := .accepted
          body := be 1 g.val ++ be 1 stored ++ be 1 (if s.ret.concourse = .restricted then 1 else stored) } := by
  subst clamped
  unfold exec execSetBudget
  refine ⟨_, rfl, ?_⟩
  rw [maintenance_taken source body skc]
  simp only [segNo?_val, storeBudget, budgetInForce, ret_budgets_of_fixed (fixed_applyIssue ..),
    ret_concourse_of_fixed (fixed_applyIssue ..), look_put_same]

/-- Settles O37: the owner stores the clamped value and ends with issue. -/
theorem setBudgetStoresAndIssues : Obligations.SetBudgetStoresAndIssues := by
  intro r s g v stored ready source skc settled body clamped
  obtain ⟨own, run, answer⟩ := execSetBudget_own source skc body ((clamp_eq (by decide) v).trans clamped.symm)
  rw [run, admittedState_eq]
  exact request_issues (kind := 28) ready source settled answer rfl rfl

end Sys2Proof.Machine

/-! Withdraw and Reinstate of a board (R23, R189, R190). -/

namespace Sys2Proof.Machine

theorem boardNo?_val (b : BoardNo) : boardNo? b.val = some b := dif_pos b.isLt

/-- A request that is not a kiosk's, whose owner changes at most the unlock deadline, the boards and the retained state
beside the concourse and the enables. -/
theorem request_changes_boards {kind : Nat} {r : Request} {s : State} {own : State → Answer} {status : Status}
    {body : List Byte} {ret : Retained} {boards : Vector Board 64} {deadline : Option Nat} (ready : Ready kind r s)
    (source : ∀ k, r.source ≠ .kiosk k) (settled : Settled s)
    (answer : own { s with receive := s.receive.tail } =
      { state := { s with receive := s.receive.tail, unlockDeadline := deadline, ret, boards }, status, body })
    (enables : ret.enables = s.ret.enables) (concourse : ret.concourse = s.ret.concourse) :
    request (BitVec.ofNat 8 kind) r s own =
      .next (resealed { answered kind r status body { s with unlockDeadline := deadline } with ret, boards }) := by
  rw [request_untouched ready source settled own answer enables concourse rfl rfl rfl rfl]
  simp only [resealed, answered, idleAfter_not_kiosk source]
  rfl

/-! ### Withdraw -/

/-- A board stands idle unless a compartment mapped to it is in use (R23). -/
theorem boardIdle_iff {s : State} {b : BoardNo} :
    boardIdle s b = true ↔ ¬ ∃ c m, (s.comp c).map = some m ∧ m.board = b
      ∧ (s.comp c).state ≠ .vacant ∧ (s.comp c).state ≠ .unserved := by
  have each (x : Compartment) : (!x.mappedTo b || x.idle) = true ↔
      ∀ m, x.map = some m → m.board = b → x.state = .vacant ∨ x.state = .unserved := by
    cases map : x.map <;> simp [Compartment.mappedTo, Compartment.idle_iff, map, ← imp_iff_not_or]
  unfold boardIdle
  rw [Vector.all_eq_true]
  simp only [each]
  constructor
  · rintro idle ⟨c, m, map, board, vacant, unserved⟩
    exact (idle c.val c.isLt m map board).elim vacant unserved
  · intro unused i bound m map board
    by_contra busy
    obtain ⟨vacant, unserved⟩ := not_or.mp busy
    exact unused ⟨⟨i, bound⟩, m, map, board, vacant, unserved⟩

/-- Withdraw's answer for a board (R23, R189). -/
def withdrawAnswer (b : BoardNo) (s : State) : Answer :=
  if (s.board b).link = .withdrawn then refuse s .badState
  else if !boardIdle s b then refuse s .held
  else { state := withdrawBoard b s, status := .accepted, body := [] }

theorem execWithdraw_own {r : Request} {s : State} {b : BoardNo} (source : r.source = .service) (skc : ServiceOpen s)
    (body : bodyNat 1 r.body = some b.val) :
    ∃ own, exec (.withdraw r) s = request 33 r s own
      ∧ own { s with receive := s.receive.tail } =
        withdrawAnswer b { s with receive := s.receive.tail, unlockDeadline := (admittedState s).unlockDeadline } := by
  unfold exec execWithdraw
  refine ⟨_, rfl, ?_⟩
  rw [maintenance_taken source body skc]
  simp only [boardNo?_val, withdrawAnswer]

section withdraw

variable {s : State} {b : BoardNo}

theorem withdrawAnswer_withdrawn (link : (s.board b).link = .withdrawn) : withdrawAnswer b s = refuse s .badState :=
  if_pos link

theorem withdrawAnswer_used (link : (s.board b).link ≠ .withdrawn) (used : ¬ boardIdle s b = true) :
    withdrawAnswer b s = refuse s .held := (if_neg link).trans (if_pos (by simpa using used))

theorem withdrawAnswer_idle (link : (s.board b).link ≠ .withdrawn) (idle : boardIdle s b = true) :
    withdrawAnswer b s = { state := withdrawBoard b s, status := .accepted, body := [] } :=
  (if_neg link).trans (if_neg (by simp [idle]))

end withdraw

theorem withdrawBoard_eq (b : BoardNo) (s : State) :
    withdrawBoard b s = { s with
      ret := { s.ret with
        withdrawn := put s.ret.withdrawn b true
        compartments := s.ret.compartments.map fun (x : Compartment) =>
          if (x.map.map (·.board)) = some b then { x with state := .unserved } else x }
      boards := put s.boards b { link := .withdrawn, goodRun := 0, window := [], handOff := []
                                 expectedBit := (s.board b).expectedBit, lines := Vector.replicate 12 freshLine } } := by
  simp only [withdrawBoard, Compartment.mappedTo, decide_eq_true_eq]
  rfl

/-! ### Reinstate -/

/-- Reinstate's answer for a board (R190). -/
def reinstateAnswer (b : BoardNo) (s : State) : Answer :=
  if (s.board b).link ≠ .withdrawn then refuse s .badState
  else { state := reinstateBoard b s, status := .accepted, body := [] }

theorem execReinstate_own {r : Request} {s : State} {b : BoardNo} (source : r.source = .service) (skc : ServiceOpen s)
    (body : bodyNat 1 r.body = some b.val) :
    ∃ own, exec (.reinstate r) s = request 34 r s own
      ∧ own { s with receive := s.receive.tail } =
        reinstateAnswer b { s with receive := s.receive.tail, unlockDeadline := (admittedState s).unlockDeadline } := by
  unfold exec execReinstate
  refine ⟨_, rfl, ?_⟩
  rw [maintenance_taken source body skc]
  simp only [boardNo?_val, reinstateAnswer]

theorem reinstateBoard_eq (b : BoardNo) (s : State) :
    reinstateBoard b s = { s with
      ret := { s.ret with withdrawn := put s.ret.withdrawn b false }
      boards := put s.boards b { link := .unknown, goodRun := 0, window := [], handOff := []
                                 expectedBit := (s.board b).expectedBit, lines := Vector.replicate 12 freshLine } } := rfl

/-- Settles O41: the checks of each request in their order, and then the board's new record. -/
theorem withdrawAndReinstate : Obligations.WithdrawAndReinstate := by
  refine ⟨fun r s b ready source skc settled body => ?_, fun r s b ready source skc settled body => ?_⟩
  · have not_kiosk := not_kiosk_of_service source
    obtain ⟨own, run, answer⟩ := execWithdraw_own source skc body
    rw [run, admittedState_eq]
    refine ⟨fun link => ?_, fun link used => ?_, fun link unused => ?_⟩
    · exact request_changes_deadline (kind := 33) ready not_kiosk settled
        (answer.trans (withdrawAnswer_withdrawn link))
    · exact request_changes_deadline (kind := 33) ready not_kiosk settled
        (answer.trans (withdrawAnswer_used link fun idle => boardIdle_iff.mp idle used))
    · exact request_changes_boards (kind := 33) ready not_kiosk settled
        ((answer.trans (withdrawAnswer_idle link (boardIdle_iff.mpr unused))).trans
          (congrArg (Answer.mk · _ _) (withdrawBoard_eq ..))) rfl rfl
  · have not_kiosk := not_kiosk_of_service source
    obtain ⟨own, run, answer⟩ := execReinstate_own source skc body
    rw [run, admittedState_eq]
    split
    next link => exact request_changes_deadline (kind := 34) ready not_kiosk settled (answer.trans (if_pos link))
    next link =>
      exact request_changes_boards (kind := 34) ready not_kiosk settled
        ((answer.trans (if_neg link)).trans (congrArg (Answer.mk · _ _) (reinstateBoard_eq ..))) rfl rfl

end Sys2Proof.Machine

/-! The sweeps of a segment: how they start, go on after each poll, and end (R177, R178, R179). The end of an event finds
the rate modes in step after each of them, so it moves no sweep again. -/

namespace Sys2Proof.Machine

/-! ### The slots that a sweep polls -/

/-- Which slot a sweep polls next follows from the slots, the link states and the sweep counter (R177). -/
theorem nextPolled_congr {s t : State} {g : SegNo} (slots : t.ret.slots = s.ret.slots)
    (links : ∀ b, (t.board b).link = (s.board b).link) (counter : (t.seg g).sweepCounter = (s.seg g).sweepCounter)
    (first : Nat) : nextPolled t g first = nextPolled s g first := by
  have polled (content : SlotContent) :
      slotPolled t (t.seg g).sweepCounter content = slotPolled s (s.seg g).sweepCounter content := by
    unfold slotPolled
    rw [links, counter]
  simp only [nextPolled, slots, polled]

theorem setSeg_setSeg (s : State) (g : SegNo) (x y : Segment) : (s.setSeg g x).setSeg g y = s.setSeg g y := by
  simp [State.setSeg]

/-- The start of a sweep that polls a slot (R177, R179). -/
theorem startSweep_polls {g : SegNo} {s : State} {i : SlotNo} {b : BoardNo} (next : nextPolled s g 0 = some (i, b)) :
    startSweep g s = s.setSeg g { s.seg g with
      sweepStart := s.elapsed, phase := .polling i b (s.board b).handOff.head?
      linkOut := pollBytes b (s.board b).handOff.head? (s.board b).expectedBit } := by
  have same := nextPolled_congr (s := s) (g := g)
    (t := s.setSeg g { s.seg g with sweepStart := s.elapsed, phase := .noSlots }) rfl (fun _ => rfl) (by simp) 0
  simp only [startSweep, same, next, sendPoll, setSeg_setSeg, State.seg_setSeg_same, State.board_setSeg]

/-- The start of a sweep that polls no slot (R177). -/
theorem startSweep_empty {g : SegNo} {s : State} (next : nextPolled s g 0 = none) :
    startSweep g s = s.setSeg g { s.seg g with sweepStart := s.elapsed, phase := .noSlots } := by
  have same := nextPolled_congr (s := s) (g := g)
    (t := s.setSeg g { s.seg g with sweepStart := s.elapsed, phase := .noSlots }) rfl (fun _ => rfl) (by simp) 0
  simp only [startSweep, same, next]

/-- A segment's sweep has moved: only that segment's record has changed, and neither its strikes nor its rate mode. -/
def SweepMoved (g : SegNo) (s t : State) : Prop :=
  ∃ x, t = s.setSeg g x ∧ x.queue = (s.seg g).queue ∧ x.active = (s.seg g).active ∧ x.rate = (s.seg g).rate

theorem SweepMoved.trans {g : SegNo} {s t u : State} (h : SweepMoved g s t) (k : SweepMoved g t u) :
    SweepMoved g s u := by
  obtain ⟨x, rfl, queue, active, rate⟩ := h
  obtain ⟨y, rfl, queue', active', rate'⟩ := k
  rw [State.seg_setSeg_same] at queue' active' rate'
  exact ⟨y, setSeg_setSeg .., queue'.trans queue, active'.trans active, rate'.trans rate⟩

theorem sweepMoved_startSweep (g : SegNo) (s : State) : SweepMoved g s (startSweep g s) := by
  cases next : nextPolled s g 0 with
  | none => exact ⟨_, startSweep_empty next, rfl, rfl, rfl⟩
  | some polled => exact ⟨_, startSweep_polls next, rfl, rfl, rfl⟩

theorem sweepMoved_endSweep (g : SegNo) (s : State) : SweepMoved g s (endSweep g s) := by
  have ended : SweepMoved g s (s.setSeg g { s.seg g with
      sweepCounter := ((s.seg g).sweepCounter + 1) % 65536, phase := .waiting }) := ⟨_, rfl, rfl, rfl, rfl⟩
  unfold endSweep; dsimp only
  split
  · exact ended.trans (sweepMoved_startSweep g _)
  · exact ended

theorem sweepMoved_advanceSweep (g : SegNo) (i : SlotNo) (s : State) : SweepMoved g s (advanceSweep g i s) := by
  unfold advanceSweep
  split
  · exact ⟨_, rfl, rfl, rfl, rfl⟩
  · exact sweepMoved_endSweep g s

/-- Rate modes that follow their conditions still do when a sweep has moved (R178). -/
theorem SweepMoved.rates {g : SegNo} {s t : State} (moved : SweepMoved g s t) (rates : RatesFollow s) : RatesFollow t := by
  obtain ⟨x, rfl, queue, active, rate⟩ := moved
  have same (h : SegNo) : ((s.setSeg g x).seg h).queue = (s.seg h).queue
      ∧ ((s.setSeg g x).seg h).active = (s.seg h).active ∧ ((s.setSeg g x).seg h).rate = (s.seg h).rate := by
    rw [State.seg_setSeg]
    split
    next own => rw [own]; exact ⟨queue, active, rate⟩
    next => exact ⟨rfl, rfl, rfl⟩
  intro h
  obtain ⟨queue, active, rate⟩ := same h
  rw [quietHolds_congr (s := s) (t := s.setSeg g x) rfl rfl queue active, rate, rates h]

/-- In a settled state, an event that moves a sweep ends where it left it. -/
theorem event_moves_sweep {g : SegNo} {s t : State} {effect : State → Option State} (settled : Settled s)
    (power : s.run ≠ .unpowered) (done : effect s = some t) (moved : SweepMoved g s t) : event s effect = .next t := by
  obtain ⟨word, line, rates⟩ := settled.powered power
  rw [event_some power done, settle_of_follow (moved.rates rates)]
  obtain ⟨x, rfl, -⟩ := moved
  show Host.Outcome.next { s.setSeg g x with
    attention := attentionLevel s, checkWord := Config.retentionCheck s.ret } = _
  rw [← line, ← word]
  rfl

/-! ### Start and end without a poll -/

theorem exec_quietSweepStart_due {g : SegNo} {s : State} (power : s.run ≠ .unpowered) (settled : Settled s)
    (quiet : (s.seg g).rate = .quiet) (waiting : (s.seg g).phase = .waiting)
    (passed : (s.seg g).sweepStart + 1 ≤ s.elapsed) : exec (.quietSweepStart g) s = .next (startSweep g s) := by
  unfold exec execQuietSweepStart
  exact event_moves_sweep settled power (if_pos ⟨quiet, waiting, passed⟩) (sweepMoved_startSweep g s)

theorem exec_sweepEnds_due {g : SegNo} {s : State} (power : s.run ≠ .unpowered) (settled : Settled s)
    (none : (s.seg g).phase = .noSlots) : exec (.sweepThatPollsNoSlotEnds g) s = .next (endSweep g s) := by
  unfold exec execSweepThatPollsNoSlotEnds
  exact event_moves_sweep settled power (if_pos none) (sweepMoved_endSweep g s)

/-- The end of a sweep at which the next one starts at once (R177, R178). -/
theorem endSweep_restarts {g : SegNo} {s : State}
    (soon : (s.seg g).rate = .full ∨ (s.seg g).sweepStart + 1 ≤ s.elapsed) :
    endSweep g s = startSweep g (s.setSeg g { s.seg g with
      sweepCounter := ((s.seg g).sweepCounter + 1) % 65536, phase := .waiting }) := if_pos soon

/-- The state with the counter of a segment's sweeps advanced (R177). -/
def sweepCounted (g : SegNo) (s : State) : State :=
  s.setSeg g { s.seg g with sweepCounter := ((s.seg g).sweepCounter + 1) % 65536 }

theorem nextPolled_sweepCounted (g : SegNo) (s : State) :
    nextPolled (s.setSeg g { s.seg g with
      sweepCounter := ((s.seg g).sweepCounter + 1) % 65536, phase := .waiting }) g 0 = nextPolled (sweepCounted g s) g 0 :=
  nextPolled_congr (s := sweepCounted g s) (t := s.setSeg g { s.seg g with
    sweepCounter := ((s.seg g).sweepCounter + 1) % 65536, phase := .waiting }) rfl (fun _ => rfl) (by simp [sweepCounted]) 0

section restart

variable {g : SegNo} {s : State} (soon : (s.seg g).rate = .full ∨ (s.seg g).sweepStart + 1 ≤ s.elapsed)
include soon

theorem endSweep_polls {i : SlotNo} {b : BoardNo} (next : nextPolled (sweepCounted g s) g 0 = some (i, b)) :
    endSweep g s = s.setSeg g { s.seg g with
      sweepCounter := ((s.seg g).sweepCounter + 1) % 65536
      sweepStart := s.elapsed, phase := .polling i b (s.board b).handOff.head?
      linkOut := pollBytes b (s.board b).handOff.head? (s.board b).expectedBit } := by
  rw [endSweep_restarts soon, startSweep_polls ((nextPolled_sweepCounted g s).trans next), setSeg_setSeg,
    State.seg_setSeg_same]
  rfl

theorem endSweep_empty (next : nextPolled (sweepCounted g s) g 0 = none) :
    endSweep g s = s.setSeg g { s.seg g with
      sweepCounter := ((s.seg g).sweepCounter + 1) % 65536, sweepStart := s.elapsed, phase := .noSlots } := by
  rw [endSweep_restarts soon, startSweep_empty ((nextPolled_sweepCounted g s).trans next), setSeg_setSeg,
    State.seg_setSeg_same]
  rfl

end restart

/-- The end of a sweep after which the segment waits for its second (R178; log 33). -/
theorem endSweep_waits {g : SegNo} {s : State} (quiet : (s.seg g).rate = .quiet)
    (early : s.elapsed ≤ (s.seg g).sweepStart) :
    endSweep g s = s.setSeg g { s.seg g with
      sweepCounter := ((s.seg g).sweepCounter + 1) % 65536, phase := .waiting } :=
  if_neg (by rw [quiet]; simp; omega)

/-! ### A poll's outcome -/

theorem exec_pollOutcome_due {g : SegNo} {heard : Option (List Byte)} {i : SlotNo} {b : BoardNo} {strike : Option LineNo}
    {s : State} (power : s.run ≠ .unpowered) (phase : (s.seg g).phase = .polling i b strike) :
    exec (.pollOutcome g heard) s = .next (settle (advanceSweep g i (setRates (takeOutcome b strike heard s)))) := by
  unfold exec execPollOutcome
  exact event_some power (by simp only [phase])

/-- After a poll the end of the event renews the attention line and the check word alone: the rate modes have been brought
in step before the sweep went on (R178). -/
theorem settle_advanced (g : SegNo) (i : SlotNo) (w : State) :
    settle (advanceSweep g i (setRates w)) = { advanceSweep g i (setRates w) with
      attention := attentionLevel (advanceSweep g i (setRates w))
      checkWord := Config.retentionCheck (advanceSweep g i (setRates w)).ret } :=
  settle_of_follow ((sweepMoved_advanceSweep g i _).rates (ratesFollow_setRates w))

/-- The rate mode of a segment whose sweep is under way is brought in step without its sweep (R178). -/
theorem setRate_moving {g h : SegNo} {s : State} (moving : (s.seg g).phase ≠ .waiting) :
    (setRate h s).seg g = { s.seg g with rate := ((setRate h s).seg g).rate } := by
  by_cases own : g = h
  · subst own
    unfold setRate; dsimp only
    split
    · simp
    · rw [if_neg moving]; simp
    · rfl
  · rw [(setRate_frame h s).2.2.2.2 g own]

theorem setRates_moving {g : SegNo} {s : State} (moving : (s.seg g).phase ≠ .waiting) :
    (setRates s).seg g = { s.seg g with rate := ((setRates s).seg g).rate } := by
  have list (gs : List SegNo) : (gs.foldl (fun s g => setRate g s) s).seg g =
      { s.seg g with rate := ((gs.foldl (fun s g => setRate g s) s).seg g).rate } := by
    induction gs generalizing s with
    | nil => rfl
    | cons h gs ih =>
      have first := setRate_moving (h := h) moving
      rw [List.foldl_cons, ih (by rw [first]; exact moving), first]
  exact list _

/-- A sweep has started: at this second, with a poll of the first slot that it polls (R177, R178). -/
theorem sweepStarted (g : SegNo) (s : State) :
    ((startSweep g s).seg g).sweepStart = s.elapsed
      ∧ (∀ j b, nextPolled (startSweep g s) g 0 = some (j, b) → PollSent g j b (startSweep g s))
      ∧ (nextPolled (startSweep g s) g 0 = none →
          ((startSweep g s).seg g).phase = .noSlots ∧ ((startSweep g s).seg g).linkOut = (s.seg g).linkOut) := by
  have same : nextPolled (startSweep g s) g 0 = nextPolled s g 0 := by
    obtain ⟨x, moved, -⟩ := sweepMoved_startSweep g s
    have counter := startSweep_counter g g s
    rw [moved] at counter ⊢
    exact nextPolled_congr (s := s) (t := s.setSeg g x) rfl (fun _ => rfl) counter _
  rw [same]
  cases next : nextPolled s g 0 with
  | none => rw [startSweep_empty next]; simp
  | some polled =>
    rw [startSweep_polls next]
    refine ⟨by simp, fun j b eq => ?_, nofun⟩
    cases eq
    simp [PollSent]

theorem endSweep_counter (g : SegNo) (s : State) :
    ((endSweep g s).seg g).sweepCounter = ((s.seg g).sweepCounter + 1) % 65536 := by
  unfold endSweep; dsimp only
  split <;> simp

/-- What a sweep leaves after one of its slots, in terms of the state in which it goes on. -/
theorem sweepWentOn_advanceSweep (g : SegNo) (i : SlotNo) (v : State) : SweepWentOn g i v (advanceSweep g i v) := by
  obtain ⟨x, moved, -, -, rate⟩ := sweepMoved_advanceSweep g i v
  have look : nextPolled ((advanceSweep g i v).setSeg g
      { (advanceSweep g i v).seg g with sweepCounter := (v.seg g).sweepCounter }) g (i.val + 1) =
        nextPolled v g (i.val + 1) := by
    rw [moved]
    exact nextPolled_congr (s := v) (t := (v.setSeg g x).setSeg g
      { (v.setSeg g x).seg g with sweepCounter := (v.seg g).sweepCounter }) rfl (fun _ => rfl) (by simp) _
  unfold SweepWentOn; dsimp only
  rw [look]
  refine ⟨fun j b next => ?_, fun next => ?_⟩
  · have sent : advanceSweep g i v = sendPoll g j b v := by unfold advanceSweep; rw [next]
    rw [sent]
    simp [PollSent, sendPoll]
  · have ended : advanceSweep g i v = endSweep g v := by unfold advanceSweep; rw [next]
    have rate' : ((advanceSweep g i v).seg g).rate = (v.seg g).rate := by rw [moved, State.seg_setSeg_same, rate]
    rw [rate', ended]
    refine ⟨endSweep_counter g v, fun soon => ?_, fun quiet early => ?_⟩
    · rw [endSweep_restarts soon]
      obtain ⟨start, sent, idle⟩ := sweepStarted g (v.setSeg g { v.seg g with
        sweepCounter := ((v.seg g).sweepCounter + 1) % 65536, phase := .waiting })
      rw [State.seg_setSeg_same] at idle
      exact ⟨start, sent, idle⟩
    · rw [endSweep_waits quiet early]; simp

/-- The sweeps of a state whose segment has the same sweep go on alike: what the outcome of the poll and the rate modes
leave of the sweep is the part that the statement reads. -/
theorem SweepWentOn.of_sweep {g : SegNo} {i : SlotNo} {s v t : State} (went : SweepWentOn g i v t)
    (counter : (v.seg g).sweepCounter = (s.seg g).sweepCounter) (start : (v.seg g).sweepStart = (s.seg g).sweepStart)
    (out : (v.seg g).linkOut = (s.seg g).linkOut) (elapsed : v.elapsed = s.elapsed) : SweepWentOn g i s t := by
  unfold SweepWentOn at went ⊢
  rwa [counter, start, out, elapsed] at went

/-- The sweep of a segment through the outcome of its poll and the rate modes after it. -/
theorem sweepWentOn_pollOutcome {g : SegNo} {i : SlotNo} {b : BoardNo} {strike : Option LineNo}
    (heard : Option (List Byte)) {s : State} (phase : (s.seg g).phase = .polling i b strike) :
    SweepWentOn g i s (settle (advanceSweep g i (setRates (takeOutcome b strike heard s)))) := by
  have sweeps := keepsSweeps_takeOutcome b strike heard s
  have moving : ((takeOutcome b strike heard s).seg g).phase ≠ .waiting := by
    rw [Ne, sweeps.waiting, phase]; nofun
  have elapsed := elapsed_of_fixed (fixed_takeOutcome b strike heard s)
  generalize takeOutcome b strike heard s = w at sweeps moving elapsed ⊢
  have own := setRates_moving moving
  have renewed {v t : State} (line : Bool) (word : Nat) (went : SweepWentOn g i v t) :
      SweepWentOn g i v { t with attention := line, checkWord := word } := went
  rw [settle_advanced]
  refine (renewed _ _ (sweepWentOn_advanceSweep g i (setRates w))).of_sweep ?_ ?_ ?_ ?_
  · rw [own]; exact sweeps.counter g
  · rw [own]; exact sweeps.start g
  · rw [own]; exact sweeps.out g
  · rw [setRates_rest]; exact elapsed

/-- Settles O50: a start and an end without a poll write the segment alone, and a poll's sweep goes on from its slot. -/
theorem sweepsStartAndEnd : Obligations.SweepsStartAndEnd := by
  refine ⟨fun g s power settled quiet waiting passed => ?_, fun g s power settled none => ⟨fun soon => ?_, fun quiet early => ?_⟩,
    fun g heard i b strike s power phase =>
      ⟨_, exec_pollOutcome_due power phase, sweepWentOn_pollOutcome heard phase⟩⟩
  · rw [exec_quietSweepStart_due power settled quiet waiting passed]
    cases next : nextPolled s g 0 with
    | none => exact congrArg _ (startSweep_empty next)
    | some polled => exact congrArg _ (startSweep_polls next)
  · rw [exec_sweepEnds_due power settled none]
    cases next : nextPolled (sweepCounted g s) g 0 with
    | none => exact congrArg _ ((endSweep_empty soon next).trans (by unfold sweepCounted at next; simp only [next]))
    | some polled => exact congrArg _ ((endSweep_polls soon next).trans (by unfold sweepCounted at next; simp only [next]))
  · rw [exec_sweepEnds_due power settled none, endSweep_waits quiet early]

end Sys2Proof.Machine

/-! What the operations of the other blocks leave of the boards (R161, R179, R181, R184): strikes, doors and courier sweeps
write nothing of a board but its hand-off list, and hand no strike to a board that is not ONLINE. -/

namespace Sys2Proof.Machine

/-- Between two states the boards differ in their hand-off lists alone, and that of a board which is not ONLINE holds no
strike that it did not hold before; and no pending alarm has gone. -/
structure KeepsBoards (s t : State) : Prop where
  rest (b : BoardNo) : t.board b = { s.board b with handOff := (t.board b).handOff }
  offline (b : BoardNo) : (s.board b).link ≠ .online → (t.board b).handOff ⊆ (s.board b).handOff
  alarms : s.alarms ⊆ t.alarms

theorem KeepsBoards.of_tables {s t : State} (boards : t.boards = s.boards) (alarms : s.alarms ⊆ t.alarms) :
    KeepsBoards s t := by
  have same (b : BoardNo) : t.board b = s.board b := by simp only [State.board, boards]
  exact ⟨fun b => by rw [same], fun b _ => by rw [same]; exact List.Subset.refl _, alarms⟩

/-- An operation that writes neither boards nor alarms. -/
theorem KeepsBoards.of_eq {s t : State} (boards : t.boards = s.boards) (alarms : t.alarms = s.alarms) : KeepsBoards s t :=
  .of_tables boards (by rw [alarms]; exact List.Subset.refl _)

theorem KeepsBoards.refl (s : State) : KeepsBoards s s := .of_eq rfl rfl

theorem KeepsBoards.link {s t : State} (h : KeepsBoards s t) (b : BoardNo) : (t.board b).link = (s.board b).link := by
  rw [h.rest]

theorem KeepsBoards.trans {s t u : State} (h : KeepsBoards s t) (k : KeepsBoards t u) : KeepsBoards s u where
  rest b := by rw [k.rest, h.rest]
  offline b off := List.Subset.trans (k.offline b (by rwa [h.link])) (h.offline b off)
  alarms := List.Subset.trans h.alarms k.alarms

theorem KeepsBoards.after {s t u : State} (k : KeepsBoards t u) (boards : t.boards = s.boards)
    (alarms : t.alarms = s.alarms) : KeepsBoards s u := (KeepsBoards.of_eq boards alarms).trans k

/-- The hand-off list of a board that is ONLINE may be replaced, and strikes may leave that of any board. -/
theorem keepsBoards_handOff {s : State} {b : BoardNo} {handOff : List LineNo}
    (offline : (s.board b).link ≠ .online → handOff ⊆ (s.board b).handOff) :
    KeepsBoards s (s.setBoard b { s.board b with handOff }) where
  rest d := by
    rw [State.board_setBoard]
    split
    next same => rw [same]
    next => rfl
  offline d off := by
    rw [State.board_setBoard]
    split
    next same => rw [same]; exact offline (same ▸ off)
    next => exact List.Subset.refl _
  alarms := List.Subset.refl _

/-! ### Issue -/

theorem keepsBoards_issueEntry {g : SegNo} {e : StrikeEntry} {m : MapEntry} {s : State}
    (online : (s.board m.board).link = .online) : KeepsBoards s (issueEntry g e m s) := by
  unfold issueEntry; dsimp only
  refine KeepsBoards.after (keepsBoards_handOff ?_) rfl rfl
  exact fun off => absurd online off

theorem keepsBoards_issueUpTo (g : SegNo) (n : Nat) (s : State) : KeepsBoards s (issueUpTo g n s) := by
  induction n generalizing s with
  | zero => exact .refl s
  | succ n ih =>
    unfold issueUpTo
    split
    next next =>
      obtain ⟨-, -, -, -, online⟩ := nextIssue_some next
      have link := (Bool.and_eq_true_iff.mp online).1
      exact (keepsBoards_issueEntry (of_decide_eq_true link)).trans (ih _)
    next => exact .refl s

theorem keepsBoards_applyIssue (g : SegNo) (s : State) : KeepsBoards s (applyIssue g s) := keepsBoards_issueUpTo ..

theorem keepsBoards_queueStrike (c : CompNo) (p : Purpose) (s : State) : KeepsBoards s (queueStrike c p s) := by
  unfold queueStrike
  split
  · exact (keepsBoards_applyIssue ..).after rfl rfl
  · exact .refl s

/-! ### Courier sweeps -/

theorem keepsBoards_issuePickup {k : KioskNo} {s t : State} (issued : issuePickup k s = some t) : KeepsBoards s t := by
  simp only [issuePickup, Option.bind_eq_bind, Option.bind_eq_some_iff] at issued
  obtain ⟨x, -, w, -, e, -, issued⟩ := issued
  split at issued
  · cases issued
  · split at issued
    · cases issued
      unfold grantRetrieval
      refine KeepsBoards.trans (.of_tables ?_ ?_) (keepsBoards_queueStrike ..)
      · simp
      · exact takeSlot_keeps s
    · cases issued
      exact .of_eq rfl rfl

theorem keepsBoards_applyPickup (k : KioskNo) (s : State) : KeepsBoards s (applyPickup k s) := by
  have repeated (n : Nat) : KeepsBoards s (issuePickups k n s) := by
    induction n generalizing s with
    | zero => exact .refl s
    | succ n ih =>
      unfold issuePickups
      split
      next issued => exact (keepsBoards_issuePickup issued).trans (ih _)
      next => exact .refl s
  exact repeated _

/-! ### The end of a transaction and close handling -/

theorem keepsBoards_reportOutcome (c : CompNo) (k : KioskNo) (serial n : Nat) (o : DeclOutcome) (s : State) :
    KeepsBoards s (reportOutcome c k serial n o s) := by
  obtain ⟨frame, -⟩ := reportOutcome_frame c k serial n o s
  exact .of_eq (by rw [frame]) (by rw [frame])

theorem keepsBoards_noteDoor (x : CompState) (c : CompNo) (t : Transient) (o : DoorOutcome) (s : State) :
    KeepsBoards s (noteDoor x c t o s) := by
  obtain ⟨frame, -⟩ := noteDoor_frame x c t o s
  exact .of_eq (by rw [frame]) (by rw [frame])

theorem keepsBoards_reportRetrieval (c : CompNo) (k : KioskNo) (serial : Nat) (retrieved : Bool) (s : State) :
    KeepsBoards s (reportRetrieval c k serial retrieved s) := by
  unfold reportRetrieval
  split
  · split
    · split
      · exact (keepsBoards_applyPickup ..).after rfl rfl
      · exact .refl s
    · exact .refl s
  · exact .refl s

theorem keepsBoards_endTransaction (e : Ending) (c : CompNo) (s : State) : KeepsBoards s (endTransaction e c s) := by
  unfold endTransaction; dsimp only
  split
  · exact .refl s
  · split
    · exact (keepsBoards_reportOutcome ..).after rfl rfl
    · exact (keepsBoards_noteDoor ..).after rfl rfl
    · refine KeepsBoards.trans ?_ (keepsBoards_noteDoor ..)
      split <;> exact .of_eq rfl rfl
    · exact (keepsBoards_reportRetrieval ..).after rfl rfl

theorem keepsBoards_closeHandling (c : CompNo) (occupied : Bool) (s : State) :
    KeepsBoards s (closeHandling c occupied s) := by
  have collected (p : Option Parcel) (u : State) :
      (noticeCollected c p u).boards = u.boards ∧ (noticeCollected c p u).alarms = u.alarms := by
    unfold noticeCollected
    split <;> exact ⟨rfl, rfl⟩
  have retrieved (n : Nat) (p : Option Parcel) (u : State) :
      (noticeRetrieved c n p u).boards = u.boards ∧ (noticeRetrieved c n p u).alarms = u.alarms := by
    unfold noticeRetrieved
    split <;> exact ⟨rfl, rfl⟩
  unfold closeHandling; dsimp only
  split
  · exact .of_eq rfl rfl
  · split
    case h_1 | h_2 => exact (keepsBoards_reportOutcome ..).after rfl rfl
    case h_3 | h_4 | h_6 => exact (keepsBoards_noteDoor ..).after rfl rfl
    case h_5 => exact (keepsBoards_noteDoor ..).after (collected ..).1 (collected ..).2
    case h_7 => exact (keepsBoards_reportRetrieval ..).after (retrieved ..).1 (retrieved ..).2
    case h_8 => exact (keepsBoards_reportRetrieval ..).after rfl rfl

/-! ### The end of an active strike -/

theorem keepsBoards_endStrike (g : SegNo) (a : ActiveStrike) (s : State) : KeepsBoards s (endStrike g a s) := by
  have disowned (u : State) : KeepsBoards u (disownPoll g a.board a.line u) := by
    unfold disownPoll
    repeat' split
    all_goals exact .of_eq rfl rfl
  unfold endStrike
  refine KeepsBoards.trans ?_ (disowned _)
  exact (keepsBoards_handOff fun _ => List.filter_subset_self _).after rfl rfl

theorem keepsBoards_enterDoorPhase (c : CompNo) (s : State) : KeepsBoards s (enterDoorPhase c s) := by
  unfold enterDoorPhase; dsimp only
  split
  next x _ =>
    obtain ⟨frame, -⟩ := reportOpening_frame c x (s.setComp c { s.comp c with state := (s.comp c).state.opened })
    exact .of_eq (by rw [frame]; rfl) (by rw [frame]; rfl)
  next => exact .of_eq rfl rfl

theorem keepsBoards_strikeSucceeds (g : SegNo) (a : ActiveStrike) (s : State) : KeepsBoards s (strikeSucceeds g a s) := by
  have entered := (keepsBoards_endStrike g a s).trans (keepsBoards_enterDoorPhase a.compartment _)
  unfold strikeSucceeds; dsimp only
  split
  · exact entered.trans (keepsBoards_closeHandling ..)
  · exact entered.trans (.of_eq rfl rfl)

theorem keepsBoards_requeue (g : SegNo) (a : ActiveStrike) (s : State) : KeepsBoards s (requeue g a s) := by
  have placed (queue : List StrikeEntry) :
      KeepsBoards s (setMark a.compartment false (s.setSeg g { s.seg g with queue })) := .of_eq rfl rfl
  have evacuated {u : State} (kept : KeepsBoards s u) : KeepsBoards s
      (if u.ret.concourse = .evacuate then cancelTransaction a.compartment (dropQueued g a.compartment u) else u) := by
    split
    · exact kept.trans ((keepsBoards_endTransaction ..).after rfl rfl)
    · exact kept
  unfold requeue; dsimp only
  refine evacuated ?_
  split
  · exact (placed _).trans (keepsBoards_endTransaction ..)
  · exact placed _

theorem keepsBoards_attemptFails (g : SegNo) (a : ActiveStrike) (s : State) : KeepsBoards s (attemptFails g a s) := by
  have alarmed (k : AlarmKind) (n : Nat) (u : State) : KeepsBoards u (postAlarm k n u) :=
    .of_tables (by rw [postAlarm_eq]) (postAlarm_keeps k n u)
  unfold attemptFails; dsimp only
  refine ((keepsBoards_endStrike g a s).trans ?_).trans (keepsBoards_applyIssue ..)
  split
  · exact keepsBoards_requeue ..
  · exact (keepsBoards_endTransaction ..).trans (alarmed ..)

theorem keepsBoards_energiseEnds (g : SegNo) (a : ActiveStrike) (s : State) : KeepsBoards s (energiseEnds g a s) := by
  unfold energiseEnds
  split
  · exact (keepsBoards_strikeSucceeds ..).trans (keepsBoards_applyIssue ..)
  · exact keepsBoards_attemptFails ..

theorem keepsBoards_strikeDone (g : SegNo) (a : ActiveStrike) (s : State) : KeepsBoards s (strikeDone g a s) := by
  unfold strikeDone
  split
  · exact (keepsBoards_strikeSucceeds ..).trans (keepsBoards_applyIssue ..)
  · exact (keepsBoards_applyIssue ..).after rfl rfl

/-- The ISSUED strikes of a board that is declared LOST end without a further trace at the boards (R182). -/
theorem keepsBoards_declareLost (b : BoardNo) (s : State) : KeepsBoards (disconnected b s) (declareLost b s) := by
  have ended (ends : List ActiveStrike) (u : State) :
      KeepsBoards u (ends.foldl (fun s a => energiseEnds (segmentOf b) a s) u) := by
    induction ends generalizing u with
    | nil => exact .refl u
    | cons a ends ih => exact (keepsBoards_energiseEnds ..).trans (ih _)
  rw [declareLost_eq]
  exact ended _ _

end Sys2Proof.Machine

/-! Steps around the end of a strike that write no record: the taking of readings before it, and the end of the event after
it. What a strike's end or an issue leaves holds through them. -/

namespace Sys2Proof.Machine

/-- Between two states no record, kiosk, alarm or strike differs, nor the time: at most the boards, the sweeps and what
the end of an event brings in step. -/
structure SameRecords (s t : State) : Prop where
  ret     : t.ret = s.ret
  quotes  : t.quotes = s.quotes
  kiosks  : t.kiosks = s.kiosks
  alarms  : t.alarms = s.alarms
  ajar    : t.ajar = s.ajar
  clock   : t.clock = s.clock
  elapsed : t.elapsed = s.elapsed
  strikes (g : SegNo) : (t.seg g).queue = (s.seg g).queue ∧ (t.seg g).active = (s.seg g).active

/-- Beside, all that issue reads of the boards is the same (R160). -/
structure SameIssue (s t : State) : Prop extends SameRecords s t where
  lines     : KeepsLines s t
  declaring : t.declaring = s.declaring

theorem SameRecords.refl (s : State) : SameRecords s s := ⟨rfl, rfl, rfl, rfl, rfl, rfl, rfl, fun _ => ⟨rfl, rfl⟩⟩

theorem SameRecords.trans {s t u : State} (h : SameRecords s t) (k : SameRecords t u) : SameRecords s u where
  ret := k.ret.trans h.ret
  quotes := k.quotes.trans h.quotes
  kiosks := k.kiosks.trans h.kiosks
  alarms := k.alarms.trans h.alarms
  ajar := k.ajar.trans h.ajar
  clock := k.clock.trans h.clock
  elapsed := k.elapsed.trans h.elapsed
  strikes g := ⟨(k.strikes g).1.trans (h.strikes g).1, (k.strikes g).2.trans (h.strikes g).2⟩

theorem SameIssue.trans {s t u : State} (h : SameIssue s t) (k : SameIssue t u) : SameIssue s u :=
  ⟨h.toSameRecords.trans k.toSameRecords, h.lines.trans k.lines, k.declaring.trans h.declaring⟩

theorem sameRecords_setBoard (s : State) (b : BoardNo) (x : Board) : SameRecords s (s.setBoard b x) :=
  ⟨rfl, rfl, rfl, rfl, rfl, rfl, rfl, fun _ => ⟨rfl, rfl⟩⟩

section same

variable {s t : State} (same : SameRecords s t)
include same

theorem SameRecords.marks : OnlyMarks s t :=
  onlyMarks_of_eq same.ret same.quotes same.kiosks same.alarms same.ajar same.clock same.elapsed

theorem SameRecords.comp (c : CompNo) : t.comp c = s.comp c := comp_of_ret same.ret c

theorem SameRecords.quiet (c : CompNo) : NoNewStrike c s t := fun g unqueued => by
  obtain ⟨queue, active⟩ := same.strikes g
  rw [queue, active]
  exact ⟨unqueued, id⟩

theorem SameRecords.striking {c : CompNo} : striking t c = striking s c :=
  Bool.eq_iff_iff.mpr
    ⟨striking_of_queues fun g => ⟨(same.strikes g).1.symm, (same.strikes g).2.symm⟩, striking_of_queues same.strikes⟩

theorem SameRecords.queuedOf (c : CompNo) : queuedOf t c = queuedOf s c := by
  simp only [Machine.queuedOf, (same.strikes _).1]

theorem SameRecords.budget (g : SegNo) : budgetInForce t g = budgetInForce s g := by
  simp only [budgetInForce, same.ret]

theorem SameRecords.energised (g : SegNo) : energised t g = energised s g := by
  simp only [Machine.energised, (same.strikes g).2]

end same

theorem SameIssue.nextIssue {s t : State} (same : SameIssue s t) (g : SegNo) : nextIssue t g = nextIssue s g := by
  have online (b : BoardNo) : onlineToIssue t b = onlineToIssue s b := by
    simp only [onlineToIssue, same.lines.link, same.declaring]
  simp only [Machine.nextIssue, same.ret, same.energised, same.budget, (same.strikes g).1, same.comp, online]

/-- What issue has done holds through steps that it does not read (R160). -/
theorem Issued.carried {g : SegNo} {s t u : State} (issued : Issued g s t) (same : SameIssue t u) : Issued g s u := by
  obtain ⟨ended, kept, count, queue, active⟩ := issued
  refine ⟨(same.nextIssue g).trans ended, fun c struck => same.striking.trans (kept c struck), ?_, ?_, ?_⟩
  · rwa [same.energised]
  · rwa [(same.strikes g).1]
  · rwa [(same.strikes g).2]

section around

variable {g : SegNo} {a : ActiveStrike} {s s' t t' : State} (before : SameRecords s s') (after : SameRecords t t')
include before after

theorem SecondAttempt.carried (second : SecondAttempt g a s' t) : SecondAttempt g a s t' := by
  unfold SecondAttempt at second ⊢
  rwa [(after.strikes g).1, (after.strikes g).2, after.comp, ← before.comp, ← before.elapsed]

theorem StrikeGone.carried {c : CompNo} (gone : StrikeGone g c s' t) : StrikeGone g c s t' := by
  intro unqueued
  rw [(after.strikes g).2]
  exact gone ((before.queuedOf c).trans unqueued)

theorem Requeued.carried (requeued : Requeued g a s' t) : Requeued g a s t' := by
  obtain ⟨comps, only, kiosks, alarms, others, second⟩ := requeued
  obtain ⟨comps, only, kiosks, alarms⟩ :=
    RecordsKept.around before.marks after.marks ⟨comps, only, kiosks, alarms⟩
  refine ⟨comps, only, kiosks, alarms, fun b mem other => ?_, second.carried before after⟩
  rw [(after.strikes g).2]
  exact others b (by rwa [(before.strikes g).2]) other

/-- What the failure of an attempt leaves holds through steps around it (R166, R167). -/
theorem AttemptFailed.carried (failed : AttemptFailed g a s' t) : AttemptFailed g a s t' := by
  unfold AttemptFailed at failed ⊢
  rw [before.ret, (before.strikes g).1] at failed
  simp only [before.comp] at failed
  obtain ⟨requeued, displaced, evacuated, jammed⟩ := failed
  refine ⟨fun first stays room => (requeued first stays room).carried before after,
    fun e x first stays full last own => ?_, fun x first evacuate room own => ?_, fun x second own => ?_⟩
  · obtain ⟨reverted, struck, again⟩ := displaced e x first stays full last own
    exact ⟨reverted.around before.marks after.marks rfl rfl rfl, after.striking.trans struck,
      fun direct other => (again direct other).carried before after⟩
  · obtain ⟨reverted, unqueued, inactive⟩ := evacuated x first evacuate room own
    rw [(after.strikes g).1, (after.strikes g).2]
    exact ⟨reverted.around before.marks after.marks rfl rfl rfl, unqueued, inactive⟩
  · obtain ⟨⟨reverted, alarm⟩, gone⟩ := jammed x second own
    exact ⟨⟨reverted.around before.marks after.marks rfl rfl rfl, alarm.around after.marks⟩, gone.carried before after⟩

/-- What the success of a strike leaves holds through steps around it that leave the confirmed door of its line (R164). -/
theorem Succeeded.carried {x : Transient} (door : (s'.line a.board a.line).doorOpen = (s.line a.board a.line).doorOpen)
    (occupancy : (s'.line a.board a.line).closeOccupied = (s.line a.board a.line).closeOccupied)
    (succeeded : Succeeded g a x s' t) : Succeeded g a x s t' := by
  unfold Succeeded at succeeded ⊢
  rw [door, occupancy] at succeeded
  obtain ⟨gone, closed, opened⟩ := succeeded
  exact ⟨gone.carried before after,
    fun seen shut occupied reading => (closed seen shut occupied reading).around before.marks after.marks rfl rfl rfl,
    fun notShut => (opened notShut).around before.marks after.marks⟩

end around

/-- The success of a strike through the issue that follows it (R164; log 39). -/
theorem succeeded_issued {g : SegNo} {a : ActiveStrike} {x : Transient} {s : State}
    (own : (s.comp a.compartment).transient = some x)
    (busy : (s.comp a.compartment).state = .reserved ∨ (s.comp a.compartment).state = .releasing) :
    Succeeded g a x s (applyIssue g (strikeSucceeds g a s)) := by
  obtain ⟨-, closed, opened⟩ := succeeded_strikeSucceeds (g := g) own busy
  have after := (onlyStrikes_applyIssue g (strikeSucceeds g a s)).marks
  have quiet := noNewStrike_applyIssue a.compartment g (strikeSucceeds g a s)
  exact ⟨strikeGone ((quiet_strikeSucceeds g a s).trans quiet),
    fun seen shut occupied reading => (closed seen shut occupied reading).around (.refl s) after rfl rfl rfl,
    fun notShut => (opened notShut).around (.refl s) after⟩

/-- The end of a LOST board's strikes holds through steps that issue does not read (R162, R182). -/
theorem LostStrikes.carried {b : BoardNo} {s t u : State} (lost : LostStrikes b s t) (same : SameIssue t u) :
    LostStrikes b s u := by
  have marks := same.marks
  obtain ⟨none, one⟩ := lost
  refine ⟨fun noEnds => ?_, fun a single => ?_⟩
  · obtain ⟨kept, strikes⟩ := none noEnds
    exact ⟨kept.around (.refl s) marks, fun h =>
      ⟨(same.strikes h).1.trans (strikes h).1, (same.strikes h).2.trans (strikes h).2⟩⟩
  · obtain ⟨ended, seen, unseen⟩ := one a single
    refine ⟨(same.nextIssue _).trans ended, fun x door own busy => ?_,
      fun door => (unseen door).carried (.refl s) same.toSameRecords⟩
    obtain ⟨opened, gone⟩ := seen x door own busy
    exact ⟨opened.around (.refl s) marks, gone.carried (.refl s) same.toSameRecords⟩

end Sys2Proof.Machine

/-! The outcome of a poll (R179 to R186): link supervision, the board's declarations, the confirmations of its lines, and its
strike report. -/

namespace Sys2Proof.Machine

/-! ### The end of a poll's event -/

/-- What the event of a poll leaves of the outcome taken: the rate modes, the sweep that has gone on, the attention line
and the check word are in step (R177, R178). -/
def pollEnded (g : SegNo) (i : SlotNo) (w : State) : State := settle (advanceSweep g i (setRates w))

theorem pollEnded_eq (g : SegNo) (i : SlotNo) (w : State) :
    pollEnded g i w = { w with
      segments := (pollEnded g i w).segments
      attention := (pollEnded g i w).attention, checkWord := (pollEnded g i w).checkWord } := by
  unfold pollEnded
  rw [settle_advanced]
  obtain ⟨x, moved, -⟩ := sweepMoved_advanceSweep g i (setRates w)
  rw [moved, setRates_rest]
  rfl

theorem pollEnded_boards (g : SegNo) (i : SlotNo) (w : State) : (pollEnded g i w).boards = w.boards := by
  rw [pollEnded_eq]

theorem pollEnded_board (g : SegNo) (i : SlotNo) (w : State) (b : BoardNo) : (pollEnded g i w).board b = w.board b := by
  simp only [State.board, pollEnded_boards]

theorem pollEnded_line (g : SegNo) (i : SlotNo) (w : State) (b : BoardNo) (l : LineNo) :
    (pollEnded g i w).line b l = w.line b l := by simp only [State.line, pollEnded_board]

theorem pollEnded_strikes (g : SegNo) (i : SlotNo) (w : State) (h : SegNo) :
    ((pollEnded g i w).seg h).queue = (w.seg h).queue ∧ ((pollEnded g i w).seg h).active = (w.seg h).active := by
  obtain ⟨-, -, -, -, rated⟩ := setRates_frame w
  obtain ⟨x, moved, queue, active, -⟩ := sweepMoved_advanceSweep g i (setRates w)
  have same : ((advanceSweep g i (setRates w)).seg h).queue = ((setRates w).seg h).queue
      ∧ ((advanceSweep g i (setRates w)).seg h).active = ((setRates w).seg h).active := by
    rw [moved, State.seg_setSeg]
    split
    next own => rw [own]; exact ⟨queue, active⟩
    next => exact ⟨rfl, rfl⟩
  obtain ⟨queue', active', -⟩ := keepsStrikes_settle (advanceSweep g i (setRates w)) h
  exact ⟨queue'.trans (same.1.trans (rated h).1), active'.trans (same.2.trans (rated h).2)⟩

theorem sameIssue_pollEnded (g : SegNo) (i : SlotNo) (w : State) : SameIssue w (pollEnded g i w) := by
  have frame := pollEnded_eq g i w
  refine ⟨⟨?_, ?_, ?_, ?_, ?_, ?_, ?_, pollEnded_strikes g i w⟩, .of_boards (pollEnded_boards g i w), ?_⟩
  all_goals rw [frame]

theorem pollOutcome_completes {g : SegNo} {heard : Option (List Byte)} {i : SlotNo} {b : BoardNo}
    {strike : Option LineNo} {s : State} (power : s.run ≠ .unpowered) (phase : (s.seg g).phase = .polling i b strike)
    {holds : State → Prop} (h : holds (pollEnded g i (takeOutcome b strike heard s))) :
    Completes (exec (.pollOutcome g heard) s) holds := ⟨_, exec_pollOutcome_due power phase, h⟩

theorem keepsStation_pollEnded {g : SegNo} {i : SlotNo} {s w : State} (fixed : w.fixed = s.fixed) :
    KeepsStation s (pollEnded g i w) := keepsStation_settle (by simp [fixed])

theorem keepsTables_pollEnded {g : SegNo} {i : SlotNo} {s w : State} (fixed : w.fixed = s.fixed) :
    KeepsTables s (pollEnded g i w) := keepsTables_settle (by simp [fixed])

/-! ### A failed poll -/

section failed

variable {b : BoardNo} {strike : Option LineNo} {heard : Option (List Byte)} {s : State}

theorem takeOutcome_failed (bad : goodReply b heard = none) : takeOutcome b strike heard s = supervise b false s := by
  simp only [takeOutcome, bad]

theorem takeOutcome_good {y : BoardReply} (good : goodReply b heard = some y) :
    takeOutcome b strike heard s = takeReply b strike y s := by
  simp only [takeOutcome, good]

/-- A failed poll of a board that is UNKNOWN or LOST (R181). -/
theorem supervise_failed_offline (off : (s.board b).link = .unknown ∨ (s.board b).link = .lost) :
    supervise b false s = s.setBoard b { s.board b with goodRun := 0 } := by
  unfold supervise; dsimp only
  obtain off | off := off <;> rw [off] <;> rfl

/-- A failed poll of an ONLINE board joins its window, and the eighth failure there declares it LOST (R181). -/
theorem supervise_failed_online (online : (s.board b).link = .online) :
    supervise b false s =
      if 8 ≤ (appendOutcome (s.board b).window false).count false then
        declareLost b (s.setBoard b { s.board b with window := appendOutcome (s.board b).window false })
      else s.setBoard b { s.board b with window := appendOutcome (s.board b).window false } := by
  unfold supervise; dsimp only
  rw [online]
  simp

theorem appendOutcome_failures (window : List Bool) :
    (appendOutcome window false).count false =
      (if 32 ≤ window.length then window.drop 1 else window).count false + 1 := by
  simp [appendOutcome]

theorem setBoard_setBoard (s : State) (b : BoardNo) (x y : Board) : (s.setBoard b x).setBoard b y = s.setBoard b y := by
  simp [State.setBoard]

theorem disconnected_window (b : BoardNo) (window : List Bool) (s : State) :
    disconnected b (s.setBoard b { s.board b with window }) = disconnected b s := by
  unfold disconnected
  rw [setBoard_setBoard, State.board_setBoard_same,
    postAlarm_alarms_congr (s := s) (t := s.setBoard b { s.board b with window }) rfl rfl]

/-- The window of a board is gone when it is declared LOST. -/
theorem declareLost_window (b : BoardNo) (window : List Bool) (s : State) :
    declareLost b (s.setBoard b { s.board b with window }) = declareLost b s := by
  rw [declareLost_eq, declareLost_eq, disconnected_window]

theorem disconnected_board (b : BoardNo) (s : State) :
    (disconnected b s).board b = { s.board b with
      link := .lost, goodRun := 0, window := [], handOff := []
      lines := (s.board b).lines.map fun l => { l with doorOpen := none, occupied := none, closeOccupied := none } } :=
  State.board_setBoard_same ..

/-- What a board's record holds once it has been declared LOST (R182). -/
theorem declareLost_board (b : BoardNo) (s : State) :
    (declareLost b s).board b = { s.board b with
      link := .lost, goodRun := 0, window := [], handOff := []
      lines := (s.board b).lines.map fun l => { l with doorOpen := none, occupied := none, closeOccupied := none } } := by
  have kept := keepsBoards_declareLost b s
  have own := disconnected_board b s
  have emptied : ((declareLost b s).board b).handOff = [] := by
    have fewer := kept.offline b (by rw [own]; nofun)
    rw [own] at fewer
    exact List.subset_nil.mp fewer
  rw [kept.rest, emptied, own]

theorem declareLost_pending (b : BoardNo) (s : State) : Pending (declareLost b s) .boardLost b.val := by
  obtain ⟨a, mem, named⟩ := pending_postAlarm .boardLost b.val s
  exact ⟨a, (keepsBoards_declareLost b s).alarms mem, named⟩

end failed

/-! ### What a good reply writes of a board -/

/-- The hand-off list once a good reply has named the strike it has taken (R179). -/
def leftToHand (carried taken : Option LineNo) (handOff : List LineNo) : List LineNo :=
  match carried, taken with
  | some l, some m => if l = m then handOff.filter (· ≠ m) else handOff
  | _, _ => handOff

theorem setBoard_self (s : State) (b : BoardNo) : s.setBoard b (s.board b) = s := by
  simp [State.setBoard, State.board]

theorem strikeTaken_eq (b : BoardNo) (carried taken : Option LineNo) (s : State) :
    strikeTaken b carried taken s =
      s.setBoard b { s.board b with handOff := leftToHand carried taken (s.board b).handOff } := by
  have kept : s = s.setBoard b { s.board b with handOff := (s.board b).handOff } := (setBoard_self s b).symm
  cases carried with
  | none => exact kept
  | some l =>
    cases taken with
    | none => exact kept
    | some m =>
      by_cases same : l = m
      · simp only [strikeTaken, leftToHand, if_pos same]
      · simp only [strikeTaken, leftToHand, if_neg same]; exact kept

/-- A board's record after a good reply: the readings taken, and the strike that the board took handed over; supervision
has given it a link state, a good run and a window of its own. -/
def heardBoard (carried : Option LineNo) (y : BoardReply) (goodRun : Nat) (window : List Bool) (x : Board) : Board :=
  { x with
    goodRun, window
    handOff := leftToHand carried y.taken x.handOff
    lines := Vector.ofFn fun l => { look x.lines l with
      older := (look x.lines l).newer, newer := some (look y.readings l) } }

section heard

variable {b : BoardNo} {carried : Option LineNo} {y : BoardReply} {s : State}

theorem heardBoard_line (goodRun : Nat) (window : List Bool) (l : LineNo) :
    (s.setBoard b (heardBoard carried y goodRun window (s.board b))).line b l =
      { s.line b l with older := (s.line b l).newer, newer := some (look y.readings l) } := by
  simp only [State.line, State.board_setBoard_same, heardBoard, look_ofFn]

/-- No confirmation is derived for a board that is not ONLINE (R184, R185). -/
theorem confirmAll_offline (off : (s.board b).link ≠ .online) : confirmAll b s = s := by
  have door (l : LineNo) : confirmDoor b l s = s := by
    unfold confirmDoor; dsimp only
    split
    · exact if_neg fun h => off h.1
    · rfl
  have occupancy (l : LineNo) : confirmOccupancies (s.board b).lines b l s = s := by
    unfold confirmOccupancies
    rw [closedSince_same rfl, if_neg Bool.false_ne_true]
    unfold confirmOccupancy; dsimp only
    split
    · exact if_neg fun h => off h.1
    · rfl
  unfold confirmAll
  rw [forEach_id _ s door]
  exact forEach_id _ s occupancy

theorem takeReply_eq (link : (s.board b).link ≠ .withdrawn) :
    takeReply b carried y s = takeReport b y.report
      (confirmAll b (strikeTaken b carried y.taken (supervise b true (takeReadings b y.readings s)))) := by
  unfold takeReply confirmAll
  rw [if_neg link]

/-- A good reply of an UNKNOWN or LOST board whose good run stays below 32 (R181). -/
theorem takeReply_counts (off : (s.board b).link = .unknown ∨ (s.board b).link = .lost)
    (few : (s.board b).goodRun + 1 < 32) :
    takeReply b carried y s = takeReport b y.report
      (s.setBoard b (heardBoard carried y ((s.board b).goodRun + 1) (s.board b).window (s.board b))) := by
  have supervised : supervise b true (takeReadings b y.readings s) = (takeReadings b y.readings s).setBoard b
      { (takeReadings b y.readings s).board b with goodRun := (s.board b).goodRun + 1 } := by
    have own : (takeReadings b y.readings s).board b = { s.board b with
        lines := Vector.ofFn fun l => { look (s.board b).lines l with
          older := (look (s.board b).lines l).newer, newer := some (look y.readings l) } } :=
      State.board_setBoard_same ..
    unfold supervise; dsimp only
    rw [own]
    obtain off | off := off <;> simp [off, Nat.not_le.mpr few]
  have heard : strikeTaken b carried y.taken (supervise b true (takeReadings b y.readings s)) =
      s.setBoard b (heardBoard carried y ((s.board b).goodRun + 1) (s.board b).window (s.board b)) := by
    rw [supervised, strikeTaken_eq]
    simp only [takeReadings, setBoard_setBoard, State.board_setBoard_same]
    rfl
  rw [takeReply_eq (by obtain off | off := off <;> rw [off] <;> decide), heard, confirmAll_offline]
  rw [State.board_setBoard_same]
  show (s.board b).link ≠ .online
  obtain off | off := off <;> rw [off] <;> decide

/-- A good reply of an ONLINE board whose readings confirm nothing (R181, R184, R185). -/
theorem takeReply_quiet (online : (s.board b).link = .online) (quiet : ∀ l, LineQuiet s b y.readings l) :
    takeReply b carried y s = takeReport b y.report
      (s.setBoard b (heardBoard carried y (s.board b).goodRun (appendOutcome (s.board b).window true) (s.board b))) := by
  have supervised : supervise b true (takeReadings b y.readings s) = (takeReadings b y.readings s).setBoard b
      { (takeReadings b y.readings s).board b with window := appendOutcome (s.board b).window true } := by
    have own : (takeReadings b y.readings s).board b = { s.board b with
        lines := Vector.ofFn fun l => { look (s.board b).lines l with
          older := (look (s.board b).lines l).newer, newer := some (look y.readings l) } } :=
      State.board_setBoard_same ..
    unfold supervise; dsimp only
    rw [own]
    simp [online]
  have heard : strikeTaken b carried y.taken (supervise b true (takeReadings b y.readings s)) =
      s.setBoard b (heardBoard carried y (s.board b).goodRun (appendOutcome (s.board b).window true) (s.board b)) := by
    rw [supervised, strikeTaken_eq]
    simp only [takeReadings, setBoard_setBoard, State.board_setBoard_same]
    rfl
  rw [takeReply_eq (by rw [online]; decide), heard, confirmAll_still]
  intro l
  rw [heardBoard_line]
  exact lineStill_of_quiet (quiet l)

/-- A report of a board that is not ONLINE flips the expected bit at most (R179). -/
theorem takeReport_offline {report : Option (LineNo × Bool × Bool)} (off : (s.board b).link ≠ .online) :
    ∃ bit, takeReport b report s = s.setBoard b { s.board b with expectedBit := bit } := by
  have unchanged : s = s.setBoard b { s.board b with expectedBit := (s.board b).expectedBit } :=
    (setBoard_self s b).symm
  unfold takeReport; dsimp only
  split
  · split
    · exact ⟨!(s.board b).expectedBit, rfl⟩
    · exact ⟨_, unchanged⟩
  · exact ⟨_, unchanged⟩

/-- A repeated report is dropped (R179). -/
theorem takeReport_repeat {report : Option (LineNo × Bool × Bool)}
    (old : ∀ l fault bit, report = some (l, fault, bit) → bit ≠ (s.board b).expectedBit) : takeReport b report s = s := by
  unfold takeReport
  split
  next l fault bit => exact if_neg (old l fault bit rfl)
  next => rfl

/-- A new report of an ONLINE board flips the expected bit and reaches the SSU (R179). -/
theorem takeReport_new {l : LineNo} {fault : Bool} (online : (s.board b).link = .online) :
    takeReport b (some (l, fault, (s.board b).expectedBit)) s =
      reportStrike b l fault (s.setBoard b { s.board b with expectedBit := !(s.board b).expectedBit }) := by
  simp only [takeReport, online, if_true]

end heard

end Sys2Proof.Machine

/-! The contents of a good reply (R162, R183 to R185): what a declaration, the confirmation of one line and a strike report
leave at the end of the event. -/

namespace Sys2Proof.Machine

/-! ### The link state through a good reply -/

theorem link_forEach {n : Nat} {b : BoardNo} {f : Fin n → State → State}
    (keeps : ∀ i s, ((f i s).board b).link = (s.board b).link) (s : State) :
    ((forEach f s).board b).link = (s.board b).link := by
  have list (is : List (Fin n)) (s : State) : ((is.foldl (fun s i => f i s) s).board b).link = (s.board b).link := by
    induction is generalizing s with
    | nil => rfl
    | cons i is ih => rw [List.foldl_cons, ih, keeps]
  exact list _ s

theorem link_confirmOccupancies (before : Vector Line 12) (b : BoardNo) (l : LineNo) (s : State) :
    ((confirmOccupancies before b l s).board b).link = (s.board b).link := by
  unfold confirmOccupancies
  split
  · exact (keepsLines_closeOccupancy b l s).link b
  · unfold confirmOccupancy; dsimp only
    split
    · split
      · split
        · exact ((keepsLines_occupancyConfirmed ..).link b).trans (link_setLine ..)
        · exact link_setLine ..
      · rfl
    · rfl

theorem link_confirmAll (b : BoardNo) (s : State) : ((confirmAll b s).board b).link = (s.board b).link :=
  (link_forEach (link_confirmOccupancies _ b) _).trans (link_forEach (fun l s => (confirmDoor_lines b l s).2) s)

theorem link_confirmLines (b : BoardNo) (s : State) : ((confirmLines b s).board b).link = (s.board b).link := by
  have each := link_forEach (b := b) (fun l s => (link_confirmFresh b l s).1) { s with declaring := some b }
  unfold confirmLines; dsimp only
  generalize forEach (fun l => confirmFresh b l) { s with declaring := some b } = t at each ⊢
  exact each

theorem link_takeReport (b : BoardNo) (report : Option (LineNo × Bool × Bool)) (s : State) :
    ((takeReport b report s).board b).link = (s.board b).link :=
  congrArg (fun x : Standing => x.links b) (standing_takeReport b report s)

/-- A good reply leaves a board ONLINE that is, or that it declares so (R181, R183). -/
theorem takeReply_link {b : BoardNo} {carried : Option LineNo} {y : BoardReply} {s : State} (online : OnlineAfter s b) :
    ((takeReply b carried y s).board b).link = .online := by
  obtain online | ⟨off, run⟩ := online
  · obtain ⟨v, found, eq⟩ := takeReply_online (carried := carried) (r := y) online
    rw [eq, link_takeReport, link_confirmAll, found.online]
  · obtain ⟨v, found, -, eq⟩ := takeReply_declared (carried := carried) (r := y) off run
    rw [eq, link_takeReport, link_confirmAll, (strikeTaken_spec ..).1.link, (keepsLines_applyIssue ..).link,
      link_confirmLines, found.online]

/-! ### The compartments that a good reply finds -/

theorem readied_online {b : BoardNo} {s : State} (online : (s.board b).link = .online) : readied b s = s := if_pos online

theorem readied_eq (b : BoardNo) (s : State) :
    readied b s = { s with ret := { s.ret with compartments := (readied b s).ret.compartments } } := by
  unfold readied
  split <;> rfl

theorem readied_map (b : BoardNo) (s : State) (c : CompNo) : ((readied b s).comp c).map = (s.comp c).map := by
  by_cases online : (s.board b).link = .online
  · rw [readied_online online]
  · unfold readied State.comp
    rw [if_neg online]
    dsimp only
    rw [look_map]
    generalize look s.ret.compartments c = x
    split
    · split <;> simp
    · simp

theorem compAt_readied (b d : BoardNo) (l : LineNo) (s : State) : compAt (readied b s) d l = compAt s d l :=
  compAt_congr (readied_map b s) d l

theorem Found.compAt {b : BoardNo} {readings : Vector Reading 12} {s v : State} (found : Found b readings s v)
    (l : LineNo) : compAt v b l = compAt s b l :=
  compAt_congr (fun d => (congrArg Compartment.map (found.comps d)).trans (readied_map b s d)) b l

theorem Found.onlyComps {b : BoardNo} {readings : Vector Reading 12} {s v : State} (found : Found b readings s v) :
    OnlyComps s v :=
  OnlyComps.around (t := readied b s) (.refl s) found.marks (by unfold OnlyComps; rw [readied_eq])

/-! ### An ONLINE declaration -/

theorem confirmLines_still {b : BoardNo} {s : State} (still : ∀ l, LineStill (s.line b l)) : confirmLines b s = s := by
  unfold confirmLines
  rw [forEach_id _ { s with declaring := some b } fun l => confirmFresh_still (still l)]

/-- Issue reads of the state before it the segments, the budgets and the time. -/
theorem Issued.of_start {g : SegNo} {s v t : State} (segments : v.segments = s.segments) (only : OnlyComps s v)
    (elapsed : v.elapsed = s.elapsed) (issued : Issued g v t) : Issued g s t := by
  have seg : v.seg g = s.seg g := by simp only [State.seg, segments]
  have budget : budgetInForce v g = budgetInForce s g := by unfold budgetInForce; rw [only]
  unfold Issued energised at issued ⊢
  simp only [seg, budget, elapsed, striking_congr segments] at issued
  exact issued

theorem sameIssue_strikeTaken (b : BoardNo) (carried taken : Option LineNo) (s : State) :
    SameIssue s (strikeTaken b carried taken s) := by
  refine ⟨?_, (strikeTaken_spec b carried taken s).1, ?_⟩
  · rw [strikeTaken_eq]; exact sameRecords_setBoard ..
  · rw [strikeTaken_eq]; rfl

/-- A board has been declared ONLINE by a reply whose readings confirm nothing (R183). -/
theorem takeReply_declares {b : BoardNo} {carried : Option LineNo} {y : BoardReply} {s : State}
    (off : (s.board b).link = .unknown ∨ (s.board b).link = .lost) (run : 32 ≤ (s.board b).goodRun + 1)
    (quiet : ∀ l, LineQuiet s b y.readings l) (silent : y.report = none) :
    ∃ v, Found b y.readings s v ∧ (v.board b).goodRun = 0 ∧ (v.board b).window = []
      ∧ takeReply b carried y s = strikeTaken b carried y.taken (applyIssue (segmentOf b) v) := by
  obtain ⟨v, found, start, eq⟩ := takeReply_declared (carried := carried) (r := y) off run
  have still (l : LineNo) : LineStill (v.line b l) := by rw [found.lines]; exact lineStill_of_quiet (quiet l)
  have board : v.board b = (freshlyOnline b y.readings s).board b := by rw [← start]; rfl
  have own : (freshlyOnline b y.readings s).board b = { s.board b with
      link := .online, goodRun := 0, window := []
      lines := Vector.ofFn fun l =>
        { s.line b l with older := (s.line b l).newer, newer := some (look y.readings l) } } :=
    State.board_setBoard_same ..
  refine ⟨v, found, by rw [board, own], by rw [board, own], ?_⟩
  rw [eq, confirmLines_still still, silent, confirmAll_still]
  · rfl
  · intro l
    rw [line_of_lines (strikeTaken_spec ..).1, line_of_lines (keepsLines_applyIssue ..)]
    exact still l

/-! ### The confirmations of one line -/

theorem StrikeGone.of_segments {g : SegNo} {c : CompNo} {s v t : State} (segments : v.segments = s.segments)
    (gone : StrikeGone g c v t) : StrikeGone g c s t := fun unqueued =>
  gone (by simpa only [queuedOf, State.seg, segments] using unqueued)

/-- A door open confirmation ends the CONFIRMING strike of its line's compartment, and no new one joins after it
(R163). -/
theorem lineOpened_gone {b : BoardNo} {l : LineNo} {c : CompNo} {g : SegNo} {a : ActiveStrike} {d : Nat} {s t : State}
    (at' : compAt s b l = some c) (active : activeOf s c = some (g, a)) (confirming : a.phase = .confirming d)
    (quiet : NoNewStrike c (lineOpened b l s) t) : StrikeGone g c s t := by
  obtain ⟨rfl, -⟩ := activeOf_some active
  generalize opened : s.setLine b l { s.line b l with doorOpen := some true, occupied := none } = v at quiet
  have segments : v.segments = s.segments := by rw [← opened]; rfl
  have eq : lineOpened b l s = strikeSucceeds g a v := by
    unfold lineOpened; dsimp only
    rw [opened, compAt_congr (s := s) (t := v) (fun d => by rw [← opened]; rfl), at']
    dsimp only
    unfold doorOpened
    rw [show activeOf v a.compartment = some (g, a) by rw [← opened]; exact active]
    dsimp only
    rw [if_neg (by simp [ActiveStrike.isIssued, confirming])]
  rw [eq] at quiet
  exact (strikeGone ((quiet_strikeSucceeds g a v).trans quiet)).of_segments segments

/-- What an opening has done holds through steps that write no record and lose no strike. -/
theorem OpeningTaken.around {c : CompNo} {s v x t : State} (before : OnlyMarks s v) (own : v.comp c = s.comp c)
    (segments : v.segments = s.segments) (after : OnlyMarks x t)
    (kept : ∀ g, ∀ a ∈ (x.seg g).active, a ∈ (t.seg g).active)
    (gone : ∀ g a d, activeOf v c = some (g, a) → a.phase = .confirming d → StrikeGone g c v t)
    (opening : OpeningTaken c v x) : OpeningTaken c s t := by
  have active : activeOf v c = activeOf s c := by simp only [activeOf, State.seg, segments]
  unfold OpeningTaken at opening ⊢
  rw [active, own] at opening
  rw [active] at gone
  obtain ⟨unstruck, issued, confirming⟩ := opening
  refine ⟨fun none => (unstruck none).around before own after, fun g a d struck phase => ?_,
    fun g a d y struck phase unseen transient busy => ?_⟩
  · obtain ⟨seen, records⟩ := issued g a d struck phase
    exact ⟨kept g _ seen, records.around before after⟩
  · obtain ⟨opened, -⟩ := confirming g a d y struck phase unseen transient busy
    exact ⟨opened.around before after, (gone g a d struck phase).of_segments segments⟩

section line

variable {g : SegNo} {i : SlotNo} {b : BoardNo} {carried : Option LineNo} {y : BoardReply} {l : LineNo} {o : Reading}
  {c : CompNo} {s : State} (online : OnlineAfter s b) (others : ∀ k, k ≠ l → LineQuiet s b y.readings k)
  (silent : y.report = none) (older : (s.line b l).newer = some o) (at' : compAt s b l = some c)
include online others silent older at'

/-- A good reply with the confirmed close of one line (R16, R184, R185). -/
theorem pollEnded_close (closed : o.doorOpen = false) (closed' : (look y.readings l).doorOpen = false)
    (was : (s.line b l).doorOpen ≠ some false) :
    let t := pollEnded g i (takeReply b carried y s)
    (t.line b l).doorOpen = some false ∧ (t.line b l).occupied = some (look y.readings l).occupied
      ∧ CloseTaken c o (look y.readings l) (readied b s) t := by
  obtain ⟨v, w, found, eq, late⟩ := takeReply_close (carried := carried) online others silent older closed closed' was
  obtain ⟨marks, lines, -, -⟩ := late.spec
  rw [eq]
  dsimp only
  rw [pollEnded_line, line_of_lines lines, shut_line]
  refine ⟨rfl, rfl, CloseTaken.around found.marks (found.comps c) (marks.trans (sameIssue_pollEnded g i w).marks) ?_⟩
  refine shut_spec ((found.compAt l).trans at') ?_ ?_
  · rw [found.lines]; exact older
  · rw [found.lines]

/-- A good reply with the door open confirmation of one line (R163, R184). -/
theorem pollEnded_open (opened : o.doorOpen = true) (opened' : (look y.readings l).doorOpen = true)
    (was : (s.line b l).doorOpen ≠ some true) :
    let t := pollEnded g i (takeReply b carried y s)
    (t.line b l).doorOpen = some true ∧ (t.line b l).occupied = none ∧ OpeningTaken c (readied b s) t := by
  obtain ⟨v, w, found, eq, late⟩ := takeReply_open (carried := carried) online others silent older opened opened' was
  obtain ⟨marks, lines, quiet, kept⟩ := late.spec
  have ended := sameIssue_pollEnded g i w
  have there := (found.compAt l).trans at'
  have segments : v.segments = (readied b s).segments := by rw [readied_eq]; exact found.segments
  rw [eq]
  dsimp only
  rw [pollEnded_line, line_of_lines lines, lineOpened_line]
  refine ⟨rfl, rfl, OpeningTaken.around found.marks (found.comps c) segments (marks.trans ended.marks)
    (fun h a mem => ?_) (fun h a d active confirming => ?_) (opened_spec there)⟩
  · rw [(ended.strikes h).2]; exact kept h a mem
  · exact lineOpened_gone there active confirming ((quiet c).trans (ended.quiet c))

/-- A good reply with the occupancy confirmation of one line (R185). -/
theorem pollEnded_occupancy (closed : o.doorOpen = false) (closed' : (look y.readings l).doorOpen = false)
    (door : (s.line b l).doorOpen = some false) (agree : o.occupied = (look y.readings l).occupied)
    (was : (s.line b l).occupied ≠ some (look y.readings l).occupied) :
    let t := pollEnded g i (takeReply b carried y s)
    (t.line b l).occupied = some (look y.readings l).occupied
      ∧ OccupancyTaken c (look y.readings l).occupied (readied b s) t := by
  obtain ⟨occupancy, line⟩ := takeReply_occupied (carried := carried) online others silent older
    ((compAt_readied b b l s).trans at') closed closed' door agree was
  dsimp only
  rw [pollEnded_line]
  exact ⟨line, occupancy.around (.refl _) (sameIssue_pollEnded g i _).marks⟩

end line

/-! ### A new strike report -/

theorem reportStrike_none {b : BoardNo} {l : LineNo} {fault : Bool} {s : State}
    (none : (s.seg (segmentOf b)).active.find? (fun a => a.isIssued && a.board = b && a.line = l) = none) :
    reportStrike b l fault s = s := by
  simp only [reportStrike, none]

section report

variable {b : BoardNo} {l : LineNo} {fault : Bool} {a : ActiveStrike} {s : State}
  (named : (s.seg (segmentOf b)).active.find? (fun a => a.isIssued && a.board = b && a.line = l) = some a)
include named

theorem reportStrike_seen (seen : a.doorSeen = true) :
    reportStrike b l fault s = applyIssue (segmentOf b) (strikeSucceeds (segmentOf b) a s) := by
  simp only [reportStrike, named, energiseEnds, strikeDone, seen, if_true, ite_self]

theorem reportStrike_done (unseen : a.doorSeen = false) :
    reportStrike b l false s =
      applyIssue (segmentOf b) (setActive (segmentOf b) { a with phase := .confirming (s.elapsed + 3) } s) := by
  simp [reportStrike, named, strikeDone, unseen]

theorem reportStrike_fault (unseen : a.doorSeen = false) :
    reportStrike b l true s = attemptFails (segmentOf b) a s := by
  simp [reportStrike, named, energiseEnds, unseen]

theorem keepsBoards_reportStrike : KeepsBoards s (reportStrike b l fault s) := by
  simp only [reportStrike, named]
  split
  · exact keepsBoards_energiseEnds ..
  · exact keepsBoards_strikeDone ..

/-- A report that acts on a strike ends with issue on the segment (R162). -/
theorem reportStrike_issues : ∃ u, reportStrike b l fault s = applyIssue (segmentOf b) u := by
  cases seen : a.doorSeen with
  | true => exact ⟨_, reportStrike_seen named seen⟩
  | false =>
    cases fault with
    | false => exact ⟨_, reportStrike_done named seen⟩
    | true =>
      obtain ⟨u, eq, -⟩ := attemptFails_issues (segmentOf b) a s
      exact ⟨u, (reportStrike_fault named seen).trans eq⟩

end report

end Sys2Proof.Machine

/-! The supervision obligation, clause by clause. -/

namespace Sys2Proof.Machine

section clauses

variable {g : SegNo} {heard : Option (List Byte)} {i : SlotNo} {b : BoardNo} {strike : Option LineNo} {s : State}
  (power : s.run ≠ .unpowered) (phase : (s.seg g).phase = .polling i b strike)
include power phase

/-- A failed poll of a board that is UNKNOWN or LOST ends its good run (R181). -/
theorem pollFailed_offline (bad : goodReply b heard = none) (off : (s.board b).link = .unknown ∨ (s.board b).link = .lost) :
    Completes (exec (.pollOutcome g heard) s) fun t =>
      t.board b = { s.board b with goodRun := 0 } ∧ t.ret = s.ret ∧ t.alarms = s.alarms ∧ KeepsStation s t := by
  have eq : takeOutcome b strike heard s = s.setBoard b { s.board b with goodRun := 0 } :=
    (takeOutcome_failed bad).trans (supervise_failed_offline off)
  have same := sameIssue_pollEnded g i (takeOutcome b strike heard s)
  refine pollOutcome_completes power phase ⟨?_, ?_, ?_, keepsStation_pollEnded (fixed_takeOutcome ..)⟩
  · rw [pollEnded_board, eq, State.board_setBoard_same]
  · rw [same.ret, eq]; rfl
  · rw [same.alarms, eq]; rfl

/-- A failed poll of an ONLINE board joins its window (R181). -/
theorem pollFailed_online (bad : goodReply b heard = none) (online : (s.board b).link = .online)
    (few : (if 32 ≤ (s.board b).window.length then (s.board b).window.drop 1 else (s.board b).window).count false + 1 < 8) :
    Completes (exec (.pollOutcome g heard) s) fun t =>
      t.board b = { s.board b with window := appendOutcome (s.board b).window false } ∧ t.ret = s.ret
        ∧ t.alarms = s.alarms ∧ KeepsStation s t := by
  have eq : takeOutcome b strike heard s =
      s.setBoard b { s.board b with window := appendOutcome (s.board b).window false } := by
    rw [takeOutcome_failed bad, supervise_failed_online online, appendOutcome_failures, if_neg (Nat.not_le.mpr few)]
  have same := sameIssue_pollEnded g i (takeOutcome b strike heard s)
  refine pollOutcome_completes power phase ⟨?_, ?_, ?_, keepsStation_pollEnded (fixed_takeOutcome ..)⟩
  · rw [pollEnded_board, eq, State.board_setBoard_same]
  · rw [same.ret, eq]; rfl
  · rw [same.alarms, eq]; rfl

/-- The eighth failure in its window declares an ONLINE board LOST (R181, R182, R162). -/
theorem pollFailed_lost (bad : goodReply b heard = none) (online : (s.board b).link = .online)
    (many : 8 ≤ (if 32 ≤ (s.board b).window.length then (s.board b).window.drop 1 else (s.board b).window).count false + 1) :
    Completes (exec (.pollOutcome g heard) s) fun t =>
      (t.board b).link = .lost ∧ (t.board b).window = [] ∧ (t.board b).goodRun = 0 ∧ (t.board b).handOff = []
        ∧ (∃ a ∈ t.alarms, a.kind = .boardLost ∧ a.object = b.val)
        ∧ (∀ l, (t.line b l).doorOpen = none ∧ (t.line b l).occupied = none)
        ∧ LostStrikes b (disconnected b s) t ∧ KeepsStation s t ∧ KeepsTables s t := by
  have eq : takeOutcome b strike heard s = declareLost b s := by
    rw [takeOutcome_failed bad, supervise_failed_online online, appendOutcome_failures, if_pos many, declareLost_window]
  have fixed := fixed_takeOutcome b strike heard s
  have same := sameIssue_pollEnded g i (takeOutcome b strike heard s)
  have board := pollEnded_board g i (takeOutcome b strike heard s) b
  refine pollOutcome_completes power phase ?_
  rw [eq] at fixed same board ⊢
  rw [declareLost_board] at board
  refine ⟨by rw [board], by rw [board], by rw [board], by rw [board], ?_, fun l => ?_,
    (lostStrikes_declareLost b s).carried same, keepsStation_pollEnded fixed, keepsTables_pollEnded fixed⟩
  · rw [same.alarms]; exact declareLost_pending b s
  · simp only [State.line, board, look_map, and_self]

section good

variable {y : BoardReply} (good : goodReply b heard = some y)
include good

/-- A good reply lengthens the good run of an UNKNOWN or LOST board (R181). -/
theorem pollCounts (off : (s.board b).link = .unknown ∨ (s.board b).link = .lost) (few : (s.board b).goodRun + 1 < 32) :
    Completes (exec (.pollOutcome g heard) s) fun t =>
      (t.board b).link = (s.board b).link ∧ (t.board b).goodRun = (s.board b).goodRun + 1
        ∧ (∀ l, (t.line b l).newer = some (look y.readings l) ∧ (t.line b l).older = (s.line b l).newer)
        ∧ t.ret = s.ret ∧ t.alarms = s.alarms ∧ KeepsStation s t := by
  generalize counted : heardBoard strike y ((s.board b).goodRun + 1) (s.board b).window (s.board b) = x
  have unknown : (s.board b).link ≠ .online := by obtain off | off := off <;> rw [off] <;> decide
  obtain ⟨bit, reported⟩ := takeReport_offline (b := b) (s := s.setBoard b x) (report := y.report)
    (by rw [State.board_setBoard_same, ← counted]; exact unknown)
  have eq : takeOutcome b strike heard s = s.setBoard b { x with expectedBit := bit } := by
    rw [takeOutcome_good good, takeReply_counts off few, counted, reported, setBoard_setBoard, State.board_setBoard_same]
  have same := sameIssue_pollEnded g i (takeOutcome b strike heard s)
  have board := pollEnded_board g i (takeOutcome b strike heard s) b
  refine pollOutcome_completes power phase ⟨?_, ?_, fun l => ?_, ?_, ?_, keepsStation_pollEnded (fixed_takeOutcome ..)⟩
  · rw [board, eq, State.board_setBoard_same, ← counted]; rfl
  · rw [board, eq, State.board_setBoard_same, ← counted]; rfl
  · rw [State.line, board, eq, State.board_setBoard_same, ← counted]
    simp only [heardBoard, look_ofFn, State.line, and_self]
  · rw [same.ret, eq]; rfl
  · rw [same.alarms, eq]; rfl

/-- A good reply of an ONLINE board that confirms nothing and reports nothing new: it joins the window, and the strike it
took leaves the hand-off list (R179, R181, R184). -/
theorem pollQuiet (online : (s.board b).link = .online) (quiet : ∀ l, LineQuiet s b y.readings l)
    (old : ∀ l fault bit, y.report = some (l, fault, bit) → bit ≠ (s.board b).expectedBit) :
    Completes (exec (.pollOutcome g heard) s) fun t =>
      t.board b = heardBoard strike y (s.board b).goodRun (appendOutcome (s.board b).window true) (s.board b)
        ∧ (∀ d, d ≠ b → t.board d = s.board d)
        ∧ (∀ h, (t.seg h).queue = (s.seg h).queue ∧ (t.seg h).active = (s.seg h).active)
        ∧ t.ret = s.ret ∧ t.quotes = s.quotes ∧ t.kiosks = s.kiosks ∧ t.alarms = s.alarms ∧ t.ajar = s.ajar
        ∧ KeepsStation s t := by
  have eq : takeOutcome b strike heard s = s.setBoard b
      (heardBoard strike y (s.board b).goodRun (appendOutcome (s.board b).window true) (s.board b)) := by
    rw [takeOutcome_good good, takeReply_quiet online quiet, takeReport_repeat]
    rw [State.board_setBoard_same]
    exact old
  have same : SameRecords s (pollEnded g i (takeOutcome b strike heard s)) :=
    SameRecords.trans (by rw [eq]; exact sameRecords_setBoard ..) (sameIssue_pollEnded g i _).toSameRecords
  refine pollOutcome_completes power phase ⟨?_, fun d other => ?_, same.strikes, same.ret, same.quotes, same.kiosks,
    same.alarms, same.ajar, keepsStation_pollEnded (fixed_takeOutcome ..)⟩
  · rw [pollEnded_board, eq, State.board_setBoard_same]
  · rw [pollEnded_board, eq, State.board_setBoard, if_neg other]

section declared

variable (off : (s.board b).link = .unknown ∨ (s.board b).link = .lost) (run : 32 ≤ (s.board b).goodRun + 1)
  (silent : y.report = none)
include off run silent

/-- The declaration of a board whose readings confirm nothing (R181, R183, R22). -/
theorem pollDeclares (quiet : ∀ l, LineQuiet s b y.readings l) :
    Completes (exec (.pollOutcome g heard) s) fun t =>
      (t.board b).link = .online ∧ (t.board b).goodRun = 0 ∧ (t.board b).window = []
        ∧ ReadingsTaken b y.readings s t ∧ (∀ d, KeepsComp (readied b s) t d) ∧ OnlyComps s t
        ∧ t.kiosks = s.kiosks ∧ t.alarms = s.alarms ∧ Issued (segmentOf b) s t ∧ KeepsStation s t := by
  obtain ⟨v, found, goodRun, window, eq⟩ := takeReply_declares (carried := strike) off run quiet silent
  rw [← takeOutcome_good (strike := strike) good] at eq
  have link : ((takeOutcome b strike heard s).board b).link = .online := by
    rw [takeOutcome_good good]; exact takeReply_link (.inr ⟨off, run⟩)
  have handed := sameIssue_strikeTaken b strike y.taken (applyIssue (segmentOf b) v)
  rw [← eq] at handed
  have same := handed.trans (sameIssue_pollEnded g i (takeOutcome b strike heard s))
  have lines : KeepsLines v (pollEnded g i (takeOutcome b strike heard s)) :=
    (keepsLines_applyIssue (segmentOf b) v).trans same.lines
  have marks : OnlyMarks (readied b s) (pollEnded g i (takeOutcome b strike heard s)) :=
    found.marks.trans ((onlyStrikes_applyIssue (segmentOf b) v).marks.trans same.marks)
  have issued := (issued_applyIssue (segmentOf b) v).carried same
  have kept : (takeOutcome b strike heard s).board b = { v.board b with
      handOff := ((takeOutcome b strike heard s).board b).handOff } := by
    rw [eq, strikeTaken_eq, State.board_setBoard_same, (keepsBoards_applyIssue (segmentOf b) v).rest]
  refine pollOutcome_completes power phase ⟨?_, ?_, ?_, fun l => ?_, marks.comps, ?_, ?_, ?_, ?_,
    keepsStation_pollEnded (fixed_takeOutcome ..)⟩
  · rw [pollEnded_board, link]
  · rw [pollEnded_board, kept, goodRun]
  · rw [pollEnded_board, kept, window]
  · rw [line_of_lines lines, found.lines]; exact ⟨rfl, rfl⟩
  · have only := found.onlyComps
    unfold OnlyComps at only ⊢
    rw [((onlyStrikes_applyIssue (segmentOf b) v).marks.trans same.marks).ret, only]
  · rw [marks.kiosks, readied_eq]
  · rw [marks.alarms, readied_eq]
  · refine issued.of_start found.segments found.onlyComps ?_
    rw [found.marks.elapsed, readied_eq]

/-- The declaration of a board none of whose doors was confirmed (R183; log 49). -/
theorem pollConfirms (fresh : ∀ l, (s.line b l).doorOpen = none) :
    Completes (exec (.pollOutcome g heard) s) fun t =>
      (t.board b).link = .online
        ∧ (∃ u, LinesConfirmed b (List.finRange 12) (freshlyOnline b y.readings s) u
            ∧ Issued (segmentOf b) u t ∧ RecordsKept u t ∧ t.ajar = u.ajar ∧ ∀ l, t.line b l = u.line b l)
        ∧ KeepsStation s t ∧ KeepsTables s t := by
  obtain ⟨u, confirmed, marks, lines, link, issued⟩ := takeReply_fresh (carried := strike) off run fresh silent
  have fixed := fixed_takeOutcome b strike heard s
  rw [takeOutcome_good good] at fixed
  have same := sameIssue_pollEnded g i (takeReply b strike y s)
  have marked := marks.trans same.marks
  refine pollOutcome_completes power phase ?_
  rw [takeOutcome_good good]
  refine ⟨by rw [pollEnded_board, link], ⟨u, confirmed, issued.carried same, marked.ignored, marked.ajar, fun l => ?_⟩,
    keepsStation_pollEnded fixed, keepsTables_pollEnded fixed⟩
  rw [pollEnded_line, line_of_lines lines]

end declared

/-- The confirmation of one line, through the end of the event (R184, R185). -/
theorem pollLine {l : LineNo} {o : Reading} {c : CompNo} (online : OnlineAfter s b)
    (others : ∀ k, k ≠ l → LineQuiet s b y.readings k) (silent : y.report = none) (older : (s.line b l).newer = some o)
    (at' : compAt s b l = some c) :
    (o.doorOpen = false → (look y.readings l).doorOpen = false → (s.line b l).doorOpen ≠ some false →
      Completes (exec (.pollOutcome g heard) s) fun t =>
        (t.board b).link = .online ∧ (t.line b l).doorOpen = some false
          ∧ (t.line b l).occupied = some (look y.readings l).occupied
          ∧ CloseTaken c o (look y.readings l) (readied b s) t
          ∧ KeepsStation s t ∧ KeepsTables s t)
    ∧ (o.doorOpen = true → (look y.readings l).doorOpen = true → (s.line b l).doorOpen ≠ some true →
      Completes (exec (.pollOutcome g heard) s) fun t =>
        (t.board b).link = .online ∧ (t.line b l).doorOpen = some true ∧ (t.line b l).occupied = none
          ∧ OpeningTaken c (readied b s) t
          ∧ KeepsStation s t ∧ KeepsTables s t)
    ∧ (o.doorOpen = false → (look y.readings l).doorOpen = false → (s.line b l).doorOpen = some false →
      o.occupied = (look y.readings l).occupied → (s.line b l).occupied ≠ some (look y.readings l).occupied →
      Completes (exec (.pollOutcome g heard) s) fun t =>
        (t.board b).link = .online ∧ (t.line b l).occupied = some (look y.readings l).occupied
          ∧ OccupancyTaken c (look y.readings l).occupied (readied b s) t ∧ KeepsStation s t ∧ KeepsTables s t) := by
  have fixed := fixed_takeOutcome b strike heard s
  have link := takeReply_link (carried := strike) (y := y) online
  rw [← pollEnded_board g i] at link
  rw [takeOutcome_good good] at fixed
  have station : KeepsStation s (pollEnded g i (takeReply b strike y s)) := keepsStation_pollEnded fixed
  have tables : KeepsTables s (pollEnded g i (takeReply b strike y s)) := keepsTables_pollEnded fixed
  have completes {holds : State → Prop} (h : holds (pollEnded g i (takeReply b strike y s))) :
      Completes (exec (.pollOutcome g heard) s) holds := by
    refine pollOutcome_completes power phase ?_
    rwa [takeOutcome_good good]
  refine ⟨fun closed closed' was => completes ?_, fun opened opened' was => completes ?_,
    fun closed closed' door agree was => completes ?_⟩
  · obtain ⟨door, occupied, taken⟩ :=
      pollEnded_close (g := g) (i := i) (carried := strike) online others silent older at' closed closed' was
    exact ⟨link, door, occupied, taken, station, tables⟩
  · obtain ⟨door, occupied, taken⟩ :=
      pollEnded_open (g := g) (i := i) (carried := strike) online others silent older at' opened opened' was
    exact ⟨link, door, occupied, taken, station, tables⟩
  · obtain ⟨occupied, taken⟩ :=
      pollEnded_occupancy (g := g) (i := i) (carried := strike) online others silent older at' closed closed' door agree was
    exact ⟨link, occupied, taken, station, tables⟩

/-- A new strike report of an ONLINE board acts on the ISSUED strike of its line (R179, R162). -/
theorem pollReports {l : LineNo} {fault : Bool} (online : (s.board b).link = .online)
    (quiet : ∀ k, LineQuiet s b y.readings k) (report : y.report = some (l, fault, (s.board b).expectedBit)) :
    let named := (s.seg (segmentOf b)).active.find? (fun a => a.isIssued && a.board = b && a.line = l)
    Completes (exec (.pollOutcome g heard) s) fun t =>
      (t.board b).expectedBit = !(s.board b).expectedBit
        ∧ (named = none → t.ret = s.ret ∧ t.kiosks = s.kiosks ∧ t.alarms = s.alarms
            ∧ ∀ h, (t.seg h).queue = (s.seg h).queue ∧ (t.seg h).active = (s.seg h).active)
        ∧ (∀ a, named = some a →
            nextIssue t (segmentOf b) = none
              ∧ (∀ x, a.doorSeen = true → (s.comp a.compartment).transient = some x →
                  ((s.comp a.compartment).state = .reserved ∨ (s.comp a.compartment).state = .releasing) →
                  Succeeded (segmentOf b) a x s t)
              ∧ (a.doorSeen = false → fault = false →
                  { a with phase := .confirming (s.elapsed + 3) } ∈ (t.seg (segmentOf b)).active ∧ RecordsKept s t)
              ∧ (a.doorSeen = false → fault = true → AttemptFailed (segmentOf b) a s t))
        ∧ KeepsStation s t ∧ KeepsTables s t := by
  intro named
  generalize heardAs : heardBoard strike y (s.board b).goodRun (appendOutcome (s.board b).window true) (s.board b) = x
  have bit : x.expectedBit = (s.board b).expectedBit := by rw [← heardAs]; rfl
  generalize flipped : s.setBoard b { x with expectedBit := !(s.board b).expectedBit } = v
  have eq : takeOutcome b strike heard s = reportStrike b l fault v := by
    rw [takeOutcome_good good, takeReply_quiet online quiet, heardAs, report, ← bit]
    have new := takeReport_new (b := b) (s := s.setBoard b x) (l := l) (fault := fault)
      (by rw [State.board_setBoard_same, ← heardAs]; exact online)
    rw [State.board_setBoard_same, setBoard_setBoard, bit, flipped] at new
    rwa [bit]
  have before : SameRecords s v := by rw [← flipped]; exact sameRecords_setBoard ..
  have active : (v.seg (segmentOf b)).active.find? (fun a => a.isIssued && a.board = b && a.line = l) = named := by
    rw [(before.strikes _).2]
  have board : (v.board b).expectedBit = !(s.board b).expectedBit := by rw [← flipped, State.board_setBoard_same]
  have door (d : BoardNo) (m : LineNo) : (v.line d m).doorOpen = (s.line d m).doorOpen
      ∧ (v.line d m).closeOccupied = (s.line d m).closeOccupied := by
    by_cases own : d = b
    · rw [own, ← flipped, ← heardAs]
      simp [State.line, State.board_setBoard_same, heardBoard]
    · rw [← flipped]
      simp [State.line, State.board_setBoard, own]
  have ended := sameIssue_pollEnded g i (takeOutcome b strike heard s)
  have fixed := fixed_takeOutcome b strike heard s
  refine pollOutcome_completes power phase ?_
  rw [eq] at ended fixed ⊢
  clear_value named
  refine ⟨?_, fun none => ?_, fun a found => ?_, keepsStation_pollEnded fixed, keepsTables_pollEnded fixed⟩
  · rw [pollEnded_board]
    cases named with
    | none => rw [reportStrike_none active, board]
    | some a => rw [(keepsBoards_reportStrike active).rest, board]
  · rw [reportStrike_none (active.trans none)] at ended ⊢
    have same := before.trans ended.toSameRecords
    exact ⟨same.ret, same.kiosks, same.alarms, same.strikes⟩
  · rw [found] at active
    refine ⟨?_, fun x seen own busy => ?_, fun unseen done => ?_, fun unseen faulty => ?_⟩
    · obtain ⟨u, issues⟩ := reportStrike_issues (fault := fault) active
      rw [ended.nextIssue, issues]
      exact (issued_applyIssue (segmentOf b) u).1
    · have succeeded := succeeded_issued (g := segmentOf b) (a := a) (s := v) (x := x)
        (by rw [before.comp]; exact own) (by rw [before.comp]; exact busy)
      rw [← reportStrike_seen active seen (fault := fault)] at succeeded
      obtain ⟨doors, occupancies⟩ := door a.board a.line
      exact succeeded.carried before ended.toSameRecords doors occupancies
    · subst done
      rw [reportStrike_done active unseen] at ended ⊢
      constructor
      · rw [(ended.strikes _).2, ← before.elapsed]
        refine active_issueUpTo _ _ _ _ ?_
        rw [setActive, State.seg_setSeg_same]
        exact List.mem_map.mpr ⟨a, List.mem_of_find?_eq_some active, if_pos rfl⟩
      · have marked : OnlyMarks v (setActive (segmentOf b) { a with phase := .confirming (v.elapsed + 3) } v) :=
          onlyMarks_of_eq rfl rfl rfl rfl rfl rfl rfl
        exact (before.marks.trans (marked.trans ((onlyStrikes_applyIssue ..).marks.trans ended.marks))).ignored
    · subst faulty
      rw [reportStrike_fault active unseen] at ended ⊢
      exact (attemptFailed (segmentOf b) a v).carried before ended.toSameRecords

end good

end clauses

/-- Settles O51, a clause for each kind of outcome (R162, R179, R181 to R185). -/
theorem pollOutcomeSupervises : Obligations.PollOutcomeSupervises := by
  intro g heard i b strike s power phase window
  refine ⟨pollFailed_offline power phase, pollFailed_online power phase, pollFailed_lost power phase,
    fun y good off few => pollCounts power phase good off few, fun y good online quiet old => ?_,
    fun y good off run quiet silent => pollDeclares power phase good off run silent quiet,
    fun y good off run fresh silent => pollConfirms power phase good off run silent fresh,
    fun y l o c good online others silent older at' => pollLine power phase good online others silent older at',
    fun y l fault good online quiet report => pollReports power phase good online quiet report⟩
  exact pollQuiet power phase good online quiet old

end Sys2Proof.Machine

/-! Load Slot (R175, R176): the slots as they become, the boards that a load leaves unnamed or names again, and the strikes
of a board that it leaves unnamed while ONLINE (R162, R182). -/

namespace Sys2Proof.Machine

theorem slotNo?_val (i : SlotNo) : slotNo? i.val = some i := dif_pos i.isLt

theorem slotted_iff {s : State} {g : SegNo} {b : BoardNo} :
    slotted s g b = true ↔ ∃ j x, look (look s.ret.slots g) j = some x ∧ x.board = b := by
  simp [slotted]

theorem slotted_false_iff {s : State} {g : SegNo} {b : BoardNo} :
    slotted s g b = false ↔ ∀ j x, look (look s.ret.slots g) j = some x → x.board ≠ b := by
  rw [← Bool.not_eq_true, slotted_iff]
  push Not
  rfl

/-! ### The two boards that a load may touch -/

section load

/-- The state with one slot's content replaced, before the boards follow (R175). -/
def loaded (g : SegNo) (i : SlotNo) (content : Option SlotContent) (s : State) : State :=
  { s with ret := { s.ret with slots := put s.ret.slots g (put (look s.ret.slots g) i content) } }

/-- The board that the load of a slot leaves named by no slot (R176). -/
def unnamedBy (g : SegNo) (i : SlotNo) (content : Option SlotContent) (s : State) : Option BoardNo :=
  ((look (look s.ret.slots g) i).map (·.board)).filter fun b => !slotted (loaded g i content s) g b

/-- The board that the load of a slot names again (R176). -/
def namedBy (g : SegNo) (content : Option SlotContent) (s : State) : Option BoardNo :=
  (content.map (·.board)).filter fun b => !slotted s g b

variable {g : SegNo} {i : SlotNo} {content : Option SlotContent} {s : State}

theorem unnamedBy_eq_some {b : BoardNo} : unnamedBy g i content s = some b ↔
    (look (look s.ret.slots g) i).map (·.board) = some b
      ∧ ∀ j x, look (look (put s.ret.slots g (put (look s.ret.slots g) i content)) g) j = some x → x.board ≠ b := by
  rw [unnamedBy, Option.filter_eq_some_iff, Bool.not_eq_true', slotted_false_iff]
  rfl

theorem namedBy_eq_some {b : BoardNo} : namedBy g content s = some b ↔
    content.map (·.board) = some b ∧ ∀ j x, look (look s.ret.slots g) j = some x → x.board ≠ b := by
  rw [namedBy, Option.filter_eq_some_iff, Bool.not_eq_true', slotted_false_iff]

theorem elim_filter_slotted {u v : State} {f : BoardNo → State → State} (b : BoardNo) :
    ((some b).filter fun b => !slotted u g b).elim id f v = if slotted u g b = true then v else f b v := by
  cases named : slotted u g b <;> simp [Option.filter, named]

/-- The load of a slot: its content, then the board left unnamed, then the board named again. -/
theorem storeSlot_eq : storeSlot g i content s =
    (namedBy g content s).elim id nameBoard
      ((unnamedBy g i content s).elim id unnameBoard (loaded g i content s)) := by
  unfold storeSlot namedBy unnamedBy
  cases look (look s.ret.slots g) i with
  | none =>
    cases content with
    | none => rfl
    | some x => rw [Option.map_some, elim_filter_slotted]; rfl
  | some former =>
    rw [Option.map_some, elim_filter_slotted]
    cases content with
    | none => rfl
    | some x => rw [Option.map_some, elim_filter_slotted]; rfl

/-- The board that the load leaves unnamed is not the one that the slot names. -/
theorem content_not_unnamed {x : SlotContent} (names : content = some x) : unnamedBy g i content s ≠ some x.board := by
  intro unnamed
  refine (unnamedBy_eq_some.mp unnamed).2 i x ?_ rfl
  rw [look_put_same, look_put_same, names]

theorem named_not_unnamed {b : BoardNo} (named : namedBy g content s = some b) : unnamedBy g i content s ≠ some b := by
  obtain ⟨names, -⟩ := namedBy_eq_some.mp named
  obtain ⟨x, content, rfl⟩ := Option.map_eq_some_iff.mp names
  exact content_not_unnamed content

/-! ### The good run of a board at a load -/

/-- A board's record once its naming has ended or begun: the good run of an UNKNOWN or LOST board is 0 (R176). -/
def runEnded (x : Board) : Board :=
  match x.link with
  | .unknown | .lost => { x with goodRun := 0 }
  | .online | .withdrawn => x

theorem runEnded_link (x : Board) : (runEnded x).link = x.link := by
  unfold runEnded; split <;> rfl

theorem runEnded_off {x : Board} (off : x.link = .unknown ∨ x.link = .lost) : runEnded x = { x with goodRun := 0 } := by
  obtain off | off := off <;> simp only [runEnded, off]

theorem runEnded_kept {x : Board} (kept : x.link = .online ∨ x.link = .withdrawn) : runEnded x = x := by
  obtain kept | kept := kept <;> simp only [runEnded, kept]

theorem nameBoard_eq (b : BoardNo) (s : State) : nameBoard b s = s.setBoard b (runEnded (s.board b)) := by
  unfold nameBoard
  split
  next link => rw [runEnded_off (.inl link)]
  next link => rw [runEnded_off (.inr link)]
  next link => rw [runEnded_kept (.inl link), setBoard_self]
  next link => rw [runEnded_kept (.inr link), setBoard_self]

/-- A board left unnamed that is not ONLINE loses its good run, as one named again does. -/
theorem unnameBoard_offline {b : BoardNo} {s : State} (off : (s.board b).link ≠ .online) :
    unnameBoard b s = nameBoard b s := by
  unfold unnameBoard nameBoard
  split
  next online => exact absurd online off
  all_goals simp_all

theorem named_boards_only (o : Option BoardNo) (s : State) :
    o.elim id nameBoard s = { s with boards := (o.elim id nameBoard s).boards } := by
  cases o with
  | none => rfl
  | some b => simp only [Option.elim_some, nameBoard_eq]; rfl

theorem named_board (o : Option BoardNo) (s : State) (b : BoardNo) :
    (o.elim id nameBoard s).board b = if o = some b then runEnded (s.board b) else s.board b := by
  cases o with
  | none => rfl
  | some d =>
    simp only [Option.elim_some, nameBoard_eq, State.board_setBoard, Option.some.injEq]
    by_cases own : b = d
    · rw [if_pos own, if_pos own.symm, own]
    · rw [if_neg own, if_neg (Ne.symm own)]

theorem named_board_link (o : Option BoardNo) (s : State) (b : BoardNo) :
    ((o.elim id nameBoard s).board b).link = (s.board b).link := by
  rw [named_board]
  split
  · exact runEnded_link _
  · rfl

/-- The naming of a board touches nothing that issue reads (R160, R176). -/
theorem sameIssue_named (o : Option BoardNo) (s : State) : SameIssue s (o.elim id nameBoard s) := by
  refine ⟨?_, ⟨fun b => ?_, named_board_link o s⟩, ?_⟩
  · cases o with
    | none => exact .refl s
    | some b => rw [Option.elim_some, nameBoard_eq]; exact sameRecords_setBoard ..
  · rw [named_board]
    split
    · unfold runEnded; split <;> rfl
    · rfl
  · rw [named_boards_only]

theorem disconnected_link {b d : BoardNo} (other : d ≠ b) : ((disconnected b s).board d).link = (s.board d).link := by
  have kept : (disconnected b s).board d = s.board d := by
    show (s.setBoard b _).board d = _
    rw [State.board_setBoard, if_neg other]
  rw [kept]

/-! ### A load that leaves no ONLINE board unnamed -/

section offline

variable (off : ∀ b, unnamedBy g i content s = some b → (s.board b).link ≠ .online)
include off

theorem storeSlot_offline : storeSlot g i content s =
    (namedBy g content s).elim id nameBoard
      ((unnamedBy g i content s).elim id nameBoard (loaded g i content s)) := by
  rw [storeSlot_eq]
  refine congrArg ((namedBy g content s).elim id nameBoard) ?_
  cases unnamed : unnamedBy g i content s with
  | none => rfl
  | some b => exact unnameBoard_offline (s := loaded g i content s) (off b unnamed)

theorem storeSlot_boards_only :
    storeSlot g i content s = { loaded g i content s with boards := (storeSlot g i content s).boards } := by
  rw [storeSlot_offline off, named_boards_only, named_boards_only]

theorem storeSlot_board (b : BoardNo) : (storeSlot g i content s).board b =
    if unnamedBy g i content s = some b ∨ namedBy g content s = some b then runEnded (s.board b) else s.board b := by
  rw [storeSlot_offline off, named_board, named_board]
  by_cases named : namedBy g content s = some b
  · rw [if_pos named, if_neg (named_not_unnamed named), if_pos (.inr named)]; rfl
  · rw [if_neg named]
    simp only [named, or_false]
    rfl

theorem slotBody_offline : slotBody (storeSlot g i content s) content = slotBody s content := by
  have link (b : BoardNo) : ((storeSlot g i content s).board b).link = (s.board b).link := by
    rw [storeSlot_board off]
    split
    · exact runEnded_link _
    · rfl
  cases content with
  | none => rfl
  | some x => simp only [slotBody, link]

end offline

/-! ### A load that leaves an ONLINE board unnamed -/

section lost

variable {b : BoardNo} (unnamed : unnamedBy g i content s = some b) (online : (s.board b).link = .online)
include unnamed online

theorem storeSlot_lost :
    storeSlot g i content s = (namedBy g content s).elim id nameBoard (declareLost b (loaded g i content s)) := by
  have declared : unnameBoard b (loaded g i content s) = declareLost b (loaded g i content s) := by
    unfold unnameBoard
    rw [show ((loaded g i content s).board b).link = .online from online]
  rw [storeSlot_eq, unnamed, Option.elim_some, declared]

theorem sameIssue_storeSlot : SameIssue (declareLost b (loaded g i content s)) (storeSlot g i content s) := by
  rw [storeSlot_lost unnamed online]
  exact sameIssue_named ..

theorem slotBody_lost : slotBody (storeSlot g i content s) content = slotBody s content := by
  cases names : content with
  | none => rfl
  | some x =>
    have other : x.board ≠ b := fun same => content_not_unnamed names (same ▸ unnamed)
    have link : ((storeSlot g i content s).board x.board).link = (s.board x.board).link := by
      rw [(sameIssue_storeSlot unnamed online).lines.link, (keepsBoards_declareLost ..).link, disconnected_link other]
      rfl
    rw [names] at link
    simp only [slotBody, link]

end lost

theorem slotBody_storeSlot : slotBody (storeSlot g i content s) content = slotBody s content := by
  by_cases lost : ∃ b, unnamedBy g i content s = some b ∧ (s.board b).link = .online
  · obtain ⟨b, unnamed, online⟩ := lost
    exact slotBody_lost unnamed online
  · exact slotBody_offline fun b unnamed online => lost ⟨b, unnamed, online⟩

theorem fixed_storeSlot : (storeSlot g i content s).fixed = (loaded g i content s).fixed := by
  rw [storeSlot_eq]
  cases unnamedBy g i content s <;> cases namedBy g content s <;> simp

end load

/-! ### The request -/

section request

variable {r : Request} {s : State} {g : SegNo} {i : SlotNo} {f : Option (Nat × Nat)} {content : Option SlotContent}

/-- The owner of a well-formed load refuses a third slot for a board, and otherwise stores the slot (R175). -/
theorem execLoadSlot_own (source : r.source = .service) (skc : ServiceOpen s)
    (body : bodyLoadSlot r.body = some (g.val, i.val, f))
    (names : f = none ∧ content = none ∨ ∃ b p x, f = some (b, p) ∧ slotContent? b p = some x ∧ content = some x
      ∧ segmentOf x.board = g) :
    let v := { s with receive := s.receive.tail, unlockDeadline := (admittedState s).unlockDeadline }
    ∃ own, exec (.loadSlot r) s = Machine.request 27 r s own
      ∧ ((∀ x, content = some x → otherSlotsNaming s g i x.board < 2) →
          own { s with receive := s.receive.tail } = acceptSlot g i content v)
      ∧ ∀ x, content = some x → 2 ≤ otherSlotsNaming s g i x.board →
          own { s with receive := s.receive.tail } = refuse v .duplicate := by
  unfold exec execLoadSlot
  refine ⟨_, rfl, ?_⟩
  rw [maintenance_taken source body skc]
  have others (b : BoardNo) : otherSlotsNaming
      { s with receive := s.receive.tail, unlockDeadline := (admittedState s).unlockDeadline } g i b
      = otherSlotsNaming s g i b := rfl
  obtain ⟨rfl, rfl⟩ | ⟨b, p, x, rfl, named, rfl, segment⟩ := names
  · refine ⟨fun _ => ?_, nofun⟩
    simp only [segNo?_val, slotNo?_val]
  · simp only [segNo?_val, slotNo?_val, named, segment, others, ne_eq, not_true_eq_false, if_false]
    refine ⟨fun few => if_neg (Nat.not_le.mpr (few x rfl)), fun y same many => ?_⟩
    obtain rfl := Option.some.inj same
    exact if_pos many

/-- The reply and the station after a load that passes its checks. -/
theorem loadSlot_answered (source : r.source = .service) {deadline : Option Nat} {body : List Byte} {w : State}
    (fixed : w.fixed = (loaded g i content { s with receive := s.receive.tail, unlockDeadline := deadline }).fixed) :
    let t := settle { w with transmit := w.transmit ++ replyTo w 27 r .accepted body }
    Answered 27 r .accepted body { s with unlockDeadline := deadline } t
      ∧ KeepsStation { s with unlockDeadline := deadline } t
      ∧ t.ret.slots = put s.ret.slots g (put (look s.ret.slots g) i content) := by
  have reply : replyTo w 27 r .accepted body = replyTo s 27 r .accepted body := by
    unfold replyTo; rw [bankId_of_fixed fixed]; rfl
  rw [reply, transmit_of_fixed fixed]
  generalize sent : (loaded g i content { s with receive := s.receive.tail, unlockDeadline := deadline }).transmit
    ++ replyTo s 27 r .accepted body = transmit
  have own : ({ w with transmit } : State).fixed =
      { loaded g i content { s with receive := s.receive.tail, unlockDeadline := deadline } with transmit }.fixed :=
    congrArg (fun x : Fixed => { x with transmit }) fixed
  have station := keepsStation_settle own
  have receive := receive_of_fixed fixed
  have idle := kioskIdle_of_fixed fixed
  have slots := ret_slots_of_fixed fixed
  dsimp only
  rw [settle_eq] at station ⊢
  refine ⟨⟨receive, ?_, ?_⟩, ⟨station.clock, station.history, station.bankId, station.trunkOut,
    station.skc, station.unlockDeadline, station.run, station.declaring, station.elapsed, station.boundariesDue,
    station.freeCounter, station.pending⟩, slots⟩
  · exact sent.symm
  · rw [idleAfter_not_kiosk (not_kiosk_of_service source)]
    exact idle

/-- The end of the strikes of a board declared LOST does not depend on the frames received and the unlock deadline. -/
theorem LostStrikes.of_taken {b : BoardNo} {s t : State} {receive : List Frame} {deadline : Option Nat}
    (lost : LostStrikes b (disconnected b { s with receive, unlockDeadline := deadline }) t) :
    LostStrikes b (disconnected b s) t := by
  have alarms := postAlarm_alarms_congr (k := .boardLost) (n := b.val) (s := s)
    (t := { s with receive, unlockDeadline := deadline }) rfl rfl
  have same : disconnected b { s with receive, unlockDeadline := deadline } =
      { disconnected b s with receive, unlockDeadline := deadline } := by
    unfold disconnected
    rw [alarms]
    rfl
  rw [same] at lost
  generalize disconnected b s = v at lost ⊢
  exact lost

theorem sameIssue_settle (w : State) (transmit : List Reply) : SameIssue w (settle { w with transmit }) := by
  have frame := settle_eq { w with transmit }
  refine ⟨⟨?_, ?_, ?_, ?_, ?_, ?_, ?_, fun h => ?_⟩, .of_boards ?_, ?_⟩
  case refine_8 =>
    obtain ⟨queue, active, -⟩ := keepsStrikes_settle { w with transmit } h
    exact ⟨queue, active⟩
  all_goals rw [frame]

/-- An ONLINE board that the load leaves unnamed is LOST at its end, with its alarm pending and its strikes ended (R162,
R176, R182). -/
theorem loadSlot_loses {b : BoardNo} {transmit : List Reply} (unnamed : unnamedBy g i content s = some b)
    (online : (s.board b).link = .online) :
    let t := settle { storeSlot g i content s with transmit }
    (t.board b).link = .lost ∧ Pending t .boardLost b.val
      ∧ LostStrikes b (disconnected b (loaded g i content s)) t := by
  have same := (sameIssue_storeSlot unnamed online).trans (sameIssue_settle (storeSlot g i content s) transmit)
  refine ⟨?_, ?_, (lostStrikes_declareLost ..).carried same⟩
  · rw [same.lines.link, declareLost_board]
  · unfold Pending
    rw [same.alarms]
    exact declareLost_pending ..

/-- A load that leaves no ONLINE board unnamed replaces the slot and touches boards alone (R175, R176). -/
theorem loadSlot_quiet {own : State → Answer} {deadline : Option Nat} (ready : Ready 27 r s)
    (source : r.source = .service) (settled : Settled s)
    (answer : own { s with receive := s.receive.tail } = {
      state := storeSlot g i content { s with receive := s.receive.tail, unlockDeadline := deadline }
      status := .accepted, body := slotBody s content })
    (off : ∀ b, unnamedBy g i content s = some b → (s.board b).link ≠ .online) :
    Machine.request 27 r s own =
      .next (resealed { answered 27 r .accepted (slotBody s content) { s with unlockDeadline := deadline } with
        ret := { s.ret with slots := put s.ret.slots g (put (look s.ret.slots g) i content) }
        boards := (storeSlot g i content { s with receive := s.receive.tail, unlockDeadline := deadline }).boards }) :=
  request_changes_boards (kind := 27) ready (not_kiosk_of_service source) settled
    (answer.trans (congrArg (Answer.mk · _ _) (storeSlot_boards_only off))) rfl rfl

end request

/-- Settles O36: the owner's two answers, and the boards after the slot is stored, where the load leaves an ONLINE board
unnamed and where it leaves none. -/
theorem loadSlotReplacesContent : Obligations.LoadSlotReplacesContent := by
  intro r s g i f content ready source skc settled body names slots unnamed named
  obtain ⟨own, run, accepted, duplicate⟩ := execLoadSlot_own source skc body names
  rw [run, admittedState_eq]
  generalize (admittedState s).unlockDeadline = deadline at accepted duplicate
  refine ⟨fun few => ?_, fun x names many =>
    request_changes_deadline (kind := 27) ready (not_kiosk_of_service source) settled (duplicate x names many)⟩
  have answer : own { s with receive := s.receive.tail } = {
      state := storeSlot g i content { s with receive := s.receive.tail, unlockDeadline := deadline }
      status := .accepted, body := slotBody s content } := by
    rw [accepted few, acceptSlot, slotBody_storeSlot]
    rfl
  have ended := request_ready ready own
  rw [touchIdle_service source, answer, sendReply_eq] at ended
  obtain ⟨reply, station, stored⟩ := loadSlot_answered (content := content) source fixed_storeSlot
  refine ⟨_, ended, reply, station, stored, fun b left online => ?_, fun off => ?_⟩
  · obtain ⟨lost, alarm, strikes⟩ := loadSlot_loses
      (s := { s with receive := s.receive.tail, unlockDeadline := deadline }) (unnamedBy_eq_some.mpr left) online
    exact ⟨lost, alarm, LostStrikes.of_taken (s := loaded g i content s) strikes⟩
  · have offline (b : BoardNo) (left : unnamedBy g i content s = some b) : (s.board b).link ≠ .online :=
      off b (unnamedBy_eq_some.mp left)
    injection ended.symm.trans (loadSlot_quiet ready source settled answer offline) with same
    rw [same]
    refine ⟨rfl, fun b => ?_⟩
    have touched : unnamed b ∨ named b ↔ unnamedBy g i content s = some b ∨ namedBy g content s = some b :=
      or_congr unnamedBy_eq_some.symm namedBy_eq_some.symm
    have board := storeSlot_board (g := g) (i := i) (content := content)
      (s := { s with receive := s.receive.tail, unlockDeadline := deadline }) offline b
    refine ⟨fun moved unknown => ?_, fun kept old => ?_, fun kept => ?_⟩
    · exact (board.trans (if_pos (touched.mp moved))).trans (runEnded_off unknown)
    · exact board.trans (if_neg fun moved => (touched.mpr moved).elim kept old)
    · refine board.trans ?_
      split
      · exact runEnded_kept kept
      · rfl

end Sys2Proof.Machine

/-! The station's Broadcast on the fixed part of the state (R193, R194, R196, R198): its time writes the clock alone, and
its code the history and the concourse state. -/

namespace Sys2Proof.Machine

/-- The clock after a time has been broadcast: an unset clock is set, and a set one stepped where they differ by more
than 2 s (R196, R198). -/
def clockAfter (clock : Option Nat) (time : Nat) : Option Nat :=
  match clock with
  | none => some time
  | some v => if v ≤ time + 2 ∧ time ≤ v + 2 then some v else some time

/-- The concourse state after a history: the known code that stands there often enough, or the state as it was (R194). -/
def concourseAfter (history : List Nat) (concourse : Concourse) : Concourse :=
  match qualifying history with
  | some x => x
  | none => concourse

theorem fixed_stepClock (v time : Nat) (s : State) :
    (stepClock v time s).fixed = { s.fixed with clock := some time } := by
  have expired : (forEach expireQuote { s with clock := some time }).fixed = { s.fixed with clock := some time } :=
    fixed_forEach _ fixed_expireQuote _
  unfold stepClock; dsimp only
  split
  · split
    · rw [fixed_takeBoundary, expired]
    · exact expired
  · rfl

/-- The time of a Broadcast writes the clock alone of the fixed part (R196, R198). -/
theorem fixed_applyTime (time : Nat) (s : State) :
    (applyTime time s).fixed = { s.fixed with clock := clockAfter s.clock time } := by
  unfold applyTime clockAfter
  cases clock : s.clock with
  | none => rfl
  | some v =>
    dsimp only
    split
    · rw [← clock]; rfl
    · exact fixed_stepClock v time s

theorem fixed_adopt (state : Concourse) (s : State) :
    (adopt state s).fixed = { s.fixed with concourse := state } := by
  unfold adopt; dsimp only
  rw [fixed_forEach _ fixed_applyIssue]
  split
  · rw [fixed_evacuate]; rfl
  · rfl

/-- The code of a Broadcast writes the history and the concourse state alone of the fixed part (R194, R195). -/
theorem fixed_applyCode (code : Nat) (s : State) :
    (applyCode code s).fixed = { s.fixed with
      history := appendCode s.history code
      concourse := concourseAfter (appendCode s.history code) s.ret.concourse } := by
  unfold applyCode concourseAfter; dsimp only
  cases qualifying (appendCode s.history code) with
  | none => rfl
  | some state =>
    dsimp only
    split
    next same => rw [same]; rfl
    next => rw [fixed_adopt]; rfl

end Sys2Proof.Machine

/-! What each command leaves of the tables that are loaded from outside, of the concourse state and of the takings (R51,
R54, R87, R92, R93, R158, R175, R189, R190, R192, R203, R218). A command owns at most one of them and leaves all the
others. They all stand in the fixed part of the state, of which most operations write nothing. -/

namespace Sys2Proof.Machine

/-- The loaded tables, with the concourse state and the takings. -/
structure Tables where
  concourse : Concourse
  tariff    : Vector (Option TariffRow) 4
  hold      : Nat
  couriers  : List Courier
  budgets   : Vector Nat 4
  slots     : Vector (Vector (Option SlotContent) 16) 4
  withdrawn : Vector Bool 64
  enables   : Vector Bool 8
  keys      : Option (Vector (BitVec 32) 4)
  takings   : Vector Takings 4

/-- The tables in the fixed part of a state: all of them stand there. -/
def Fixed.tables (x : Fixed) : Tables :=
  { concourse := x.concourse, tariff := x.tariff, hold := x.hold, couriers := x.couriers, budgets := x.budgets
    slots := x.slots, withdrawn := x.withdrawn, enables := x.enables, keys := x.keys, takings := x.takings }

/-- The tables of a state. -/
def State.tables (s : State) : Tables := s.fixed.tables

/-- The tables that a command does not own: the one that it owns reads as after a blank start. -/
def unowned : Instr → Tables → Tables
  | .broadcast _, x => { x with concourse := blankRetained.concourse }
  | .loadTariff _, x => { x with tariff := blankRetained.tariff }
  | .setHold _, x => { x with hold := blankRetained.hold }
  | .loadCourier _, x | .removeCourier _, x => { x with couriers := blankRetained.couriers }
  | .setBudget _, x => { x with budgets := blankRetained.budgets }
  | .loadSlot _, x => { x with slots := blankRetained.slots }
  | .withdraw _, x | .reinstate _, x => { x with withdrawn := blankRetained.withdrawn }
  | .setEnables _, x => { x with enables := blankRetained.enables }
  | .setKeys _, x => { x with keys := blankRetained.keys }
  | .pay _, x | .settle _, x => { x with takings := blankRetained.takings }
  | _, x => x

/-- What a view shows of the tables is the same in two states. -/
def TablesKept (view : Tables → Tables) (s t : State) : Prop := view t.tables = view s.tables

section kept

variable {view : Tables → Tables}

theorem TablesKept.refl (s : State) : TablesKept view s s := rfl

theorem TablesKept.trans {s t u : State} (h : TablesKept view s t) (k : TablesKept view t u) : TablesKept view s u :=
  Eq.trans k h

theorem TablesKept.of_tables {s t : State} (h : t.tables = s.tables) : TablesKept view s t := congrArg view h

theorem TablesKept.of_fixed {s t : State} (h : t.fixed = s.fixed) : TablesKept view s t :=
  .of_tables (congrArg Fixed.tables h)

/-- Where what is written of the fixed part is known, only its tables count. -/
theorem TablesKept.of_written {s t : State} {x : Fixed} (h : t.fixed = x) (kept : view x.tables = view s.tables) :
    TablesKept view s t :=
  (congrArg (fun x : Fixed => view x.tables) h).trans kept

/-! ### Events and requests -/

/-- A command's meaning leaves what a view shows of the tables. -/
def KeepsView (view : Tables → Tables) (run : State → Result) : Prop := ∀ s t, run s = .next t → TablesKept view s t

theorem event_keepsView {effect : State → Option State} (h : ∀ s, ∀ t ∈ effect s, TablesKept view s t) :
    KeepsView view fun s => event s effect := by
  intro s t run
  obtain ⟨-, u, some, rfl⟩ | rfl := event_cases run
  · refine (h s u some).trans (.of_tables ?_)
    rw [settle_eq]; rfl
  · exact .refl t

/-- An effect that has a condition leaves the tables where it does so under the condition. -/
theorem TablesKept.of_due {p : Prop} [Decidable p] {s t u : State} (h : t ∈ if p then some u else none)
    (kept : TablesKept view s u) : TablesKept view s t := by
  obtain ⟨-, h⟩ := Option.ite_none_right_eq_some.mp h
  rwa [← Option.some.inj h]

/-- A request leaves the tables that its owner leaves: the trunk takes the frame and sends the reply beside them. -/
theorem request_keepsView {kind : Byte} {r : Request} {own : State → Answer}
    (h : ∀ s, TablesKept view s (own s).state) : KeepsView view fun s => request kind r s own := by
  refine event_keepsView fun s t some => ?_
  obtain ⟨u, frame, rfl⟩ := Option.map_eq_some_iff.mp some
  obtain ⟨-, -, -, rfl⟩ := takeFrame_some frame
  have started : TablesKept view s (touchIdle r { s with receive := s.receive.tail }) :=
    .of_tables (by rw [touchIdle_eq]; rfl)
  have reply (a : Answer) : TablesKept view a.state (sendReply kind r a) :=
    .of_tables (by unfold sendReply; split <;> rfl)
  exact started.trans ((h _).trans (reply _))

variable {α : Type} {r : Request} {parsed : Option α} {s : State}

theorem courierRequest_keepsView {own : KioskNo → α → State → Answer}
    (h : ∀ k x t, TablesKept view t (own k x t).state) : TablesKept view s (courierRequest r parsed s own).state := by
  refine fromKiosk_holds (.refl s) fun k => ?_
  have touched : TablesKept view s (touchSession k s) := .of_fixed (fixed_touchSession k s)
  exact withBody_holds touched fun x => touched.trans (h k x _)

theorem backendRequest_keepsView {own : α → Answer} (h : ∀ x, TablesKept view s (own x).state) :
    TablesKept view s (fromBackend r s (withBody parsed s own)).state :=
  fromBackend_holds (.refl s) (withBody_holds (.refl s) h)

theorem admitted_keepsView {own : State → Answer} (h : ∀ t, TablesKept view t (own t).state) :
    TablesKept view s (admitted s own).state := by
  unfold admitted
  split
  case h_1 => exact h s
  case h_2 => exact h (extendUnlock s)
  all_goals exact .of_tables rfl

theorem maintenance_keepsView {own : α → State → Answer} (h : ∀ x t, TablesKept view t (own x t).state) :
    TablesKept view s (maintenance r parsed s own).state := by
  unfold maintenance
  split
  · exact withBody_holds (.refl s) fun x => admitted_keepsView (h x)
  · exact .refl s

theorem staffRequest_keepsView {own : α → State → Answer} (h : ∀ x t, TablesKept view t (own x t).state) :
    TablesKept view s (staffRequest r parsed s own).state := by
  unfold staffRequest
  split
  · exact withBody_holds (.refl s) fun x => h x s
  · exact withBody_holds (.refl s) fun x => admitted_keepsView (h x)
  · exact .refl s

/-- A request that only the service terminal may send and that the SKC itself answers. -/
theorem serviceRequest_keepsView {own : α → Answer} (h : ∀ x, TablesKept view s (own x).state) :
    TablesKept view s
      (if r.source = .service then withBody parsed s own else refuse s .notPermitted).state := by
  split
  · exact withBody_holds (.refl s) h
  · exact .refl s

end kept

section commands

variable {view : Tables → Tables}

/-! ### Customers -/

theorem chargeCollect_keepsView (k : KioskNo) (now : Nat) (c : CompNo) (s : State) :
    TablesKept view s (chargeCollect k now c s).state := by
  unfold chargeCollect; dsimp only
  split
  · split; · exact .of_tables rfl
    split; · exact .refl s
    split; · exact .refl s
    next t slot => exact .of_fixed ((fixed_grantCollection c k t).trans (fixed_reserveSlot slot))
  · exact .refl s

theorem ownCollect_keepsView (k : KioskNo) (code now : Nat) (s : State) :
    TablesKept view s (ownCollect k code now s).state := by
  have charged {t : State} (c : CompNo) (h : t.fixed = s.fixed) : TablesKept view s (chargeCollect k now c t).state :=
    (TablesKept.of_fixed h).trans (chargeCollect_keepsView k now c t)
  unfold ownCollect; dsimp only
  split; · exact .of_fixed (fixed_countFailure k s)
  split; · exact .refl s
  split
  · split; · exact charged _ (by simp)
    split
    · exact charged _ (fixed_countSuccess k s)
    · exact .of_fixed (fixed_countSuccess k s)
  · exact charged _ (fixed_countSuccess k s)

theorem execCollect_keepsView (r : Request) : KeepsView view (execCollect r) :=
  request_keepsView fun s => customer_holds (.refl s) fun k code _ =>
    withClock_holds (.refl s) fun now => ownCollect_keepsView k code now s

theorem payWithoutQuote_state (k : KioskNo) (p : PayFields) (s : State) : (payWithoutQuote k p s).state = s := by
  unfold payWithoutQuote
  split
  · split <;> rfl
  · rfl

/-- An accepted Pay adds to the takings (R85). -/
theorem acceptCollectionPay_keepsView (r : Request) (k : KioskNo) (p : PayFields) (c : CompNo) (s : State) :
    TablesKept (unowned (.pay r)) s (acceptCollectionPay k p c s).state := by
  refine .trans ?paid (.of_fixed (fixed_grantCollection c k _))
  exact rfl

theorem acceptPostagePay_keepsView (r : Request) (k : KioskNo) (p : PayFields) (c : CompNo) (s : State) :
    TablesKept (unowned (.pay r)) s (acceptPostagePay k p c s).state := by
  refine .trans ?paid (.of_fixed (fixed_queueStrike c .drop _))
  exact rfl

theorem payQuote_keepsView (r : Request) (k : KioskNo) (p : PayFields) (c : CompNo) (q : Quote) (s : State) :
    TablesKept (unowned (.pay r)) s (payQuote k p c q s).state := by
  unfold payQuote
  split; · exact .refl s
  split; · exact .of_fixed (fixed_dropQuote c s)
  split; · exact .refl s
  split; · exact .refl s
  split; · exact acceptPostagePay_keepsView r k p c s
  split; · exact .refl s
  split
  next t slot => exact .trans (.of_fixed (fixed_reserveSlot slot)) (acceptCollectionPay_keepsView r k p c t)
  next => exact .refl s

theorem ownPay_keepsView (r : Request) (k : KioskNo) (p : PayFields) (s : State) :
    TablesKept (unowned (.pay r)) s (ownPay k p s).state := by
  have unquoted : TablesKept (unowned (.pay r)) s (payWithoutQuote k p s).state :=
    .of_tables (by rw [payWithoutQuote_state])
  unfold ownPay
  split
  · split
    · split
      · exact payQuote_keepsView r k p _ _ s
      · exact unquoted
    · exact unquoted
  · exact unquoted

theorem execPay_keepsView (r : Request) : KeepsView (unowned (.pay r)) (execPay r) :=
  request_keepsView fun s => by
    rw [echoPay_state]
    exact customer_holds (.refl s) fun k p _ => ownPay_keepsView r k p s

theorem admitDrop_keepsView (k : KioskNo) (now : Nat) (e : ReturnEntry) (c : CompNo) (s : State) :
    TablesKept view s (admitDrop k now e c s).state := by
  unfold admitDrop; dsimp only
  split
  · exact .of_fixed (by simp)
  · exact .of_tables rfl

/-- An allocation moves one cursor alone (R9). -/
theorem allocate_keepsView {s t : State} {cls : SizeClass} {upsize deposit : Bool} {c : CompNo}
    (h : allocate s cls upsize deposit = some (t, c)) : TablesKept view s t := by
  rw [allocate_frame h]; exact .of_tables rfl

theorem ownReturnDrop_keepsView (k : KioskNo) (reference now : Nat) (s : State) :
    TablesKept view s (ownReturnDrop k reference now s).state := by
  have counted : TablesKept view s (countSuccess k s) := .of_fixed (fixed_countSuccess k s)
  unfold ownReturnDrop; dsimp only
  split; · exact .of_fixed (fixed_countFailure k s)
  split; · exact counted
  split; · exact counted
  split; · exact counted
  next t slot =>
    have reserved : TablesKept view s t := counted.trans (.of_fixed (fixed_reserveSlot slot))
    split; · exact reserved
    next u c place =>
      have allocated : TablesKept view s u := reserved.trans (allocate_keepsView place)
      split
      · exact allocated.trans (admitDrop_keepsView k now _ c u)
      · exact allocated

theorem execReturnDrop_keepsView (r : Request) : KeepsView view (execReturnDrop r) :=
  request_keepsView fun s => customer_holds (.refl s) fun k reference _ =>
    withClock_holds (.refl s) fun now => ownReturnDrop_keepsView k reference now s

theorem execDoorStatus_keepsView (r : Request) : KeepsView view (execDoorStatus r) :=
  request_keepsView fun s => customer_holds (.refl s) fun _ _ _ => by split <;> exact .refl s

/-! ### Couriers -/

theorem ownSignOn_keepsView (k : KioskNo) (id : Nat) (credential : BitVec 32) (s : State) :
    TablesKept view s (ownSignOn k id credential s).state := by
  have failed : TablesKept view s (countFailure k s) := .of_fixed (fixed_countFailure k s)
  unfold ownSignOn
  split; · exact .refl s
  split
  · split
    · split <;> exact .of_tables rfl
    · exact failed
  · exact failed

theorem execSignOn_keepsView (r : Request) : KeepsView view (execSignOn r) :=
  request_keepsView fun _ => courierRequest_keepsView fun k ⟨id, credential⟩ s =>
    courierConcourse_holds (.refl s) (notLockedOut_holds (.refl s) fun _ => ownSignOn_keepsView k id credential s)

theorem execSignOff_keepsView (r : Request) : KeepsView view (execSignOff r) :=
  request_keepsView fun _ => courierRequest_keepsView fun _ _ s => withSession_holds (.refl s) fun _ => .of_tables rfl

/-- A generation advances the generator alone (R37). -/
theorem generation_keepsView {s t : State} {code : Option Nat} (h : generation s = (t, code)) : TablesKept view s t := by
  have generated : TablesKept view s (generation s).1 := .of_tables rfl
  rwa [h] at generated

theorem placeDeclare_keepsView (k : KioskNo) (x : Session) (f : DeclareFields) (cls : SizeClass) (s : State) :
    TablesKept view s (placeDeclare k x f cls s).state := by
  unfold placeDeclare
  split; · exact .refl s
  next t slot =>
    have reserved : TablesKept view s t := .of_fixed (fixed_reserveSlot slot)
    split; · exact reserved
    next u c place =>
      have allocated : TablesKept view s u := reserved.trans (allocate_keepsView place)
      split; · exact allocated
      split
      next v code made =>
        have generated : TablesKept view u v := generation_keepsView (s := reserveDeposit k x f c u) made
        exact (allocated.trans generated).trans (.of_fixed (fixed_acceptDeclare k x f c code v))
      next v made =>
        have generated : TablesKept view u v := generation_keepsView (s := reserveDeposit k x f c u) made
        exact allocated.trans generated

theorem rangeDeclare_keepsView (k : KioskNo) (x : Session) (e : Courier) (f : DeclareFields) (s : State) :
    TablesKept view s (rangeDeclare k x e f s).state := by
  refine withClock_holds (.refl s) fun _ => ?_
  split; · exact .refl s
  split; · exact .refl s
  split; · exact .refl s
  split; · exact .refl s
  split; · exact .refl s
  exact placeDeclare_keepsView ..

theorem execDeclare_keepsView (r : Request) : KeepsView view (execDeclare r) :=
  request_keepsView fun _ => courierRequest_keepsView fun k f s => withSession_holds (.refl s) fun x => by
    split
    · split
      · exact courierConcourse_holds (.refl s) (rangeDeclare_keepsView k x _ f s)
      · exact .refl s
    · exact .refl s

theorem execSessionStatus_keepsView (r : Request) : KeepsView view (execSessionStatus r) :=
  request_keepsView fun _ => courierRequest_keepsView fun _ _ s => withSession_holds (.refl s) fun _ => .refl s

theorem startCourierSweep_keepsView (k : KioskNo) (x : Session) (returns recover : Bool) (s : State) :
    TablesKept view s (startCourierSweep k x returns recover s).state := by
  unfold startCourierSweep; dsimp only
  split; · exact .refl s
  split; · exact .refl s
  exact .of_fixed (by simp)

theorem execSweep_keepsView (r : Request) : KeepsView view (execSweep r) :=
  request_keepsView fun _ => courierRequest_keepsView fun k ⟨returns, recover⟩ s =>
    withSession_holds (.refl s) fun x => by
      split; · exact .refl s
      split
      · split; · exact .refl s
        exact courierConcourse_holds (.refl s) (startCourierSweep_keepsView k x returns recover s)
      · exact .refl s

theorem execSweepEnd_keepsView (r : Request) : KeepsView view (execSweepEnd r) :=
  request_keepsView fun _ => courierRequest_keepsView fun _ _ s => withSession_holds (.refl s) fun _ => by
    split <;> exact .of_tables rfl

/-! ### The backend and the staff -/

theorem execFetchNotice_keepsView (r : Request) : KeepsView view (execFetchNotice r) :=
  request_keepsView fun _ => backendRequest_keepsView fun _ => by split <;> exact .of_tables rfl

theorem execRevoke_keepsView (r : Request) : KeepsView view (execRevoke r) :=
  request_keepsView fun s => backendRequest_keepsView fun _ => by
    split; · exact .refl s
    split
    · exact .of_tables rfl
    · split <;> exact .refl s

theorem execReissue_keepsView (r : Request) : KeepsView view (execReissue r) :=
  request_keepsView fun s => backendRequest_keepsView fun _ => by
    split; · exact .refl s
    split; · exact .refl s
    split; · exact .refl s
    split
    next t made => exact generation_keepsView made
    next t code made => exact (generation_keepsView made).trans (.of_tables rfl)

/-- A load, or the removal, of a courier writes the courier table (R92, R93). -/
theorem execLoadCourier_keepsView (r : Request) : KeepsView (unowned (.loadCourier r)) (execLoadCourier r) :=
  request_keepsView fun s => backendRequest_keepsView fun _ => by
    split; · exact .refl s
    dsimp only
    split <;> exact rfl

theorem execRemoveCourier_keepsView (r : Request) : KeepsView (unowned (.removeCourier r)) (execRemoveCourier r) :=
  request_keepsView fun s => backendRequest_keepsView fun _ => by
    split; · exact .refl s
    split <;> exact rfl

theorem execLoadReturn_keepsView (r : Request) : KeepsView view (execLoadReturn r) :=
  request_keepsView fun s => backendRequest_keepsView fun _ => by
    split; · exact .refl s
    split; · exact .refl s
    split; · exact .refl s
    split <;> exact .of_tables rfl

theorem execRemoveReturn_keepsView (r : Request) : KeepsView view (execRemoveReturn r) :=
  request_keepsView fun s => backendRequest_keepsView fun _ => by
    split; · exact .refl s
    split; · exact .refl s
    split <;> exact .of_tables rfl

/-- A new settlement zeroes the takings (R87). -/
theorem execSettle_keepsView (r : Request) : KeepsView (unowned (.settle r)) (execSettle r) :=
  request_keepsView fun s => backendRequest_keepsView fun _ => by
    split
    · split <;> exact rfl
    · exact rfl

theorem execQueryCompartment_keepsView (r : Request) : KeepsView view (execQueryCompartment r) :=
  request_keepsView fun _ => staffRequest_keepsView fun _ s => by split <;> exact .refl s

theorem clearEmpty_keepsView (c : CompNo) (s : State) : TablesKept view s (clearEmpty c s).state := by
  unfold clearEmpty; dsimp only
  split
  · split
    · split
      next => exact .refl s
      next t slot => exact .trans (.of_fixed (fixed_reserveSlot slot)) (.of_tables rfl)
    · exact .of_tables rfl
  · exact .of_tables rfl

theorem clearOccupied_keepsView (c : CompNo) (s : State) : TablesKept view s (clearOccupied c s).state := by
  unfold clearOccupied; dsimp only
  split; · exact .refl s
  exact .of_fixed (by simp [apply_ite State.fixed])

theorem execClear_keepsView (r : Request) : KeepsView view (execClear r) :=
  request_keepsView fun _ => staffRequest_keepsView fun _ s => by
    split; · exact .refl s
    split; · exact .refl s
    split
    · exact clearEmpty_keepsView _ s
    · exact clearOccupied_keepsView _ s
    · exact .refl s

theorem execFetchAlarm_keepsView (r : Request) : KeepsView view (execFetchAlarm r) :=
  request_keepsView fun _ => staffRequest_keepsView fun _ _ => by split <;> exact .of_tables rfl

/-! ### The station -/

/-- A Broadcast writes the concourse state (R194). -/
theorem execBroadcast_keepsView (r : Request) : KeepsView (unowned (.broadcast r)) (execBroadcast r) :=
  request_keepsView fun s => by
    split
    · refine withBody_holds (.refl s) fun ⟨code, time⟩ => ?_
      exact .trans (.of_written (fixed_applyTime time s) rfl) (.of_written (fixed_applyCode code _) rfl)
    · exact .refl s

/-! ### The service terminal -/

theorem unlockWith_keepsView (index : Nat) (word : BitVec 32) (s : State) :
    TablesKept view s (unlockWith index word s).state := by
  have collected (n : Fin 4) : TablesKept view s (collectWord n s) :=
    .of_tables (by unfold collectWord; split <;> rfl)
  unfold unlockWith
  split
  · split
    · exact collected _
    · exact .of_tables rfl
  · split; · exact .refl s
    split <;> exact .of_tables rfl

theorem execUnlockKey_keepsView (r : Request) : KeepsView view (execUnlockKey r) :=
  request_keepsView fun s => serviceRequest_keepsView fun ⟨index, word⟩ => unlockWith_keepsView index word s

theorem execEndService_keepsView (r : Request) : KeepsView view (execEndService r) :=
  request_keepsView fun s => serviceRequest_keepsView fun _ => by
    unfold endService; split <;> exact .of_tables rfl

theorem execLoadMap_keepsView (r : Request) : KeepsView view (execLoadMap r) :=
  request_keepsView fun _ => maintenance_keepsView fun ⟨_, _⟩ s => by
    dsimp only
    split
    · exact .refl s
    · split <;> exact .of_tables rfl
    · split; · exact .refl s
      split; · exact .refl s
      split <;> exact .of_tables rfl

theorem execLoadTariff_keepsView (r : Request) : KeepsView (unowned (.loadTariff r)) (execLoadTariff r) :=
  request_keepsView fun _ => maintenance_keepsView fun ⟨_, _⟩ s => by
    dsimp only
    split; · exact .refl s
    split <;> exact rfl

/-- What a load of a slot does to boards writes nothing of the fixed part (R175, R176). -/
theorem storeSlot_keepsView (r : Request) (g : SegNo) (i : SlotNo) (content : Option SlotContent) (s : State) :
    TablesKept (unowned (.loadSlot r)) s (storeSlot g i content s) :=
  .of_written fixed_storeSlot rfl

theorem execLoadSlot_keepsView (r : Request) : KeepsView (unowned (.loadSlot r)) (execLoadSlot r) :=
  request_keepsView fun _ => maintenance_keepsView fun ⟨_, _, _⟩ s => by
    dsimp only
    split
    · exact storeSlot_keepsView ..
    · split; · exact .refl s
      split; · exact .refl s
      split; · exact .refl s
      exact storeSlot_keepsView ..
    · exact .refl s

theorem execSetBudget_keepsView (r : Request) : KeepsView (unowned (.setBudget r)) (execSetBudget r) :=
  request_keepsView fun _ => maintenance_keepsView fun ⟨_, _⟩ s => by
    dsimp only
    split; · exact .refl s
    next g _ =>
      refine .trans ?_ (.of_fixed (fixed_applyIssue g _))
      exact rfl

theorem execSetHold_keepsView (r : Request) : KeepsView (unowned (.setHold r)) (execSetHold r) :=
  request_keepsView fun _ => maintenance_keepsView fun _ _ => rfl

theorem execSetEnables_keepsView (r : Request) : KeepsView (unowned (.setEnables r)) (execSetEnables r) :=
  request_keepsView fun _ => maintenance_keepsView fun _ _ => rfl

theorem execSeedGenerator_keepsView (r : Request) : KeepsView view (execSeedGenerator r) :=
  request_keepsView fun _ => maintenance_keepsView fun _ _ => .of_tables rfl

theorem execSetKeys_keepsView (r : Request) : KeepsView (unowned (.setKeys r)) (execSetKeys r) :=
  request_keepsView fun _ => maintenance_keepsView fun keys s => by
    split; · exact .refl s
    unfold storeKeys; dsimp only
    split <;> exact rfl

theorem execWithdraw_keepsView (r : Request) : KeepsView (unowned (.withdraw r)) (execWithdraw r) :=
  request_keepsView fun _ => maintenance_keepsView fun _ s => by
    split; · exact .refl s
    split; · exact .refl s
    split <;> exact rfl

theorem execReinstate_keepsView (r : Request) : KeepsView (unowned (.reinstate r)) (execReinstate r) :=
  request_keepsView fun _ => maintenance_keepsView fun _ s => by
    split; · exact .refl s
    split <;> exact rfl

theorem execRestart_keepsView (r : Request) : KeepsView view (execRestart r) :=
  request_keepsView fun _ => maintenance_keepsView fun _ _ => .of_tables rfl

theorem execBlank_keepsView (r : Request) : KeepsView view (execBlank r) :=
  request_keepsView fun _ => maintenance_keepsView fun _ _ => by split <;> exact .of_tables rfl

/-! ### The trunk and the loss of power -/

theorem execFrameReceive_keepsView (bytes : List Byte) : KeepsView view (execFrameReceive bytes) :=
  event_keepsView fun s t some => by
    split at some
    · exact .of_due some (.of_tables rfl)
    · cases some

theorem execReplyTransmitted_keepsView : KeepsView view execReplyTransmitted :=
  event_keepsView fun s t some => by
    split at some <;> cases some
    exact .of_tables rfl

theorem execUnknownKind_keepsView (kind : Byte) (r : Request) : KeepsView view (execUnknownKind kind r) := by
  intro s t run
  unfold execUnknownKind at run
  split at run
  · exact request_keepsView (fun u => .refl u) s t run
  · cases run; exact .refl s

/-- Retained state outlives the loss of main power, the check word alone is at risk (R29). -/
theorem execLossOfMainPower_keepsView (interrupted : Bool) : KeepsView view (execLossOfMainPower interrupted) := by
  intro s t run
  cases run
  split
  · exact .refl s
  · split <;> exact .of_tables rfl

/-! ### The clock and the deadlines -/

theorem execClockTick_keepsView : KeepsView view execClockTick :=
  event_keepsView fun s t some => by
    dsimp only at some
    split at some
    · split at some <;> (cases some; exact .of_tables rfl)
    · cases some; exact .of_tables rfl

theorem execMinuteBoundary_keepsView : KeepsView view execMinuteBoundary :=
  event_keepsView fun s t some => by
    split at some
    next now _ =>
      have counted (u : State) (n : Nat) : TablesKept view u { u with boundariesDue := n } := .of_tables rfl
      exact .of_due some ((TablesKept.of_fixed (fixed_takeBoundary now s)).trans (counted _ _))
    next => cases some

theorem execQuoteExpiry_keepsView (c : CompNo) : KeepsView view (execQuoteExpiry c) :=
  event_keepsView fun s t some => by
    split at some
    · exact .of_due some (.of_fixed (fixed_dropQuote c s))
    · cases some

theorem execLockoutDeadline_keepsView (k : KioskNo) : KeepsView view (execLockoutDeadline k) :=
  event_keepsView fun s t some => by
    split at some
    · exact .of_due some (.of_tables rfl)
    · cases some

theorem execInactivityDeadline_keepsView (k : KioskNo) : KeepsView view (execInactivityDeadline k) :=
  event_keepsView fun s t some => by
    split at some
    · exact .of_due some (.of_tables rfl)
    · cases some

theorem execEnergiseDeadline_keepsView (c : CompNo) : KeepsView view (execEnergiseDeadline c) :=
  event_keepsView fun s t some => by
    split at some
    next g a _ =>
      split at some
      · exact .of_due some (.of_fixed (fixed_energiseEnds g a s))
      · cases some
    next => cases some

theorem execConfirmDeadline_keepsView (c : CompNo) : KeepsView view (execConfirmDeadline c) :=
  event_keepsView fun s t some => by
    split at some
    next g a _ =>
      split at some
      · exact .of_due some (.of_fixed (fixed_attemptFails g a s))
      · cases some
    next => cases some

theorem execStrikeAgeing_keepsView (c : CompNo) : KeepsView view (execStrikeAgeing c) :=
  event_keepsView fun s t some => by
    split at some
    · exact .of_due some (.of_fixed (by simp))
    · cases some

theorem execAjarDeadline_keepsView (c : CompNo) : KeepsView view (execAjarDeadline c) :=
  event_keepsView fun s t some => by
    split at some
    · exact .of_due some (.of_fixed (by simp))
    · cases some
    · cases some

theorem execKioskIdleDeadline_keepsView : KeepsView view execKioskIdleDeadline :=
  event_keepsView fun s t some => by
    split at some
    · exact .of_due some (.of_tables rfl)
    · cases some

theorem execUnlockDeadline_keepsView : KeepsView view execUnlockDeadline :=
  event_keepsView fun s t some => by
    split at some
    · exact .of_due some (.of_tables rfl)
    · cases some

/-! ### Sweeps and polls -/

theorem execQuietSweepStart_keepsView (g : SegNo) : KeepsView view (execQuietSweepStart g) :=
  event_keepsView fun s _ some => .of_due some (.of_fixed (fixed_startSweep g s))

theorem execPollOutcome_keepsView (g : SegNo) (heard : Option (List Byte)) : KeepsView view (execPollOutcome g heard) :=
  event_keepsView fun s t some => by
    split at some
    · cases some; exact .of_fixed (by simp)
    · cases some
    · cases some

theorem execSweepIssue_keepsView (k : KioskNo) : KeepsView view (execSweepIssue k) :=
  event_keepsView fun s t some => by
    obtain ⟨-, -, rfl⟩ := Option.map_eq_some_iff.mp some
    exact .of_fixed (fixed_applyPickup k s)

theorem execSweepThatPollsNoSlotEnds_keepsView (g : SegNo) : KeepsView view (execSweepThatPollsNoSlotEnds g) :=
  event_keepsView fun s _ some => .of_due some (.of_fixed (fixed_endSweep g s))

end commands

/-! ### Every command -/

/-- Every command but the resets leaves the tables that it does not own. -/
theorem exec_keepsUnowned {c : Instr} (reset : ∀ cause straps, c ≠ .reset cause straps)
    (blank : ∀ straps, c ≠ .blankStart straps) : KeepsView (unowned c) (exec c) := by
  cases c with
  | frameReceive bytes => exact execFrameReceive_keepsView bytes
  | replyTransmitted => exact execReplyTransmitted_keepsView
  | unknownKind kind r => exact execUnknownKind_keepsView kind r
  | collect r => exact execCollect_keepsView r
  | pay r => exact execPay_keepsView r
  | returnDrop r => exact execReturnDrop_keepsView r
  | doorStatus r => exact execDoorStatus_keepsView r
  | signOn r => exact execSignOn_keepsView r
  | signOff r => exact execSignOff_keepsView r
  | declare r => exact execDeclare_keepsView r
  | sessionStatus r => exact execSessionStatus_keepsView r
  | sweep r => exact execSweep_keepsView r
  | sweepEnd r => exact execSweepEnd_keepsView r
  | fetchNotice r => exact execFetchNotice_keepsView r
  | revoke r => exact execRevoke_keepsView r
  | reissue r => exact execReissue_keepsView r
  | loadCourier r => exact execLoadCourier_keepsView r
  | removeCourier r => exact execRemoveCourier_keepsView r
  | loadReturn r => exact execLoadReturn_keepsView r
  | removeReturn r => exact execRemoveReturn_keepsView r
  | settle r => exact execSettle_keepsView r
  | queryCompartment r => exact execQueryCompartment_keepsView r
  | clear r => exact execClear_keepsView r
  | fetchAlarm r => exact execFetchAlarm_keepsView r
  | broadcast r => exact execBroadcast_keepsView r
  | unlockKey r => exact execUnlockKey_keepsView r
  | endService r => exact execEndService_keepsView r
  | loadMap r => exact execLoadMap_keepsView r
  | loadTariff r => exact execLoadTariff_keepsView r
  | loadSlot r => exact execLoadSlot_keepsView r
  | setBudget r => exact execSetBudget_keepsView r
  | setHold r => exact execSetHold_keepsView r
  | setEnables r => exact execSetEnables_keepsView r
  | seedGenerator r => exact execSeedGenerator_keepsView r
  | setKeys r => exact execSetKeys_keepsView r
  | withdraw r => exact execWithdraw_keepsView r
  | reinstate r => exact execReinstate_keepsView r
  | restart r => exact execRestart_keepsView r
  | blank r => exact execBlank_keepsView r
  | reset cause straps => exact absurd rfl (reset cause straps)
  | blankStart straps => exact absurd rfl (blank straps)
  | clockTick => exact execClockTick_keepsView
  | minuteBoundary => exact execMinuteBoundary_keepsView
  | quoteExpiry c => exact execQuoteExpiry_keepsView c
  | lockoutDeadline k => exact execLockoutDeadline_keepsView k
  | inactivityDeadline k => exact execInactivityDeadline_keepsView k
  | energiseDeadline c => exact execEnergiseDeadline_keepsView c
  | confirmDeadline c => exact execConfirmDeadline_keepsView c
  | strikeAgeing c => exact execStrikeAgeing_keepsView c
  | ajarDeadline c => exact execAjarDeadline_keepsView c
  | kioskIdleDeadline => exact execKioskIdleDeadline_keepsView
  | unlockDeadline => exact execUnlockDeadline_keepsView
  | quietSweepStart g => exact execQuietSweepStart_keepsView g
  | pollOutcome g heard => exact execPollOutcome_keepsView g heard
  | sweepIssue k => exact execSweepIssue_keepsView k
  | sweepThatPollsNoSlotEnds g => exact execSweepThatPollsNoSlotEnds_keepsView g
  | lossOfMainPower interrupted => exact execLossOfMainPower_keepsView interrupted

/-! ### Each table by itself: a command that is none of its owners does not own it -/

theorem unowned_concourse {c : Instr} (other : ∀ r, c ≠ .broadcast r) (x : Tables) :
    (unowned c x).concourse = x.concourse := by
  cases c with
  | broadcast r => exact absurd rfl (other r)
  | _ => rfl

theorem unowned_tariff {c : Instr} (other : ∀ r, c ≠ .loadTariff r) (x : Tables) :
    (unowned c x).tariff = x.tariff := by
  cases c with
  | loadTariff r => exact absurd rfl (other r)
  | _ => rfl

theorem unowned_hold {c : Instr} (other : ∀ r, c ≠ .setHold r) (x : Tables) :
    (unowned c x).hold = x.hold := by
  cases c with
  | setHold r => exact absurd rfl (other r)
  | _ => rfl

theorem unowned_couriers {c : Instr} (load : ∀ r, c ≠ .loadCourier r) (remove : ∀ r, c ≠ .removeCourier r)
    (x : Tables) : (unowned c x).couriers = x.couriers := by
  cases c with
  | loadCourier r => exact absurd rfl (load r)
  | removeCourier r => exact absurd rfl (remove r)
  | _ => rfl

theorem unowned_budgets {c : Instr} (other : ∀ r, c ≠ .setBudget r) (x : Tables) :
    (unowned c x).budgets = x.budgets := by
  cases c with
  | setBudget r => exact absurd rfl (other r)
  | _ => rfl

theorem unowned_slots {c : Instr} (other : ∀ r, c ≠ .loadSlot r) (x : Tables) :
    (unowned c x).slots = x.slots := by
  cases c with
  | loadSlot r => exact absurd rfl (other r)
  | _ => rfl

theorem unowned_withdrawn {c : Instr} (withdraw : ∀ r, c ≠ .withdraw r) (reinstate : ∀ r, c ≠ .reinstate r)
    (x : Tables) : (unowned c x).withdrawn = x.withdrawn := by
  cases c with
  | withdraw r => exact absurd rfl (withdraw r)
  | reinstate r => exact absurd rfl (reinstate r)
  | _ => rfl

theorem unowned_enables {c : Instr} (other : ∀ r, c ≠ .setEnables r) (x : Tables) :
    (unowned c x).enables = x.enables := by
  cases c with
  | setEnables r => exact absurd rfl (other r)
  | _ => rfl

theorem unowned_keys {c : Instr} (other : ∀ r, c ≠ .setKeys r) (x : Tables) :
    (unowned c x).keys = x.keys := by
  cases c with
  | setKeys r => exact absurd rfl (other r)
  | _ => rfl

theorem unowned_takings {c : Instr} (pay : ∀ r, c ≠ .pay r) (settle : ∀ r, c ≠ .settle r) (x : Tables) :
    (unowned c x).takings = x.takings := by
  cases c with
  | pay r => exact absurd rfl (pay r)
  | settle r => exact absurd rfl (settle r)
  | _ => rfl

/-- Settles O55: each table is among those that a command which is none of its owners leaves. -/
theorem tablesChangeOnlyByTheirCommands : Obligations.TablesChangeOnlyByTheirCommands := by
  intro c s t run reset blank
  have kept : unowned c t.tables = unowned c s.tables := exec_keepsUnowned reset blank s t run
  have table {β : Type} {f : Tables → β} (own : ∀ x, f (unowned c x) = f x) : f t.tables = f s.tables := by
    rw [← own, kept, own]
  exact ⟨fun other => table (unowned_concourse other), fun other => table (unowned_tariff other),
    fun other => table (unowned_hold other), fun load remove => table (unowned_couriers load remove),
    fun other => table (unowned_budgets other), fun other => table (unowned_slots other),
    fun withdraw reinstate => table (unowned_withdrawn withdraw reinstate), fun other => table (unowned_enables other),
    fun other => table (unowned_keys other), fun pay settle => table (unowned_takings pay settle)⟩

end Sys2Proof.Machine

/-! Fetch Alarm (R203 to R205): the order in which it takes the alarms, and the attention line that follows. -/

namespace Sys2Proof.Machine

/-! ### The order of the alarms -/

theorem alarmCode_injective : Function.Injective alarmCode := by
  intro a b
  cases a <;> cases b <;> decide

/-- An alarm stands before another by the priority of its kind, or beside or before it by its object (R204). -/
def Alarm.Precedes (a b : Alarm) : Prop :=
  (alarmCode a.kind).val < (alarmCode b.kind).val ∨ (a.kind = b.kind ∧ a.object ≤ b.object)

theorem Alarm.Precedes.refl (a : Alarm) : a.Precedes a := .inr ⟨rfl, le_rfl⟩

theorem Alarm.Precedes.trans {a b c : Alarm} (h : a.Precedes b) (k : b.Precedes c) : a.Precedes c := by
  obtain h | ⟨kind, object⟩ := h
  · obtain k | ⟨kind, -⟩ := k
    · exact .inl (h.trans k)
    · exact .inl (by rwa [← kind])
  · obtain k | ⟨kind', object'⟩ := k
    · exact .inl (by rwa [kind])
    · exact .inr ⟨kind.trans kind', object.trans object'⟩

theorem Alarm.precedes_of_before {a b : Alarm} (h : a.before b = true) : a.Precedes b := by
  unfold before at h
  rw [Bool.or_eq_true, Bool.and_eq_true, decide_eq_true_eq, decide_eq_true_eq, decide_eq_true_eq] at h
  exact h.imp id fun ⟨code, object⟩ => ⟨alarmCode_injective code, object.le⟩

theorem Alarm.precedes_of_not_before {a b : Alarm} (h : ¬ b.before a = true) : a.Precedes b := by
  unfold before at h
  rw [Bool.or_eq_true, Bool.and_eq_true, decide_eq_true_eq, decide_eq_true_eq, decide_eq_true_eq, not_or, not_and,
    not_lt, not_lt] at h
  obtain ⟨priority, object⟩ := h
  obtain higher | code := priority.lt_or_eq
  · exact .inl higher
  · have code : alarmCode b.kind = alarmCode a.kind := Fin.ext code.symm
    exact .inr ⟨(alarmCode_injective code).symm, object code⟩

theorem firstAlarm_eq_none {alarms : List Alarm} (h : firstAlarm alarms = none) : alarms = [] := by
  cases alarms with
  | nil => rfl
  | cons a rest =>
    unfold firstAlarm at h
    split at h
    · split at h <;> cases h
    · cases h

/-- The first alarm of a list is one of the list, and precedes every other. -/
theorem firstAlarm_least {alarms : List Alarm} {a : Alarm} (h : firstAlarm alarms = some a) :
    a ∈ alarms ∧ ∀ b ∈ alarms, a.Precedes b := by
  induction alarms generalizing a with
  | nil => cases h
  | cons c rest ih =>
    unfold firstAlarm at h
    cases first : firstAlarm rest with
    | none =>
      rw [first] at h
      cases h
      rw [firstAlarm_eq_none first]
      exact ⟨List.mem_singleton_self c, fun b there => List.mem_singleton.mp there ▸ .refl c⟩
    | some d =>
      rw [first] at h; dsimp only at h
      obtain ⟨mem, least⟩ := ih first
      split at h <;> cases h
      next before =>
        refine ⟨List.mem_cons_of_mem c mem, fun b there => ?_⟩
        obtain rfl | there := List.mem_cons.mp there
        · exact Alarm.precedes_of_before before
        · exact least b there
      next behind =>
        refine ⟨List.mem_cons_self, fun b there => ?_⟩
        obtain rfl | there := List.mem_cons.mp there
        · exact .refl b
        · exact (Alarm.precedes_of_not_before behind).trans (least b there)

/-! ### The attention line -/

/-- A request that is not a kiosk's, whose owner changes at most the unlock deadline and the alarms: the attention line
is asserted exactly while an enabled alarm is left (R205). -/
theorem request_leaves_alarms {kind : Nat} {r : Request} {s : State} {own : State → Answer} {status : Status}
    {body : List Byte} {deadline : Option Nat} {alarms : List Alarm} (ready : Ready kind r s)
    (source : ∀ k, r.source ≠ .kiosk k) (settled : Settled s)
    (answer : own { s with receive := s.receive.tail } =
      { state := { s with receive := s.receive.tail, unlockDeadline := deadline, alarms }, status, body }) :
    request (BitVec.ofNat 8 kind) r s own =
      .next { answered kind r status body { s with unlockDeadline := deadline } with
        alarms, attention := !(alarms.filter fun b => look s.ret.enables (alarmCode b.kind)).isEmpty } := by
  obtain ⟨check, -, -⟩ := settled.running ready.1
  obtain ⟨t, run, same⟩ := request_changes_alarms (ret := s.ret) ready source settled answer rfl
  have line : t.attention = attentionLevel t := by
    have running : t.run = .running := by rw [same]; exact ready.1
    exact ((request_keepsSettled _ r own s t settled run).running running).2.1
  have level : attentionLevel t = !(alarms.filter fun b => look s.ret.enables (alarmCode b.kind)).isEmpty := by
    rw [same, Bool.eq_iff_iff]
    simp [attentionLevel, enabled, resealed, answered]
  rw [run, same, line, level]
  simp only [resealed, check]
  rfl

/-- Settles O31: by whether an enabled alarm is pending; the one taken is the first in the order. -/
theorem fetchAlarmTakesFirst : Obligations.FetchAlarmTakesFirst := by
  intro r s ready may body settled
  have parsed : bodyEmpty r.body = some () := by rw [body]; rfl
  rw [staffState_eq]
  unfold exec execFetchAlarm
  refine ⟨fun a first => ?_, fun quiet => ?_, fun a first => firstAlarm_least first⟩
  · refine request_leaves_alarms (kind := 21) ready may.not_kiosk settled ?_
    rw [staffRequest_taken may parsed]
    have first : firstAlarm (visibleAlarms { s with
        receive := s.receive.tail, unlockDeadline := (staffState r s).unlockDeadline }) = some a := first
    rw [first]
    rfl
  · refine request_changes_deadline (kind := 21) ready may.not_kiosk settled ?_
    rw [staffRequest_taken may parsed]
    have quiet : firstAlarm (visibleAlarms { s with
        receive := s.receive.tail, unlockDeadline := (staffState r s).unlockDeadline }) = none := quiet
    rw [quiet]

end Sys2Proof.Machine

/-! Broadcast (R193 to R196, R198, R199): the state in which its two stages leave the part, and the end of the event. -/

namespace Sys2Proof.Machine

/-! ### The two stages -/

/-- What a Broadcast's code and time leave of a state (R193). -/
def broadcasted (code time : Nat) (s : State) : State := applyCode code (applyTime time s)

theorem fixed_broadcasted (code time : Nat) (s : State) :
    (broadcasted code time s).fixed = { s.fixed with
      clock := clockAfter s.clock time
      history := appendCode s.history code
      concourse := concourseAfter (appendCode s.history code) s.ret.concourse } := by
  have timed := fixed_applyTime time s
  have history : (applyTime time s).history = s.history := congrArg Fixed.history timed
  have concourse : (applyTime time s).ret.concourse = s.ret.concourse := congrArg Fixed.concourse timed
  unfold broadcasted
  rw [fixed_applyCode, history, concourse, timed]

/-- A time that leaves the clock as it was leaves everything: a clock set or stepped reads otherwise (R196, R198). -/
theorem applyTime_of_clock {time : Nat} {s : State} (stands : clockAfter s.clock time = s.clock) :
    applyTime time s = s := by
  unfold clockAfter at stands
  unfold applyTime
  cases clock : s.clock with
  | none => rw [clock] at stands; cases stands
  | some v =>
    rw [clock] at stands; dsimp only at stands ⊢
    split
    · rfl
    next apart =>
      rw [if_neg apart, Option.some.injEq] at stands
      omega

/-- A time that differs from the set clock by more than 2 s steps it (R198). -/
theorem applyTime_of_apart {v time : Nat} {s : State} (set : s.clock = some v)
    (apart : ¬ (v ≤ time + 2 ∧ time ≤ v + 2)) : applyTime time s = stepClock v time s := by
  unfold applyTime
  rw [set]
  exact if_neg apart

/-- A time that sets the clock fills the absent deposit times (R196, R19). -/
theorem parcel_applyTime_of_unset {time : Nat} {s : State} (unset : s.clock = none) (c : CompNo) :
    ((applyTime time s).comp c).parcel = (s.comp c).parcel.map (fillDepositTime time) := by
  unfold applyTime
  rw [unset]
  exact congrArg Compartment.parcel (look_map ..)

theorem filled_depositTime (present : Option Nat) (time : Nat) :
    (present.orElse fun _ => some time) = some (present.getD time) := by
  cases present <;> rfl

/-- The concourse state that a history qualifies is that of a known code which stands there at least four times
(R194). -/
theorem qualifying_counts {history : List Nat} {x : Concourse} (h : qualifying history = some x) :
    ∃ n, concourseOf? n = some x ∧ 4 ≤ history.count n := by
  obtain ⟨n, found, known⟩ := Option.bind_eq_some_iff.mp h
  exact ⟨n, known, by simpa using List.find?_some found⟩

/-! ### What an adoption leaves -/

/-- An adoption ends with issue on every segment (R160, R195). -/
theorem applyCode_issues {code : Nat} {s t : State} (h : After (applyCode code s) t)
    (adopted : t.ret.concourse ≠ s.ret.concourse) (g : SegNo) : nextIssue t g = none := by
  obtain same | ⟨state, -, adoption⟩ := applyCode_cases code s
  · rw [same] at h
    exact absurd (congrArg Retained.concourse h.ret) adopted
  · rw [adoption] at h
    obtain ⟨-, issued⟩ := issued_all
      (if state = .evacuate then evacuate (adopting code state s) else adopting code state s)
    exact (h.nextIssue g).trans (issued g).1

/-- The adoption of EVACUATE leaves no session, no queued strike and no quote (R100, R170, R82). -/
theorem applyCode_evacuates {code : Nat} {s t : State} (h : After (applyCode code s) t)
    (adopted : t.ret.concourse ≠ s.ret.concourse) (evacuating : t.ret.concourse = .evacuate) :
    (∀ k, (t.kiosk k).session = none) ∧ (∀ g, (t.seg g).queue = []) ∧ ∀ c, t.quoteOf c = none := by
  obtain same | ⟨state, -, adoption⟩ := applyCode_cases code s
  · rw [same] at h
    exact absurd (congrArg Retained.concourse h.ret) adopted
  · have concourse : state = .evacuate := by
      have written : (applyCode code s).ret.concourse = state := by
        rw [adoption, ret_concourse_of_fixed (fixed_forEach _ fixed_applyIssue _)]
        split
        · rw [ret_concourse_of_fixed (fixed_evacuate _)]; rfl
        · rfl
      rw [← written, ← h.ret, evacuating]
    subst concourse
    obtain ⟨cancelled, queues, quotes⟩ := cancelled_evacuate (adopting code .evacuate s)
    rw [if_pos rfl, issue_empty fun g => by rw [queues]] at adoption
    rw [adoption] at h
    refine ⟨fun k => ?_, fun g => ?_, fun c => (h.quoteOf c).trans (quotes c)⟩
    · rw [h.kiosk, cancelled.session]
      simp [State.kiosk, look]
    · rw [(h.strikes g).1, queues]

/-- The code of a Broadcast leaves every parcel record (R194, R195). -/
theorem CodeApplied.parcel {s t : State} (h : CodeApplied s t) (c : CompNo) :
    (t.comp c).parcel = (s.comp c).parcel := by
  obtain ⟨evacuated, issued, stayed⟩ := h
  by_cases adopted : t.ret.concourse = s.ret.concourse
  · obtain ⟨ret, -⟩ := stayed adopted
    rw [State.comp, ret]; rfl
  · by_cases evacuating : t.ret.concourse = .evacuate
    · obtain ⟨comps, -⟩ := evacuated adopted evacuating
      rw [comps]
      split
      · unfold cancelledComp; split <;> rfl
      · rfl
    · obtain ⟨comps, -⟩ := issued adopted evacuating
      obtain ⟨-, -, parcel, -⟩ := comps c
      exact parcel

/-- What a code does reads no receive queue. -/
theorem CodeApplied.of_queued {s t : State} {queue : List Frame} (h : CodeApplied { s with receive := queue } t) :
    CodeApplied s t := h

/-! ### The end of the event -/

/-- The reply to a Broadcast, on the state after it (R209). -/
def broadcastReply (s : State) : List Byte := be 1 (concourseCode s.ret.concourse) ++ optional timeField s.clock

/-- A Broadcast from STATION with a well-formed body is answered after its two stages (R193, R209). -/
theorem execBroadcast_broadcasts {r : Request} {s : State} {code time : Nat} (ready : Ready 22 r s)
    (source : r.source = .station) (body : bodyBroadcast r.body = some (code, time)) :
    Completes (exec (.broadcast r) s) fun t =>
      let u := broadcasted code time (taken r s)
      After u t ∧ t = { u with
        transmit := u.transmit ++ replyTo u 22 r .accepted (broadcastReply u)
        segments := t.segments, attention := t.attention, checkWord := t.checkWord } := by
  obtain ⟨own, command, answer⟩ : ∃ own, execBroadcast r s = request (BitVec.ofNat 8 22) r s own ∧
      own (taken r s) = {
        state := broadcasted code time (taken r s)
        status := .accepted
        body := broadcastReply (broadcasted code time (taken r s)) } := by
    unfold execBroadcast
    refine ⟨_, rfl, ?_⟩
    rw [if_pos source, body]
    rfl
  obtain ⟨t, run, strikes, same⟩ := request_answered ready own answer
  refine ⟨t, command.trans run, ?_, ?_⟩
  · exact ⟨by rw [same], by rw [same], by rw [same], by rw [same], by rw [same], by rw [same], by rw [same], strikes⟩
  · rw [same]

/-- Where the clock becomes set, every parcel record has a deposit time, and is otherwise as it was (R19). -/
theorem CodeApplied.deposit_times {s t : State} {time : Nat} (h : CodeApplied (applyTime time s) t)
    (unset : s.clock = none) (c : CompNo) :
    (∀ d, (s.comp c).parcel = some (.delivery d) →
        (t.comp c).parcel = some (.delivery { d with depositTime := some (d.depositTime.getD time) }))
      ∧ (∀ d, (s.comp c).parcel = some (.returned d) →
        (t.comp c).parcel = some (.returned { d with depositTime := some (d.depositTime.getD time) }))
      ∧ ((s.comp c).parcel = none → (t.comp c).parcel = none) := by
  rw [h.parcel, parcel_applyTime_of_unset unset]
  refine ⟨fun d present => ?_, fun d present => ?_, fun absent => ?_⟩
  · rw [present, ← filled_depositTime]; rfl
  · rw [present, ← filled_depositTime]; rfl
  · rw [absent]; rfl

/-- A reply joins the tail of the transmit queue where the trunk stands as when the frame was taken (R209, R210). -/
theorem answered_of_taken {kind : Nat} {r : Request} {status : Status} {body : List Byte} {s t u : State}
    (receive : u.receive = s.receive.tail) (transmit : u.transmit = s.transmit) (bank : u.bankId = s.bankId)
    (idle : u.kioskIdle = idleAfter s r) (same : t = { u with
      transmit := u.transmit ++ replyTo u kind r status body
      segments := t.segments, attention := t.attention, checkWord := t.checkWord }) :
    Answered kind r status body s t := by
  have reply : replyTo u kind r status body = replyTo s kind r status body := by unfold replyTo; rw [bank]
  rw [reply, transmit] at same
  rw [same]
  exact ⟨receive, rfl, idle⟩

/-- Settles O32: the fixed part tells the clock, the history and the concourse state; the records are those that the
code leaves of what the time has left. -/
theorem broadcastSetsClockAndState : Obligations.BroadcastSetsClockAndState := by
  intro r s code time ready source body
  obtain ⟨t, run, after, same⟩ := execBroadcast_broadcasts ready source body
  have fixed := fixed_broadcasted code time (taken r s)
  have start : taken r s = { s with receive := s.receive.tail } := by
    unfold taken idleAfter
    rw [source]
  have applied : CodeApplied (applyTime time (taken r s)) t := codeApplied_applyCode after
  have earlier : (applyTime time (taken r s)).ret.concourse = s.ret.concourse :=
    congrArg Fixed.concourse (fixed_applyTime time _)
  have clock : t.clock = clockAfter s.clock time := by rw [same]; exact congrArg Fixed.clock fixed
  have history : t.history = appendCode s.history code := by rw [same]; exact congrArg Fixed.history fixed
  have concourse : t.ret.concourse = concourseAfter t.history s.ret.concourse := by
    rw [history, after.ret]; exact congrArg Fixed.concourse fixed
  refine ⟨t, run, clock, history, concourse, fun x => qualifying_counts, ?answered, ?kept, ?times, ?issued, ?evacuated,
    ?code, ?stepped⟩
  case answered =>
    have reply : broadcastReply (broadcasted code time (taken r s)) = broadcastReply t := by rw [same]; rfl
    rw [reply] at same
    exact answered_of_taken (congrArg Fixed.receive fixed) (congrArg Fixed.transmit fixed) (congrArg Fixed.bankId fixed)
      (congrArg Fixed.kioskIdle fixed) same
  case kept =>
    rw [same]
    exact ⟨congrArg Fixed.run fixed, congrArg Fixed.elapsed fixed, congrArg Fixed.skc fixed,
      congrArg Fixed.unlockDeadline fixed, congrArg Fixed.boundariesDue fixed, congrArg Fixed.nextSerial fixed,
      congrArg Fixed.trunkOut fixed⟩
  case times => exact fun unset => applied.deposit_times unset
  case issued => exact fun adopted => applyCode_issues after (by rwa [earlier])
  case evacuated => exact fun adopted => applyCode_evacuates after (by rwa [earlier])
  case code =>
    intro stands
    rw [applyTime_of_clock (s := taken r s) (clock.symm.trans stands), start] at applied
    exact applied.of_queued
  case stepped =>
    intro v set apart drops held
    rw [applyTime_of_apart (s := taken r s) set apart] at applied
    have stepped : ClockStepped v time (taken r s) (stepClock v time (taken r s)) := clockStepped_stepClock drops held
    rw [start] at applied stepped
    exact ⟨_, stepped.queued s.receive, applied⟩

end Sys2Proof.Machine

/-! The clock tick (R196, R197, R199). -/

namespace Sys2Proof.Machine

/-- A multiple of 60 that the clock reaches is counted as a boundary (R199; log 5). -/
theorem boundaries_counted (n v : Nat) :
    n + (if (v + 1) % 60 = 0 then 1 else 0) = if 60 ∣ v + 1 then n + 1 else n := by
  by_cases minute : 60 ∣ v + 1
  · rw [if_pos minute, if_pos (Nat.mod_eq_zero_of_dvd minute)]
  · rw [if_neg minute, if_neg fun zero => minute (Nat.dvd_of_mod_eq_zero zero), Nat.add_zero]

/-- Settles O44: by whether the clock is set and below its largest value; the event's end finds all in step. -/
theorem clockTickAdvances : Obligations.ClockTickAdvances := by
  intro s power settled
  unfold exec execClockTick
  refine ⟨fun v set below => ?_, fun stands => ?_⟩
  · refine event_still settled power ?_ rfl rfl rfl rfl rfl rfl
    dsimp only
    rw [set, ← boundaries_counted]
    exact if_pos below
  · refine event_still settled power ?_ rfl rfl rfl rfl rfl rfl
    dsimp only
    obtain unset | largest := stands
    · rw [unset]
    · rw [largest]; rfl

end Sys2Proof.Machine

/-! The reservation law (R212, R213): one outbox slot stands reserved for each compartment with a transient part. The
law is followed through a command with a number of slots held beside it: a slot is taken before its compartment is
reserved and given back after the transaction has ended, so between the operations one slot may be held over. -/

namespace Sys2Proof.Machine

/-! ### Counting the transactions -/

/-- How many compartments have a transaction. -/
def transactions (s : State) : Nat := s.ret.compartments.toList.countP fun x => x.state.transacting

theorem toList_eq_map_look {α : Type} {n : Nat} (v : Vector α n) : v.toList = (List.finRange n).map (look v) := by
  rw [← List.ofFn_eq_map, ← Vector.toList_ofFn]
  exact congrArg Vector.toList (vector_ext_look fun i => (look_ofFn _ i).symm)

theorem transactions_congr {s t : State} (h : ∀ c, (t.comp c).state.transacting = (s.comp c).state.transacting) :
    transactions t = transactions s := by
  simp only [transactions, toList_eq_map_look, List.countP_map]
  exact congrArg (List.countP · _) (funext h)

/-- A compartment's record counts towards the transactions for itself alone. -/
theorem transactions_setComp (c : CompNo) (x : Compartment) (s : State) :
    transactions (s.setComp c x) + (s.comp c).state.transacting.toNat = transactions s + x.state.transacting.toNat := by
  have inside : c.val < s.ret.compartments.toList.length := by simp
  have counted : (s.comp c).state.transacting.toNat ≤ transactions s := by
    cases own : (s.comp c).state.transacting with
    | false => exact Nat.zero_le _
    | true => exact List.countP_pos_iff.mpr ⟨s.comp c, by simp [State.comp, look], own⟩
  have old : s.ret.compartments.toList[c.val]'inside = s.comp c := by simp [State.comp, look]
  have set := List.countP_set (p := fun y => y.state.transacting) (a := x) inside
  rw [old] at set
  have moved : transactions (s.setComp c x)
      = transactions s - (s.comp c).state.transacting.toNat + x.state.transacting.toNat := by
    rw [transactions, State.setComp, put, Vector.toList_set, set]
    cases (s.comp c).state.transacting <;> cases x.state.transacting <;> rfl
  omega

/-! ### The law with slots held over -/

/-- The reservation law of R212 with `n` reservations more than there are transactions. -/
structure Reserved (n : Nat) (s : State) : Prop where
  parts : ∀ c, (s.comp c).transient.isSome = (s.comp c).state.transacting
  count : s.ret.reservations = transactions s + n
  room  : s.ret.outbox.length + s.ret.reservations ≤ 32

/-- Between commands no slot is held over. -/
theorem reserved_iff (s : State) : Reserved 0 s ↔ ReservationsAgree s :=
  ⟨fun ⟨parts, count, room⟩ => ⟨parts, count, room⟩, fun ⟨parts, count, room⟩ => ⟨parts, count, room⟩⟩

/-- What the reservation law reads of a state. -/
def State.ledger (s : State) : Vector Compartment 768 × Nat × List SentNotice :=
  (s.ret.compartments, s.ret.reservations, s.ret.outbox)

namespace Reserved

variable {n : Nat} {s t : State} (h : Reserved n s)
include h

/-- Where every compartment keeps its transaction, and the outbox has not grown. -/
theorem congr (state : ∀ c, (t.comp c).state.transacting = (s.comp c).state.transacting)
    (part : ∀ c, (t.comp c).transient.isSome = (s.comp c).transient.isSome)
    (reservations : t.ret.reservations = s.ret.reservations) (outbox : t.ret.outbox.length ≤ s.ret.outbox.length) :
    Reserved n t where
  parts c := by rw [part, state, h.parts]
  count := by rw [reservations, transactions_congr state, h.count]
  room := by rw [reservations]; exact (Nat.add_le_add_right outbox _).trans h.room

/-- An operation that writes nothing of what the law reads. -/
theorem same (eq : t.ledger = s.ledger) : Reserved n t := by
  obtain ⟨compartments, rest⟩ := Prod.mk.inj eq
  obtain ⟨reservations, outbox⟩ := Prod.mk.inj rest
  have comp (c : CompNo) : t.comp c = s.comp c := congrArg (look · c) compartments
  exact h.congr (fun c => by rw [comp]) (fun c => by rw [comp]) reservations (by rw [outbox])

/-- A compartment with a transient part has a transaction (the table of section 1.2). -/
theorem transacting {c : CompNo} {x : Transient} (part : (s.comp c).transient = some x) :
    (s.comp c).state.transacting = true := by rw [← h.parts, part]; rfl

/-- A compartment without a transaction has no transient part. -/
theorem noPart {c : CompNo} (rests : (s.comp c).state.transacting = false) : (s.comp c).transient = none :=
  Option.not_isSome_iff_eq_none.mp (by rw [h.parts, rests]; decide)

/-! ### The tables -/

theorem setQuote {c : CompNo} {q : Option Quote} : Reserved n (s.setQuote c q) := h.same rfl

theorem setKiosk {k : KioskNo} {x : Kiosk} : Reserved n (s.setKiosk k x) := h.same rfl

theorem setSeg {g : SegNo} {x : Segment} : Reserved n (s.setSeg g x) := h.same rfl

theorem setBoard {b : BoardNo} {x : Board} : Reserved n (s.setBoard b x) := h.same rfl

theorem setLine {b : BoardNo} {l : LineNo} {x : Line} : Reserved n (s.setLine b l x) := h.same rfl

theorem setAjar {c : CompNo} {w : Option AjarWatch} : Reserved n (s.setAjar c w) := h.same rfl

theorem setSession {k : KioskNo} {x : Option Session} : Reserved n (setSession k x s) := h.same rfl

theorem setDoorResult {k : KioskNo} {x : Option DoorResult} : Reserved n (setDoorResult k x s) := h.same rfl

theorem setLastPayment {k : KioskNo} {p : LastPayment} : Reserved n (setLastPayment k p s) := h.same rfl

theorem countSuccess {k : KioskNo} : Reserved n (countSuccess k s) := h.same rfl

theorem changeEntry {c : CompNo} {change : DirEntry → Option DirEntry} : Reserved n (changeEntry c change s) := h.same rfl

theorem setEntryStatus {c : CompNo} {x : CodeStatus} : Reserved n (setEntryStatus c x s) := h.same rfl

theorem removeEntry {c : CompNo} : Reserved n (removeEntry c s) := h.same rfl

theorem addEntry {code : Nat} {c : CompNo} {x : CodeStatus} : Reserved n (addEntry code c x s) := h.same rfl

theorem changeReturn {m : Nat} {change : ReturnEntry → Option ReturnEntry} : Reserved n (changeReturn m change s) := h.same rfl

theorem freeReturn {m paid : Nat} : Reserved n (freeReturn m paid s) := h.same rfl

theorem touchSession {k : KioskNo} : Reserved n (touchSession k s) := by
  unfold Machine.touchSession
  split
  · exact h.setSession
  · exact h

theorem postAlarm {kind : AlarmKind} {object : Nat} : Reserved n (postAlarm kind object s) := by
  rw [postAlarm_eq]; exact h.same rfl

theorem countFailure {k : KioskNo} : Reserved n (countFailure k s) := by
  unfold Machine.countFailure; dsimp only
  split; · exact h.setKiosk
  split; · exact h.setKiosk.postAlarm
  exact h

/-! ### Compartment records -/

/-- A record that keeps its transaction, or its having none. -/
theorem keepPart {c : CompNo} {x : Compartment} (state : x.state.transacting = (s.comp c).state.transacting)
    (part : x.transient.isSome = (s.comp c).transient.isSome := by rfl) : Reserved n (s.setComp c x) := by
  refine h.congr (fun d => ?_) (fun d => ?_) rfl le_rfl
  all_goals rw [State.comp_setComp]; split
  · next same => rw [same, state]
  · rfl
  · next same => rw [same, part]
  · rfl

/-- A record that writes the transient part exactly where its state has one moves the count of transactions. -/
theorem setComp {m : Nat} {c : CompNo} {x : Compartment} (part : x.transient.isSome = x.state.transacting)
    (balance : n + (s.comp c).state.transacting.toNat = m + x.state.transacting.toNat) : Reserved m (s.setComp c x) where
  parts d := by
    rw [State.comp_setComp]; split
    · exact part
    · exact h.parts d
  count := by
    have moved := transactions_setComp c x s
    have count := h.count
    rw [State.setComp_ret_reservations]
    omega
  room := h.room

/-- The end of a transaction leaves its slot held over (R14 to R18). -/
theorem endPart {c : CompNo} {x : Compartment} {y : Transient} (old : (s.comp c).transient = some y)
    (state : x.state.transacting = false) (part : x.transient = none := by rfl) : Reserved (n + 1) (s.setComp c x) :=
  h.setComp (by rw [part, state]; rfl) (by rw [h.transacting old, state]; rfl)

/-! ### The outbox -/

theorem takeSlot (slot : outboxHasRoom s = true) : Reserved (n + 1) (takeSlot s) := by
  rw [takeSlot_eq]
  refine ⟨h.parts, congrArg (· + 1) h.count, ?_⟩
  exact of_decide_eq_true slot

theorem reserveSlot (slot : reserveSlot s = some t) : Reserved (n + 1) t := by
  rw [reserveSlot_eq slot]
  exact h.takeSlot (Option.ite_none_right_eq_some.mp slot).1

end Reserved

namespace Reserved

variable {n : Nat} {s : State}

theorem releaseSlot (h : Reserved (n + 1) s) : Reserved n (releaseSlot s) where
  parts := h.parts
  count := by
    have count := h.count
    show s.ret.reservations - 1 = transactions s + n
    omega
  room := by
    have room := h.room
    show s.ret.outbox.length + (s.ret.reservations - 1) ≤ 32
    omega

/-- A notice takes the place of its reservation (R213). -/
theorem fillSlot {x : Notice} (h : Reserved (n + 1) s) : Reserved n (fillSlot x s) where
  parts := h.parts
  count := by
    have count := h.count
    show s.ret.reservations - 1 = transactions s + n
    omega
  room := by
    have count := h.count
    have room := h.room
    show (s.ret.outbox ++ [_]).length + (s.ret.reservations - 1) ≤ 32
    rw [List.length_append, List.length_singleton]
    omega

theorem noticeCollected {c : CompNo} {p : Option Parcel} (h : Reserved (n + 1) s) :
    Reserved n (noticeCollected c p s) := by
  unfold Machine.noticeCollected
  split
  · exact h.fillSlot
  · exact h.releaseSlot

theorem noticeRetrieved {c : CompNo} {courier : Nat} {p : Option Parcel} (h : Reserved (n + 1) s) :
    Reserved n (noticeRetrieved c courier p s) := by
  unfold Machine.noticeRetrieved
  split
  · exact h.fillSlot
  · exact h.releaseSlot

/-- A record that begins a transaction takes up the slot held over for it (R10, R11). -/
theorem beginPart {c : CompNo} {x : Compartment} (h : Reserved (n + 1) s)
    (free : (s.comp c).state.transacting = false) (state : x.state.transacting = true := by rfl)
    (part : x.transient.isSome = true := by rfl) : Reserved n (s.setComp c x) :=
  h.setComp (part.trans state.symm) (by rw [free, state]; rfl)

end Reserved

end Sys2Proof.Machine

/-! The operations on strikes, courier sweeps, doors and polls, the scans and the adoption of EVACUATE keep the reservation
law, however many slots are held over. -/

namespace Sys2Proof.Machine

theorem isSome_of_sameButMark {a b : Option Transient} (h : sameButMark a b = true) : a.isSome = b.isSome := by
  cases a <;> cases b <;> simp_all [sameButMark]

/-- An ending leaves a state without a transient part (R14, R15, R20). -/
theorem Ending.state_transacting (e : Ending) (x : Transient) (p : Option Parcel) :
    (e.state x p).transacting = false := by
  unfold Ending.state restedState
  repeat' split
  all_goals rfl

theorem restedState_transacting (p : Option Parcel) : (restedState p).transacting = false := by
  unfold restedState
  repeat' split
  all_goals rfl

/-- The success of a strike begins a door phase and no other transaction (R13). -/
theorem CompState.opened_transacting (x : CompState) : x.opened.transacting = x.transacting := by cases x <;> rfl

/-- A compartment that stands as listed has no transaction (R146). -/
theorem asListed_rests {s : State} {courier : Nat} {e : PickupEntry} (listed : asListed s courier e = true) :
    (s.comp e.compartment).state.transacting = false := by
  simp only [asListed, Bool.and_eq_true] at listed
  obtain ⟨-, listed⟩ := listed
  split at listed
  case h_3 => cases listed
  all_goals
    simp only [Bool.and_eq_true, decide_eq_true_eq] at listed
    rw [listed.1]; rfl

/-- An entry that is not held up finds a slot in the outbox (R146). -/
theorem outboxHasRoom_of_free {s : State} {e : PickupEntry} (free : issueHeldUp s e = false) : outboxHasRoom s = true := by
  simp only [issueHeldUp, Bool.or_eq_false_iff, Bool.not_eq_false'] at free
  exact free.1.2

namespace Reserved

variable {n : Nat} {s t : State}

theorem foldl {α : Type} {f : State → α → State} (hf : ∀ s a, Reserved n s → Reserved n (f s a)) (l : List α)
    (h : Reserved n s) : Reserved n (l.foldl f s) := by
  induction l generalizing s with
  | nil => exact h
  | cons a l ih => exact ih (hf s a h)

theorem forEach {m : Nat} {f : Fin m → State → State} (h : Reserved n s)
    (hf : ∀ i s, Reserved n s → Reserved n (f i s)) : Reserved n (Machine.forEach f s) := foldl (fun s i => hf i s) _ h

variable (h : Reserved n s)
include h

theorem of_ret (ret : t.ret = s.ret) : Reserved n t := h.same (by rw [State.ledger, ret]; rfl)

/-! ### Strikes -/

theorem strikes (only : OnlyStrikes s t) : Reserved n t := by
  obtain ⟨ret, -, comps⟩ := only
  refine h.congr (fun c => ?_) (fun c => ?_) (by rw [ret]) (by rw [ret])
  · obtain ⟨-, state, -⟩ := comps c; rw [state]
  · obtain ⟨-, -, -, part, -⟩ := comps c; exact isSome_of_sameButMark part

theorem setMark {c : CompNo} {mark : Bool} : Reserved n (setMark c mark s) := h.strikes (onlyStrikes_setMark c mark s)

theorem applyIssue {g : SegNo} : Reserved n (applyIssue g s) := h.strikes (onlyStrikes_applyIssue g s)

theorem queueStrike {c : CompNo} {p : Purpose} : Reserved n (queueStrike c p s) := h.strikes (onlyStrikes_queueStrike c p s)

theorem dropQueued {g : SegNo} {c : CompNo} : Reserved n (dropQueued g c s) := h.setSeg

theorem withdrawStrike {c : CompNo} : Reserved n (withdrawStrike c s) := h.forEach fun _ _ k => k.dropQueued

theorem setActive {g : SegNo} {a : ActiveStrike} : Reserved n (setActive g a s) := h.setSeg

theorem endStrike {g : SegNo} {a : ActiveStrike} : Reserved n (endStrike g a s) := h.strikes (onlyStrikes_endStrike g a s)

/-! ### Courier sweeps -/

/-- A grant takes up the slot that was reserved for it (R11, R146). -/
theorem issuePickup {k : KioskNo} (issued : issuePickup k s = some t) : Reserved n t := by
  simp only [Machine.issuePickup, Option.bind_eq_bind, Option.bind_eq_some_iff] at issued
  obtain ⟨x, -, w, -, e, -, issued⟩ := issued
  split at issued; · cases issued
  next due =>
    have free : issueHeldUp s e = false := by
      simp only [Bool.or_eq_true, not_or, Bool.not_eq_true] at due
      exact due.2
    split at issued
    next listed =>
      cases issued
      refine ((h.takeSlot (outboxHasRoom_of_free free)).setSession.beginPart ?_).setQuote.queueStrike
      rw [comp_setSession, comp_takeSlot]
      exact asListed_rests listed
    next =>
      cases issued
      exact h.setSession

theorem issuePickups {k : KioskNo} {m : Nat} : Reserved n (issuePickups k m s) := by
  induction m generalizing s with
  | zero => exact h
  | succ m ih =>
    unfold Machine.issuePickups
    split
    next issued => exact ih (h.issuePickup issued)
    next => exact h

theorem applyPickup {k : KioskNo} : Reserved n (applyPickup k s) := h.issuePickups

/-! ### Reports to the session -/

theorem reportOutcome {c : CompNo} {k : KioskNo} {serial declaration : Nat} {outcome : DeclOutcome} :
    Reserved n (reportOutcome c k serial declaration outcome s) := by
  unfold Machine.reportOutcome
  split
  · split
    · split
      · exact h.setSession
      · exact h
    · exact h
  · exact h

theorem reportRetrieval {c : CompNo} {k : KioskNo} {serial : Nat} {retrieved : Bool} :
    Reserved n (reportRetrieval c k serial retrieved s) := by
  unfold Machine.reportRetrieval
  split
  · split
    · split
      · exact h.setSession.applyPickup
      · exact h
    · exact h
  · exact h

theorem reportOpening {c : CompNo} {x : Transient} : Reserved n (reportOpening c x s) := by
  unfold Machine.reportOpening
  split
  · split
    · exact h.setSession
    · exact h
  · split
    · split
      · exact h.setSession
      · exact h
    · exact h
  · exact h

/-! ### The ends of transactions -/

theorem noteDoor {x : CompState} {c : CompNo} {y : Transient} {outcome : DoorOutcome} :
    Reserved n (noteDoor x c y outcome s) := by
  unfold Machine.noteDoor
  split
  · exact h
  · exact h.setDoorResult

/-- A transaction ends with its transient part, and gives its slot back (R14, R15, R20). -/
theorem endTransaction {e : Ending} {c : CompNo} : Reserved n (endTransaction e c s) := by
  unfold Machine.endTransaction; dsimp only
  split
  · exact h
  next y part =>
    have released := (h.endPart (x := { s.comp c with
      state := e.state y (s.comp c).parcel, transient := none }) part (e.state_transacting y _)).setQuote
      (c := c) (q := none) |>.releaseSlot
    split
    · exact released.removeEntry.reportOutcome
    · exact released.freeReturn.noteDoor
    · split
      · exact released.setEntryStatus.noteDoor
      · exact released.noteDoor
    · exact released.reportRetrieval

theorem cancelTransaction {c : CompNo} : Reserved n (cancelTransaction c s) := h.endTransaction

theorem dropQuote {c : CompNo} : Reserved n (dropQuote c s) := by
  unfold Machine.dropQuote
  split
  · split
    · exact h.setQuote
    · exact h.setQuote.endTransaction
  · exact h

/-- Close handling ends the transaction and fills or gives back its slot (R16 to R18). -/
theorem closeHandling {c : CompNo} {occupied : Bool} : Reserved n (closeHandling c occupied s) := by
  unfold Machine.closeHandling; dsimp only
  split
  · exact h.setAjar
  next y part =>
    have ended (x : Compartment) (state : x.state.transacting = false) (rest : x.transient = none) :
        Reserved (n + 1) ((s.setAjar c none).setComp c x) := h.setAjar.endPart part state rest
    split
    · exact (ended _ rfl rfl).setEntryStatus.fillSlot.reportOutcome
    · exact (ended _ rfl rfl).removeEntry.releaseSlot.reportOutcome
    · exact (ended _ rfl rfl).changeReturn.fillSlot.noteDoor
    · exact (ended _ rfl rfl).freeReturn.releaseSlot.noteDoor
    · exact (ended _ rfl rfl).noticeCollected.removeEntry.noteDoor
    · exact (ended _ rfl rfl).setEntryStatus.releaseSlot.noteDoor
    · exact (ended _ rfl rfl).noticeRetrieved.reportRetrieval
    · exact (ended _ (restedState_transacting _) rfl).releaseSlot.reportRetrieval

/-! ### Doors and strikes -/

theorem confirmedClose {c : CompNo} {occupied : Bool} : Reserved n (confirmedClose c occupied s) := by
  unfold Machine.confirmedClose
  split
  case h_1 | h_2 | h_3 => exact h.closeHandling
  case h_4 => exact h

theorem occupancyConfirmed {c : CompNo} {occupied : Bool} : Reserved n (occupancyConfirmed c occupied s) := by
  unfold Machine.occupancyConfirmed
  split
  next vacant => exact (h.keepPart (by rw [vacant]; rfl)).postAlarm
  case h_2 | h_3 => exact h.postAlarm
  case h_4 => exact h

/-- A forced door of a compartment that is in no door phase (R20). -/
theorem forceDoor {c : CompNo} (loading : (s.comp c).state ≠ .loading) (unloading : (s.comp c).state ≠ .unloading) :
    Reserved n (forceDoor c s) := by
  unfold Machine.forceDoor; dsimp only
  split
  next held => exact (h.keepPart (by rw [held]; rfl)).setQuote.setEntryStatus.postAlarm
  case h_2 | h_3 | h_4 => exact h.withdrawStrike.endTransaction.postAlarm
  next reserved releasing reconcile =>
    refine (h.keepPart ?_).postAlarm
    cases state : (s.comp c).state <;> simp_all [CompState.transacting]

theorem startWatch {c : CompNo} : Reserved n (startWatch c s) := h.setAjar

/-- A compartment found open in RECONCILE goes on with its transaction (R28). -/
theorem resumeOpen {c : CompNo} {x : CompState} (reconcile : (s.comp c).state = .reconcile)
    (phase : x.transacting = true) : Reserved n (resumeOpen c x s) :=
  (h.keepPart (by rw [reconcile, phase]; rfl) (Option.isSome_map ..)).startWatch

theorem doorOpenUnstruck {c : CompNo} : Reserved n (doorOpenUnstruck c s) := by
  unfold Machine.doorOpenUnstruck; dsimp only
  split
  case h_1 state | h_2 state | h_3 state => exact h.forceDoor (by rw [state]; nofun) (by rw [state]; nofun)
  case h_4 state _ | h_5 state _ =>
    split
    · exact h
    · exact h.forceDoor (by rw [state]; nofun) (by rw [state]; nofun)
  case h_6 state _ =>
    split
    case h_1 | h_2 | h_3 | h_4 => exact h.resumeOpen state rfl
    case h_5 | h_6 => exact h.forceDoor (by rw [state]; nofun) (by rw [state]; nofun)
    case h_7 => exact h
  case h_7 => exact h

theorem enterDoorPhase {c : CompNo} : Reserved n (enterDoorPhase c s) := by
  have opened := h.keepPart (x := { s.comp c with state := (s.comp c).state.opened }) (CompState.opened_transacting _)
  unfold Machine.enterDoorPhase; dsimp only
  split
  · exact opened.reportOpening
  · exact opened

theorem strikeSucceeds {g : SegNo} {a : ActiveStrike} : Reserved n (strikeSucceeds g a s) := by
  unfold Machine.strikeSucceeds; dsimp only
  split
  · exact h.endStrike.enterDoorPhase.closeHandling
  · exact h.endStrike.enterDoorPhase.startWatch

theorem requeue {g : SegNo} {a : ActiveStrike} : Reserved n (requeue g a s) := by
  have cancelled (u : State) (k : Reserved n u) : Reserved n
      (if u.ret.concourse = .evacuate then Machine.cancelTransaction a.compartment (Machine.dropQueued g a.compartment u)
        else u) := by
    split
    · exact k.dropQueued.cancelTransaction
    · exact k
  unfold Machine.requeue; dsimp only
  split
  · exact cancelled _ h.setSeg.setMark.cancelTransaction
  · exact cancelled _ h.setSeg.setMark

theorem attemptFails {g : SegNo} {a : ActiveStrike} : Reserved n (attemptFails g a s) := by
  unfold Machine.attemptFails; dsimp only
  split
  · exact h.endStrike.requeue.applyIssue
  · exact h.endStrike.endTransaction.postAlarm.applyIssue

theorem energiseEnds {g : SegNo} {a : ActiveStrike} : Reserved n (energiseEnds g a s) := by
  unfold Machine.energiseEnds
  split
  · exact h.strikeSucceeds.applyIssue
  · exact h.attemptFails

theorem strikeDone {g : SegNo} {a : ActiveStrike} : Reserved n (strikeDone g a s) := by
  unfold Machine.strikeDone
  split
  · exact h.strikeSucceeds.applyIssue
  · exact h.setActive.applyIssue

theorem doorOpened {c : CompNo} : Reserved n (doorOpened c s) := by
  unfold Machine.doorOpened
  split
  · split
    · exact h.setActive
    · exact h.strikeSucceeds
  · exact h.doorOpenUnstruck

/-! ### Sweeps and polls -/

theorem startSweep {g : SegNo} : Reserved n (startSweep g s) := h.of_ret (startSweep_ret g s)

theorem endSweep {g : SegNo} : Reserved n (endSweep g s) := by
  unfold Machine.endSweep; dsimp only
  split
  · exact h.setSeg.startSweep
  · exact h.setSeg

theorem advanceSweep {g : SegNo} {i : SlotNo} : Reserved n (advanceSweep g i s) := by
  unfold Machine.advanceSweep
  split
  · exact h.setSeg
  · exact h.endSweep

theorem setRates : Reserved n (setRates s) := h.of_ret (setRates_frame s).1

theorem settle : Reserved n (settle s) := h.of_ret (settle_frame s).1

theorem lineClosed {b : BoardNo} {l : LineNo} {x : Reading} : Reserved n (lineClosed b l x s) := by
  unfold Machine.lineClosed; dsimp only
  split
  · exact h.setLine.confirmedClose
  · exact h.setLine

theorem closeOccupancy {b : BoardNo} {l : LineNo} : Reserved n (closeOccupancy b l s) := by
  unfold Machine.closeOccupancy
  split
  · split
    · exact h.occupancyConfirmed
    · exact h
  · exact h

theorem lineOpened {b : BoardNo} {l : LineNo} : Reserved n (lineOpened b l s) := by
  unfold Machine.lineOpened; dsimp only
  split
  · exact h.setLine.doorOpened
  · exact h.setLine

theorem confirmDoor {b : BoardNo} {l : LineNo} : Reserved n (confirmDoor b l s) := by
  unfold Machine.confirmDoor; dsimp only
  split
  · split
    · split
      · exact h.lineOpened
      · exact h.lineClosed
    · exact h
  · exact h

theorem confirmOccupancy {b : BoardNo} {l : LineNo} : Reserved n (confirmOccupancy b l s) := by
  unfold Machine.confirmOccupancy; dsimp only
  split
  · split
    · split
      · exact h.setLine.occupancyConfirmed
      · exact h.setLine
    · exact h
  · exact h

theorem confirmOccupancies {before : Vector Line 12} {b : BoardNo} {l : LineNo} :
    Reserved n (confirmOccupancies before b l s) := by
  unfold Machine.confirmOccupancies
  split
  · exact h.closeOccupancy
  · exact h.confirmOccupancy

theorem confirmFresh {b : BoardNo} {l : LineNo} : Reserved n (confirmFresh b l s) := by
  unfold Machine.confirmFresh; dsimp only
  split
  · exact h.confirmDoor.closeOccupancy
  · exact h.confirmDoor

theorem declareLost {b : BoardNo} : Reserved n (declareLost b s) := foldl (fun _ _ k => k.energiseEnds) _ h.setBoard.postAlarm

/-- The records are replaced one by one, each keeping its transaction, or its having none. -/
theorem mapComps {f : Compartment → Compartment}
    (state : ∀ c, (f (s.comp c)).state.transacting = (s.comp c).state.transacting)
    (part : ∀ c, (f (s.comp c)).transient.isSome = (s.comp c).transient.isSome) :
    Reserved n { s with ret := { s.ret with compartments := s.ret.compartments.map f } } := by
  refine h.congr (fun c => ?_) (fun c => ?_) rfl le_rfl
  · exact (congrArg (fun x : Compartment => x.state.transacting) (look_map ..)).trans (state c)
  · exact (congrArg (fun x : Compartment => x.transient.isSome) (look_map ..)).trans (part c)

theorem serveBoard {b : BoardNo} : Reserved n (serveBoard b s) := by
  refine h.mapComps (fun c => ?_) fun c => ?_
  · split
    · split
      next served => obtain ⟨-, -, unserved⟩ := served; rw [unserved]; rfl
      next => rfl
    · rfl
  · split
    · split <;> rfl
    · rfl

theorem setDeclaring {b : Option BoardNo} : Reserved n { s with declaring := b } := h.same rfl

theorem confirmLines {b : BoardNo} : Reserved n (confirmLines b s) :=
  (h.setDeclaring.forEach fun _ _ k => k.confirmFresh).setDeclaring

theorem declareOnline {b : BoardNo} : Reserved n (declareOnline b s) := h.setBoard.serveBoard.confirmLines.applyIssue

theorem supervise {b : BoardNo} {good : Bool} : Reserved n (supervise b good s) := by
  unfold Machine.supervise; dsimp only
  split
  case h_1 =>
    split
    · exact h.setBoard.declareLost
    · exact h.setBoard
  case h_2 | h_3 =>
    split
    · split
      · exact h.declareOnline
      · exact h.setBoard
    · exact h.setBoard
  case h_4 => exact h

theorem strikeTaken {b : BoardNo} {carried taken : Option LineNo} : Reserved n (strikeTaken b carried taken s) := by
  unfold Machine.strikeTaken
  split
  · split
    · exact h.setBoard
    · exact h
  · exact h

theorem reportStrike {b : BoardNo} {l : LineNo} {fault : Bool} : Reserved n (reportStrike b l fault s) := by
  unfold Machine.reportStrike; dsimp only
  split
  · split
    · exact h.energiseEnds
    · exact h.strikeDone
  · exact h

theorem takeReport {b : BoardNo} {report : Option (LineNo × Bool × Bool)} : Reserved n (takeReport b report s) := by
  unfold Machine.takeReport; dsimp only
  split
  · split
    · split
      · exact h.setBoard.reportStrike
      · exact h.setBoard
    · exact h
  · exact h

theorem takeReply {b : BoardNo} {carried : Option LineNo} {r : BoardReply} : Reserved n (takeReply b carried r s) := by
  have read : Reserved n (if (s.board b).link = .withdrawn then s else takeReadings b r.readings s) := by
    split
    · exact h
    · exact h.setBoard
  unfold Machine.takeReply
  exact ((read.supervise.strikeTaken.forEach fun _ _ k => k.confirmDoor).forEach
    fun _ _ k => k.confirmOccupancies).takeReport

theorem takeOutcome {b : BoardNo} {carried : Option LineNo} {heard : Option (List Byte)} :
    Reserved n (takeOutcome b carried heard s) := by
  unfold Machine.takeOutcome
  split
  · exact h.takeReply
  · exact h.supervise

/-! ### Boundaries, expiries and adoptions -/

theorem expireQuote {c : CompNo} : Reserved n (expireQuote c s) := by
  unfold Machine.expireQuote
  split
  · split
    · exact h.dropQuote
    · exact h
  · exact h

theorem expireHeld {c : CompNo} : Reserved n (expireHeld c s) := by
  unfold Machine.expireHeld
  split
  · split
    · exact h.dropQuote
    · exact h
  · exact h

/-- An abandoned parcel's notice takes the slot that was reserved for it (R24). -/
theorem scanComp {now : Nat} {c : CompNo} : Reserved n (scanComp now c s) := by
  rw [scanComp_eq]
  split
  next due _ =>
    split
    next u slot =>
      have held : (u.comp c).state = .held := by
        rw [reserveSlot_eq slot, comp_takeSlot]
        exact abandonDue_held (by rw [due]; rfl)
      have reserved := (h.expireHeld.reserveSlot slot).removeEntry (c := c)
      refine (reserved.keepPart ?_).fillSlot
      exact (congrArg CompState.transacting held).symm
    next => exact h.expireHeld
  next => exact h.expireHeld

theorem lapseReturns {now : Nat} : Reserved n (lapseReturns now s) := h.same rfl

theorem takeBoundary {now : Nat} : Reserved n (takeBoundary now s) := (h.forEach fun _ _ k => k.scanComp).lapseReturns

theorem setClock {now : Option Nat} : Reserved n { s with clock := now } := h.same rfl

theorem stepClock {v now : Nat} : Reserved n (stepClock v now s) := by
  have expired := h.setClock (now := some now) |>.forEach (f := Machine.expireQuote) fun _ _ k => k.expireQuote
  unfold Machine.stepClock; dsimp only
  split
  · split
    · exact expired.takeBoundary
    · exact expired
  · exact h.setClock

theorem applyTime {now : Nat} : Reserved n (applyTime now s) := by
  unfold Machine.applyTime
  split
  · exact h.setClock.mapComps (fun _ => rfl) fun _ => rfl
  · split
    · exact h
    · exact h.stepClock

theorem cancelQueue {g : SegNo} {m : Nat} : Reserved n (cancelQueue g m s) := by
  induction m generalizing s with
  | zero => exact h
  | succ m ih =>
    unfold Machine.cancelQueue
    split
    · exact ih h.dropQueued.cancelTransaction
    · exact h

theorem setKiosks {kiosks : Vector Kiosk 4} : Reserved n { s with kiosks } := h.same rfl

theorem evacuate : Reserved n (evacuate s) :=
  (h.setKiosks.forEach fun _ _ k => k.cancelQueue).forEach fun _ _ k => k.dropQuote

theorem setConcourse {x : Concourse} : Reserved n { s with ret := { s.ret with concourse := x } } := h.same rfl

theorem adopt {x : Concourse} : Reserved n (adopt x s) := by
  unfold Machine.adopt; dsimp only
  split
  · exact h.setConcourse.evacuate.forEach fun _ _ k => k.applyIssue
  · exact h.setConcourse.forEach fun _ _ k => k.applyIssue

theorem setHistory {history : List Nat} : Reserved n { s with history } := h.same rfl

theorem applyCode {code : Nat} : Reserved n (applyCode code s) := by
  unfold Machine.applyCode; dsimp only
  split
  · split
    · exact h.setHistory
    · exact h.setHistory.adopt
  · exact h.setHistory

end Reserved

end Sys2Proof.Machine

/-! Every command keeps the reservation law, and so does every step (R212). -/

namespace Sys2Proof.Machine

/-! ### Events and requests -/

/-- A command's meaning keeps the reservation law. -/
def ReservationsKept (run : State → Result) : Prop := ∀ s t, Reserved 0 s → run s = .next t → Reserved 0 t

theorem event_reservationsKept {effect : State → Option State} (h : ∀ s, Reserved 0 s → ∀ t ∈ effect s, Reserved 0 t) :
    ReservationsKept fun s => event s effect := by
  intro s t law run
  obtain ⟨-, u, some, rfl⟩ | rfl := event_cases run
  · exact (h s law u some).settle
  · exact law

/-- An effect that has a condition keeps the law where it does so under the condition. -/
theorem reserved_of_due {p : Prop} [Decidable p] {n : Nat} {t u : State} (h : t ∈ if p then some u else none)
    (kept : Reserved n u) : Reserved n t := by
  obtain ⟨-, h⟩ := Option.ite_none_right_eq_some.mp h
  rwa [← Option.some.inj h]

/-- A request keeps the law where its owner does: the trunk takes the frame and sends the reply beside the records. -/
theorem request_reservationsKept {kind : Byte} {r : Request} {own : State → Answer}
    (h : ∀ s, Reserved 0 s → Reserved 0 (own s).state) : ReservationsKept fun s => request kind r s own := by
  refine event_reservationsKept fun s law t some => ?_
  obtain ⟨u, frame, rfl⟩ := Option.map_eq_some_iff.mp some
  obtain ⟨-, -, -, rfl⟩ := takeFrame_some frame
  have started : Reserved 0 (touchIdle r { s with receive := s.receive.tail }) := law.same (by rw [touchIdle_eq]; rfl)
  refine (h _ started).same ?_
  unfold sendReply
  split <;> rfl

section checks

variable {α : Type} {r : Request} {parsed : Option α} {s : State} (law : Reserved 0 s)
include law

theorem courierRequest_reserved {own : KioskNo → α → State → Answer}
    (h : ∀ k x t, Reserved 0 t → Reserved 0 (own k x t).state) : Reserved 0 (courierRequest r parsed s own).state :=
  fromKiosk_holds law fun k => withBody_holds law.touchSession fun x => h k x _ law.touchSession

theorem backendRequest_reserved {own : α → Answer} (h : ∀ x, Reserved 0 (own x).state) :
    Reserved 0 (fromBackend r s (withBody parsed s own)).state := fromBackend_holds law (withBody_holds law h)

theorem admitted_reserved {own : State → Answer} (h : ∀ t, Reserved 0 t → Reserved 0 (own t).state) :
    Reserved 0 (admitted s own).state := by
  unfold admitted
  split
  case h_1 => exact h s law
  case h_2 => exact h _ (law.same (t := extendUnlock s) rfl)
  case h_3 | h_4 => exact law
  case h_5 | h_6 | h_7 => exact law.same rfl

theorem maintenance_reserved {own : α → State → Answer} (h : ∀ x t, Reserved 0 t → Reserved 0 (own x t).state) :
    Reserved 0 (maintenance r parsed s own).state := by
  unfold maintenance
  split
  · exact withBody_holds law fun x => admitted_reserved law (h x)
  · exact law

theorem staffRequest_reserved {own : α → State → Answer} (h : ∀ x t, Reserved 0 t → Reserved 0 (own x t).state) :
    Reserved 0 (staffRequest r parsed s own).state := by
  unfold staffRequest
  split
  · exact withBody_holds law fun x => h x s law
  · exact withBody_holds law fun x => admitted_reserved law (h x)
  · exact law

end checks

/-! ### Customers -/

/-- An allocated compartment has no transaction (R8). -/
theorem allocate_rests {s u : State} {cls : SizeClass} {upsize deposit : Bool} {c : CompNo}
    (found : allocate s cls upsize deposit = some (u, c)) : (u.comp c).state.transacting = false := by
  obtain ⟨k, -, search, -, rfl⟩ := allocate_some found
  obtain ⟨⟨free, -⟩, -⟩ := (searchClass_spec s k).1 c search
  have vacant : (s.comp c).state = .vacant := by
    unfold allocatable at free
    split at free
    · simp only [Bool.and_eq_true, decide_eq_true_eq] at free
      exact free.1.1.1
    · cases free
  exact congrArg CompState.transacting vacant

namespace Reserved

variable {n : Nat} {s t : State}

theorem allocate {cls : SizeClass} {upsize deposit : Bool} {c : CompNo} (h : Reserved n s)
    (found : allocate s cls upsize deposit = some (t, c)) : Reserved n t := by
  rw [allocate_frame found]; exact h.same rfl

theorem issueQuote {c : CompNo} {k : KioskNo} {amount now : Nat} {p : QuotePurpose} (h : Reserved n s) :
    Reserved n (issueQuote c k amount now p s).1 := h.same rfl

/-- A collection takes up the slot that was reserved for it (R11, R118). -/
theorem grantCollection {c : CompNo} {k : KioskNo} (h : Reserved (n + 1) s) (held : (s.comp c).state = .held) :
    Reserved n (grantCollection c k s) :=
  (h.beginPart (by rw [held]; rfl)).setQuote.setEntryStatus.setDoorResult.queueStrike

theorem chargeCollect {k : KioskNo} {now : Nat} {c : CompNo} (h : Reserved n s) :
    Reserved n (chargeCollect k now c s).state := by
  unfold Machine.chargeCollect; dsimp only
  split
  next held _ =>
    split; · exact h.issueQuote
    split; · exact h
    split; · exact h
    next slot => exact (h.reserveSlot slot).grantCollection (by rw [reserveSlot_eq slot, comp_takeSlot, held])
  next => exact h

theorem ownCollect {k : KioskNo} {code now : Nat} (h : Reserved n s) : Reserved n (ownCollect k code now s).state := by
  unfold Machine.ownCollect; dsimp only
  split; · exact h.countFailure
  split; · exact h
  split
  · split; · exact h.countSuccess.dropQuote.chargeCollect
    split
    · exact h.countSuccess.chargeCollect
    · exact h.countSuccess
  · exact h.countSuccess.chargeCollect

theorem acceptCollectionPay {k : KioskNo} {p : PayFields} {c : CompNo} (h : Reserved (n + 1) s)
    (held : (s.comp c).state = .held) : Reserved n (acceptCollectionPay k p c s).state := by
  have taken : Reserved (n + 1) (addTakings k (·.addCollection p.amount) s) := h.same rfl
  have paid := taken.keepPart (c := c) (x := { s.comp c with parcel := (s.comp c).parcel.map (addPaid p.amount) }) rfl
  exact paid.setLastPayment.grantCollection ((congrArg Compartment.state (State.comp_setComp_same ..)).trans held)

theorem acceptPostagePay {k : KioskNo} {p : PayFields} {c : CompNo} (h : Reserved n s) :
    Reserved n (acceptPostagePay k p c s).state := by
  have taken : Reserved n (addTakings k (·.addPostage p.amount) s) := h.same rfl
  have paid := taken.keepPart (c := c) (x := { s.comp c with
    transient := (s.comp c).transient.map fun t => { t with particulars := t.particulars.withPostage p.amount } })
    rfl Option.isSome_map
  exact paid.setLastPayment.setQuote.queueStrike

theorem payQuote {k : KioskNo} {p : PayFields} {c : CompNo} {q : Quote} (h : Reserved n s) :
    Reserved n (payQuote k p c q s).state := by
  unfold Machine.payQuote
  split; · exact h
  split; · exact h.dropQuote
  split; · exact h
  split; · exact h
  split; · exact h.acceptPostagePay
  split; · exact h
  next held =>
    split
    next slot =>
      exact (h.reserveSlot slot).acceptCollectionPay (by rw [reserveSlot_eq slot, comp_takeSlot, not_not.mp held])
    next => exact h

theorem ownPay {k : KioskNo} {p : PayFields} (h : Reserved n s) : Reserved n (ownPay k p s).state := by
  have unquoted : Reserved n (payWithoutQuote k p s).state := by rwa [payWithoutQuote_state]
  unfold Machine.ownPay
  split
  · split
    · split
      · exact h.payQuote
      · exact unquoted
    · exact unquoted
  · exact unquoted

/-- A drop takes up the slot that was reserved for it (R139, R140). -/
theorem admitDrop {k : KioskNo} {now : Nat} {e : ReturnEntry} {c : CompNo} (h : Reserved (n + 1) s)
    (free : (s.comp c).state.transacting = false) : Reserved n (admitDrop k now e c s).state := by
  have admitted := (h.changeReturn (m := e.reference)
    (change := fun e => some { e with inUse := true })).beginPart (x := { s.comp c with
    state := .reserved
    transient := some { particulars := .drop e.courier e.reference (e.paidMark.getD 0), kiosk := k,
                        strikeIssued := false, prior := none } }) free
  unfold Machine.admitDrop; dsimp only
  split
  · exact admitted.setDoorResult.queueStrike
  · exact admitted.setDoorResult.issueQuote

theorem ownReturnDrop {k : KioskNo} {reference now : Nat} (h : Reserved n s) :
    Reserved n (ownReturnDrop k reference now s).state := by
  unfold Machine.ownReturnDrop; dsimp only
  split; · exact h.countFailure
  split; · exact h.countSuccess
  split; · exact h.countSuccess
  split; · exact h.countSuccess
  next slot =>
    have reserved := h.countSuccess.reserveSlot slot
    split; · exact reserved.releaseSlot
    next found =>
      split
      · exact (reserved.allocate found).admitDrop (allocate_rests found)
      · exact (reserved.allocate found).releaseSlot

/-! ### Couriers -/

theorem ownSignOn {k : KioskNo} {id : Nat} {credential : BitVec 32} (h : Reserved n s) :
    Reserved n (ownSignOn k id credential s).state := by
  unfold Machine.ownSignOn
  split; · exact h
  split
  · split
    · split
      · exact h
      · exact h.same rfl
    · exact h.countFailure
  · exact h.countFailure

theorem generation {code : Option Nat} (h : Reserved n s) (run : generation s = (t, code)) : Reserved n t := by
  obtain ⟨rfl, -⟩ := Prod.mk.inj run
  exact h.same rfl

theorem acceptDeclare {k : KioskNo} {x : Session} {f : DeclareFields} {c : CompNo} {code : Nat} (h : Reserved n s) :
    Reserved n (acceptDeclare k x f c code s).state := h.addEntry.setSession.queueStrike

/-- A declaration takes up the slot that was reserved for it, or gives it back (R10, R103). -/
theorem placeDeclare {k : KioskNo} {x : Session} {f : DeclareFields} {cls : SizeClass} (h : Reserved n s) :
    Reserved n (placeDeclare k x f cls s).state := by
  unfold Machine.placeDeclare
  split; · exact h
  next slot =>
    have reserved := h.reserveSlot slot
    split; · exact reserved.releaseSlot
    next u c found =>
      split; · exact (reserved.allocate found).releaseSlot
      have placed : Reserved n (reserveDeposit k x f c u) := (reserved.allocate found).beginPart (allocate_rests found)
      split
      next run => exact (placed.generation run).acceptDeclare
      next v run =>
        have part : (v.comp c).transient = ((reserveDeposit k x f c u).comp c).transient := by
          obtain ⟨rfl, -⟩ := Prod.mk.inj run; rfl
        rw [reserveDeposit, State.comp_setComp_same] at part
        exact ((placed.generation run).endPart part rfl).releaseSlot

theorem rangeDeclare {k : KioskNo} {x : Session} {e : Courier} {f : DeclareFields} (h : Reserved n s) :
    Reserved n (rangeDeclare k x e f s).state := by
  refine withClock_holds h fun _ => ?_
  split; · exact h
  split; · exact h
  split; · exact h
  split; · exact h
  split; · exact h
  exact h.placeDeclare

theorem startCourierSweep {k : KioskNo} {x : Session} {returns recover : Bool} (h : Reserved n s) :
    Reserved n (startCourierSweep k x returns recover s).state := by
  unfold Machine.startCourierSweep; dsimp only
  split; · exact h
  split; · exact h
  exact h.setSession.applyPickup

end Reserved

theorem execCollect_reservationsKept (r : Request) : ReservationsKept (execCollect r) :=
  request_reservationsKept fun _ law => customer_holds law fun _ _ _ => withClock_holds law fun _ => law.ownCollect

theorem execPay_reservationsKept (r : Request) : ReservationsKept (execPay r) :=
  request_reservationsKept fun _ law => by
    rw [echoPay_state]
    exact customer_holds law fun _ _ _ => law.ownPay

theorem execReturnDrop_reservationsKept (r : Request) : ReservationsKept (execReturnDrop r) :=
  request_reservationsKept fun _ law => customer_holds law fun _ _ _ => withClock_holds law fun _ => law.ownReturnDrop

theorem execDoorStatus_reservationsKept (r : Request) : ReservationsKept (execDoorStatus r) :=
  request_reservationsKept fun _ law => customer_holds law fun _ _ _ => by split <;> exact law

theorem execSignOn_reservationsKept (r : Request) : ReservationsKept (execSignOn r) :=
  request_reservationsKept fun _ law => courierRequest_reserved law fun _ _ _ law =>
    courierConcourse_holds law (notLockedOut_holds law fun _ => law.ownSignOn)

theorem execSignOff_reservationsKept (r : Request) : ReservationsKept (execSignOff r) :=
  request_reservationsKept fun _ law => courierRequest_reserved law fun _ _ _ law =>
    withSession_holds law fun _ => law.setSession

theorem execDeclare_reservationsKept (r : Request) : ReservationsKept (execDeclare r) :=
  request_reservationsKept fun _ law => courierRequest_reserved law fun _ _ _ law =>
    withSession_holds law fun _ => by
      split
      · split
        · exact courierConcourse_holds law law.rangeDeclare
        · exact law
      · exact law

theorem execSessionStatus_reservationsKept (r : Request) : ReservationsKept (execSessionStatus r) :=
  request_reservationsKept fun _ law => courierRequest_reserved law fun _ _ _ law => withSession_holds law fun _ => law

theorem execSweep_reservationsKept (r : Request) : ReservationsKept (execSweep r) :=
  request_reservationsKept fun _ law => courierRequest_reserved law fun _ _ _ law =>
    withSession_holds law fun _ => by
      split; · exact law
      split
      · split
        · exact law
        · exact courierConcourse_holds law law.startCourierSweep
      · exact law

theorem execSweepEnd_reservationsKept (r : Request) : ReservationsKept (execSweepEnd r) :=
  request_reservationsKept fun _ law => courierRequest_reserved law fun _ _ _ law =>
    withSession_holds law fun _ => by
      split
      · exact law
      · exact law.setSession

/-! ### The backend and the staff -/

/-- A notice fetched leaves the outbox (R214). -/
theorem execFetchNotice_reservationsKept (r : Request) : ReservationsKept (execFetchNotice r) :=
  request_reservationsKept fun _ law => backendRequest_reserved law fun _ => by
    split
    next waiting => exact law.congr (fun _ => rfl) (fun _ => rfl) rfl (by rw [waiting]; exact Nat.le_succ _)
    next => exact law

theorem state_of_heldDelivery {x : Compartment} {d : Delivery} (h : heldDelivery x = some d) : x.state = .held := by
  unfold heldDelivery at h
  split at h
  · assumption
  · cases h

theorem execRevoke_reservationsKept (r : Request) : ReservationsKept (execRevoke r) :=
  request_reservationsKept fun _ law => backendRequest_reserved law fun _ => by
    split; · exact law
    split
    next held =>
      exact (law.removeEntry.keepPart (congrArg CompState.transacting (state_of_heldDelivery held)).symm).setQuote
    next => split <;> exact law

theorem execReissue_reservationsKept (r : Request) : ReservationsKept (execReissue r) :=
  request_reservationsKept fun _ law => backendRequest_reserved law fun _ => by
    split; · exact law
    split; · exact law
    split; · exact law
    split
    next run => exact law.generation run
    next run => exact (law.generation run).removeEntry.addEntry.keepPart rfl

theorem execLoadCourier_reservationsKept (r : Request) : ReservationsKept (execLoadCourier r) :=
  request_reservationsKept fun _ law => backendRequest_reserved law fun _ => by
    split; · exact law
    dsimp only
    split
    · exact law
    · exact law.same rfl

theorem execRemoveCourier_reservationsKept (r : Request) : ReservationsKept (execRemoveCourier r) :=
  request_reservationsKept fun _ law => backendRequest_reserved law fun _ => by
    split; · exact law
    split
    · exact law
    · exact law.same rfl

theorem execLoadReturn_reservationsKept (r : Request) : ReservationsKept (execLoadReturn r) :=
  request_reservationsKept fun _ law => backendRequest_reserved law fun _ => by
    split; · exact law
    split; · exact law
    split; · exact law
    split
    · exact law
    · exact law.same rfl

theorem execRemoveReturn_reservationsKept (r : Request) : ReservationsKept (execRemoveReturn r) :=
  request_reservationsKept fun _ law => backendRequest_reserved law fun _ => by
    split; · exact law
    split; · exact law
    split
    · exact law
    · exact law.changeReturn

theorem execSettle_reservationsKept (r : Request) : ReservationsKept (execSettle r) :=
  request_reservationsKept fun _ law => backendRequest_reserved law fun _ => by
    split
    · split
      · exact law
      · exact law.same rfl
    · exact law.same rfl

theorem execQueryCompartment_reservationsKept (r : Request) : ReservationsKept (execQueryCompartment r) :=
  request_reservationsKept fun _ law => staffRequest_reserved law fun _ _ law => by split <;> exact law

/-- The CLEARED notice takes the slot that was reserved for it (R26). -/
theorem Reserved.clearEmpty {c : CompNo} {s : State} (law : Reserved 0 s)
    (rests : (s.comp c).state.transacting = false) : Reserved 0 (clearEmpty c s).state := by
  unfold Machine.clearEmpty; dsimp only
  split
  · split
    · split
      · exact law
      next slot =>
        refine ((law.reserveSlot slot).keepPart ?_ ?_).fillSlot.removeEntry
        all_goals rw [reserveSlot_eq slot, comp_takeSlot]
        exact rests.symm
    · exact law.keepPart rests.symm
  · exact law.keepPart rests.symm

theorem Reserved.clearOccupied {c : CompNo} {s : State} (law : Reserved 0 s)
    (rests : (s.comp c).state.transacting = false) : Reserved 0 (clearOccupied c s).state := by
  have restored (p : Option Parcel) : Reserved 0 (s.setComp c { s.comp c with state := restedState p }) :=
    law.keepPart ((restedState_transacting p).trans rests.symm)
  unfold Machine.clearOccupied; dsimp only
  split; · exact law
  dsimp only
  split
  · split
    · exact (restored _).setEntryStatus
    · exact restored _
  · exact restored _

theorem execClear_reservationsKept (r : Request) : ReservationsKept (execClear r) :=
  request_reservationsKept fun _ law => staffRequest_reserved law fun _ t law => by
    split; · exact law
    next c _ =>
      split; · exact law
      next damaged =>
        have rests : (t.comp c).state.transacting = false := by
          cases state : (t.comp c).state <;> simp_all [CompState.transacting]
        split
        · exact law.clearEmpty rests
        · exact law.clearOccupied rests
        · exact law

theorem execFetchAlarm_reservationsKept (r : Request) : ReservationsKept (execFetchAlarm r) :=
  request_reservationsKept fun _ law => staffRequest_reserved law fun _ _ law => by
    split
    · exact law
    · exact law.same rfl

theorem execBroadcast_reservationsKept (r : Request) : ReservationsKept (execBroadcast r) :=
  request_reservationsKept fun _ law => by
    split
    · exact withBody_holds law fun _ => law.applyTime.applyCode
    · exact law

/-! ### The service terminal -/

theorem execUnlockKey_reservationsKept (r : Request) : ReservationsKept (execUnlockKey r) :=
  request_reservationsKept fun s law => by
    split
    · refine withBody_holds law fun ⟨index, word⟩ => ?_
      dsimp only
      unfold unlockWith
      split
      · split
        · unfold collectWord; split <;> exact law.same rfl
        · exact law.same rfl
      · split; · exact law
        split <;> exact law.same rfl
    · exact law

theorem execEndService_reservationsKept (r : Request) : ReservationsKept (execEndService r) :=
  request_reservationsKept fun s law => by
    split
    · refine withBody_holds law fun _ => ?_
      unfold endService
      split
      case h_1 | h_2 => exact law
      all_goals exact law.same rfl
    · exact law

theorem Compartment.idle_rests {x : Compartment} (idle : x.idle = true) : x.state.transacting = false := by
  obtain state | state := x.idle_iff.mp idle <;> rw [state] <;> rfl

/-- Neither the old state of a compartment whose map entry is loaded has a transaction, nor the new one (R3, R4). -/
theorem Reserved.storeMap {c : CompNo} {m : Option MapEntry} {s : State} (law : Reserved 0 s)
    (idle : (s.comp c).idle = true) : Reserved 0 (storeMap c m s).state := by
  refine law.keepPart ?_
  rw [Compartment.idle_rests idle]
  unfold mappedState
  repeat' split
  all_goals rfl

theorem execLoadMap_reservationsKept (r : Request) : ReservationsKept (execLoadMap r) :=
  request_reservationsKept fun _ law => maintenance_reserved law fun ⟨_, _⟩ t law => by
    dsimp only
    split
    · exact law
    · split
      next idle => exact law.storeMap idle
      next => exact law
    · split; · exact law
      split; · exact law
      next idle =>
        split
        · exact law
        · exact law.storeMap (by simpa using idle)

theorem execLoadTariff_reservationsKept (r : Request) : ReservationsKept (execLoadTariff r) :=
  request_reservationsKept fun _ law => maintenance_reserved law fun ⟨_, _⟩ t law => by
    dsimp only
    split; · exact law
    split
    · exact law
    · exact law.same rfl

namespace Reserved

variable {s : State} (law : Reserved 0 s)
include law

theorem unnameBoard {b : BoardNo} : Reserved 0 (unnameBoard b s) := by
  unfold Machine.unnameBoard
  split
  · exact law.declareLost
  · exact law.setBoard
  · exact law.setBoard
  · exact law

theorem nameBoard {b : BoardNo} : Reserved 0 (nameBoard b s) := by
  unfold Machine.nameBoard
  split
  · exact law.setBoard
  · exact law.setBoard
  · exact law
  · exact law

theorem storeSlot {g : SegNo} {i : SlotNo} {content : Option SlotContent} : Reserved 0 (storeSlot g i content s) := by
  have stored : Reserved 0 { s with ret := { s.ret with
      slots := put s.ret.slots g (put (look s.ret.slots g) i content) } } := law.same rfl
  unfold Machine.storeSlot; dsimp only
  generalize ({ s with ret := { s.ret with
      slots := put s.ret.slots g (put (look s.ret.slots g) i content) } } : State) = u at stored
  have left (former : Option SlotContent) : Reserved 0 (match former with
      | some x => if slotted u g x.board then u else Machine.unnameBoard x.board u
      | none => u) := by
    cases former with
    | none => exact stored
    | some x =>
      dsimp only
      split
      · exact stored
      · exact stored.unnameBoard
  cases content with
  | none => exact left _
  | some x =>
    dsimp only
    split
    · exact left _
    · exact (left _).nameBoard

end Reserved

theorem execLoadSlot_reservationsKept (r : Request) : ReservationsKept (execLoadSlot r) :=
  request_reservationsKept fun _ law => maintenance_reserved law fun ⟨_, _, _⟩ t law => by
    dsimp only
    split
    · exact law.storeSlot (content := none)
    · split; · exact law
      split; · exact law
      split; · exact law
      exact law.storeSlot (content := some _)
    · exact law

theorem execSetBudget_reservationsKept (r : Request) : ReservationsKept (execSetBudget r) :=
  request_reservationsKept fun _ law => maintenance_reserved law fun ⟨_, v⟩ t law => by
    dsimp only
    split
    · exact law
    next g _ =>
      have stored : Reserved 0 { t with ret := { t.ret with budgets := put t.ret.budgets g (clamp 1 3 v) } } := law.same rfl
      exact stored.applyIssue

theorem execSetHold_reservationsKept (r : Request) : ReservationsKept (execSetHold r) :=
  request_reservationsKept fun _ law => maintenance_reserved law fun _ _ law => law.same rfl

theorem execSetEnables_reservationsKept (r : Request) : ReservationsKept (execSetEnables r) :=
  request_reservationsKept fun _ law => maintenance_reserved law fun _ _ law => law.same rfl

theorem execSeedGenerator_reservationsKept (r : Request) : ReservationsKept (execSeedGenerator r) :=
  request_reservationsKept fun _ law => maintenance_reserved law fun _ _ law => law.same rfl

theorem execSetKeys_reservationsKept (r : Request) : ReservationsKept (execSetKeys r) :=
  request_reservationsKept fun _ law => maintenance_reserved law fun _ _ law => by
    split
    · exact law
    · refine law.same ?_
      unfold storeKeys; dsimp only
      split <;> rfl

/-- Every compartment of a board that is withdrawn is idle before and UNSERVED after (R23). -/
theorem Reserved.withdrawBoard {b : BoardNo} {s : State} (law : Reserved 0 s) (idle : boardIdle s b = true) :
    Reserved 0 (withdrawBoard b s) := by
  have flagged : Reserved 0 { s with ret := { s.ret with withdrawn := put s.ret.withdrawn b true } } := law.same rfl
  refine (flagged.mapComps (f := fun x => if x.mappedTo b then { x with state := .unserved } else x)
    (fun c => ?_) fun c => ?_).setBoard
  · split
    next mapped =>
      have rests : (s.comp c).state.transacting = false := by
        obtain ⟨m, map, board⟩ := Option.map_eq_some_iff.mp (of_decide_eq_true mapped)
        by_contra busy
        refine boardIdle_iff.mp idle ⟨c, m, map, board, fun state => busy ?_, fun state => busy ?_⟩ <;> rw [state] <;> rfl
      exact rests.symm
    next => rfl
  · split <;> rfl

theorem execWithdraw_reservationsKept (r : Request) : ReservationsKept (execWithdraw r) :=
  request_reservationsKept fun _ law => maintenance_reserved law fun _ t law => by
    split; · exact law
    split; · exact law
    split
    · exact law
    next idle => exact law.withdrawBoard (by simpa using idle)

theorem execReinstate_reservationsKept (r : Request) : ReservationsKept (execReinstate r) :=
  request_reservationsKept fun _ law => maintenance_reserved law fun _ _ law => by
    split; · exact law
    split
    · exact law
    · exact law.same rfl

theorem execRestart_reservationsKept (r : Request) : ReservationsKept (execRestart r) :=
  request_reservationsKept fun _ law => maintenance_reserved law fun _ _ law => law.same rfl

theorem execBlank_reservationsKept (r : Request) : ReservationsKept (execBlank r) :=
  request_reservationsKept fun _ law => maintenance_reserved law fun _ _ law => by
    split
    · exact law.same rfl
    · exact law

/-! ### The trunk -/

theorem execFrameReceive_reservationsKept (bytes : List Byte) : ReservationsKept (execFrameReceive bytes) :=
  event_reservationsKept fun s law t ht => by
    split at ht
    · exact reserved_of_due ht (law.same rfl)
    · cases ht

theorem execReplyTransmitted_reservationsKept : ReservationsKept execReplyTransmitted :=
  event_reservationsKept fun s law t ht => by
    split at ht
    · cases ht; exact law.same rfl
    · cases ht

theorem execUnknownKind_reservationsKept (kind : Byte) (r : Request) : ReservationsKept (execUnknownKind kind r) := by
  intro s t law run
  unfold execUnknownKind at run
  split at run
  · exact request_reservationsKept (fun _ law => law) s t law run
  · cases run; exact law

/-! ### Resets and power -/

/-- A start keeps the law that its retained state keeps. -/
theorem reserved_coldStart {r : Retained} {s : State} {straps : BankId} {alarms : List Alarm} {u : State}
    (law : Reserved 0 u) (ret : u.ret = r) : Reserved 0 (coldStart r straps alarms s) := by
  unfold coldStart
  exact Reserved.forEach (law.of_ret ret.symm) fun _ _ k => k.startSweep

theorem reconciled_transacting (x : Compartment) :
    (reconciled x).state.transacting = x.state.transacting := by
  unfold reconciled
  cases state : x.state <;> simp [priorOf?, state, CompState.transacting]

theorem reconciled_part (x : Compartment) : (reconciled x).transient.isSome = x.transient.isSome := by
  unfold reconciled
  split
  · exact Option.isSome_map ..
  · rfl

/-- A restart turns each transaction into one in RECONCILE (R27). -/
theorem Reserved.restartPart {s : State} (law : Reserved 0 s) (straps : BankId) : Reserved 0 (restartPart straps s) :=
  reserved_coldStart (law.mapComps (fun _ => reconciled_transacting _) fun _ => reconciled_part _) rfl

theorem reserved_blankPart (straps : BankId) (s : State) : Reserved 0 (blankPart straps s) :=
  reserved_coldStart ((reserved_iff State.reset).mpr reservationsAgree_reset) rfl

theorem execReset_reservationsKept (cause : ResetCause) (straps : BankId) : ReservationsKept (execReset cause straps) := by
  intro s t law run
  cases run
  split
  · unfold resetPart
    split
    · exact law.restartPart straps
    · exact reserved_blankPart straps s
  · exact law

theorem execBlankStart_reservationsKept (straps : BankId) : ReservationsKept (execBlankStart straps) := by
  intro s t law run
  cases run
  split
  · exact reserved_blankPart straps s
  · exact law

theorem execLossOfMainPower_reservationsKept (interrupted : Bool) : ReservationsKept (execLossOfMainPower interrupted) := by
  intro s t law run
  cases run
  split
  · exact law
  · split <;> exact law.same rfl

/-! ### The clock and the deadlines -/

theorem execClockTick_reservationsKept : ReservationsKept execClockTick :=
  event_reservationsKept fun s law t ht => by
    dsimp only at ht
    split at ht
    · split at ht <;> (cases ht; exact law.same rfl)
    · cases ht; exact law.same rfl

theorem Reserved.setBoundariesDue {s : State} {m : Nat} (law : Reserved 0 s) :
    Reserved 0 { s with boundariesDue := m } := law.same rfl

theorem execMinuteBoundary_reservationsKept : ReservationsKept execMinuteBoundary :=
  event_reservationsKept fun s law t ht => by
    split at ht
    · exact reserved_of_due ht law.takeBoundary.setBoundariesDue
    · cases ht

theorem execQuoteExpiry_reservationsKept (c : CompNo) : ReservationsKept (execQuoteExpiry c) :=
  event_reservationsKept fun s law t ht => by
    split at ht
    · exact reserved_of_due ht law.dropQuote
    · cases ht

theorem execLockoutDeadline_reservationsKept (k : KioskNo) : ReservationsKept (execLockoutDeadline k) :=
  event_reservationsKept fun s law t ht => by
    split at ht
    · exact reserved_of_due ht law.setKiosk
    · cases ht

theorem execInactivityDeadline_reservationsKept (k : KioskNo) : ReservationsKept (execInactivityDeadline k) :=
  event_reservationsKept fun s law t ht => by
    split at ht
    · exact reserved_of_due ht law.setSession
    · cases ht

theorem execEnergiseDeadline_reservationsKept (c : CompNo) : ReservationsKept (execEnergiseDeadline c) :=
  event_reservationsKept fun s law t ht => by
    split at ht
    · split at ht
      · exact reserved_of_due ht law.energiseEnds
      · cases ht
    · cases ht

theorem execConfirmDeadline_reservationsKept (c : CompNo) : ReservationsKept (execConfirmDeadline c) :=
  event_reservationsKept fun s law t ht => by
    split at ht
    · split at ht
      · exact reserved_of_due ht law.attemptFails
      · cases ht
    · cases ht

theorem execStrikeAgeing_reservationsKept (c : CompNo) : ReservationsKept (execStrikeAgeing c) :=
  event_reservationsKept fun s law t ht => by
    split at ht
    · exact reserved_of_due ht law.dropQueued.cancelTransaction.applyIssue
    · cases ht

theorem execAjarDeadline_reservationsKept (c : CompNo) : ReservationsKept (execAjarDeadline c) :=
  event_reservationsKept fun s law t ht => by
    split at ht
    · exact reserved_of_due ht law.setAjar.postAlarm
    · cases ht
    · cases ht

theorem execKioskIdleDeadline_reservationsKept : ReservationsKept execKioskIdleDeadline :=
  event_reservationsKept fun s law t ht => by
    split at ht
    · exact reserved_of_due ht (law.same rfl)
    · cases ht

theorem execUnlockDeadline_reservationsKept : ReservationsKept execUnlockDeadline :=
  event_reservationsKept fun s law t ht => by
    split at ht
    · exact reserved_of_due ht (law.same rfl)
    · cases ht

/-! ### Sweeps and polls -/

theorem execQuietSweepStart_reservationsKept (g : SegNo) : ReservationsKept (execQuietSweepStart g) :=
  event_reservationsKept fun _ law _ ht => reserved_of_due ht law.startSweep

theorem execPollOutcome_reservationsKept (g : SegNo) (heard : Option (List Byte)) :
    ReservationsKept (execPollOutcome g heard) :=
  event_reservationsKept fun s law t ht => by
    split at ht
    · cases ht; exact law.takeOutcome.setRates.advanceSweep
    · cases ht
    · cases ht

theorem execSweepIssue_reservationsKept (k : KioskNo) : ReservationsKept (execSweepIssue k) :=
  event_reservationsKept fun s law t ht => by
    obtain ⟨-, -, rfl⟩ := Option.map_eq_some_iff.mp ht
    exact law.applyPickup

theorem execSweepThatPollsNoSlotEnds_reservationsKept (g : SegNo) : ReservationsKept (execSweepThatPollsNoSlotEnds g) :=
  event_reservationsKept fun _ law _ ht => reserved_of_due ht law.endSweep

/-! ### Every command -/

theorem exec_reservationsKept (c : Instr) : ReservationsKept (exec c) := by
  cases c with
  | frameReceive bytes => exact execFrameReceive_reservationsKept bytes
  | replyTransmitted => exact execReplyTransmitted_reservationsKept
  | unknownKind kind r => exact execUnknownKind_reservationsKept kind r
  | collect r => exact execCollect_reservationsKept r
  | pay r => exact execPay_reservationsKept r
  | returnDrop r => exact execReturnDrop_reservationsKept r
  | doorStatus r => exact execDoorStatus_reservationsKept r
  | signOn r => exact execSignOn_reservationsKept r
  | signOff r => exact execSignOff_reservationsKept r
  | declare r => exact execDeclare_reservationsKept r
  | sessionStatus r => exact execSessionStatus_reservationsKept r
  | sweep r => exact execSweep_reservationsKept r
  | sweepEnd r => exact execSweepEnd_reservationsKept r
  | fetchNotice r => exact execFetchNotice_reservationsKept r
  | revoke r => exact execRevoke_reservationsKept r
  | reissue r => exact execReissue_reservationsKept r
  | loadCourier r => exact execLoadCourier_reservationsKept r
  | removeCourier r => exact execRemoveCourier_reservationsKept r
  | loadReturn r => exact execLoadReturn_reservationsKept r
  | removeReturn r => exact execRemoveReturn_reservationsKept r
  | settle r => exact execSettle_reservationsKept r
  | queryCompartment r => exact execQueryCompartment_reservationsKept r
  | clear r => exact execClear_reservationsKept r
  | fetchAlarm r => exact execFetchAlarm_reservationsKept r
  | broadcast r => exact execBroadcast_reservationsKept r
  | unlockKey r => exact execUnlockKey_reservationsKept r
  | endService r => exact execEndService_reservationsKept r
  | loadMap r => exact execLoadMap_reservationsKept r
  | loadTariff r => exact execLoadTariff_reservationsKept r
  | loadSlot r => exact execLoadSlot_reservationsKept r
  | setBudget r => exact execSetBudget_reservationsKept r
  | setHold r => exact execSetHold_reservationsKept r
  | setEnables r => exact execSetEnables_reservationsKept r
  | seedGenerator r => exact execSeedGenerator_reservationsKept r
  | setKeys r => exact execSetKeys_reservationsKept r
  | withdraw r => exact execWithdraw_reservationsKept r
  | reinstate r => exact execReinstate_reservationsKept r
  | restart r => exact execRestart_reservationsKept r
  | blank r => exact execBlank_reservationsKept r
  | reset cause straps => exact execReset_reservationsKept cause straps
  | blankStart straps => exact execBlankStart_reservationsKept straps
  | clockTick => exact execClockTick_reservationsKept
  | minuteBoundary => exact execMinuteBoundary_reservationsKept
  | quoteExpiry c => exact execQuoteExpiry_reservationsKept c
  | lockoutDeadline k => exact execLockoutDeadline_reservationsKept k
  | inactivityDeadline k => exact execInactivityDeadline_reservationsKept k
  | energiseDeadline c => exact execEnergiseDeadline_reservationsKept c
  | confirmDeadline c => exact execConfirmDeadline_reservationsKept c
  | strikeAgeing c => exact execStrikeAgeing_reservationsKept c
  | ajarDeadline c => exact execAjarDeadline_reservationsKept c
  | kioskIdleDeadline => exact execKioskIdleDeadline_reservationsKept
  | unlockDeadline => exact execUnlockDeadline_reservationsKept
  | quietSweepStart g => exact execQuietSweepStart_reservationsKept g
  | pollOutcome g heard => exact execPollOutcome_reservationsKept g heard
  | sweepIssue k => exact execSweepIssue_reservationsKept k
  | sweepThatPollsNoSlotEnds g => exact execSweepThatPollsNoSlotEnds_reservationsKept g
  | lossOfMainPower interrupted => exact execLossOfMainPower_reservationsKept interrupted

/-- Settles O60: a step runs the front command, or idles. -/
theorem reservationsAreKept : Obligations.ReservationsAreKept := by
  intro s t agree run
  have law := (reserved_iff s).mpr agree
  refine (reserved_iff t).mp ?_
  unfold step at run
  split at run
  next c rest _ => exact exec_reservationsKept c { s with pending := rest } t (law.same rfl) run
  next => cases run; exact law

end Sys2Proof.Machine

/-! The step, and the taking of frames (R208 to R211, R29): what a step runs, what is taken and what is not, and the
requests that are permitted to no one or not to their source. -/

namespace Sys2Proof.Machine

/-! ### The step and the queue of commands -/

/-- Settles O1: the queue of the state that a step runs on is its rest. -/
theorem stepRunsFrontCommand : Obligations.StepRunsFrontCommand := fun _ _ _ => rfl

/-- Settles O2: with an empty queue a step has no command to run. -/
theorem idleStepChangesNothing : Obligations.IdleStepChangesNothing := fun s empty => by
  unfold step
  rw [empty]

/-! ### What is not taken -/

/-- An unknown kind is taken as a request of its kind code (R211). -/
theorem unknownKind_request {kind : Byte} (unknown : unknownKindCode kind = true) (r : Request) (s : State) :
    exec (.unknownKind kind r) s = request (BitVec.ofNat 8 kind.toNat) r s fun s => refuse s .notPermitted := by
  have code : BitVec.ofNat 8 kind.toNat = kind := by simp
  rw [code]
  exact if_pos (by simpa [unknownKindCode] using unknown)

/-- Every request command is taken as one request of its kind (R210). -/
theorem exec_request {c : Instr} {kind : Nat} {r : Request} (command : kindOf c = some (kind, r)) :
    ∃ own, ∀ s, exec c s = request (BitVec.ofNat 8 kind) r s own := by
  cases c with
  | unknownKind code r =>
    obtain ⟨unknown, same⟩ := Option.ite_none_right_eq_some.mp command
    cases same
    exact ⟨_, unknownKind_request unknown r⟩
  | _ => unfold exec; cases command <;> exact ⟨_, fun _ => rfl⟩

/-- A request that is not ready stays where it is (R210; log 2). -/
theorem request_waits {kind : Nat} {r : Request} {s : State} (waits : ¬ Ready kind r s) (own : State → Answer) :
    request (BitVec.ofNat 8 kind) r s own = .next s := by
  refine event_none ?_
  rw [Option.map_eq_none_iff]
  cases frame : takeFrame { kind := BitVec.ofNat 8 kind, request := r } s with
  | none => rfl
  | some t =>
    obtain ⟨run, room, front, -⟩ := takeFrame_some frame
    exact absurd ⟨run, room, front⟩ waits

/-- Without main power only power-on does anything (R29; log 30). -/
theorem exec_unpowered {c : Instr} {s : State} (unpowered : s.run = .unpowered)
    (off : ∀ straps, c ≠ .reset .powerOn straps) : exec c s = .next s := by
  cases command : kindOf c with
  | some taken =>
    obtain ⟨own, run⟩ := exec_request command
    rw [run, request_waits (fun ready => absurd (unpowered.symm.trans ready.1) (by decide))]
  | none =>
    cases c with
    | unknownKind kind r =>
      have known : unknownKindCode kind ≠ true := fun known => by
        rw [kindOf, if_pos known] at command; cases command
      exact if_neg (by simpa [unknownKindCode] using known)
    | reset cause straps =>
      have never : resetDue cause s = false := by
        cases cause with
        | pin => simp [resetDue, unpowered]
        | powerOn => exact absurd rfl (off straps)
        | requested => simp [resetDue, unpowered]
      simp [exec, execReset, never]
    | blankStart straps => simp [exec, execBlankStart, unpowered]
    | lossOfMainPower interrupted => simp [exec, execLossOfMainPower, unpowered]
    | frameReceive | replyTransmitted | clockTick | minuteBoundary | quoteExpiry | lockoutDeadline | inactivityDeadline
    | energiseDeadline | confirmDeadline | strikeAgeing | ajarDeadline | kioskIdleDeadline | unlockDeadline
    | quietSweepStart | pollOutcome | sweepIssue | sweepThatPollsNoSlotEnds =>
      unfold exec; exact event_unpowered unpowered _
    | _ => cases command

/-- Settles O4: a request waits, and every other command is an event or is not due without power. -/
theorem nothingTakenUnlessDue : Obligations.NothingTakenUnlessDue := by
  refine ⟨fun c kind r s command waits => ?_, fun c s unpowered off => exec_unpowered unpowered off⟩
  obtain ⟨own, run⟩ := exec_request command
  rw [run, request_waits waits own]

/-! ### The bytes of a frame (R222) -/

theorem sourceOf_sourceCode (source : Source) : sourceOf (sourceCode source) = some source := by
  cases source with
  | kiosk k => exact dif_pos k.isLt
  | _ => rfl

theorem sourceCode_lt (source : Source) : sourceCode source < 16 := by
  cases source with
  | kiosk k => exact k.isLt.trans (by decide)
  | _ => decide

theorem addressByte_toNat (bank : BankId) (source : Source) :
    (addressByte bank source).toNat = bank.val * 16 + sourceCode source := by
  have code := sourceCode_lt source
  have fits : bank.val * 16 + sourceCode source < 2 ^ 8 := by omega
  rw [addressByte, BitVec.toNat_ofNat, Nat.mod_eq_of_lt fits]

/-- A number of two bytes, byte by byte. -/
theorem be_two (v : Nat) : be 2 v = [BitVec.ofNat 8 (v / 256 ^ 1), BitVec.ofNat 8 (v / 256 ^ 0)] := rfl

/-- What was framed is read back, where its length lies within the bounds of R208. -/
theorem frameContent_frameBytes {content : List Byte} (short : 4 ≤ content.length) (long : content.length ≤ 244) :
    frameContent (frameBytes content) = some content := by
  have length : ofBytes (be 2 content.length) = content.length := by rw [ofBytes_be]; omega
  have check (head : List Byte) : ofBytes (be 2 (crc16 head).toNat) = (crc16 head).toNat := by
    rw [ofBytes_be]; exact Nat.mod_eq_of_lt (crc16 head).isLt
  rw [be_two] at length
  unfold frameBytes
  dsimp only
  rw [be_two]
  generalize BitVec.ofNat 8 (content.length / 256 ^ 1) = l1, BitVec.ofNat 8 (content.length / 256 ^ 0) = l0 at length
  simp only [List.cons_append, List.nil_append, frameContent, length, List.take_left, List.drop_left]
  have whole : (be 2 (crc16 (l1 :: l0 :: content)).toNat).take 2 = be 2 (crc16 (l1 :: l0 :: content)).toNat :=
    List.take_of_length_le (by rw [length_be])
  rw [whole, check, if_pos]
  refine ⟨trivial, short, long, ?_, rfl⟩
  rw [List.length_append, length_be]

/-- Settles O5: the content of the frame is read back, and then its fields. -/
theorem requestFrameIsReadBack : Obligations.RequestFrameIsReadBack := by
  intro kind r fits
  have body : r.body.length ≤ 240 := of_decide_eq_true fits
  have code := sourceCode_lt r.source
  have source : (r.bank.val * 16 + sourceCode r.source) % 16 = sourceCode r.source := by omega
  have bank : (r.bank.val * 16 + sourceCode r.source) / 16 = r.bank.val := by omega
  have tag : ofBytes (be 2 r.tag.toNat) = r.tag.toNat := by
    rw [ofBytes_be]; exact Nat.mod_eq_of_lt r.tag.isLt
  rw [be_two] at tag
  unfold parseFrame requestBytes
  rw [frameContent_frameBytes (by simp) (by simp; omega), be_two]
  simp only [List.cons_append, List.nil_append, addressByte_toNat, source, sourceOf_sourceCode, bank, tag]
  simp

/-! ### The trunk queues -/

/-- The address check in the words of R209 (log 21). -/
theorem addressed_iff (s : State) (f : Frame) : addressed s f = true ↔
    f.request.bank ≠ 15 ∧ f.request.bank = s.bankId
      ∨ f.request.bank = 15 ∧ f.request.source = .station ∧ f.kind = 22 := by
  unfold addressed
  have kind : broadcastKind = 22 := rfl
  by_cases all : f.request.bank = 15 <;> simp [all, kind]

/-- Settles O6: a frame joins, or is ignored; a reply leaves, or there is none. -/
theorem trunkQueuesMove : Obligations.TrunkQueuesMove := by
  refine ⟨fun bytes f s settled power parsed => ?_, fun bytes s parsed => ?_,
    fun o rest s settled power waiting => ?_, fun s empty => ?_⟩
  · unfold exec execFrameReceive
    simp only [← addressed_iff]
    by_cases joins : addressed s f = true ∧ s.receive.length < 4
    · rw [if_pos joins]
      exact event_still (t := { s with receive := s.receive ++ [f] }) settled power
        (by simp only [parsed]; exact if_pos joins) rfl rfl rfl rfl rfl rfl
    · rw [if_neg joins]
      exact event_none (by simp only [parsed]; exact if_neg joins)
  · unfold exec execFrameReceive
    exact event_none (by simp only [parsed])
  · unfold exec execReplyTransmitted
    exact event_still (t := { s with transmit := rest, trunkOut := replyBytes o }) settled power
      (by simp only [waiting]) rfl rfl rfl rfl rfl rfl
  · unfold exec execReplyTransmitted
    exact event_none (by simp only [empty])

/-! ### Sources that a kind is not permitted to -/

/-- A request that is answered NOT_PERMITTED, with no other effect. -/
def Forbidden (own : State → Answer) : Prop :=
  ∀ s, ∃ body, own s = { state := s, status := .notPermitted, body }

theorem fromKiosk_other {r : Request} (source : ∀ k, r.source ≠ .kiosk k) (s : State) (own : KioskNo → Answer) :
    fromKiosk r s own = refuse s .notPermitted := by
  unfold fromKiosk
  split
  next k kiosk => exact absurd kiosk (source k)
  next => rfl

theorem forbidden_customer {α : Type} {r : Request} (source : ∀ k, r.source ≠ .kiosk k) {parsed : Option α}
    {own : State → KioskNo → α → Answer} : Forbidden fun s => customer r parsed s (own s) :=
  fun s => ⟨[], fromKiosk_other source s _⟩

/-- A Pay carries its echo, where its body can be read (R73; log 19). -/
theorem forbidden_pay {r : Request} (source : ∀ k, r.source ≠ .kiosk k) {parsed : Option PayFields}
    {own : State → KioskNo → PayFields → Answer} :
    Forbidden fun s => echoPay parsed (customer r parsed s (own s)) := fun s => by
  have refused : customer r parsed s (own s) = refuse s .notPermitted := fromKiosk_other source s _
  dsimp only
  rw [refused]
  cases parsed with
  | none => exact ⟨[], rfl⟩
  | some p => exact ⟨payEcho p, rfl⟩

theorem forbidden_courier {α : Type} {r : Request} (source : ∀ k, r.source ≠ .kiosk k) {parsed : Option α}
    {own : KioskNo → α → State → Answer} : Forbidden fun s => courierRequest r parsed s own :=
  fun s => ⟨[], courierRequest_not_kiosk source parsed s own⟩

theorem forbidden_backend {r : Request} (source : r.source ≠ .backend) {own : State → Answer} :
    Forbidden fun s => fromBackend r s (own s) := fun _ => ⟨[], if_neg source⟩

theorem forbidden_staff {α : Type} {r : Request} (backend : r.source ≠ .backend) (service : r.source ≠ .service)
    {parsed : Option α} {own : α → State → Answer} : Forbidden fun s => staffRequest r parsed s own := fun s => by
  refine ⟨[], ?_⟩
  unfold staffRequest
  split
  next source => exact absurd source backend
  next source => exact absurd source service
  next => rfl

theorem forbidden_service {r : Request} {source : Source} (other : r.source ≠ source) {own : State → Answer} :
    Forbidden fun s => if r.source = source then own s else refuse s .notPermitted := fun _ => ⟨[], if_neg other⟩

/-- A kind that is not permitted to its source is refused by its own source check (R211). -/
theorem exec_forbidden {c : Instr} {kind : Nat} {r : Request} (command : kindOf c = some (kind, r))
    (forbidden : permitted kind r.source = false) :
    ∃ own, Forbidden own ∧ ∀ s, exec c s = request (BitVec.ofNat 8 kind) r s own := by
  have not_kiosk (few : 1 ≤ kind ∧ kind ≤ 10) (k : KioskNo) : r.source ≠ .kiosk k := fun source => by
    rw [source] at forbidden; simp [permitted] at forbidden; omega
  have not_backend (some : 11 ≤ kind ∧ kind ≤ 21) : r.source ≠ .backend := fun source => by
    rw [source] at forbidden; simp [permitted] at forbidden; omega
  have not_station (one : kind = 22) : r.source ≠ .station := fun source => by
    rw [source] at forbidden; simp [permitted] at forbidden; omega
  have not_service (some : 19 ≤ kind ∧ kind ≤ 21 ∨ 23 ≤ kind ∧ kind ≤ 36) : r.source ≠ .service := fun source => by
    rw [source] at forbidden; simp [permitted] at forbidden; omega
  cases c with
  | unknownKind code r =>
    obtain ⟨unknown, same⟩ := Option.ite_none_right_eq_some.mp command
    cases same
    exact ⟨_, fun _ => ⟨[], rfl⟩, unknownKind_request unknown r⟩
  | collect | returnDrop | doorStatus =>
    unfold exec; cases command; exact ⟨_, forbidden_customer (not_kiosk (by decide)), fun _ => rfl⟩
  | pay => unfold exec; cases command; exact ⟨_, forbidden_pay (not_kiosk (by decide)), fun _ => rfl⟩
  | signOn | signOff | declare | sessionStatus | sweep | sweepEnd =>
    unfold exec; cases command; exact ⟨_, forbidden_courier (not_kiosk (by decide)), fun _ => rfl⟩
  | fetchNotice | revoke | reissue | loadCourier | removeCourier | loadReturn | removeReturn | settle =>
    unfold exec; cases command; exact ⟨_, forbidden_backend (not_backend (by decide)), fun _ => rfl⟩
  | queryCompartment | clear | fetchAlarm =>
    unfold exec; cases command
    exact ⟨_, forbidden_staff (not_backend (by decide)) (not_service (by decide)), fun _ => rfl⟩
  | broadcast => unfold exec; cases command; exact ⟨_, forbidden_service (not_station rfl), fun _ => rfl⟩
  | unlockKey | endService | loadMap | loadTariff | loadSlot | setBudget | setHold | setEnables | seedGenerator
  | setKeys | withdraw | reinstate | restart | blank =>
    unfold exec; cases command; exact ⟨_, forbidden_service (not_service (by decide)), fun _ => rfl⟩
  | _ => cases command

/-- A ready request that is refused so is answered, with no other effect. -/
theorem Forbidden.replied {kind : Nat} {r : Request} {s : State} {own : State → Answer} (h : Forbidden own)
    (ready : Ready kind r s) (settled : Settled s) :
    ∃ body, Completes (request (BitVec.ofNat 8 kind) r s own) (Replied kind r .notPermitted body s.kiosks s) := by
  obtain ⟨body, answer⟩ := h (taken r s)
  exact ⟨body, request_replied ready settled own answer⟩

/-- Settles O7: each kind checks its source. -/
theorem unpermittedSourceRefused : Obligations.UnpermittedSourceRefused := by
  intro c kind r s command ready settled forbidden
  obtain ⟨own, refused, run⟩ := exec_forbidden command forbidden
  obtain ⟨body, t, next, strikes, same⟩ := refused.replied ready settled
  exact ⟨t, (run s).trans next, body, same, strikes⟩

/-- Settles O8: an unknown kind is refused to every source. -/
theorem unknownKindRefused : Obligations.UnknownKindRefused := by
  intro kind r s unknown ready settled
  obtain ⟨t, next, strikes, same⟩ := request_replied (kiosks := s.kiosks) ready settled (fun s => refuse s .notPermitted) rfl
  exact ⟨t, (unknownKind_request unknown r s).trans next, same, strikes⟩

end Sys2Proof.Machine

/-! The Service Key Checker (R216 to R218), Restart and Blank (R220, R221) and Fetch Notice (R214): requests that are
not a kiosk's and leave the segments and the alarms alone. -/

namespace Sys2Proof.Machine

/-- Nothing is left of a body without fields (R211). -/
theorem bodyEmpty_of_nil {bs : List Byte} (empty : bs = []) : bodyEmpty bs = some () := by rw [empty]; rfl

section service

variable {kind : Nat} {r : Request} {s : State} {own : State → Answer} {status : Status} {body : List Byte}
  {skc : SkcState} {deadline : Option Nat}

/-- A request from SERVICE whose owner changes at most the SKC, the run mode and the retained state beside the concourse
and the enables. -/
theorem request_changes_service {ret : Retained} {run : RunMode} (ready : Ready kind r s) (source : r.source = .service)
    (settled : Settled s)
    (answer : own { s with receive := s.receive.tail } =
      { state := { s with receive := s.receive.tail, ret, skc, unlockDeadline := deadline, run }, status, body })
    (enables : ret.enables = s.ret.enables) (concourse : ret.concourse = s.ret.concourse) :
    request (BitVec.ofNat 8 kind) r s own =
      .next (resealed { answered kind r status body s with ret, skc, unlockDeadline := deadline, run }) := by
  have not_kiosk := not_kiosk_of_service source
  rw [request_untouched ready not_kiosk settled own answer enables concourse rfl rfl rfl rfl]
  simp only [resealed, answered, idleAfter_not_kiosk not_kiosk]
  rfl

/-- One that changes at most the SKC and the run mode leaves the check word in step. -/
theorem request_changes_run {run : RunMode} (ready : Ready kind r s) (source : r.source = .service) (settled : Settled s)
    (answer : own { s with receive := s.receive.tail } =
      { state := { s with receive := s.receive.tail, skc, unlockDeadline := deadline, run }, status, body }) :
    request (BitVec.ofNat 8 kind) r s own =
      .next { answered kind r status body s with skc, unlockDeadline := deadline, run } := by
  rw [request_changes_service (ret := s.ret) ready source settled answer rfl rfl]
  exact congrArg _ (resealed_eq (settled.running ready.1).1)

/-- One that changes at most the SKC. -/
theorem request_changes_skc (ready : Ready kind r s) (source : r.source = .service) (settled : Settled s)
    (answer : own { s with receive := s.receive.tail } =
      { state := moveSkc skc deadline { s with receive := s.receive.tail }, status, body }) :
    request (BitVec.ofNat 8 kind) r s own =
      .next { answered kind r status body s with skc, unlockDeadline := deadline } :=
  request_changes_run (run := s.run) ready source settled answer

/-- One that changes nothing. -/
theorem request_changes_nothing (ready : Ready kind r s) (source : r.source = .service) (settled : Settled s)
    (answer : own { s with receive := s.receive.tail } =
      { state := { s with receive := s.receive.tail }, status, body }) :
    request (BitVec.ofNat 8 kind) r s own = .next (answered kind r status body s) :=
  request_changes_skc (skc := s.skc) (deadline := s.unlockDeadline) ready source settled answer

end service

/-! ### Unlock Key (R217) -/

theorem flatWord_iff (w : BitVec 32) : flatWord w = true ↔ w = 0 ∨ w = BitVec.allOnes 32 := by
  simp only [flatWord, Bool.or_eq_true, decide_eq_true_eq]

/-- A word is correct at its index where it is the stored word and not flat. -/
theorem correctWord_iff {s : State} {n : Fin 4} {index : Nat} {word : BitVec 32} :
    correctWord s n index word = true ↔
      index = n.val ∧ word ≠ 0 ∧ word ≠ BitVec.allOnes 32 ∧ ∃ keys, s.ret.keys = some keys ∧ word = look keys n := by
  have flat : flatWord word = false ↔ word ≠ 0 ∧ word ≠ BitVec.allOnes 32 := by
    rw [← Bool.not_eq_true, flatWord_iff, not_or]
  unfold correctWord
  cases s.ret.keys <;> simp [flat, and_assoc]

section unlockKey

variable {s : State} {n : Fin 4} {index : Nat} {word : BitVec 32}

theorem unlockWith_correct (expected : s.skc.expected = some n) (correct : correctWord s n index word = true) :
    unlockWith index word s = { state := collectWord n s, status := .accepted, body := be 1 (n.val + 1) } := by
  simp only [unlockWith, expected, correct, if_true]

theorem unlockWith_wrong (expected : s.skc.expected = some n) (wrong : ¬ correctWord s n index word = true) :
    unlockWith index word s = bar s := by
  simp only [unlockWith, expected, wrong, Bool.false_eq_true, if_false]

theorem unlockWith_noKeys (skc : s.skc = .noKeys) : unlockWith index word s = refuse s .badState := by
  simp [unlockWith, skc, SkcState.expected]

theorem unlockWith_unlocked (skc : s.skc = .unlocked) :
    unlockWith index word s = refuse (moveSkc s.skc (some (s.elapsed + 600)) s) .badState := by
  simp [unlockWith, skc, SkcState.expected, extendUnlock, moveSkc]

theorem unlockWith_barred (skc : s.skc = .barred) :
    unlockWith index word s = refuse (moveSkc s.skc none s) .maintenanceLocked := by
  simp [unlockWith, skc, SkcState.expected, bar]

end unlockKey

/-- A well-formed Unlock Key from SERVICE comes to the SKC. -/
theorem execUnlockKey_own {r : Request} {index : Nat} {word : BitVec 32} (source : r.source = .service)
    (body : bodyUnlockKey r.body = some (index, word)) (s : State) :
    ∃ own, exec (.unlockKey r) s = request 23 r s own ∧ ∀ t, own t = unlockWith index word t := by
  unfold exec execUnlockKey
  refine ⟨_, rfl, fun t => ?_⟩
  rw [if_pos source, body]; rfl

/-- The four states that expect a word, with what the correct word moves the SKC to. -/
theorem collectWord_table {skc next : SkcState} {n : Fin 4} {ahead : Nat}
    (row : (skc, n, next, ahead) ∈ [(SkcState.idle, (0 : Fin 4), SkcState.collected1, 60),
      (.collected1, 1, .collected2, 60), (.collected2, 2, .collected3, 60), (.collected3, 3, .unlocked, 600)]) :
    skc.expected = some n ∧ ∀ s, collectWord n s = moveSkc next (some (s.elapsed + ahead)) s := by
  simp only [List.mem_cons, List.not_mem_nil, or_false, Prod.mk.injEq] at row
  obtain ⟨rfl, rfl, rfl, rfl⟩ | ⟨rfl, rfl, rfl, rfl⟩ | ⟨rfl, rfl, rfl, rfl⟩ | ⟨rfl, rfl, rfl, rfl⟩ := row
  all_goals exact ⟨rfl, fun _ => rfl⟩

theorem expected_table {skc : SkcState} {n : Fin 4}
    (row : (skc, n) ∈ [(SkcState.idle, (0 : Fin 4)), (.collected1, 1), (.collected2, 2), (.collected3, 3)]) :
    skc.expected = some n := by
  simp only [List.mem_cons, List.not_mem_nil, or_false, Prod.mk.injEq] at row
  obtain ⟨rfl, rfl⟩ | ⟨rfl, rfl⟩ | ⟨rfl, rfl⟩ | ⟨rfl, rfl⟩ := row
  all_goals rfl

/-! ### End Service and the admission of maintenance kinds (R216) -/

theorem execEndService_own {r : Request} (source : r.source = .service) (empty : r.body = []) (s : State) :
    ∃ own, exec (.endService r) s = request 24 r s own ∧ ∀ t, own t = endService t := by
  unfold exec execEndService
  refine ⟨_, rfl, fun t => ?_⟩
  rw [if_pos source, bodyEmpty_of_nil empty]; rfl

theorem maintenance_admits {α : Type} {r : Request} {parsed : Option α} (source : r.source = .service)
    (fits : parsed.isSome = true) (own : α → State → Answer) :
    ∃ rest, ∀ t, maintenance r parsed t own = admitted t rest := by
  obtain ⟨x, rfl⟩ := Option.isSome_iff_exists.mp fits
  exact ⟨own x, fun t => if_pos source⟩

theorem staffRequest_admits {α : Type} {r : Request} {parsed : Option α} (source : r.source = .service)
    (fits : parsed.isSome = true) (own : α → State → Answer) :
    ∃ rest, ∀ t, staffRequest r parsed t own = admitted t rest := by
  obtain ⟨x, rfl⟩ := Option.isSome_iff_exists.mp fits
  exact ⟨own x, fun t => by rw [staffRequest, source]; rfl⟩

/-- Every maintenance kind beside the SKC's own two comes to the SKC's admission, once its body has been read. -/
theorem exec_admits {c : Instr} {kind : Nat} {r : Request} (command : kindOf c = some (kind, r))
    (source : r.source = .service) (kinds : 19 ≤ kind ∧ kind ≤ 21 ∨ 25 ≤ kind ∧ kind ≤ 36) (fits : bodyFits c = true) :
    ∃ own, (∀ s, exec c s = request (BitVec.ofNat 8 kind) r s own) ∧ ∃ rest, ∀ t, own t = admitted t rest := by
  cases c with
  | queryCompartment | clear | fetchAlarm =>
    unfold exec; cases command
    exact ⟨_, fun _ => rfl, staffRequest_admits source fits _⟩
  | loadMap | loadTariff | loadSlot | setBudget | setHold | setEnables | seedGenerator | setKeys | withdraw | reinstate
  | restart | blank =>
    unfold exec; cases command
    exact ⟨_, fun _ => rfl, maintenance_admits source fits _⟩
  | _ => cases fits

theorem admitted_locked {s : State} (locked : s.skc = .idle ∨ s.skc = .barred) (own : State → Answer) :
    admitted s own = refuse s .maintenanceLocked := by
  unfold admitted
  obtain skc | skc := locked <;> rw [skc]

theorem admitted_collected {s : State} (collected : s.skc = .collected1 ∨ s.skc = .collected2 ∨ s.skc = .collected3)
    (own : State → Answer) : admitted s own = bar s := by
  unfold admitted
  obtain skc | skc | skc := collected <;> rw [skc] <;> rfl

/-- Settles O33: Unlock Key by the word, End Service by the state, and the other kinds by their admission. -/
theorem skcTable : Obligations.SkcTable := by
  refine ⟨fun r s index word ready source body settled => ?_, fun r s ready source empty settled => ?_,
    fun c kind r s command ready source settled kinds fits => ?_⟩
  · obtain ⟨own, run, answer⟩ := execUnlockKey_own source body s
    have moves {skc : SkcState} {deadline : Option Nat} {status : Status} {body : List Byte}
        (h : unlockWith index word { s with receive := s.receive.tail } =
          { state := moveSkc skc deadline { s with receive := s.receive.tail }, status, body }) :
        exec (.unlockKey r) s = .next { answered 23 r status body s with skc, unlockDeadline := deadline } :=
      run.trans (request_changes_skc (kind := 23) ready source settled ((answer _).trans h))
    refine ⟨fun n next ahead keys row stored place matched zero ones => ?_, fun n row wrong => ?_,
      fun skc => ?_, fun skc => moves (unlockWith_unlocked skc), fun skc => moves (unlockWith_barred skc)⟩
    · obtain ⟨expected, moved⟩ := collectWord_table row
      have correct := (correctWord_iff (s := { s with receive := s.receive.tail })).mpr
        ⟨place, zero, ones, keys, stored, matched⟩
      refine moves ((unlockWith_correct (s := { s with receive := s.receive.tail }) expected correct).trans ?_)
      rw [moved]
    · have incorrect : ¬ correctWord { s with receive := s.receive.tail } n index word = true := fun correct => by
        obtain ⟨place, zero, ones, keys, stored, matched⟩ := correctWord_iff.mp correct
        obtain misplaced | flat | flat | unmatched := wrong
        · exact misplaced place
        · exact zero flat
        · exact ones flat
        · exact unmatched keys stored matched
      exact moves (unlockWith_wrong (s := { s with receive := s.receive.tail }) (expected_table row) incorrect)
    · exact run.trans (request_changes_nothing (kind := 23) ready source settled
        ((answer _).trans (unlockWith_noKeys skc)))
  · obtain ⟨own, run, answer⟩ := execEndService_own source empty s
    have own := answer { s with receive := s.receive.tail }
    rw [run]
    refine ⟨fun skc => ?_, fun skc => ?_, fun skc => ?_⟩
    · refine request_changes_nothing (kind := 24) ready source settled (own.trans ?_)
      unfold endService
      obtain skc | skc := skc <;> simp only [skc]
    · refine request_changes_skc (kind := 24) ready source settled (own.trans ?_)
      simp only [endService, skc]
    · refine request_changes_skc (kind := 24) ready source settled (own.trans ?_)
      unfold endService
      obtain skc | skc | skc | skc := skc <;> simp only [skc] <;> rfl
  · obtain ⟨own, run, rest, answer⟩ := exec_admits command source kinds fits
    have own := answer { s with receive := s.receive.tail }
    rw [run]
    refine ⟨fun locked => ?_, fun collected => ?_⟩
    · exact request_changes_nothing ready source settled
        (own.trans (admitted_locked (s := { s with receive := s.receive.tail }) locked rest))
    · exact request_changes_skc ready source settled
        (own.trans (admitted_collected (s := { s with receive := s.receive.tail }) collected rest))

/-! ### Set Keys (R218) -/

theorem any_flatWord_iff (keys : Vector (BitVec 32) 4) :
    keys.any flatWord = true ↔ ∃ i, look keys i = 0 ∨ look keys i = BitVec.allOnes 32 := by
  simp only [Vector.any_eq_true, flatWord_iff]
  exact ⟨fun ⟨i, bound, flat⟩ => ⟨⟨i, bound⟩, flat⟩, fun ⟨i, flat⟩ => ⟨i.val, i.isLt, flat⟩⟩

/-- Stored keys leave an admitted SKC in UNLOCKED with its deadline 600 s ahead. -/
theorem storeKeys_admitted {s : State} (skc : ServiceOpen s) (keys : Vector (BitVec 32) 4) (queue : List Frame) :
    storeKeys keys { s with receive := queue, unlockDeadline := (admittedState s).unlockDeadline } =
      { s with receive := queue, ret := { s.ret with keys := some keys }, skc := .unlocked,
               unlockDeadline := some (s.elapsed + 600) } := by
  obtain noKeys | unlocked := skc
  · simp [storeKeys, moveSkc, noKeys]
  · simp [storeKeys, admittedState, unlocked]

/-- Set Keys' answer for four words (R218). -/
def keysAnswer (keys : Vector (BitVec 32) 4) (s : State) : Answer :=
  if keys.any flatWord then refuse s .outOfRange
  else { state := storeKeys keys s, status := .accepted, body := [] }

theorem execSetKeys_own {r : Request} {s : State} {keys : Vector (BitVec 32) 4} (source : r.source = .service)
    (skc : ServiceOpen s) (body : bodySetKeys r.body = some keys) :
    ∃ own, exec (.setKeys r) s = request 32 r s own
      ∧ own { s with receive := s.receive.tail } =
        keysAnswer keys { s with receive := s.receive.tail, unlockDeadline := (admittedState s).unlockDeadline } := by
  unfold exec execSetKeys
  refine ⟨_, rfl, ?_⟩
  rw [maintenance_taken source body skc]
  rfl

/-- Settles O40: by whether a word is flat. -/
theorem setKeysStoresWords : Obligations.SetKeysStoresWords := by
  intro r s keys ready source skc settled body
  obtain ⟨own, run, answer⟩ := execSetKeys_own source skc body
  rw [run]
  refine ⟨fun flat => ?_, fun good => ?_⟩
  · rw [admittedState_eq]
    refine request_changes_deadline (kind := 32) ready (not_kiosk_of_service source) settled (answer.trans ?_)
    exact if_pos ((any_flatWord_iff keys).mpr flat)
  · have none_flat : ¬ keys.any flatWord = true := fun flat => by
      obtain ⟨i, zero | ones⟩ := (any_flatWord_iff keys).mp flat
      · exact (good i).1 zero
      · exact (good i).2 ones
    refine request_changes_service (kind := 32) (run := s.run) ready source settled (answer.trans ?_) rfl rfl
    rw [keysAnswer, if_neg none_flat, storeKeys_admitted skc]

/-! ### Restart and Blank (R220, R221) -/

theorem all_idle_iff (s : State) : s.ret.compartments.all (·.idle) = true ↔
    ∀ c, (s.comp c).state = .vacant ∨ (s.comp c).state = .unserved := by
  simp only [Vector.all_eq_true, Compartment.idle_iff]
  exact ⟨fun idle c => idle c.val c.isLt, fun idle i bound => idle ⟨i, bound⟩⟩

/-- Blank's answer (R221). -/
def blankAnswer (s : State) : Answer :=
  if s.ret.compartments.all (·.idle) then
    { state := { s with run := .blankPending }, status := .accepted, body := [] }
  else refuse s .held

theorem execRestart_own {r : Request} {s : State} (source : r.source = .service) (skc : ServiceOpen s)
    (empty : r.body = []) :
    ∃ own, exec (.restart r) s = request 35 r s own
      ∧ own { s with receive := s.receive.tail } =
        { state := { s with receive := s.receive.tail, unlockDeadline := (admittedState s).unlockDeadline
                            run := .restartPending }
          status := .accepted, body := [] } := by
  unfold exec execRestart
  refine ⟨_, rfl, ?_⟩
  rw [maintenance_taken source (bodyEmpty_of_nil empty) skc]

theorem execBlank_own {r : Request} {s : State} (source : r.source = .service) (skc : ServiceOpen s)
    (empty : r.body = []) :
    ∃ own, exec (.blank r) s = request 36 r s own
      ∧ own { s with receive := s.receive.tail } =
        blankAnswer { s with receive := s.receive.tail, unlockDeadline := (admittedState s).unlockDeadline } := by
  unfold exec execBlank
  refine ⟨_, rfl, ?_⟩
  rw [maintenance_taken source (bodyEmpty_of_nil empty) skc]
  rfl

/-- Settles O42: each is admitted and accepted; from then on the part does not run. -/
theorem restartAndBlankAccepted : Obligations.RestartAndBlankAccepted := by
  refine ⟨fun r s ready source skc settled empty => ?_, fun r s ready source skc settled empty => ?_,
    fun kind r s waiting ready => ?_⟩
  · obtain ⟨own, run, answer⟩ := execRestart_own source skc empty
    rw [run, admittedState_eq]
    exact request_changes_run (kind := 35) ready source settled answer
  · obtain ⟨own, run, answer⟩ := execBlank_own source skc empty
    rw [run, admittedState_eq]
    by_cases idle : s.ret.compartments.all (·.idle) = true
    · rw [if_pos ((all_idle_iff s).mp idle)]
      exact request_changes_run (kind := 36) ready source settled (answer.trans (if_pos idle))
    · rw [if_neg fun every => idle ((all_idle_iff s).mpr every)]
      exact request_changes_deadline (kind := 36) ready (not_kiosk_of_service source) settled
        (answer.trans (if_neg idle))
  · obtain pending | pending := waiting <;> exact absurd (pending.symm.trans ready.1) (by decide)

/-! ### Fetch Notice (R214) -/

/-- Fetch Notice's answer (R214). -/
def noticeAnswer (s : State) : Answer :=
  match s.ret.outbox with
  | oldest :: rest =>
    { state := { s with ret := { s.ret with outbox := rest } }, status := .accepted
      body := noticeField oldest ++ be 1 rest.length ++ be 1 s.ret.reservations }
  | [] => { state := s, status := .empty, body := be 1 s.ret.reservations }

theorem execFetchNotice_own {r : Request} (source : r.source = .backend) (empty : r.body = []) (s : State) :
    ∃ own, exec (.fetchNotice r) s = request 11 r s own ∧ ∀ t, own t = noticeAnswer t := by
  unfold exec execFetchNotice
  refine ⟨_, rfl, fun t => ?_⟩
  rw [fromBackend_body source (bodyEmpty_of_nil empty)]
  rfl

/-- Settles O23: by whether a notice waits. -/
theorem fetchNoticeTakesOldest : Obligations.FetchNoticeTakesOldest := by
  intro r s ready source empty settled
  have not_kiosk := not_kiosk_of_backend source
  obtain ⟨own, run, answer⟩ := execFetchNotice_own source empty s
  have own := answer { s with receive := s.receive.tail }
  rw [run]
  refine ⟨fun o rest waiting => ?_, fun none => ?_⟩
  · simp only [noticeAnswer, waiting] at own
    exact request_changes_ret (kind := 11) (deadline := s.unlockDeadline) ready not_kiosk settled own rfl rfl
  · simp only [noticeAnswer, none] at own
    exact request_changes_deadline (kind := 11) (deadline := s.unlockDeadline) ready not_kiosk settled own

end Sys2Proof.Machine

/-! Resets and the loss of main power (R27, R29, R31, R207, R219 to R221). -/

namespace Sys2Proof.Machine

/-! ### The start of sweeps -/

/-- The start of sweeps leaves every strike queue, active strike, sweep counter and rate mode. -/
theorem startSweeps_seg (g : SegNo) (s : State) :
    ((forEach startSweep s).seg g).queue = (s.seg g).queue ∧ ((forEach startSweep s).seg g).active = (s.seg g).active
      ∧ ((forEach startSweep s).seg g).rate = (s.seg g).rate
      ∧ ((forEach startSweep s).seg g).sweepCounter = (s.seg g).sweepCounter := by
  have list (gs : List SegNo) (s : State) :
      let t := gs.foldl (fun s h => startSweep h s) s
      (t.seg g).queue = (s.seg g).queue ∧ (t.seg g).active = (s.seg g).active ∧ (t.seg g).rate = (s.seg g).rate
        ∧ (t.seg g).sweepCounter = (s.seg g).sweepCounter := by
    induction gs generalizing s with
    | nil => exact ⟨rfl, rfl, rfl, rfl⟩
    | cons h gs ih =>
      obtain ⟨queue, active, rate, counter⟩ := ih (startSweep h s)
      exact ⟨queue.trans (by simp), active.trans (by simp), rate.trans (by simp), counter.trans (by simp)⟩
  exact list _ s

/-- After a blank start no slot is loaded, so the start of sweeps finds each segment as it leaves it (R177, R31). -/
theorem startSweeps_blank {s : State} (ret : s.ret = blankRetained) (elapsed : s.elapsed = 0)
    (segments : s.segments = Vector.replicate 4 freshSegment) : forEach startSweep s = s := by
  have step (g : SegNo) : startSweep g s = s := by
    have fresh : s.seg g = freshSegment := by rw [State.seg, segments]; exact look_replicate ..
    have same : s.setSeg g { s.seg g with sweepStart := s.elapsed, phase := .noSlots } = s := by
      rw [elapsed, fresh]
      show s.setSeg g freshSegment = s
      rw [← fresh, State.setSeg, State.seg, put_look]
    unfold startSweep; dsimp only
    rw [same, nextPolled_idle]
    intro i
    rw [ret]
    simp [blankRetained]
  have list (gs : List SegNo) : gs.foldl (fun s g => startSweep g s) s = s := by
    induction gs with
    | nil => rfl
    | cons g gs ih => rw [List.foldl_cons, step, ih]
  exact list _

/-! ### The blank start -/

/-- A blank start gives the state right after reset, with the straps read (R31, R209, R221). -/
theorem blankPart_eq (straps : BankId) (s : State) :
    blankPart straps s = { State.reset with
      bankId := straps, freeCounter := s.freeCounter, pending := s.pending } := by
  have boards : blankRetained.withdrawn.map freshBoard = Vector.replicate 64 (freshBoard false) := by
    apply vector_ext_look; intro i; simp [blankRetained]
  unfold blankPart coldStart
  rw [boards, startSweeps_blank rfl rfl rfl]
  rfl

/-! ### The restart -/

theorem priorOf?_state (p : PriorState) : priorOf? p.state = some p := by cases p <;> rfl

/-- A compartment in none of the four transient states of R27 is left as it stands. -/
theorem reconciled_rests {x : Compartment} (rests : x.state.transacting = false ∨ x.state = .reconcile) :
    reconciled x = x := by
  have none : priorOf? x.state = none := by
    cases state : x.state <;> simp_all [CompState.transacting, priorOf?]
  unfold reconciled
  rw [none]

theorem reconciled_transient {x : Compartment} {p : PriorState} (state : x.state = p.state) :
    reconciled x = { x with state := .reconcile, transient := x.transient.map fun t => { t with prior := some p } } := by
  unfold reconciled
  rw [state, priorOf?_state]

theorem restartPart_comp (straps : BankId) (s : State) (c : CompNo) :
    (restartPart straps s).comp c = reconciled (s.comp c) := by
  unfold restartPart coldStart
  rw [startSweeps_frame]
  exact look_map ..

/-- A cold start gives the values right after reset, but for what it is given, the boards, the SKC and the segments
that the start of sweeps works on (R220, R221). -/
theorem coldStart_eq (r : Retained) (straps : BankId) (alarms : List Alarm) (s : State) :
    ∃ segments, coldStart r straps alarms s = { State.reset with
      ret := r
      checkWord := Config.retentionCheck r
      segments := segments
      boards := r.withdrawn.map freshBoard
      alarms := alarms, attention := !alarms.isEmpty
      skc := if r.keys.isSome then .idle else .noKeys
      bankId := straps, freeCounter := s.freeCounter, pending := s.pending } :=
  ⟨_, startSweeps_frame _⟩

/-- A restart keeps the retained state beside the compartments, and resets the rest (R220, R30). -/
theorem restartPart_eq (straps : BankId) (s : State) :
    restartPart straps s = { State.reset with
      ret := (restartPart straps s).ret
      checkWord := Config.retentionCheck (restartPart straps s).ret
      segments := (restartPart straps s).segments
      boards := s.ret.withdrawn.map freshBoard
      alarms := [], attention := false
      skc := if s.ret.keys.isSome then .idle else .noKeys
      bankId := straps, freeCounter := s.freeCounter, pending := s.pending } := by
  obtain ⟨segments, eq⟩ := coldStart_eq (restarted s.ret) straps [] s
  unfold restartPart
  rw [eq]
  rfl

theorem restartPart_ret (straps : BankId) (s : State) : (restartPart straps s).ret = restarted s.ret := by
  unfold restartPart coldStart
  rw [startSweeps_frame]

theorem restartPart_seg (straps : BankId) (s : State) (g : SegNo) :
    ((restartPart straps s).seg g).queue = [] ∧ ((restartPart straps s).seg g).active = []
      ∧ ((restartPart straps s).seg g).rate = .full ∧ ((restartPart straps s).seg g).sweepCounter = 0 := by
  have fresh : look (Vector.replicate 4 freshSegment) g = freshSegment := look_replicate ..
  unfold restartPart coldStart
  obtain ⟨queue, active, rate, counter⟩ := startSweeps_seg g _
  refine ⟨queue.trans ?_, active.trans ?_, rate.trans ?_, counter.trans ?_⟩ <;> exact congrArg _ fresh

/-! ### Causes and power -/

theorem resetDue_iff (cause : ResetCause) (s : State) : resetDue cause s = true ↔
    cause = .pin ∧ s.run ≠ .unpowered ∨ cause = .powerOn ∧ s.run = .unpowered
      ∨ cause = .requested ∧ s.run = .restartPending ∧ s.transmit = [] := by
  cases cause <;> simp [resetDue]

/-- The word that an interrupted change leaves behind disagrees with the retained state (R29). -/
theorem disagreeingWord_ne (s : State) : disagreeingWord s ≠ Config.retentionCheck s.ret := by
  unfold disagreeingWord; dsimp only
  split
  next same => rw [same]; exact Nat.succ_ne_self _
  next free => exact free

/-- Settles O43: the restart field by field, the blank start, and the loss of power. -/
theorem resetsAndPower : Obligations.ResetsAndPower := by
  refine ⟨fun cause straps s due => ⟨fun agrees => ?_, fun disagrees => ?_⟩, fun straps s pending sent => ?_,
    fun s power => ?_, fun s power => ?_⟩
  · have run : exec (.reset cause straps) s = .next (restartPart straps s) := by
      simp only [exec, execReset, (resetDue_iff cause s).mpr due, resetPart, agrees, if_true]
    refine ⟨_, run, ?_, fun c rests => ?_, fun c p state => ?_, restartPart_seg straps s, restartPart_eq straps s⟩
    · rw [restartPart_ret]; rfl
    · rw [restartPart_comp, reconciled_rests rests]
    · rw [restartPart_comp, reconciled_transient state]
  · simp only [exec, execReset, (resetDue_iff cause s).mpr due, resetPart, disagrees, if_true, if_false, blankPart_eq]
  · simp only [exec, execBlankStart, pending, sent, and_self, if_true, blankPart_eq]
  · simp only [exec, execLossOfMainPower, power, Bool.false_eq_true, if_false]
  · refine ⟨{ s with run := .unpowered, checkWord := disagreeingWord s, freeCounter := s.freeCounter + 1 }, ?_, rfl,
      disagreeingWord_ne s⟩
    simp only [exec, execLossOfMainPower, power, if_false, if_true]

end Sys2Proof.Machine
